-- ==== Sys2Proof/Word.lean ====
section
/-! DEFINITION. The word types of the Zawden PL40 and their plainest arithmetic. -/

namespace Sys2Proof

/-- One byte of a telegram body or of the configuration record (R185, R214). -/
abbrev Byte := BitVec 8

/-- A 16-bit field: seg ids, lots, address masks, the CRC register. -/
abbrev Half := BitVec 16

/-- A 32-bit field: web positions (R1), panel ids. -/
abbrev Word := BitVec 32

/-- A position counter with its 16-bit fraction below the 32-bit dmm count (R1). -/
abbrev Counter := BitVec 48

/-- Division rounded up. A divisor of 0, which no rule reads, gives 0. -/
def ceilDiv (a b : Nat) : Nat := (a + b - 1) / b

end Sys2Proof
end

