-- ==== Sys2Proof/Syntax.lean ====
section
/-! DEFINITION. The commands of the PL40: one constructor per row of spec/opcode_table.json. The table gives
its rows no operands; a command carries as operand exactly what the outside world brings with the event
(log entry 2). A row that takes a telegram carries none: the telegram is the oldest entry of the receive
queue (R209). -/

namespace Sys2Proof

/-- The two roll arms of the UNWIND (R96). -/
inductive ArmName where
  | arm1
  | arm2
  deriving DecidableEq, Repr

/-- The two web encoders (R1): encoder 1 is the section infeed, encoder 2 the UNWIND's accumulator exit. -/
inductive EncoderName where
  | encoder1
  | encoder2
  deriving DecidableEq, Repr

/-- One command of the block. -/
inductive Instr where
  /-- POWER_ON_RESET (R183). -/
  | powerOnReset
  /-- POWER_ON_RESET_RELEASE (R183). -/
  | powerOnResetRelease
  /-- CONFIGURATION_READ_COMPLETE (R184): the bytes the configuration memory gave, or `none` when it does not answer. -/
  | configurationReadComplete (answer : Option (List Byte))
  /-- SENSOR_SCAN_COMPLETE (R124): the eight raw 12-bit samples, channel 0 first. -/
  | sensorScanComplete (samples : List (BitVec 12))
  /-- SENSOR_FAULT (R126) of one channel. -/
  | sensorFault (channel : Fin 8)
  /-- SENSOR_FAULT_CLEAR (R126) of one channel. -/
  | sensorFaultClear (channel : Fin 8)
  /-- READY_HEAT_ENTRY (R132). -/
  | readyHeatEntry
  /-- ZONE_CUT (R139) of one zone. -/
  | zoneCut (zone : Fin 4)
  /-- HEAT_CONTROL_BOUNDARY (R136, R137). -/
  | heatControlBoundary
  /-- PARK_TIMER_EXPIRY (R133). -/
  | parkTimerExpiry
  /-- RAMP_UPDATE (R38), with the levels of the three level inputs that no row of the table reports:
  web-present and the two gate position inputs (log entry 6). -/
  | rampUpdate (webPresent gatePass gateDivert : Bool)
  /-- PEER_ENTRY_LATE (R29) of one peer table entry, address 1 to 15. -/
  | peerEntryLate (address : Nat)
  /-- PEER_ENTRY_LOST (R29) of one peer table entry, address 1 to 15. -/
  | peerEntryLost (address : Nat)
  /-- PULSE_TIMER_EXPIRY (R25). -/
  | pulseTimerExpiry
  /-- JOIN_TIMER_EXPIRY (R190). -/
  | joinTimerExpiry
  /-- TRIP_TIMER_EXPIRY (R44). -/
  | tripTimerExpiry
  /-- ESTOP_INPUT (R41): the input takes a level, active or not. -/
  | estopInput (active : Bool)
  /-- ENCODER_EDGE (R1): one quadrature edge of one encoder, forward or reverse. -/
  | encoderEdge (encoder : EncoderName) (forward : Bool)
  /-- REG_LOST (R19). -/
  | regLost
  /-- MARK_INPUT (R15): the mark input takes a level, high or low; the configured polarity says which is active. -/
  | markInput (high : Bool)
  /-- STROKE_COMPLETE (R64). -/
  | strokeComplete
  /-- STALL_TIMER_EXPIRY (R64). -/
  | stallTimerExpiry
  /-- MOVE_TIMER_EXPIRY (R68). -/
  | moveTimerExpiry
  /-- CURRENT_LIMIT_DETECTION (R69): the comparator input has stayed active for so many microseconds. -/
  | currentLimitDetection (microseconds : Nat)
  /-- KNIFE_JAM (R70). -/
  | knifeJam
  /-- CUT_TIMER_EXPIRY (R158). -/
  | cutTimerExpiry
  /-- GATE_TIMER_EXPIRY (R161), with the two gate position inputs as they stand then. -/
  | gateTimerExpiry (gatePass gateDivert : Bool)
  /-- REVOLUTION_PULSE (R102): an arm's revolution input takes a level. -/
  | revolutionPulse (arm : ArmName) (active : Bool)
  /-- ARM_READY_CHANGE (R100): an arm's ready input takes a level. -/
  | armReadyChange (arm : ArmName) (active : Bool)
  /-- ARM_EMPTY (R101): an arm's empty input takes a level. -/
  | armEmpty (arm : ArmName) (active : Bool)
  /-- PASTE_TIMER_EXPIRY (R118). -/
  | pasteTimerExpiry
  /-- WEB_PRESENT_TIMER_EXPIRY (R119). -/
  | webPresentTimerExpiry
  /-- FRAME_RECEIVED (R204): the bits read on the bus after the start bit, stuff bits included, as far as
  reading went; `true` is recessive. -/
  | frameReceived (bits : List Bool)
  /-- TRIP_LATCH_TAKEN (R43). -/
  | tripLatchTaken
  /-- TRANSMISSION_BEGIN (R200): the bus is idle. -/
  | transmissionBegin
  /-- TRANSMISSION_COMPLETE (R200). -/
  | transmissionComplete
  /-- ARBITRATION_LOST (R201). -/
  | arbitrationLost
  /-- SENDER_FAULT (R202). -/
  | senderFault
  /-- BUS_OFF (R203). -/
  | busOff
  /-- RECOVERY_TIMER_EXPIRY (R203). -/
  | recoveryTimerExpiry
  /-- TRIP_CLEAR (R46). -/
  | tripClear
  /-- HOLD (R34). -/
  | hold
  /-- RELEASE (R34). -/
  | release
  /-- HANDOFF (R11 to R14). -/
  | handoff
  /-- SPEED_SET (R32). -/
  | speedSet
  /-- LINE_PULSE (R28). -/
  | linePulse
  /-- DOSE_VERDICT (R20). -/
  | doseVerdict
  /-- ORDER_MEASURE (R79, R80). -/
  | orderMeasure
  /-- CANCEL (R21, R81). -/
  | cancel
  /-- CONDITION_ACK (R179). -/
  | conditionAck
  /-- PANEL_ORDER (R58). -/
  | panelOrder
  /-- PATTERN_FRAGMENT (R53 to R56). -/
  | patternFragment
  /-- RECIPE (R127). -/
  | recipe
  /-- ROLL_DATA (R97). -/
  | rollData
  /-- STANDBY (R192). -/
  | standby
  /-- WAKE (R193). -/
  | wake
  /-- RESTART (R194, R195). -/
  | restart
  /-- FAULT_LAMP_FLASH (R188): the end of one phase of the lamp's flash pattern. -/
  | faultLampFlash
  deriving DecidableEq, Repr

end Sys2Proof
end

