-- ==== Sys2Proof/Decode.lean ====
section
/-! DEFINITION. The command a word of the opcode table spells. spec/opcode_table.json gives no row any bits
(every row's fields are empty and none has a fixed pattern), so no word spells a command. The block's own
encodings, the telegram frames of the line bus, are read in Sys2Proof.Machine.Frame. -/

namespace Sys2Proof

/-- The command spelled by a word of `nbits` bits: none, since the table gives its rows no bits. -/
def decodeTableWord (_nbits _w : Nat) : Option Instr := none

end Sys2Proof
end

