-- ==== Sys2Proof/Config.lean ====
section
/-! DEFINITION. What an implementation of the PL40 fixes and the manual does not: the free values.
Each is a constant without a body, so that no proof can rest on its value. -/

namespace Sys2Proof.Config

/-- The two bytes the DOSE VERDICT carries for a peak temperature outside the 16-bit signed field
(chapter Telegram Reference gives the field's range as −500..2500 and no rule says what a peak outside
16 bits is sent as). Log entry 9. -/
opaque unstatedPeak : Int → Half

/-- The remaining length L_rem of a roll whose figure under R104 does not fit the 32 bits of its field: samples of up to 2^31 dmm
can become the circumference of an unverified roll (R102, R103), and no rule says what the field holds then. Log entry 21. -/
opaque unstatedRemaining : Nat → Word

end Sys2Proof.Config
end

