-- ==== Sys2Proof/Machine/State.lean ====
section
/-! DEFINITION. Everything the manual gives the PL40 to hold, as plain data, one structure per unit of the block
table (chapter About this manual), and the state after power-on reset. Each structure's fields have their values after
power-on reset as defaults. Fields marked MODEL'S OWN stand for no register of the manual; INVENTORY.md lists them. -/

namespace Sys2Proof.Machine

open Sys2Proof

/-! ## Named values -/

/-- Station modes (chapter Station Modes, Configuration and Restart). -/
inductive Mode where
  | powerUp | configuring | configFault | joining | active | tripped | standby
  deriving DecidableEq, Repr

/-- Roles, in the order of their codes. -/
inductive Role where
  | unwind | pleat | setter | outfeed
  deriving DecidableEq, Repr

/-- Segment kinds, in the order of their codes (R4). -/
inductive SegKind where
  | panel | leader | splice | untracked
  deriving DecidableEq, Repr

/-- Hold causes; all but BUS_OFF are advertised (R33). -/
inductive HoldCause where
  | operator | noOrders | lotWait | rollOut | regLost | mapFull | busOff
  deriving DecidableEq, Repr

/-- Trip causes, in the order of their codes (R41). -/
inductive TripCause where
  | estopInput | knifeJam | knifeStall | accumEmpty | spliceFail | dupAddress | terminal | peer
  deriving DecidableEq, Repr

/-- Reject causes, in the order of their codes (R4). -/
inductive RejectCause where
  | cancelled | measureStale | mispleat | knifeLimited | shortened | underSet | overSet | joined | gateLate
  | unregistered
  deriving DecidableEq, Repr

/-- Dose verdicts (R20). -/
inductive Verdict where
  | set | underDose | overDose | underOver | notJudged
  deriving DecidableEq, Repr

/-- Measure statuses (R58). -/
inductive MeasureStatus where
  | ok | noPattern | badField | tooLong | tooShort
  deriving DecidableEq, Repr

/-- Upload statuses (R52). -/
inductive UploadStatus where
  | none | active | pending | abandoned | sequence | badStep
  deriving DecidableEq, Repr

/-- Splice states (R114 to R120). -/
inductive SpliceState where
  | run | prefill | spliceWait | stopOld | paste | startNew | recover
  deriving DecidableEq, Repr

/-- Results of a ROLL DATA (R97). -/
inductive RollResult where
  | none | badField | busy | notTaken | threaded | splice | loaded
  deriving DecidableEq, Repr

/-- Chamber states (R130). -/
inductive ChamberState where
  | cold | warming | readyHeat | parked
  deriving DecidableEq, Repr

/-- Why an order was refused (R80). -/
inductive RefusalReason where
  | field | duplicate | born | cancelled | full
  deriving DecidableEq, Repr

/-- Condition groups. -/
inductive Group where
  | link | web | heat | roll
  deriving DecidableEq, Repr

/-- Restart cause (R196). -/
inductive RestartCause where
  | powerOn | restart
  deriving DecidableEq, Repr

/-- Liveness of a peer table entry (R29). -/
inductive Liveness where
  | unknown | live | late | lost
  deriving DecidableEq, Repr

/-- Telegram kinds, in the order of their codes (R208). -/
inductive Kind where
  | trip | tripClear | hold | release | handoff | speedSet | linePulse | doseVerdict | panelDone | orderMeasure
  | cancel | conditionNotice | conditionAck | panelOrder | patternFragment | recipe | rollData | standby | wake
  | restart
  deriving DecidableEq, Repr

/-- The condition flags: one for each condition code and instance (chapter Conditions and Attention). -/
inductive Cond where
  | peerLate | peerLost | busFault | busOff | rxOverrun | straySender | dupAddress | seqGap
  | markMissed | regLost | mapFull | strokeLate | knifeLimit | gateLate | orderRefused | noOrders
  | zoneCut (zone : Nat) | sensorFault (channel : Nat) | steamLow | underSet | overSet | speedFloor
  | rollLow | rollOut | lotMismatch | spliceAbort | accumDrift | rollRefused
  deriving DecidableEq, Repr

/-- Knife blades (R49). -/
inductive Blade where
  | left | right
  deriving DecidableEq, Repr

/-- Gate positions (R159). -/
inductive GatePos where
  | pass | divert
  deriving DecidableEq, Repr

/-- A timer: the milliseconds left while it runs, `none` while it is stopped. -/
abbrev Timer := Option Nat

/-! ## Configuration record image (R185) -/

/-- Scaling of one analog channel (R125). -/
structure Scaling where
  offset : Int := 0
  span : Nat := 0
  deriving DecidableEq, Repr

/-- The role area of a PLEAT. -/
structure PleatArea where
  knife : Nat := 0
  strokeTime : Nat := 0
  actuatorRate : Nat := 0
  flatMax : Nat := 0
  lookAhead : Nat := 0
  lateTol : Nat := 0
  filterCode : Nat := 0
  deriving DecidableEq, Repr

/-- The role area of the UNWIND. -/
structure UnwindArea where
  punch : Nat := 0
  fMax : Nat := 0
  fillMin : Nat := 0
  fillNominal : Nat := 0
  fillSplice : Nat := 0
  kFill : Nat := 0
  unwindMax : Nat := 0
  aUnwind : Nat := 0
  reserve : Nat := 0
  coreGuard : Nat := 0
  leaderLen : Nat := 0
  spliceLen : Nat := 0
  pasteTime : Nat := 0
  edges : Nat := 0
  deriving DecidableEq, Repr

/-- The role area of a SETTER. -/
structure SetterArea where
  entry : Nat := 0
  chamber : Nat := 0
  cell : Nat := 0
  cells : Nat := 0
  zones : Nat := 0
  b1 : Nat := 0
  b2 : Nat := 0
  b3 : Nat := 0
  tBase : Int := 0
  parkSp : Int := 0
  keepSp : Int := 0
  band : Nat := 0
  parkTime : Nat := 0
  cutMargin : Nat := 0
  cutOptions : Nat := 0
  kp : Nat := 0
  ki : Nat := 0
  pMin : Int := 0
  deriving DecidableEq, Repr

/-- The role area of the OUTFEED. -/
structure OutfeedArea where
  cut : Nat := 0
  gateTime : Nat := 0
  cutTime : Nat := 0
  deriving DecidableEq, Repr

/-- The configuration record, field by field in the layout of R185. The role area is read in all four
arrangements; the units of a role read their own. -/
structure Image where
  magic : Nat := 0
  version : Nat := 0
  address : Nat := 0
  roleCode : Nat := 0
  upstream : Nat := 0
  downstream : Nat := 0
  markOptions : Nat := 0
  roster : Half := 0
  terminals : Half := 0
  scale1 : Nat := 0
  scale2 : Nat := 0
  exit : Nat := 0
  approach : Nat := 0
  sensor : Nat := 0
  wBefore : Nat := 0
  wAfter : Nat := 0
  lineMax : Nat := 0
  aUp : Nat := 0
  aDn : Nat := 0
  aE : Nat := 0
  scaling : List Scaling := []
  reportMask : Word := 0
  pleat : PleatArea := {}
  unwind : UnwindArea := {}
  setter : SetterArea := {}
  outfeed : OutfeedArea := {}
  deriving DecidableEq, Repr

/-! ## Bus unit -/

/-- One entry of the receive queue (R209). -/
structure RxEntry where
  kind : Kind
  origin : Nat
  dest : Nat
  body : List Byte
  arrival : Word
  deriving DecidableEq, Repr

/-- One telegram of the transmit queue (R210). The list order of the queue is its order by class and age. -/
structure TxEntry where
  kind : Kind
  dest : Nat
  body : List Byte
  inTransmission : Bool := false
  /-- The origin its header carries, the own address, loaded at the beginning of a transmission (R199, R200). -/
  origin : Nat := 0
  /-- The exit point kept with a queued HANDOFF (R9). -/
  exitPoint : Word := 0
  deriving DecidableEq, Repr

/-- The bus unit (chapter The Line Bus). -/
structure Bus where
  rx : List RxEntry := []
  tx : List TxEntry := []
  /-- The trip latch's two flags (R207). -/
  latchRoster : Bool := false
  latchTerminal : Bool := false
  faultCount : Nat := 0
  /-- The bus state: `false` is ON, `true` BUS_OFF (R203). -/
  off : Bool := false
  recovery : Timer := none
  /-- The duplicate-address latch (R206). -/
  duplicate : Bool := false
  deriving DecidableEq, Repr

/-! ## Peer monitor -/

/-- One entry of the peer table (chapter Line Pulse, Peers and Line Speed). -/
structure PeerEntry where
  liveness : Liveness := .unknown
  role : Option Role := none
  mode : Option Mode := none
  ceiling : Nat := 0
  holds : List HoldCause := []
  ratio : Option Nat := none
  interval : Nat := 0
  age : Nat := 0
  deriving DecidableEq, Repr

/-! ## Speed governor -/

/-- The speed governor (R25 to R48). -/
structure Gov where
  vOp : Nat := 0
  vT : Nat := 0
  vA : Nat := 0
  holds : List HoldCause := []
  trips : List TripCause := []
  beforeTrip : Option Mode := none
  tripTimer : Timer := none
  driveEnable : Bool := false
  pulseTimer : Timer := none
  sequence : Byte := 0
  deriving DecidableEq, Repr

/-! ## Web tracker -/

/-- A segment record (R4). `uid`, `opened`, `ran`, `leadCut` and `trailCut` are MODEL'S OWN: `uid` names the record itself
(R146), the others say which of the events of R2 tied to its points have been taken. -/
structure Segment where
  uid : Nat := 0
  seg : Half := 0
  kind : SegKind := .untracked
  panelId : Option Word := none
  pattern : Option Nat := none
  recipe : Nat := 0
  lot : Option Half := none
  length : Nat := 0
  arrival : Word := 0
  pleated : Bool := false
  regPleat : Bool := false
  setters : Half := 0
  causes : List RejectCause := []
  newSeq : Bool := false
  handed : Bool := false
  opened : Bool := false
  ran : Bool := false
  leadCut : Bool := false
  trailCut : Bool := false
  deriving DecidableEq, Repr

/-- A reference to a segment record: the record itself and its seg id. -/
structure SegRef where
  uid : Nat
  seg : Half
  deriving DecidableEq, Repr

/-- The web tracker (R1 to R24). -/
structure Web where
  infeed : Counter := 0
  outfeed : Counter := 0
  p0 : Word := 0
  map : List Segment := []
  expected : Option Half := none
  firstSend : Bool := true
  /-- The capture window: CLOSED, or OPEN for a PANEL (R16). -/
  window : Option SegRef := none
  /-- The closing point of the open window has been reached and its closing waits for the candidate mark (R16). -/
  closing : Bool := false
  /-- The edge of the candidate mark being filtered (R15). -/
  candidate : Option Word := none
  missCount : Nat := 0
  cancelList : List Word := []
  /-- MODEL'S OWN: the `uid` of the next record to be made. -/
  nextUid : Nat := 0
  deriving DecidableEq, Repr

/-! ## Order unit -/

/-- A queued order (R78). -/
structure Order where
  panelId : Word
  pattern : Nat
  recipe : Nat
  lot : Half
  flat : Nat
  deriving DecidableEq, Repr

/-- The order wait (R91). -/
inductive OrderWait where
  | none | noOrders | lotWait
  deriving DecidableEq, Repr

/-- The map stall of R84: none, with the contribution of 0 in force, or going on after its withdrawal at standstill. -/
inductive MapStall where
  | none | contributing | withdrawn
  deriving DecidableEq, Repr

/-- The order unit (R78 to R95). -/
structure OrderUnit where
  queue : List Order := []
  anchor : Word := 0
  nextSeg : Half := 0
  newSequence : Bool := true
  spliceRequest : Bool := false
  fence : Bool := false
  wait : OrderWait := .none
  stall : MapStall := .none
  refusal : Option (Word × RefusalReason) := none
  /-- MODEL'S OWN: a birth has come due and is held back (R83), so that it is made as a delayed birth. -/
  birthHeld : Bool := false
  /-- MODEL'S OWN: how often the mark punch output has been pulsed since power-on reset (R89). -/
  punches : Nat := 0
  deriving DecidableEq, Repr

/-! ## Pattern unit -/

/-- One step of a pattern (R49). -/
structure PatternStep where
  pitch : Nat
  depth : Nat
  blade : Blade
  count : Nat
  deriving DecidableEq, Repr

/-- A pattern copy (R49). -/
structure PatternCopy where
  leadIn : Nat
  tail : Nat
  steps : List PatternStep
  deriving DecidableEq, Repr

/-- A slot of the pattern table (R49). -/
structure PatternSlot where
  active : Option PatternCopy := none
  pending : Option PatternCopy := none
  version : Byte := 0
  deriving DecidableEq, Repr

/-- An upload in progress in the staging buffer (R52). -/
structure Staging where
  tag : Nat
  pattern : Nat
  leadIn : Nat
  tail : Nat
  stepCount : Nat
  steps : List PatternStep
  expected : Nat
  deriving DecidableEq, Repr

/-- What a knife run binds (R61). -/
structure Bound where
  copy : PatternCopy
  version : Byte
  repeats : Nat
  deriving DecidableEq, Repr

/-- The open knife run (R61). -/
structure KnifeRun where
  ref : SegRef
  panelId : Option Word
  slot : Nat
  bound : Option Bound
  nextPleat : Nat
  deriving DecidableEq, Repr

/-- A stroke in flight (R64). `ref` is MODEL'S OWN: the panel whose pleat it is, whatever run is open. -/
structure Stroke where
  ref : SegRef
  pleat : Nat
  blade : Blade
  start : Word
  limited : Bool
  timer : Timer
  deriving DecidableEq, Repr

/-- A depth move in flight (R67). -/
structure DepthMove where
  target : Nat
  timer : Timer
  deriving DecidableEq, Repr

/-- A recorded pleated length (R61). -/
structure PleatedLength where
  ref : SegRef
  length : Nat
  deriving DecidableEq, Repr

/-- The pattern unit (R49 to R77). -/
structure PatternUnit where
  /-- Slot n of the manual is entry n − 1. -/
  slots : List PatternSlot := List.replicate 32 {}
  staging : Option Staging := none
  uploadPattern : Option Nat := none
  uploadStatus : UploadStatus := .none
  run : Option KnifeRun := none
  stroke : Option Stroke := none
  heldFold : Option Nat := none
  /-- The actuator depth, `none` for UNKNOWN (R68). -/
  depth : Option Nat := none
  move : Option DepthMove := none
  limitCount : Nat := 0
  pleatedLengths : List PleatedLength := []
  deriving DecidableEq, Repr

/-! ## Roll unit -/

/-- States of a roll arm (R96). -/
inductive ArmState where
  | empty | loaded | ready | active | expiring
  deriving DecidableEq, Repr

/-- The roll of an arm that is not EMPTY (R96). -/
structure Roll where
  lot : Half
  thickness : Nat
  core : Nat
  circumference : Nat
  verified : Bool
  remaining : Nat
  deriving DecidableEq, Repr

/-- An arm record (R96). -/
structure Arm where
  state : ArmState := .empty
  roll : Option Roll := none
  lastSample : Option Nat := none
  mark : Option Word := none
  deriving DecidableEq, Repr

/-- The roll unit (R96 to R123). -/
structure RollUnit where
  arm1 : Arm := {}
  arm2 : Arm := {}
  spliceState : SpliceState := .run
  spliceArm : Option ArmName := none
  /-- Seg id and middle of the SPLICE segment handed over at its birth (R86, R115). -/
  spliceMiddle : Option (Half × Word) := none
  pasteTimer : Timer := none
  pasteOutput : Bool := false
  webTimer : Timer := none
  webSeen : Bool := false
  fillBase : Int := 0
  vU : Nat := 0
  vOut : Nat := 0
  exitCommand : Nat := 0
  /-- Outfeed counts at the last ramp updates, newest first: what v_out is measured from (R109). -/
  outHistory : List Word := []
  flatCeiling : Nat := 0
  statusArm : Nat := 0
  statusResult : RollResult := .none
  deriving DecidableEq, Repr

/-! ## Heat-set unit -/

/-- A sensor channel's record (R126). -/
structure Channel where
  value : Option Int := none
  bad : Nat := 0
  good : Nat := 0
  faulted : Bool := false
  deriving DecidableEq, Repr

/-- A recipe (R127). -/
structure Recipe where
  setpoints : List Int
  doseMin : Nat
  doseMax : Nat
  deriving DecidableEq, Repr

/-- A zone record (R129), with the steam valve output of the zone (R138). -/
structure Zone where
  sp : Int := 0
  spEff : Int := 0
  integral : Nat := 0
  output : Nat := 0
  cut : Bool := false
  overCount : Nat := 0
  valve : Nat := 0
  deriving DecidableEq, Repr

/-- A cell record (R143). -/
structure Cell where
  dose : Nat := 0
  peak : Option Int := none
  lead : Option SegRef := none
  trail : Option SegRef := none
  deriving DecidableEq, Repr

/-- An entry of the judgement list (R147). -/
structure Judgement where
  ref : SegRef
  closed : Bool
  underFlag : Bool
  overFlag : Bool
  unjudged : Bool
  least : Nat
  greatest : Nat
  peak : Option Int
  deriving DecidableEq, Repr

/-- The heat-set unit (R124 to R156). The sensor channels work in every role. -/
structure HeatUnit where
  channels : List Channel := List.replicate 8 {}
  /-- Recipe n of the manual is entry n − 1. -/
  recipes : List (Option Recipe) := List.replicate 16 none
  zones : List Zone := []
  chamber : ChamberState := .cold
  bandCount : Nat := 0
  parkTimer : Timer := none
  heatTimer : Timer := none
  cells : List Cell := []
  shiftAnchor : Word := 0
  judgements : List Judgement := []
  deriving DecidableEq, Repr

/-! ## Outfeed unit -/

/-- What is at the cut line (R159). -/
inductive Content where
  | seg (ref : SegRef)
  | gap
  deriving DecidableEq, Repr

/-- A decision record (R159). -/
structure Decision where
  regPleat : Bool
  missing : Half
  deriving DecidableEq, Repr

/-- The open piece (R159). `met` is MODEL'S OWN: the outcome of the last test of the pass criteria, against which R163
finds a change. -/
structure Piece where
  content : Content
  required : GatePos
  joined : Bool
  skip : Bool
  decision : Option Decision
  met : Bool
  deriving DecidableEq, Repr

/-- The gate (R161). -/
inductive Gate where
  | resting (pos : GatePos)
  | unknown
  | travelling (target : GatePos) (timer : Nat)
  deriving DecidableEq, Repr

/-- The outfeed unit (R157 to R171). -/
structure OutfeedUnit where
  piece : Option Piece := none
  /-- The cut timer: running while the knife is CUTTING (R158). -/
  cutTimer : Timer := none
  gate : Gate := .resting .divert
  good : Word := 0
  reject : Word := 0
  deriving DecidableEq, Repr

/-! ## Condition unit -/

/-- Notice states of a group (R175). -/
inductive NoticeState where
  | none | pending | queued
  deriving DecidableEq, Repr

/-- A group record (R175). -/
structure GroupRecord where
  summary : Bool := false
  notice : NoticeState := .none
  later : Bool := false
  deriving DecidableEq, Repr

/-- The condition unit (R172 to R182). -/
structure CondUnit where
  /-- The flags that are set. -/
  flags : List Cond := []
  link : GroupRecord := {}
  web : GroupRecord := {}
  heat : GroupRecord := {}
  roll : GroupRecord := {}
  checkErrors : Nat := 0
  overruns : Nat := 0
  straySenders : Nat := 0
  strayMarks : Nat := 0
  missedMarks : Nat := 0
  limitedStrokes : Nat := 0
  /-- MODEL'S OWN: a condition has risen in STANDBY within the running command and the wake of R181 is still to be
  made before the command ends. -/
  wakeDue : Bool := false
  deriving DecidableEq, Repr

/-! ## Configuration loader and station -/

/-- The fault lamp (R188, R197). In `flashing n` the lamp is in phase `n` of its pattern, counted from 0. -/
inductive Lamp where
  | dark | lit | flashing (phase : Nat)
  deriving DecidableEq, Repr

/-- The configuration loader and the station mode (R183 to R197). -/
structure Loader where
  mode : Mode := .powerUp
  image : Option Image := none
  /-- A read of the record is in progress (R184). -/
  reading : Bool := false
  /-- The record has passed its check and the first scan after it, which ends CONFIGURING, is awaited (R184). In the operating
  modes the scan always runs (R124). -/
  scanning : Bool := false
  restartCause : RestartCause := .powerOn
  keptRole : Option Role := none
  faultClass : Option Nat := none
  lamp : Lamp := .lit
  joinTimer : Timer := none
  deriving DecidableEq, Repr

/-- The levels of the input pins whose level a rule reads (pin summary). -/
structure Pins where
  estop : Bool := false
  markHigh : Bool := false
  webPresent : Bool := false
  gatePass : Bool := false
  gateDivert : Bool := false
  ready1 : Bool := false
  ready2 : Bool := false
  empty1 : Bool := false
  empty2 : Bool := false
  revolution1 : Bool := false
  revolution2 : Bool := false
  deriving DecidableEq, Repr

/-! ## The machine -/

/-- The whole state: the units, the pins, and the queue of the commands that wait, first in, first out. -/
structure State where
  loader : Loader
  bus : Bus
  /-- Entry a of the manual, address a, is entry a − 1. -/
  peers : List PeerEntry
  gov : Gov
  web : Web
  order : OrderUnit
  pattern : PatternUnit
  roll : RollUnit
  heat : HeatUnit
  outfeed : OutfeedUnit
  cond : CondUnit
  pins : Pins
  pending : List Instr
  deriving DecidableEq, Repr

/-- Why the machine stops. Nothing the hardware can meet stops it. -/
inductive Fault where
  /-- Raised by a meaning given a command that `wellFormed` rejects: a record read that answers with other than 128
  bytes, a scan of other than eight samples, a peer address outside 1..15. The hardware has no such event. Safe. -/
  | illFormedCommand
  deriving DecidableEq, Repr

/-- Why a command has no meaning. -/
inductive Refusal where
  /-- Raised by exec for a command that is not modelled. No arm of exec raises it. Safe. -/
  | notModelled (mnemonic : String)
  deriving DecidableEq, Repr

/-- The peer table with every entry UNKNOWN and empty (R48). -/
def emptyPeers : List PeerEntry := List.replicate 15 {}

/-- The state right after power-on reset (R183): POWER_UP, every unit at its value after power-on reset. -/
def State.reset : State :=
  { loader := {}, bus := {}, peers := emptyPeers, gov := {}, web := {}, order := {}, pattern := {}, roll := {},
    heat := {}, outfeed := {}, cond := {}, pins := {}, pending := [] }

/-! ## One update per unit -/

def State.withLoader (s : State) (x : Loader) : State := { s with loader := x }
def State.withBus (s : State) (x : Bus) : State := { s with bus := x }
def State.withPeers (s : State) (x : List PeerEntry) : State := { s with peers := x }
def State.withGov (s : State) (x : Gov) : State := { s with gov := x }
def State.withWeb (s : State) (x : Web) : State := { s with web := x }
def State.withOrder (s : State) (x : OrderUnit) : State := { s with order := x }
def State.withPattern (s : State) (x : PatternUnit) : State := { s with pattern := x }
def State.withRoll (s : State) (x : RollUnit) : State := { s with roll := x }
def State.withHeat (s : State) (x : HeatUnit) : State := { s with heat := x }
def State.withOutfeed (s : State) (x : OutfeedUnit) : State := { s with outfeed := x }
def State.withCond (s : State) (x : CondUnit) : State := { s with cond := x }
def State.withPins (s : State) (x : Pins) : State := { s with pins := x }
def State.withPending (s : State) (x : List Instr) : State := { s with pending := x }

end Sys2Proof.Machine
end

