-- ==== Sys2Proof/Machine/Ops.lean ====
section
/-! DEFINITION. The named operations over the state that every unit shares: positions and counters, sets kept as lists
without repeats, fields of bodies, the configuration image, the peer table, the web map, the pins. -/

namespace Sys2Proof.Machine

open Sys2Proof

/-! ## Positions (R1, R2) -/

/-- Position `a` is at or past position `b`: (a − b) mod 2^32 lies below 2^31 (R2). -/
def atOrPast (a b : Word) : Bool := (a - b).toNat < 2147483648

/-- The signed 32-bit difference a − b. -/
def signedDiff (a b : Word) : Int := (a - b).toInt

/-- A length or distance as a count of positions, taken modulo 2^32. -/
def dmm (n : Nat) : Word := BitVec.ofNat 32 n

/-- The whole-dmm part of a counter (R1). -/
def countOf (c : Counter) : Word := c.extractLsb' 16 32

/-- A counter after one edge: the scale is added to count and fraction together, or subtracted (R1). -/
def stepCounter (c : Counter) (scale : Nat) (forward : Bool) : Counter :=
  if forward then c + BitVec.ofNat 48 scale else c - BitVec.ofNat 48 scale

/-! ## Sets kept as lists without repeats -/

/-- Adds a member; one already present is not added twice. -/
def insertNew {α : Type} [DecidableEq α] (x : α) (l : List α) : List α := if x ∈ l then l else l ++ [x]

/-- Removes a member; removing an absent one changes nothing. -/
def removeAll {α : Type} [DecidableEq α] (x : α) (l : List α) : List α := l.filter (fun y => y ≠ x)

/-- The number with one bit for each code of the list (R214). -/
def bitsOf (codes : List Nat) : Nat := codes.foldl (fun acc c => acc ||| (1 <<< c)) 0

/-! ## Fields of bodies and of the record (R185, R214) -/

/-- The number a run of bytes holds, most significant byte first. -/
def numberOf (bytes : List Byte) : Nat := bytes.foldl (fun acc b => acc * 256 + b.toNat) 0

/-- The field of `size` bytes at `offset`. -/
def fieldAt (bytes : List Byte) (offset size : Nat) : Nat := numberOf ((bytes.drop offset).take size)

/-- A 16-bit field read as two's complement. -/
def signed16 (n : Nat) : Int := (BitVec.ofNat 16 n).toInt

/-- `n` bytes holding a number modulo 256^n, most significant byte first. -/
def bytesOf : Nat → Nat → List Byte
  | 0, _ => []
  | n + 1, v => bytesOf n (v / 256) ++ [BitVec.ofNat 8 v]

/-- A number saturating at a bound. -/
def saturate (bound n : Nat) : Nat := min bound n

/-- A number limited to a range. -/
def limitInt (low high n : Int) : Int := max low (min high n)

/-! ## Modes and configuration -/

/-- The configuration record image, every field 0 while there is none. -/
def State.cfg (s : State) : Image := s.loader.image.getD {}

/-- The station mode. -/
def State.mode (s : State) : Mode := s.loader.mode

/-- The role of a role code (R185). -/
def roleOfCode (n : Nat) : Option Role :=
  match n with
  | 0 => some .unwind
  | 1 => some .pleat
  | 2 => some .setter
  | 3 => some .outfeed
  | _ => none

/-- The configured role; `none` while there is no image. -/
def State.role (s : State) : Option Role :=
  match s.loader.image with
  | some i => roleOfCode i.roleCode
  | none => none

/-- The station has the given role. -/
def State.is (s : State) (r : Role) : Bool := s.role == some r

/-- The operating modes: JOINING, ACTIVE, TRIPPED and STANDBY. -/
def operatingMode (m : Mode) : Bool :=
  match m with
  | .joining | .active | .tripped | .standby => true
  | .powerUp | .configuring | .configFault => false

/-- The station is in an operating mode. -/
def State.operating (s : State) : Bool := operatingMode s.mode

/-- Sets the mode with the lamp setting of the mode entered (R197). -/
def setMode (m : Mode) (s : State) : State :=
  s.withLoader { s.loader with
    mode := m
    lamp := match m with
      | .powerUp | .configuring | .tripped => .lit
      | .configFault => .flashing 0
      | .joining | .active | .standby => .dark }

/-- A mask holds an address. -/
def inMask (mask : Half) (address : Nat) : Bool := mask.getLsbD address

/-- The addresses a mask holds, in rising order. -/
def addressesOf (mask : Half) : List Nat := (List.range 16).filter (inMask mask)

/-- The roster addresses other than the station's own. -/
def State.rosterOthers (s : State) : List Nat :=
  (addressesOf s.cfg.roster).filter (fun a => a ≠ s.cfg.address)

/-- S is present: the station has a mark sensor (R15, R16). The UNWIND does not read S. -/
def State.hasMark (s : State) : Bool := s.role.isSome && !s.is .unwind && s.cfg.sensor ≠ 65535

/-- The mark filter distance in dmm (R15, R185). -/
def Image.markFilter (i : Image) : Nat :=
  match (i.markOptions / 2) % 4 with
  | 0 => 0
  | 1 => 20
  | 2 => 40
  | _ => 80

/-- The mark input is active at a level, in the configured polarity (R15). -/
def Image.markActive (i : Image) (high : Bool) : Bool := high == (i.markOptions % 2 == 1)

/-! ## Peer table -/

/-- The peer table entry of an address. -/
def State.peer (s : State) (address : Nat) : PeerEntry := s.peers.getD (address - 1) {}

/-- Loads the peer table entry of an address. -/
def setPeer (address : Nat) (e : PeerEntry) (s : State) : State := s.withPeers (s.peers.set (address - 1) e)

/-! ## Positions of the station -/

/-- The position of the station: the infeed count (R1). -/
def State.position (s : State) : Word := countOf s.web.infeed

/-- The outfeed count of the UNWIND (R1). -/
def State.outCount (s : State) : Word := countOf s.web.outfeed

/-- The count against which exits are tested: the position, in the UNWIND the outfeed count (R3). -/
def State.exitCount (s : State) : Word := if s.is .unwind then s.outCount else s.position

/-- The distance from arrival to exit: X, in the UNWIND P0 (R3). -/
def State.exitOffset (s : State) : Word := if s.is .unwind then s.web.p0 else dmm s.cfg.exit

/-! ## Web map -/

/-- The trail of a segment: arrival + length (R4). -/
def Segment.trail (g : Segment) : Word := g.arrival + dmm g.length

/-- The record a reference names. -/
def Segment.ref (g : Segment) : SegRef := { uid := g.uid, seg := g.seg }

/-- The held record of a reference. -/
def State.held (s : State) (uid : Nat) : Option Segment := s.web.map.find? (fun g => g.uid == uid)

/-- Changes the held record of a reference. -/
def updateSeg (uid : Nat) (f : Segment → Segment) (s : State) : State :=
  s.withWeb { s.web with map := s.web.map.map (fun g => if g.uid == uid then f g else g) }

/-- Adds a reject cause to a record (R22). -/
def Segment.mark (c : RejectCause) (g : Segment) : Segment := { g with causes := insertNew c g.causes }

/-- Adds a reject cause to a held record (R22). -/
def markSeg (uid : Nat) (c : RejectCause) (s : State) : State := updateSeg uid (Segment.mark c) s

/-- The map count (R5). -/
def State.mapCount (s : State) : Nat := s.web.map.length

/-! ## Timers -/

/-- A timer runs. -/
def running (t : Timer) : Bool := t.isSome

/-- A timer after one more millisecond. What ends it is its expiry, which is a command of its own (log entry 5). -/
def tickTimer (t : Timer) : Timer := t.map (fun n => n - 1)

end Sys2Proof.Machine
end

