-- ==== Sys2Proof/Machine/PatternFigures.lean ====
section
/-! DEFINITION. The figures of the pattern unit that follow from what it holds: pleats and lengths of a copy, the recovery
of n, the look-ahead with its ceiling contribution and ratio, the infeed speed (R50, R51, R59, R66, R73 to R76). -/

namespace Sys2Proof.Machine

open Sys2Proof

/-- One pleat of a panel: where it starts from the panel's lead, and its step's figures (R50). -/
structure Pleat where
  start : Nat
  pitch : Nat
  depth : Nat
  blade : Blade
  deriving DecidableEq, Repr

/-- The flat length c = p + 2·d a pleat consumes (R50). -/
def Pleat.flat (p : Pleat) : Nat := p.pitch + 2 * p.depth

/-- The flat length of one pleat of a step (R50). -/
def PatternStep.flat (p : PatternStep) : Nat := p.pitch + 2 * p.depth

/-- W, the flat length of one repeat (R50). -/
def PatternCopy.flatRepeat (c : PatternCopy) : Nat := (c.steps.map (fun p => p.count * p.flat)).sum

/-- W_p, the pleated length of one repeat (R50). -/
def PatternCopy.pleatedRepeat (c : PatternCopy) : Nat := (c.steps.map (fun p => p.count * p.pitch)).sum

/-- The pleats of one repeat, Σ r_i (R50). -/
def PatternCopy.pleatsRepeat (c : PatternCopy) : Nat := (c.steps.map PatternStep.count).sum

/-- F, the flat length of a panel of n repeats (R59). -/
def PatternCopy.flat (c : PatternCopy) (n : Nat) : Nat := c.leadIn + n * c.flatRepeat + c.tail

/-- P, the pleated length of a panel of n repeats (R59). -/
def PatternCopy.pleated (c : PatternCopy) (n : Nat) : Nat := c.leadIn + n * c.pleatedRepeat + c.tail

/-- The strokes of a panel of n repeats (R59). -/
def PatternCopy.strokes (c : PatternCopy) (n : Nat) : Nat := n * c.pleatsRepeat

/-- `n` pleats of one step, end to end (R50). -/
def layStep (p : PatternStep) (start : Nat) : Nat → List Pleat
  | 0 => []
  | n + 1 => { start := start, pitch := p.pitch, depth := p.depth, blade := p.blade } :: layStep p (start + p.flat) n

/-- The pleats of one repeat, in list order (R50). -/
def laySteps : List PatternStep → Nat → List Pleat
  | [], _ => []
  | p :: ps, start => layStep p start p.count ++ laySteps ps (start + p.count * p.flat)

/-- The pleats of `n` repeats, one after another (R50). -/
def layRepeats (c : PatternCopy) (start : Nat) : Nat → List Pleat
  | 0 => []
  | n + 1 => laySteps c.steps start ++ layRepeats c (start + c.flatRepeat) n

/-- The pleats of a panel of n repeats; the first starts at the lead-in (R50). -/
def PatternCopy.pleats (c : PatternCopy) (n : Nat) : List Pleat := layRepeats c c.leadIn n

/-- A record length fits n repeats when it differs from the copy's by no more than 20 dmm (R51). -/
def PatternCopy.fits (c : PatternCopy) (length n : Nat) : Bool :=
  length ≤ c.flat n + 20 && c.flat n ≤ length + 20

/-- The n in 1..99 recovered from a record length (R51). -/
def PatternCopy.recoverRepeats (c : PatternCopy) (length : Nat) : Option Nat :=
  ((List.range 99).map (fun n => n + 1)).find? (c.fits length)

/-- A slot of the pattern table by its number, 1 to 32; any other number names an empty slot (R216). -/
def State.slot (s : State) (number : Nat) : PatternSlot :=
  if 1 ≤ number then s.pattern.slots.getD (number - 1) {} else {}

/-- The pleats of the open run; none with no run or no bound copy (R61). -/
def State.runPleats (s : State) : List Pleat :=
  match s.pattern.run with
  | some r => match r.bound with
    | some b => b.copy.pleats b.repeats
    | none => []
  | none => []

/-- The index of the next pleat: the held fold when one is held, else the run's next pleat (R66). -/
def State.nextPleatIndex (s : State) : Option Nat :=
  match s.pattern.heldFold with
  | some k => some k
  | none => match s.pattern.run with
    | some r => if r.nextPleat < s.runPleats.length then some r.nextPleat else none
    | none => none

/-- The depth wanted (R66). -/
def State.depthWanted (s : State) : Option Nat :=
  match s.nextPleatIndex with
  | some k => (s.runPleats[k]?).map Pleat.depth
  | none => none

/-- The travel of a depth change; an UNKNOWN depth counts as the whole travel, 2000 (R67, R74). -/
def depthChange (before : Option Nat) (wanted : Nat) : Nat :=
  match before with
  | some d => (d - wanted) + (wanted - d)
  | none => 2000

/-- t_x = ceil(|Δd| × 1000 / r_d) (R67). -/
def State.moveTime (s : State) (change : Nat) : Nat := ceilDiv (change * 1000) s.cfg.pleat.actuatorRate

/-- The position at which a panel's lead is at the knife line (R61). -/
def State.knifePoint (s : State) (g : Segment) : Word := g.arrival + dmm s.cfg.pleat.knife

/-- A pleat's fold point, arrival + K + s_k (R51). -/
def State.foldPoint (s : State) (g : Segment) (p : Pleat) : Word := s.knifePoint g + dmm p.start

/-- Pairs each pleat with the depth before it (R74). -/
def withPreceding (before : Option Nat) : List Pleat → List (Pleat × Option Nat)
  | [] => []
  | p :: ps => (p, before) :: withPreceding (some p.depth) ps

/-- The pleats of a panel, from index `first` on, whose fold point lies in the look-ahead (R74). -/
def State.lookAheadOf (s : State) (g : Segment) (pleats : List Pleat) (first : Nat) : List (Pleat × Option Nat) :=
  ((withPreceding s.pattern.depth pleats).drop first).filter
    (fun q => (s.foldPoint g q.1 - s.position).toNat ≤ s.cfg.pleat.lookAhead)

/-- The look-ahead pleats of one held segment: of the open run's segment from its bound copy, of a PANEL not yet at the knife
from its slot's active copy (R74). -/
def State.lookAheadSeg (s : State) (g : Segment) : List (Pleat × Option Nat) :=
  match s.pattern.run with
  | some r =>
    if r.ref.uid = g.uid then s.lookAheadOf g s.runPleats r.nextPleat
    else if g.kind = .panel ∧ g.ran = false then
      match (s.slot (g.pattern.getD 0)).active with
      | some c => match c.recoverRepeats g.length with
        | some n => s.lookAheadOf g (c.pleats n) 0
        | none => []
      | none => []
    else []
  | none =>
    if g.kind = .panel ∧ g.ran = false then
      match (s.slot (g.pattern.getD 0)).active with
      | some c => match c.recoverRepeats g.length with
        | some n => s.lookAheadOf g (c.pleats n) 0
        | none => []
      | none => []
    else []

/-- The look-ahead set, each pleat with its preceding depth (R74). -/
def State.lookAhead (s : State) : List (Pleat × Option Nat) := s.web.map.flatMap s.lookAheadSeg

/-- The lower of a pleat's stroke figure and infeed figure (R75). -/
def State.pleatCeiling (s : State) (q : Pleat × Option Nat) : Nat :=
  min (q.1.pitch * 1000 / (s.cfg.pleat.strokeTime + s.moveTime (depthChange q.2 q.1.depth)))
    (s.cfg.pleat.flatMax * q.1.pitch / q.1.flat)

/-- The least of a list of figures, `none` for an empty list. -/
def leastOf : List Nat → Option Nat
  | [] => none
  | x :: xs => some (xs.foldl min x)

/-- The PLEAT ceiling contribution (R75). -/
def State.patternCeiling (s : State) : Option Nat := leastOf (s.lookAhead.map s.pleatCeiling)

/-- The advertised ratio: the largest ceil(4096 × c / p) of the set, or 4096 (R76). -/
def State.advertisedRatio (s : State) : Nat :=
  (s.lookAhead.map (fun q => ceilDiv (4096 * q.1.flat) q.1.pitch)).foldl max 4096

/-- The pleat of the open run at the knife line (R73). -/
def State.pleatAtKnife (s : State) : Option Pleat :=
  match s.pattern.run with
  | some r => match s.held r.ref.uid with
    | some g =>
      let offset := (s.position - s.knifePoint g).toNat
      s.runPleats.find? (fun p => p.start ≤ offset && offset < p.start + p.flat)
    | none => none
  | none => none

/-- The infeed speed v_flat (R73). -/
def State.flatSpeed (s : State) : Nat :=
  min s.cfg.pleat.flatMax
    (match s.pleatAtKnife with
     | some p => (2 * s.gov.vA * p.flat + p.pitch) / (2 * p.pitch)
     | none => s.gov.vA)

/-- The knife drive may act: drive enable set and the station not TRIPPED (R63, R71). -/
def State.knifeDrive (s : State) : Bool := s.gov.driveEnable && s.mode ≠ .tripped

end Sys2Proof.Machine
end

