-- ==== Sys2Proof/Machine/HeatFigures.lean ====
section
/-! DEFINITION. The figures of the heat-set unit that follow from what it holds: used channels and values, zones, setpoints in
force, recipes present, the SETTER ceiling and the floor speed (R124 to R130, R139, R152 to R154). -/

namespace Sys2Proof.Machine

open Sys2Proof

/-- A channel the station's role uses (R124). -/
def State.usesChannel (s : State) (channel : Nat) : Bool :=
  match s.role with
  | some .setter => channel < s.cfg.setter.zones || channel == 4
  | some .unwind => channel == 0
  | _ => false

/-- A channel's record. -/
def State.channel (s : State) (n : Nat) : Channel := s.heat.channels.getD n {}

/-- The value of a channel as its readers take it: none while it is faulted or holds none (R125, R126). -/
def State.channelValue (s : State) (n : Nat) : Option Int :=
  if (s.channel n).faulted then none else (s.channel n).value

/-- The zone bounds b_0 = 0, b_1, …, b_Z = N (R129). -/
def SetterArea.bounds (a : SetterArea) : List Nat :=
  0 :: [a.b1, a.b2, a.b3].take (a.zones - 1) ++ [a.cells]

/-- The first cell of a zone (R129). -/
def SetterArea.zoneStart (a : SetterArea) (z : Nat) : Nat := a.bounds.getD z 0

/-- The number of cells of a zone (R129). -/
def SetterArea.zoneCells (a : SetterArea) (z : Nat) : Nat := a.bounds.getD (z + 1) 0 - a.bounds.getD z 0

/-- The length L_z of a zone in dmm (R129). -/
def SetterArea.zoneLength (a : SetterArea) (z : Nat) : Nat := a.zoneCells z * a.cell

/-- The middle cell of a zone (R129). -/
def SetterArea.middleCell (a : SetterArea) (z : Nat) : Nat := a.zoneStart z + a.zoneCells z / 2

/-- The zone in which a cell lies (R143). -/
def SetterArea.zoneOfCell (a : SetterArea) (k : Nat) : Nat :=
  (([a.b1, a.b2, a.b3].take (a.zones - 1)).filter (fun b => b ≤ k)).length

/-- The temperature T of a zone (R129). -/
def State.zoneTemp (s : State) (z : Nat) : Option Int := s.channelValue z

/-- A recipe table entry by its number, 1 to 16 (R127). -/
def State.recipeEntry (s : State) (number : Nat) : Option Recipe :=
  if 1 ≤ number then s.heat.recipes.getD (number - 1) none else none

/-- The segment at a zone's middle cell: the cell's lead segment, or its trail segment when it has no lead, while held
(R130). -/
def State.middleSegment (s : State) (z : Nat) : Option Segment :=
  match s.heat.cells[s.cfg.setter.middleCell z]? with
  | none => none
  | some c => match c.lead with
    | some r => s.held r.uid
    | none => match c.trail with
      | some r => s.held r.uid
      | none => none

/-- The setpoint in force of a zone (R130). -/
def State.setpoint (s : State) (z : Nat) : Int :=
  match s.heat.chamber with
  | .cold => s.cfg.setter.keepSp
  | .parked => s.cfg.setter.parkSp
  | .warming | .readyHeat =>
    match s.middleSegment z with
    | none => s.cfg.setter.parkSp
    | some g => match s.recipeEntry g.recipe with
      | some r => r.setpoints.getD z 0
      | none => s.cfg.setter.parkSp

/-- A zone's over-temperature limit (R139). -/
def State.overLimit (s : State) (sp : Int) : Int := min (sp + s.cfg.setter.cutMargin) 1750

/-- The segment at the chamber entry (R152). -/
def State.entrySegment (s : State) : Option Segment :=
  let point := s.position - dmm s.cfg.setter.entry
  s.web.map.find? (fun g => g.kind ≠ .untracked && atOrPast point g.arrival && !atOrPast point g.trail)

/-- The held segments some cell of the line refers to. -/
def State.referredSegments (s : State) : List Segment :=
  s.web.map.filter (fun g => s.heat.cells.any (fun c =>
    c.lead.any (fun r => r.uid == g.uid) || c.trail.any (fun r => r.uid == g.uid)))

/-- The recipes present (R152). -/
def State.recipesPresent (s : State) : List Nat :=
  ((s.referredSegments ++ s.entrySegment.toList).map Segment.recipe).filter (fun r => r ≠ 0)

/-- The figure of a temperature above the dose base, max(0, T − T_base) (R144). -/
def State.aboveBase (s : State) (t : Int) : Nat := (t - s.cfg.setter.tBase).toNat

/-- Σ over the measured temperatures, 0 for a faulted zone (R152). -/
def State.sigma (s : State) : Nat :=
  ((List.range s.cfg.setter.zones).map (fun z => match s.zoneTemp z with
    | some t => s.cfg.setter.zoneLength z * s.aboveBase t
    | none => 0)).sum

/-- Σ_SP over the setpoints in force, 0 for a faulted zone (R152). -/
def State.sigmaSp (s : State) : Nat :=
  ((List.range s.cfg.setter.zones).map (fun z => match s.zoneTemp z with
    | some _ => s.cfg.setter.zoneLength z * s.aboveBase (s.setpoint z)
    | none => 0)).sum

/-- The SETTER ceiling contribution (R153). -/
def State.heatCeiling (s : State) : Option Nat :=
  match s.heat.chamber with
  | .cold | .warming | .parked => some 0
  | .readyHeat =>
    leastOf (s.recipesPresent.map (fun n => match s.recipeEntry n with
      | none => 0
      | some r => min 6000 (100 * s.sigma / r.doseMin)))

/-- The floor speed v_floor (R154). -/
def State.floorSpeed (s : State) : Nat :=
  (s.recipesPresent.map (fun n => match s.recipeEntry n with
    | none => 0
    | some r => ceilDiv (100 * s.sigmaSp) r.doseMax)).foldl max 0

/-- The effective setpoint of a zone from its setpoint in force (R136). -/
def State.effectiveSetpoint (s : State) (sp : Int) : Int :=
  let floor := s.floorSpeed
  if 0 < s.gov.vA ∧ s.gov.vA < floor ∧ s.cfg.setter.tBase < sp then
    s.cfg.setter.tBase + (sp - s.cfg.setter.tBase) * s.gov.vA / floor
  else sp

/-- The band test of the warm-up: every zone that is not faulted lies within band of its effective setpoint (R132). -/
def State.bandTest (s : State) : Bool :=
  (List.range s.cfg.setter.zones).all (fun z => match s.zoneTemp z with
    | none => true
    | some t => (t - (s.heat.zones.getD z {}).spEff).natAbs ≤ s.cfg.setter.band)

/-- A zone's valve is held off (R138). -/
def State.valveHeld (s : State) (z : Nat) : Bool :=
  s.mode == .tripped || !s.gov.driveEnable || (s.heat.zones.getD z {}).cut || (s.zoneTemp z).isNone

/-- The over-temperature filter in scans (R139, R185). -/
def SetterArea.cutFilter (a : SetterArea) : Nat :=
  match a.cutOptions / 2 % 4 with
  | 0 => 1
  | 1 => 2
  | _ => 4

/-- The cut mode is LATCH (R141, R185). -/
def SetterArea.latchMode (a : SetterArea) : Bool := a.cutOptions % 2 == 1

end Sys2Proof.Machine
end

