-- ==== Sys2Proof/Machine/LineFigures.lean ====
section
/-! DEFINITION. The figures of the line that follow from what the station holds: composition, known holds, line demand, the
accumulator's fill and flat ceiling, the ceilings and the target speed (R31, R33, R36, R37, R106, R109 to R113, R134, R160,
R169). -/

namespace Sys2Proof.Machine

open Sys2Proof

/-! ## Peers -/

/-- How many stations of a role the line has: the own role and the roles of the roster entries not UNKNOWN (R31). -/
def State.countRole (s : State) (r : Role) : Nat :=
  (if s.is r then 1 else 0) + (s.rosterOthers.filter (fun a => (s.peer a).role == some r)).length

/-- The composition is valid (R31). -/
def State.compositionValid (s : State) : Bool :=
  s.rosterOthers.all (fun a => (s.peer a).liveness ≠ .unknown) && s.countRole .unwind == 1 && s.countRole .pleat == 1 &&
    s.countRole .outfeed == 1 && 1 ≤ s.countRole .setter && s.countRole .setter ≤ 4

/-- A hold cause is known to the station (R33). -/
def State.holdKnown (s : State) : Bool :=
  !s.gov.holds.isEmpty ||
    s.rosterOthers.any (fun a => (s.peer a).liveness ≠ .unknown && !(s.peer a).holds.isEmpty)

/-- A roster entry is LIVE or LATE with mode ACTIVE (R37, R134). -/
def PeerEntry.runs (e : PeerEntry) : Bool :=
  (e.liveness == .live || e.liveness == .late) && e.mode == some .active

/-- The join test: every roster entry other than the own is LIVE and the composition is valid (R191). -/
def State.joinReady (s : State) : Bool :=
  s.mode == .joining && s.rosterOthers.all (fun a => (s.peer a).liveness == .live) && s.compositionValid

/-- Line demand (R134). -/
def State.lineDemand (s : State) : Bool :=
  0 < s.gov.vOp && s.rosterOthers.all (fun a => (s.peer a).runs) && s.mode == .active && !s.holdKnown

/-- The PLEAT's ratio from the peer table, 4096 while no entry holds one (R109). -/
def State.lineRatio (s : State) : Nat :=
  match s.rosterOthers.findSome? (fun a => (s.peer a).ratio) with
  | some r => r
  | none => 4096

/-! ## Roll arms and accumulator -/

/-- An arm's record. -/
def State.arm (s : State) (a : ArmName) : Arm :=
  match a with
  | .arm1 => s.roll.arm1
  | .arm2 => s.roll.arm2

/-- The other arm. -/
def otherArm (a : ArmName) : ArmName :=
  match a with
  | .arm1 => .arm2
  | .arm2 => .arm1

/-- The arm that is ACTIVE. -/
def State.activeArm (s : State) : Option ArmName :=
  if s.roll.arm1.state = .active then some .arm1
  else if s.roll.arm2.state = .active then some .arm2
  else none

/-- The active lot (R88). -/
def State.activeLot (s : State) : Option Half :=
  match s.activeArm with
  | some a => (s.arm a).roll.map Roll.lot
  | none => none

/-- The remaining length of the ACTIVE arm's roll (R104). -/
def State.activeRemaining (s : State) : Option Nat :=
  match s.activeArm with
  | some a => (s.arm a).roll.map Roll.remaining
  | none => none

/-- The figure of R104 in mm, from circumference, core and thickness. -/
def remainingExact (circumference core thickness : Nat) : Nat :=
  if circumference ≤ core then 0
  else (circumference * circumference - core * core) * 113 / (142 * thickness)

/-- L_rem (R104); free where the figure does not fit the 32 bits of the field (R96; log entry 21). -/
def remainingLength (circumference core thickness : Nat) : Nat :=
  let exact := remainingExact circumference core thickness
  if exact ≤ 4294967295 then exact else (Config.unstatedRemaining exact).toNat

/-- The raw fill (R106). -/
def State.rawFill (s : State) : Int := s.roll.fillBase + signedDiff s.position s.outCount

/-- The fill: the raw fill limited to 0..F_max (R106). -/
def State.fill (s : State) : Nat := (limitInt 0 s.cfg.unwind.fMax s.rawFill).toNat

/-- The fill target (R111); 0 where no target is read. -/
def State.fillTarget (s : State) : Nat :=
  match s.roll.spliceState with
  | .run | .recover => s.cfg.unwind.fillNominal
  | .prefill | .spliceWait | .startNew => s.cfg.unwind.fillSplice
  | .stopOld | .paste => 0

/-- The unwind demand (R110). -/
def State.unwindDemand (s : State) : Nat :=
  if !s.gov.driveEnable || s.mode == .tripped || s.mode == .standby || s.activeArm.isNone then 0
  else
    match s.roll.spliceState with
    | .stopOld | .paste => 0
    | .run | .prefill | .spliceWait | .startNew | .recover =>
      (limitInt 0 s.cfg.unwind.unwindMax
        (s.roll.vOut + (((s.fillTarget : Int) - s.fill) * s.cfg.unwind.kFill).tdiv 1000)).toNat

/-- a_unwind in dmm/s² (R185). -/
def UnwindArea.acceleration (a : UnwindArea) : Nat := a.aUnwind * 1000

/-- t_remaining in ms (R112); 0 in the states that have none. -/
def State.timeRemaining (s : State) : Nat :=
  let a := s.cfg.unwind.acceleration
  match s.roll.spliceState with
  | .stopOld => ceilDiv (s.roll.vU * 1000) a + s.cfg.unwind.pasteTime + ceilDiv (s.roll.vOut * 1000) a
  | .paste => s.roll.pasteTimer.getD 0 + ceilDiv (s.roll.vOut * 1000) a
  | .startNew => ceilDiv ((s.roll.vOut - s.roll.vU) * 1000) a
  | .run | .prefill | .spliceWait | .recover => 0

/-- The flat ceiling v_fc by the first line of R112 that applies. -/
def State.flatCeilingNow (s : State) : Nat :=
  let u := s.cfg.unwind
  if s.fill ≤ u.fillMin then 0
  else if s.roll.spliceState = .run ∧ s.activeArm = none then 0
  else if s.roll.spliceState = .prefill then u.unwindMax * 80 / 100
  else if 0 < s.timeRemaining then min u.unwindMax ((s.fill - u.fillMin) * 1000 / s.timeRemaining)
  else u.unwindMax

/-- The roll unit's ceiling contribution (R113). -/
def State.rollCeiling (s : State) : Nat := s.roll.flatCeiling * 4096 / s.lineRatio

/-- The UNWIND's own ceiling: the roll unit's contribution, and 0 while the map stall contributes (R84, R113). -/
def State.unwindCeiling (s : State) : Nat := if s.order.stall = .contributing then 0 else s.rollCeiling

/-! ## Outfeed -/

/-- The OUTFEED ceiling contribution (R169). -/
def State.outfeedCeiling (s : State) : Option Nat :=
  leastOf ((s.web.map.filter (fun g => 1000 ≤ g.length)).map (fun g => g.length * 1000 / s.cfg.outfeed.gateTime))

/-- Some roster entry other than the own is UNKNOWN, so the roster SETTERs are not known (R160). -/
def State.settersUnknown (s : State) : Bool := s.rosterOthers.any (fun a => (s.peer a).liveness == .unknown)

/-- A mask from a list of addresses. -/
def maskOf (addresses : List Nat) : Half := BitVec.ofNat 16 (bitsOf addresses)

/-- The roster SETTERs (R160). -/
def State.rosterSetters (s : State) : List Nat := s.rosterOthers.filter (fun a => (s.peer a).role == some .setter)

/-- The missing SETTER set of a record (R160). -/
def State.missingSetters (s : State) (g : Segment) : Half :=
  if s.settersUnknown then maskOf (s.rosterOthers.filter (fun a => (s.peer a).liveness == .unknown))
  else maskOf (s.rosterSetters.filter (fun a => !inMask g.setters a))

/-- A record meets the pass criteria (R160). -/
def State.passes (s : State) (g : Segment) : Bool :=
  g.kind == .panel && g.causes.isEmpty && g.regPleat && !s.settersUnknown &&
    s.rosterSetters.all (fun a => inMask g.setters a)

/-! ## Ceiling and target speed -/

/-- The station's own ceiling: the role unit's contribution, or v_line_max with none in force (R36). -/
def State.ownCeiling (s : State) : Nat :=
  let contribution : Option Nat := match s.role with
    | some .unwind => some s.unwindCeiling
    | some .pleat => s.patternCeiling
    | some .setter => s.heatCeiling
    | some .outfeed => s.outfeedCeiling
    | none => none
  contribution.getD s.cfg.lineMax

/-- The advertised ceiling (R36). -/
def State.advertisedCeiling (s : State) : Nat :=
  if s.mode = .active then min s.ownCeiling (min s.gov.vOp s.cfg.lineMax) else 0

/-- The target speed v_t (R37). -/
def State.targetSpeed (s : State) : Nat :=
  if s.mode == .active && !s.holdKnown && s.rosterOthers.all (fun a => (s.peer a).runs) && s.compositionValid then
    (s.rosterOthers.map (fun a => (s.peer a).ceiling)).foldl min (min s.gov.vOp (min s.cfg.lineMax s.ownCeiling))
  else 0

end Sys2Proof.Machine
end

