-- ==== Sys2Proof/Machine/Operands.lean ====
section
/-! DEFINITION. The operand forms of the block: the code lists, the kinds table and the telegram bodies
(R208, R214 to R216, chapter Telegram Reference). -/

namespace Sys2Proof.Machine

open Sys2Proof

/-! ## Code lists -/

/-- Mode code of a pulse; the modes below JOINING send no pulse. -/
def Mode.code (m : Mode) : Nat :=
  match m with
  | .joining => 0
  | .active => 1
  | .tripped => 2
  | .standby => 3
  | .powerUp | .configuring | .configFault => 0

/-- The mode of a pulse's mode code. -/
def modeOfCode (n : Nat) : Option Mode :=
  match n with
  | 0 => some .joining
  | 1 => some .active
  | 2 => some .tripped
  | 3 => some .standby
  | _ => none

def Role.code (r : Role) : Nat :=
  match r with
  | .unwind => 0
  | .pleat => 1
  | .setter => 2
  | .outfeed => 3

def SegKind.code (k : SegKind) : Nat :=
  match k with
  | .panel => 0
  | .leader => 1
  | .splice => 2
  | .untracked => 3

/-- A segment kind code above 3 is read as UNTRACKED (R216). -/
def segKindOfCode (n : Nat) : SegKind :=
  match n with
  | 0 => .panel
  | 1 => .leader
  | 2 => .splice
  | _ => .untracked

/-- Hold-cause codes. BUS_OFF is not advertised and has none (R33); 6 stands outside the set's six bits. -/
def HoldCause.code (h : HoldCause) : Nat :=
  match h with
  | .operator => 0
  | .noOrders => 1
  | .lotWait => 2
  | .rollOut => 3
  | .regLost => 4
  | .mapFull => 5
  | .busOff => 6

/-- The six advertised hold causes, in the order of their codes. -/
def advertisedHolds : List HoldCause := [.operator, .noOrders, .lotWait, .rollOut, .regLost, .mapFull]

def TripCause.code (t : TripCause) : Nat :=
  match t with
  | .estopInput => 0
  | .knifeJam => 1
  | .knifeStall => 2
  | .accumEmpty => 3
  | .spliceFail => 4
  | .dupAddress => 5
  | .terminal => 6
  | .peer => 7

def RejectCause.code (c : RejectCause) : Nat :=
  match c with
  | .cancelled => 0
  | .measureStale => 1
  | .mispleat => 2
  | .knifeLimited => 3
  | .shortened => 4
  | .underSet => 5
  | .overSet => 6
  | .joined => 7
  | .gateLate => 8
  | .unregistered => 9

/-- The ten reject causes, in the order of their codes. -/
def allRejects : List RejectCause :=
  [.cancelled, .measureStale, .mispleat, .knifeLimited, .shortened, .underSet, .overSet, .joined, .gateLate,
    .unregistered]

/-- The reject causes of a set field; bits 10 to 15 are not read (R216). -/
def rejectsOfBits (n : Nat) : List RejectCause := allRejects.filter (fun c => n.testBit c.code)

/-- The hold causes of a pulse's set field; bits 6 and 7 name none. -/
def holdsOfBits (n : Nat) : List HoldCause := advertisedHolds.filter (fun h => n.testBit h.code)

def Verdict.code (v : Verdict) : Nat :=
  match v with
  | .set => 0
  | .underDose => 1
  | .overDose => 2
  | .underOver => 3
  | .notJudged => 4

/-- A verdict code above 4 is read as NOT_JUDGED (R216). -/
def verdictOfCode (n : Nat) : Verdict :=
  match n with
  | 0 => .set
  | 1 => .underDose
  | 2 => .overDose
  | 3 => .underOver
  | _ => .notJudged

def MeasureStatus.code (m : MeasureStatus) : Nat :=
  match m with
  | .ok => 0
  | .noPattern => 1
  | .badField => 2
  | .tooLong => 3
  | .tooShort => 4

def UploadStatus.code (u : UploadStatus) : Nat :=
  match u with
  | .none => 0
  | .active => 1
  | .pending => 2
  | .abandoned => 3
  | .sequence => 4
  | .badStep => 5

def SpliceState.code (x : SpliceState) : Nat :=
  match x with
  | .run => 0
  | .prefill => 1
  | .spliceWait => 2
  | .stopOld => 3
  | .paste => 4
  | .startNew => 5
  | .recover => 6

def RollResult.code (r : RollResult) : Nat :=
  match r with
  | .none => 0
  | .badField => 1
  | .busy => 2
  | .notTaken => 3
  | .threaded => 4
  | .splice => 5
  | .loaded => 6

def ChamberState.code (c : ChamberState) : Nat :=
  match c with
  | .cold => 0
  | .warming => 1
  | .readyHeat => 2
  | .parked => 3

def RefusalReason.code (r : RefusalReason) : Nat :=
  match r with
  | .field => 1
  | .duplicate => 2
  | .born => 3
  | .cancelled => 4
  | .full => 5

def Group.code (g : Group) : Nat :=
  match g with
  | .link => 0
  | .web => 1
  | .heat => 2
  | .roll => 3

def RestartCause.code (r : RestartCause) : Nat :=
  match r with
  | .powerOn => 0
  | .restart => 1

/-! ## Conditions by code -/

/-- The condition code of a flag (chapter Conditions and Attention). -/
def Cond.code (c : Cond) : Nat :=
  match c with
  | .peerLate => 0
  | .peerLost => 1
  | .busFault => 2
  | .busOff => 3
  | .rxOverrun => 4
  | .straySender => 5
  | .dupAddress => 6
  | .seqGap => 7
  | .markMissed => 8
  | .regLost => 9
  | .mapFull => 10
  | .strokeLate => 11
  | .knifeLimit => 12
  | .gateLate => 13
  | .orderRefused => 14
  | .noOrders => 15
  | .zoneCut _ => 16
  | .sensorFault _ => 17
  | .steamLow => 18
  | .underSet => 19
  | .overSet => 20
  | .speedFloor => 21
  | .rollLow => 22
  | .rollOut => 23
  | .lotMismatch => 24
  | .spliceAbort => 25
  | .accumDrift => 26
  | .rollRefused => 27

/-- The group of a flag. -/
def Cond.group (c : Cond) : Group :=
  if c.code ≤ 7 then .link else if c.code ≤ 15 then .web else if c.code ≤ 21 then .heat else .roll

/-- The bit of a flag in its group's CONDITION NOTICE. -/
def Cond.bit (c : Cond) : Nat :=
  match c with
  | .zoneCut z => z
  | .sensorFault ch => 4 + ch
  | .steamLow => 12
  | .underSet => 13
  | .overSet => 14
  | .speedFloor => 15
  | .peerLate | .peerLost | .busFault | .busOff | .rxOverrun | .straySender | .dupAddress | .seqGap => c.code
  | .markMissed | .regLost | .mapFull | .strokeLate | .knifeLimit | .gateLate | .orderRefused | .noOrders =>
    c.code - 8
  | .rollLow | .rollOut | .lotMismatch | .spliceAbort | .accumDrift | .rollRefused => c.code - 22

/-- The latched condition that a CONDITION ACK's code names, ZONE_CUT apart; a level condition, a code outside 0..27 and
ZONE_CUT give none (R179). -/
def latchedOfCode (n : Nat) : Option Cond :=
  match n with
  | 1 => some .peerLost
  | 2 => some .busFault
  | 4 => some .rxOverrun
  | 5 => some .straySender
  | 6 => some .dupAddress
  | 7 => some .seqGap
  | 8 => some .markMissed
  | 9 => some .regLost
  | 10 => some .mapFull
  | 11 => some .strokeLate
  | 12 => some .knifeLimit
  | 13 => some .gateLate
  | 14 => some .orderRefused
  | 19 => some .underSet
  | 20 => some .overSet
  | 25 => some .spliceAbort
  | 26 => some .accumDrift
  | 27 => some .rollRefused
  | _ => none

/-! ## The kinds table (R208) -/

/-- Who may send a kind. -/
inductive Origins where
  | stations | terminals | either
  deriving DecidableEq, Repr

def Kind.code (k : Kind) : Nat :=
  match k with
  | .trip => 0
  | .tripClear => 1
  | .hold => 2
  | .release => 3
  | .handoff => 4
  | .speedSet => 5
  | .linePulse => 6
  | .doseVerdict => 7
  | .panelDone => 8
  | .orderMeasure => 9
  | .cancel => 10
  | .conditionNotice => 11
  | .conditionAck => 12
  | .panelOrder => 13
  | .patternFragment => 14
  | .recipe => 15
  | .rollData => 16
  | .standby => 17
  | .wake => 18
  | .restart => 19

/-- The kind of a kind code; the codes 20..31 name none. -/
def kindOfCode (n : Nat) : Option Kind :=
  match n with
  | 0 => some .trip
  | 1 => some .tripClear
  | 2 => some .hold
  | 3 => some .release
  | 4 => some .handoff
  | 5 => some .speedSet
  | 6 => some .linePulse
  | 7 => some .doseVerdict
  | 8 => some .panelDone
  | 9 => some .orderMeasure
  | 10 => some .cancel
  | 11 => some .conditionNotice
  | 12 => some .conditionAck
  | 13 => some .panelOrder
  | 14 => some .patternFragment
  | 15 => some .recipe
  | 16 => some .rollData
  | 17 => some .standby
  | 18 => some .wake
  | 19 => some .restart
  | _ => none

/-- The class of a kind; the lower number is the more urgent. -/
def Kind.cls (k : Kind) : Nat :=
  match k with
  | .trip | .tripClear => 0
  | .hold | .release | .handoff | .speedSet => 1
  | .linePulse | .doseVerdict | .panelDone | .orderMeasure | .cancel => 2
  | .conditionNotice | .conditionAck | .panelOrder | .patternFragment | .recipe | .rollData | .standby | .wake
  | .restart => 3

/-- The origins of a kind. -/
def Kind.origins (k : Kind) : Origins :=
  match k with
  | .trip => .either
  | .handoff | .linePulse | .doseVerdict | .panelDone | .orderMeasure | .conditionNotice => .stations
  | .tripClear | .hold | .release | .speedSet | .cancel | .conditionAck | .panelOrder | .patternFragment | .recipe
  | .rollData | .standby | .wake | .restart => .terminals

/-- The take table: a role takes a kind into its receive queue. A TRIP goes to the trip latch (R207). -/
def Kind.takenBy (k : Kind) (r : Role) : Bool :=
  match k with
  | .trip | .panelDone | .conditionNotice => false
  | .orderMeasure | .rollData => r == .unwind
  | .panelOrder | .patternFragment => r == .pleat
  | .recipe => r == .setter
  | .tripClear | .hold | .release | .handoff | .speedSet | .linePulse | .doseVerdict | .cancel | .conditionAck
  | .standby | .wake | .restart => true

/-- The body lengths a kind admits. A PATTERN FRAGMENT's follows from its own control byte (R215). -/
def lengthAdmitted (k : Kind) (body : List Byte) : Bool :=
  match k with
  | .trip => body.length == 1
  | .tripClear | .hold | .release | .standby | .wake | .restart => body.length == 0
  | .handoff => body.length == 22
  | .speedSet | .conditionAck => body.length == 2
  | .linePulse | .conditionNotice => body.length == 15
  | .doseVerdict | .recipe => body.length == 17
  | .panelDone => body.length == 20
  | .orderMeasure => body.length == 23
  | .cancel => body.length == 4
  | .panelOrder => body.length == 9
  | .rollData => body.length == 14
  | .patternFragment =>
    let control := fieldAt body 2 1
    let held := (control / 16) % 8
    held ≤ 4 && 3 ≤ body.length &&
      (if control % 8 == 0 then body.length == 8 + 5 * held else body.length == 3 + 5 * held)

/-! ## HANDOFF -/

/-- The body of a HANDOFF as its rule queues it: the record's fields, with the length and the pleated and new_seq flags that
R8 gives, and the overshoot still 0 (R9). -/
def handoffBody (g : Segment) (length : Nat) (pleated newSeq : Bool) : List Byte :=
  bytesOf 2 g.seg.toNat ++ bytesOf 1 g.kind.code ++ bytesOf 4 ((g.panelId.getD 0).toNat) ++
    bytesOf 1 (g.pattern.getD 0) ++ bytesOf 1 g.recipe ++ bytesOf 2 ((g.lot.getD 0).toNat) ++ bytesOf 4 length ++
    bytesOf 1 (pleated.toNat + 2 * g.regPleat.toNat + 4 * newSeq.toNat) ++ bytesOf 2 g.setters.toNat ++
    bytesOf 2 (bitsOf (g.causes.map RejectCause.code)) ++ bytesOf 2 0

/-- Stamps the overshoot into a HANDOFF body (R9). -/
def stampOvershoot (body : List Byte) (overshoot : Nat) : List Byte :=
  body.take 20 ++ bytesOf 2 (saturate 65535 overshoot)

/-- The record a HANDOFF body describes, placed at `arrival` (R13, R216). Fields a kind does not have are absent, and only
a PANEL carries a recipe (R4). -/
def readHandoff (body : List Byte) (uid : Nat) (arrival : Word) : Segment :=
  let kind := segKindOfCode (fieldAt body 2 1)
  let recipe := fieldAt body 8 1
  let flags := fieldAt body 15 1
  { uid := uid
    seg := BitVec.ofNat 16 (fieldAt body 0 2)
    kind := kind
    panelId := if kind = .panel then some (BitVec.ofNat 32 (fieldAt body 3 4)) else none
    pattern := if kind = .panel then some (fieldAt body 7 1) else none
    recipe := if kind = .panel ∧ recipe ≤ 16 then recipe else 0
    lot := if kind = .panel ∨ kind = .leader then some (BitVec.ofNat 16 (fieldAt body 9 2)) else none
    length := fieldAt body 11 4
    arrival := arrival
    pleated := flags.testBit 0
    regPleat := flags.testBit 1
    setters := BitVec.ofNat 16 (fieldAt body 16 2) &&& 0xFFFE
    causes := rejectsOfBits (fieldAt body 18 2)
    newSeq := flags.testBit 2 }

/-! ## PATTERN FRAGMENT -/

/-- One step of a fragment, at a byte offset. -/
def readStep (body : List Byte) (offset : Nat) : PatternStep :=
  let word := fieldAt body (offset + 2) 2
  { pitch := fieldAt body offset 2
    depth := word % 32768
    blade := if word.testBit 15 then .right else .left
    count := fieldAt body (offset + 4) 1 }

/-- The steps a fragment carries, from a byte offset on. -/
def readSteps (body : List Byte) (offset : Nat) : Nat → List PatternStep
  | 0 => []
  | k + 1 => readStep body offset :: readSteps body (offset + 5) k

/-- A step's fields lie in the ranges of R49 and R54. -/
def PatternStep.inRange (p : PatternStep) : Bool :=
  50 ≤ p.pitch && p.pitch ≤ 1000 && p.depth ≤ 2 * p.pitch && 1 ≤ p.count && p.count ≤ 255

/-- A pattern number in range, or none (R53, R55). -/
def patternNumber (n : Nat) : Option Nat := if 1 ≤ n ∧ n ≤ 32 then some n else none

end Sys2Proof.Machine
end

