-- ==== Sys2Proof/Machine/Flags.lean ====
section
/-! DEFINITION. The transmit queue and the condition unit: queueing, displacement and loss of telegrams, risings and falls of
the condition flags, group summaries and notices, hold causes, and the LINE PULSE (R25 to R27, R33, R172 to R181, R210 to
R212). -/

namespace Sys2Proof.Machine

open Sys2Proof

/-! ## Group records -/

/-- The record of a group (R175). -/
def CondUnit.record (c : CondUnit) (g : Group) : GroupRecord :=
  match g with
  | .link => c.link
  | .web => c.web
  | .heat => c.heat
  | .roll => c.roll

/-- Loads the record of a group. -/
def setRecord (g : Group) (r : GroupRecord) (s : State) : State :=
  s.withCond (match g with
    | .link => { s.cond with link := r }
    | .web => { s.cond with web := r }
    | .heat => { s.cond with heat := r }
    | .roll => { s.cond with roll := r })

/-- The group of a group code. -/
def groupOfCode (n : Nat) : Group :=
  match n with
  | 0 => .link
  | 1 => .web
  | 2 => .heat
  | _ => .roll

/-- The body of a CONDITION NOTICE, built from the state held now (R176). -/
def noticeBody (g : Group) (s : State) : List Byte :=
  let flags := bitsOf ((s.cond.flags.filter (fun c => c.group = g)).map Cond.bit)
  let counters := match g with
    | .link => bytesOf 2 s.cond.checkErrors ++ bytesOf 2 s.cond.overruns ++ bytesOf 2 s.cond.straySenders
    | .web => bytesOf 2 s.cond.strayMarks ++ bytesOf 2 s.cond.missedMarks ++ bytesOf 2 s.cond.limitedStrokes
    | .heat | .roll => bytesOf 6 0
  let refusal := match g, s.order.refusal with
    | .web, some (id, reason) => bytesOf 4 id.toNat ++ bytesOf 1 reason.code
    | _, _ => bytesOf 5 0
  bytesOf 1 g.code ++ bytesOf 1 s.loader.restartCause.code ++ bytesOf 2 flags ++ counters ++ refusal

/-! ## The transmit queue -/

/-- Enters a telegram behind those of its class and the more urgent ones (R210). -/
def insertByClass (e : TxEntry) : List TxEntry → List TxEntry
  | [] => [e]
  | x :: xs => if x.kind.cls ≤ e.kind.cls then x :: insertByClass e xs else e :: x :: xs

/-- Takes the first waiting telegram out of a list. -/
def takeWaiting : List TxEntry → Option (TxEntry × List TxEntry)
  | [] => none
  | x :: xs =>
    if x.inTransmission then (takeWaiting xs).map (fun r => (r.1, x :: r.2)) else some (x, xs)

/-- Loads the transmit queue. -/
def setTx (l : List TxEntry) (s : State) : State := s.withBus { s.bus with tx := l }

/-- A CONDITION NOTICE has left the queue untransmitted: its group's notice is PENDING again (R178). -/
def noticeRemoved (e : TxEntry) (s : State) : State :=
  if e.kind = .conditionNotice then
    let g := groupOfCode (fieldAt e.body 0 1)
    setRecord g { s.cond.record g with notice := .pending, later := false } s
  else s

/-- Queues a telegram: into a free place, or by displacing the newest waiting telegram of the highest class number when that
lies above its own, or else it is lost (R210, R212). -/
def queueTx (e : TxEntry) (s : State) : State :=
  if s.bus.tx.length < 8 then setTx (insertByClass e s.bus.tx) s
  else
    match takeWaiting s.bus.tx.reverse with
    | none => s
    | some (d, rest) =>
      if e.kind.cls < d.kind.cls then noticeRemoved d (setTx (insertByClass e rest.reverse) s) else s

/-- Offers a group's notice: it is built and enters a queue with a free place, else it stays PENDING (R177). -/
def offerNotice (g : Group) (s : State) : State :=
  if s.bus.tx.length < 8 then
    setRecord g { s.cond.record g with notice := .queued }
      (setTx (insertByClass { kind := .conditionNotice, dest := 0, body := noticeBody g s } s.bus.tx) s)
  else setRecord g { s.cond.record g with notice := .pending } s

/-- At a freeing of a place the first PENDING notice in the order LINK, WEB, HEAT, ROLL is offered (R177). -/
def offerPending (s : State) : State :=
  match [Group.link, .web, .heat, .roll].find? (fun g => (s.cond.record g).notice == .pending) with
  | some g => offerNotice g s
  | none => s

/-- A group's notice has been transmitted (R178). -/
def noticeCompleted (g : Group) (s : State) : State :=
  let r := s.cond.record g
  if r.later then offerNotice g (setRecord g { r with later := false } s)
  else setRecord g { r with summary := false, notice := .none } s

/-! ## Condition flags -/

/-- A condition's flag is set. -/
def State.flagged (s : State) (c : Cond) : Bool := c ∈ s.cond.flags

/-- A condition code is reported and not masked (R175). -/
def State.reported (s : State) (c : Cond) : Bool := s.cfg.reportMask.getLsbD c.code

/-- What a rising of a reported member does to its group (R175). -/
def reportRising (c : Cond) (s : State) : State :=
  if s.reported c then
    let g := c.group
    let r := s.cond.record g
    match r.notice with
    | .none => offerNotice g (setRecord g { r with summary := true } s)
    | .pending => setRecord g { r with summary := true } s
    | .queued => setRecord g { r with summary := true, later := true } s
  else s

/-- Sets the flags held. -/
def setFlags (l : List Cond) (s : State) : State := s.withCond { s.cond with flags := l }

/-- Sets a condition. A flag already set changes nothing; a rising is reported, and in STANDBY a wake falls due
(R172, R175, R181). -/
def raise (c : Cond) (s : State) : State :=
  if s.flagged c then s
  else
    let t := reportRising c (setFlags (s.cond.flags ++ [c]) s)
    if t.mode = .standby then t.withCond { t.cond with wakeDue := true } else t

/-- Clears a condition. A fall is not reported (R172). -/
def fall (c : Cond) (s : State) : State := setFlags (removeAll c s.cond.flags) s

/-- A level condition follows its cause (R173). -/
def follow (c : Cond) (cause : Bool) (s : State) : State := if cause then raise c s else fall c s

/-- Clears a condition and sets it again at once: a rising for the group and its notice, not for the wake (R174). -/
def reassert (c : Cond) (s : State) : State :=
  reportRising c (setFlags (removeAll c s.cond.flags ++ [c]) s)

/-! ## Hold causes (R33) -/

/-- Sets a hold cause. -/
def setHold (h : HoldCause) (s : State) : State := s.withGov { s.gov with holds := insertNew h s.gov.holds }

/-- Clears a hold cause. -/
def clearHold (h : HoldCause) (s : State) : State := s.withGov { s.gov with holds := removeAll h s.gov.holds }

/-- A hold cause follows its condition. -/
def followHold (h : HoldCause) (cause : Bool) (s : State) : State := if cause then setHold h s else clearHold h s

/-! ## The LINE PULSE (R25 to R27) -/

/-- The four role bytes (R27). -/
def roleBytes (s : State) : List Byte :=
  match s.role with
  | some .pleat =>
    bytesOf 2 s.advertisedRatio ++ bytesOf 1 (s.pattern.uploadPattern.getD 0) ++ bytesOf 1 s.pattern.uploadStatus.code
  | some .unwind =>
    bytesOf 1 s.order.queue.length ++ bytesOf 1 s.roll.spliceState.code ++ bytesOf 1 s.roll.statusArm ++
      bytesOf 1 s.roll.statusResult.code
  | some .setter => bytesOf 1 s.heat.chamber.code ++ bytesOf 3 0
  | some .outfeed | none => bytesOf 4 0

/-- The attention summaries, LINK in bit 0 (R175). -/
def attentionBits (s : State) : Nat :=
  s.cond.link.summary.toNat + 2 * s.cond.web.summary.toNat + 4 * s.cond.heat.summary.toNat + 8 * s.cond.roll.summary.toNat

/-- The pulse period of a mode in ms (R25). -/
def pulsePeriod (m : Mode) : Nat := if m = .standby then 250 else 25

/-- The body of a LINE PULSE, built from the state held now (R26). -/
def pulseBody (s : State) : List Byte :=
  bytesOf 1 s.mode.code ++ bytesOf 1 ((s.role.map Role.code).getD 0) ++ bytesOf 2 s.advertisedCeiling ++
    bytesOf 2 s.gov.vA ++ bytesOf 1 (bitsOf ((advertisedHolds.filter (fun h => h ∈ s.gov.holds)).map HoldCause.code)) ++
    bytesOf 1 (bitsOf (s.gov.trips.map TripCause.code)) ++
    bytesOf 1 (attentionBits s + 16 * s.loader.restartCause.code + 32 * (if s.mode = .standby then 1 else 0)) ++
    bytesOf 1 s.mapCount ++ bytesOf 1 s.gov.sequence.toNat ++ roleBytes s

/-- A LINE PULSE waits in the queue. -/
def TxEntry.waitingPulse (e : TxEntry) : Bool := e.kind == .linePulse && !e.inTransmission

/-- Queues a LINE PULSE: it takes the place of a pulse that waits, or enters as a new telegram (R211); the sequence number is
incremented after it (R26). -/
def queuePulse (s : State) : State :=
  let e : TxEntry := { kind := .linePulse, dest := 0, body := pulseBody s }
  let t :=
    if s.bus.tx.any TxEntry.waitingPulse then
      setTx (s.bus.tx.map (fun x => if x.waitingPulse then e else x)) s
    else queueTx e s
  t.withGov { t.gov with sequence := t.gov.sequence + 1 }

/-- Starts the pulse timer at the period of the mode (R25). -/
def startPulseTimer (s : State) : State :=
  s.withGov { s.gov with pulseTimer := some (pulsePeriod s.mode) }

/-- At a change of mode a pulse is queued and the pulse timer restarted (R25). -/
def pulseForMode (s : State) : State := startPulseTimer (queuePulse s)

end Sys2Proof.Machine
end

