-- ==== Sys2Proof/Machine/Heat.lean ====
section
/-! DEFINITION. The heat-set unit: channel samples and faults, chamber transitions, setpoints, over-temperature cuts, zone
control, dose, cells and judging (R125 to R151, R156). The merging of a verdict into the map is in
Sys2Proof.Machine.Web. -/

namespace Sys2Proof.Machine

open Sys2Proof

/-- Loads a channel's record. -/
def setChannel (n : Nat) (x : Channel) (s : State) : State :=
  s.withHeat { s.heat with channels := s.heat.channels.set n x }

/-- A zone's record. -/
def State.zone (s : State) (z : Nat) : Zone := s.heat.zones.getD z {}

/-- Loads a zone's record. -/
def setZone (z : Nat) (x : Zone) (s : State) : State := s.withHeat { s.heat with zones := s.heat.zones.set z x }

/-! ## Samples and faults (R125, R126) -/

/-- A raw sample at the ends of the range is bad (R125). -/
def badSample (raw : Nat) : Bool := raw ≤ 16 || 4080 ≤ raw

/-- The scaled value of a raw sample (R125). -/
def scaleSample (x : Scaling) (raw : Nat) : Int := x.offset + (raw * x.span / 4095 : Nat)

/-- A channel's record after a sample, before its fault state is judged (R125, R126). -/
def Channel.sample (c : Channel) (x : Scaling) (raw : Nat) : Channel :=
  if badSample raw then { c with bad := saturate 4 (c.bad + 1), good := 0 }
  else { c with value := some (scaleSample x raw), bad := 0, good := if c.faulted then saturate 10 (c.good + 1) else c.good }

/-- The fourth consecutive bad sample declares a used channel faulted; its zone's valve closes (R126, R138). -/
def declareFault (n : Nat) (s : State) : State :=
  if s.usesChannel n && 4 ≤ (s.channel n).bad && !(s.channel n).faulted then
    let t := raise (.sensorFault n) (setChannel n { s.channel n with faulted := true } s)
    if t.is .setter && n < t.heat.zones.length then setZone n { t.zone n with valve := 0 } t else t
  else s

/-- The tenth consecutive good sample of a faulted channel clears its fault (R126). -/
def clearFault (n : Nat) (s : State) : State :=
  if s.usesChannel n && 10 ≤ (s.channel n).good && (s.channel n).faulted then
    fall (.sensorFault n) (setChannel n { s.channel n with faulted := false } s)
  else s

/-- Takes the sample of one channel; samples of unused channels are discarded (R124). -/
def takeSample (n : Nat) (raw : Nat) (s : State) : State :=
  if s.usesChannel n then setChannel n ((s.channel n).sample (s.cfg.scaling.getD n {}) raw) s else s

/-- Takes the eight samples of a scan. -/
def takeSamples (samples : List (BitVec 12)) (s : State) : State :=
  (List.range 8).foldl (fun t n => takeSample n (samples.getD n 0).toNat t) s

/-- Judges the fault state of every channel after a scan. -/
def judgeFaults (s : State) : State := (List.range 8).foldl (fun t n => clearFault n (declareFault n t)) s

/-! ## Chamber state (R130 to R134) -/

/-- Loads the chamber state; the band count starts again at an entry to WARMING, and the park timer runs in READY_HEAT only
(R132, R133). -/
def setChamber (c : ChamberState) (s : State) : State :=
  s.withHeat { s.heat with
    chamber := c
    bandCount := if c = .warming then 0 else s.heat.bandCount
    parkTimer := none }

/-- READY_HEAT at standstill without line demand: the park timer runs, or with t_park 0 the chamber parks at once; otherwise
it is stopped (R133). -/
def parkTest (s : State) : State :=
  if s.heat.chamber = .readyHeat then
    if s.gov.vA == 0 && !s.lineDemand then
      if running s.heat.parkTimer then s
      else if s.cfg.setter.parkTime = 0 then setChamber .parked s
      else s.withHeat { s.heat with parkTimer := some s.cfg.setter.parkTime }
    else s.withHeat { s.heat with parkTimer := none }
  else s

/-- PARKED goes to WARMING at line demand (R134). -/
def demandTest (s : State) : State :=
  if s.heat.chamber = .parked ∧ s.lineDemand then setChamber .warming s else s

/-- Loads every zone's setpoint in force (R130). -/
def loadSetpoints (s : State) : State :=
  s.withHeat { s.heat with zones := s.heat.zones.mapIdx (fun z x => { x with sp := s.setpoint z }) }

/-- SPEED_FLOOR follows the floor speed and the applied speed (R154). -/
def speedFloorTest (s : State) : State := follow .speedFloor (0 < s.floorSpeed && s.gov.vA < s.floorSpeed) s

/-- What the heat-set unit makes again at each change of a figure it reads, in the SETTER. -/
def refreshHeat (s : State) : State :=
  if s.is .setter && s.operating then speedFloorTest (loadSetpoints (demandTest (parkTest s))) else s

/-- Enters READY_HEAT (R132). -/
def enterReadyHeat (s : State) : State := parkTest (setChamber .readyHeat s)

/-- The band test of a completed scan in WARMING (R132). -/
def bandScan (s : State) : State :=
  if s.heat.chamber = .warming then
    if s.bandTest then
      let t := s.withHeat { s.heat with bandCount := s.heat.bandCount + 1 }
      if 200 ≤ t.heat.bandCount then enterReadyHeat t else t
    else s.withHeat { s.heat with bandCount := 0 }
  else s

/-- The chamber at an entry of the station to ACTIVE: COLD goes to WARMING (R131). -/
def warmChamber (s : State) : State :=
  if s.is .setter && s.heat.chamber == .cold then setChamber .warming s else s

/-! ## Valves, control and cuts (R136 to R141) -/

/-- Sets every steam valve output to 0 (R138, R42). -/
def closeValves (s : State) : State :=
  s.withHeat { s.heat with zones := s.heat.zones.map (fun x => { x with valve := 0 }) }

/-- Cuts a zone (R139). -/
def cutZone (z : Nat) (s : State) : State :=
  raise (.zoneCut z) (setZone z { s.zone z with cut := true, valve := 0, overCount := 0 } s)

/-- The over-temperature test of one zone at a completed scan (R139). -/
def overTempZone (z : Nat) (s : State) : State :=
  let x := s.zone z
  let hot : Bool := match s.zoneTemp z with
    | some t => s.overLimit x.sp < t
    | none => false
  if hot then
    let t := setZone z { x with overCount := saturate 4 (x.overCount + 1) } s
    if !x.cut && s.cfg.setter.cutFilter ≤ x.overCount + 1 then cutZone z t else t
  else setZone z { x with overCount := 0 } s

/-- The over-temperature test of every zone. -/
def overTempTest (s : State) : State := (List.range s.cfg.setter.zones).foldl (fun t z => overTempZone z t) s

/-- In CYCLE mode a cut zone at or below its limit less 30 dK is restored (R140). -/
def restoreZone (z : Nat) (s : State) : State :=
  let x := s.zone z
  match s.zoneTemp z with
  | some t =>
    if x.cut && !s.cfg.setter.latchMode && t ≤ s.overLimit x.sp - 30 then setZone z { x with cut := false } s else s
  | none => s

/-- The control computation of one zone with its temperature, from its effective setpoint (R137). -/
def Zone.control (x : Zone) (kp ki : Nat) (t : Int) : Zone :=
  let e := x.spEff - t
  let p := (kp * e).tdiv 64
  let step := (ki * e).tdiv 64
  let windup := (x.output = 1000 ∧ 0 < e) ∨ (x.output = 0 ∧ e < 0)
  let i : Int := if windup then x.integral else limitInt 0 1000 (x.integral + step)
  let u := (limitInt 0 1000 (p + i)).toNat
  { x with integral := i.toNat, output := u, valve := u }

/-- One zone at a control boundary (R136 to R140). -/
def controlZone (z : Nat) (s : State) : State :=
  let t := setZone z { s.zone z with spEff := s.effectiveSetpoint (s.zone z).sp } s
  let u := restoreZone z t
  match u.zoneTemp z with
  | none => setZone z { u.zone z with output := 0, valve := 0 } u
  | some temp =>
    if u.valveHeld z then setZone z { u.zone z with output := 0, valve := 0 } u
    else setZone z ((u.zone z).control s.cfg.setter.kp s.cfg.setter.ki temp) u

/-- Every zone at a control boundary. -/
def controlZones (s : State) : State := (List.range s.cfg.setter.zones).foldl (fun t z => controlZone z t) s

/-- STEAM_LOW follows the steam pressure on channel 4 (R142). -/
def steamTest (s : State) : State :=
  follow .steamLow (match s.channelValue 4 with
    | some p => p < s.cfg.setter.pMin
    | none => true) s

/-! ## Dose (R144) -/

/-- A cell after a dose tick in a zone of temperature `t`. -/
def Cell.tick (c : Cell) (above : Nat) (t : Int) : Cell :=
  { c with
    dose := saturate 4294967295 (c.dose + above)
    peak := some (match c.peak with
      | some p => max p t
      | none => t) }

/-- The dose tick of the cell line: each cell adds its zone's figure; a faulted zone adds nothing (R144). -/
def doseTick (s : State) : State :=
  s.withHeat { s.heat with
    cells := s.heat.cells.mapIdx (fun k c => match s.zoneTemp (s.cfg.setter.zoneOfCell k) with
      | some t => c.tick (s.aboveBase t) t
      | none => c) }

/-! ## Judging (R146, R147, R149) -/

/-- A cell refers to a record. -/
def Cell.refers (c : Cell) (uid : Nat) : Bool := c.lead.any (fun r => r.uid == uid) || c.trail.any (fun r => r.uid == uid)

/-- The entry of a segment after a leaving cell has been judged for it (R149). -/
def Judgement.judge (j : Judgement) (c : Cell) (r : Option Recipe) : Judgement :=
  { j with
    underFlag := j.underFlag || r.any (fun x => c.dose < x.doseMin)
    overFlag := j.overFlag || r.any (fun x => x.doseMax < c.dose)
    unjudged := j.unjudged || r.isNone
    least := min j.least c.dose
    greatest := max j.greatest c.dose
    peak := match j.peak, c.peak with
      | some a, some b => some (max a b)
      | some a, none => some a
      | none, b => b }

/-- Judges a leaving cell for one reference: passed over when the segment is no longer held, is no PANEL with a recipe, or has
its entry CLOSED; an entry is made when none is held (R148, R149). -/
def judgeRef (c : Cell) (r : SegRef) (s : State) : State :=
  match s.held r.uid with
  | none => s
  | some g =>
    if g.kind ≠ .panel ∨ g.recipe = 0 then s
    else
      let entry := s.recipeEntry g.recipe
      match s.heat.judgements.find? (fun j => j.ref.uid == g.uid) with
      | some j =>
        if j.closed then s
        else s.withHeat { s.heat with
          judgements := s.heat.judgements.map (fun x => if x.ref.uid == g.uid then x.judge c entry else x) }
      | none =>
        let fresh : Judgement :=
          { ref := g.ref, closed := false, underFlag := false, overFlag := false, unjudged := false, least := c.dose,
            greatest := c.dose, peak := none }
        s.withHeat { s.heat with judgements := s.heat.judgements ++ [fresh.judge c entry] }

/-- Judges a leaving cell for each distinct segment it refers to (R149). -/
def judgeCell (c : Cell) (s : State) : State :=
  let t := match c.lead with
    | some r => judgeRef c r s
    | none => s
  match c.trail with
  | some r => if c.lead = some r then t else judgeRef c r t
  | none => t

/-- The verdict of an entry's flags (R150). -/
def Judgement.verdict (j : Judgement) : Verdict :=
  if j.underFlag then (if j.overFlag then .underOver else .underDose)
  else if j.overFlag then .overDose
  else if j.unjudged then .notJudged
  else .set

/-- The references of a new cell 0 whose upstream edge is `edge` (R146). -/
def State.newCell (s : State) (edge : Word) : Cell :=
  let low := edge - dmm s.cfg.setter.cell
  let overlap := s.web.map.filter (fun g => g.kind ≠ .untracked && !atOrPast g.arrival edge && !atOrPast low g.trail)
  { lead := overlap.head?.map Segment.ref
    trail := match overlap with
      | _ :: _ :: _ => overlap.getLast?.map Segment.ref
      | _ => none }

/-- The heat-set unit at the removal of a segment: its judgement entry is removed (R151). -/
def dropSegHeat (uid : Nat) (s : State) : State :=
  s.withHeat { s.heat with judgements := s.heat.judgements.filter (fun j => j.ref.uid ≠ uid) }

end Sys2Proof.Machine
end

