-- ==== Sys2Proof/Machine/Knife.lean ====
section
/-! DEFINITION. The knife sequencer and the pattern table's activations: runs, folds, strokes, depth moves, promotion, what a
trip and the clearing of drive enable do to them (R56, R57, R61 to R71). -/

namespace Sys2Proof.Machine

open Sys2Proof

/-! ## Slots -/

/-- Loads a slot of the pattern table. -/
def setSlot (number : Nat) (x : PatternSlot) (s : State) : State :=
  s.withPattern { s.pattern with slots := s.pattern.slots.set (number - 1) x }

/-- Makes a copy the active copy of a slot, discarding its pending copy and incrementing the version (R49, R56, R57). -/
def PatternSlot.activate (x : PatternSlot) (c : PatternCopy) : PatternSlot :=
  { active := some c, pending := none, version := x.version + 1 }

/-- Promotes a slot's pending copy, and the upload status that names it (R57). -/
def promote (number : Nat) (s : State) : State :=
  match (s.slot number).pending with
  | none => s
  | some c =>
    let t := setSlot number ((s.slot number).activate c) s
    if t.pattern.uploadPattern = some number ∧ t.pattern.uploadStatus = .pending then
      t.withPattern { t.pattern with uploadStatus := .active }
    else t

/-! ## Marks -/

/-- A fold skipped, dropped or late: MISPLEAT on the panel and STROKE_LATE latched (R62, R63, R65). -/
def misfold (uid : Nat) (s : State) : State := raise .strokeLate (markSeg uid .mispleat s)

/-! ## Depth moves (R67, R68) -/

/-- Starts a depth move when there is a next pleat at another depth, the knife is IDLE, no move is in flight and the knife
drive may act (R67). -/
def startMove (s : State) : State :=
  match s.depthWanted with
  | none => s
  | some d =>
    if s.pattern.stroke.isNone && s.pattern.move.isNone && s.knifeDrive && s.pattern.depth ≠ some d then
      s.withPattern { s.pattern with
        move := some { target := d, timer := some (s.moveTime (depthChange s.pattern.depth d)) } }
    else s

/-- Drive enable is cleared: a move in flight is abandoned and the depth becomes UNKNOWN (R68). -/
def abandonMove (s : State) : State :=
  if s.pattern.move.isSome then s.withPattern { s.pattern with move := none, depth := none } else s

/-! ## Strokes (R64, R65) -/

/-- Begins the stroke of a pleat of the open run. `late` is false for a stroke begun at its fold event, whose lateness is 0
(R64, R65). -/
def beginStroke (k : Nat) (late : Bool) (s : State) : State :=
  match s.pattern.run, s.runPleats[k]? with
  | some r, some p =>
    let t := s.withPattern { s.pattern with
      stroke := some
        { ref := r.ref, pleat := k, blade := p.blade, start := s.position, limited := false,
          timer := some (2 * s.cfg.pleat.strokeTime) } }
    match late, t.held r.ref.uid with
    | true, some g =>
      if s.cfg.pleat.lateTol < (s.position - s.foldPoint g p).toNat then misfold r.ref.uid t else t
    | _, _ => t
  | _, _ => s

/-- The knife is IDLE, no move is in flight, the knife drive may act, and the actuator stands at the depth of pleat `k`. -/
def State.strokeReady (s : State) (k : Nat) : Bool :=
  s.pattern.stroke.isNone && s.pattern.move.isNone && s.knifeDrive && s.pattern.depth.isSome &&
    s.pattern.depth == (s.runPleats[k]?).map Pleat.depth

/-- At a stroke end or move end: the held fold is stroked when the actuator stands at its depth, else a move is started when
one is wanted (R63, R64, R68). -/
def afterKnife (s : State) : State :=
  match s.pattern.heldFold with
  | some k =>
    if s.strokeReady k then beginStroke k true (s.withPattern { s.pattern with heldFold := none }) else startMove s
  | none => startMove s

/-- Makes the knife IDLE and releases the stroke output (R64). -/
def idleKnife (s : State) : State := s.withPattern { s.pattern with stroke := none }

/-! ## Runs (R61, R62) -/

/-- Drops a held fold with its marks (R62, R71). -/
def dropHeldFold (s : State) : State :=
  match s.pattern.heldFold, s.pattern.run with
  | some _, some r => misfold r.ref.uid (s.withPattern { s.pattern with heldFold := none })
  | _, _ => s

/-- Ends the open run: a held fold is dropped and a pending copy of its slot is promoted. A stroke or move in flight goes
on (R62). -/
def endRun (s : State) : State :=
  match s.pattern.run with
  | none => s
  | some r =>
    let t := dropHeldFold s
    promote r.slot (t.withPattern { t.pattern with run := none })

/-- What a run binds for a segment: the slot's active copy and the n recovered from the record length (R61). -/
def State.bindFor (s : State) (g : Segment) : Option Bound :=
  let x := s.slot (g.pattern.getD 0)
  match x.active with
  | none => none
  | some c => (c.recoverRepeats g.length).map (fun n => { copy := c, version := x.version, repeats := n })

/-- Starts the knife run of a held PANEL whose lead has reached the knife line (R61). -/
def startRun (g : Segment) (s : State) : State :=
  let t := updateSeg g.uid (fun x => { x with ran := true }) (endRun s)
  let bound := t.bindFor g
  let run : KnifeRun :=
    { ref := g.ref, panelId := g.panelId, slot := g.pattern.getD 0, bound := bound, nextPleat := 0 }
  match bound with
  | some b =>
    let length := ((b.copy.pleated b.repeats + g.length : Nat) : Int) - b.copy.flat b.repeats
    startMove (t.withPattern { t.pattern with
      run := some run, pleatedLengths := t.pattern.pleatedLengths ++ [{ ref := g.ref, length := length.toNat }] })
  | none => markSeg g.uid .measureStale (t.withPattern { t.pattern with run := some run })

/-- Takes the fold event of the run's next pleat (R63). -/
def takeFold (s : State) : State :=
  match s.pattern.run with
  | none => s
  | some r =>
    let k := r.nextPleat
    let t := s.withPattern { s.pattern with run := some { r with nextPleat := k + 1 } }
    if !t.knifeDrive then misfold r.ref.uid t
    else if t.strokeReady k then beginStroke k false t
    else if t.pattern.heldFold.isNone then startMove (t.withPattern { t.pattern with heldFold := some k })
    else misfold r.ref.uid t

/-! ## Trip and drive enable -/

/-- At the entry to TRIPPED: a stroke in flight is cut short and a held fold dropped; a move goes on (R71). -/
def tripKnife (s : State) : State :=
  let t := match s.pattern.stroke with
    | some k => markSeg k.ref.uid .mispleat (idleKnife s)
    | none => s
  dropHeldFold t

/-- The role units end what they hold for a removed segment: the pattern unit (R62, R72). -/
def dropSegKnife (uid : Nat) (s : State) : State :=
  let t := match s.pattern.run with
    | some r => if r.ref.uid = uid then endRun s else s
    | none => s
  t.withPattern { t.pattern with pleatedLengths := t.pattern.pleatedLengths.filter (fun x => x.ref.uid ≠ uid) }

end Sys2Proof.Machine
end

