-- ==== Sys2Proof/Machine/Outfeed.lean ====
section
/-! DEFINITION. The outfeed unit: the gate, boundaries and cuts, the open piece and its decisions, joining, delivery and panel
outcomes (R157 to R168, R170). -/

namespace Sys2Proof.Machine

open Sys2Proof

/-- Loads the open piece. -/
def setPiece (p : Option Piece) (s : State) : State := s.withOutfeed { s.outfeed with piece := p }

/-- Loads the gate. -/
def setGate (g : Gate) (s : State) : State := s.withOutfeed { s.outfeed with gate := g }

/-! ## The gate (R161) -/

/-- The gate stands at a target or is TRAVELLING toward it. -/
def Gate.headsFor (g : Gate) (target : GatePos) : Bool :=
  match g with
  | .resting p => p == target
  | .travelling t _ => t == target
  | .unknown => false

/-- The gate is TRAVELLING. -/
def Gate.moving (g : Gate) : Bool :=
  match g with
  | .travelling _ _ => true
  | .resting _ | .unknown => false

/-- Moves the gate toward a target unless it stands there or is on its way. No move begins while drive enable is clear
(R161). -/
def moveGate (target : GatePos) (s : State) : State :=
  if s.outfeed.gate.headsFor target || !s.gov.driveEnable then s
  else setGate (.travelling target s.cfg.outfeed.gateTime) s

/-- The level of the position input of a gate position. -/
def Pins.gateInput (p : Pins) (pos : GatePos) : Bool :=
  match pos with
  | .pass => p.gatePass
  | .divert => p.gateDivert

/-- At a setting of drive enable: the input of the position held is read, and the gate moves to the position required of the
open piece, or to DIVERT with none (R161). -/
def gateAtDriveSet (s : State) : State :=
  let t := match s.outfeed.gate with
    | .resting p => if s.pins.gateInput p then s else setGate .unknown s
    | .travelling _ _ | .unknown => s
  moveGate ((t.outfeed.piece.map Piece.required).getD .divert) t

/-- At the clearing of drive enable: a cut stroke ends, and a gate move in flight is abandoned with the gate UNKNOWN
(R170). -/
def outfeedDriveClear (s : State) : State :=
  let t := s.withOutfeed { s.outfeed with cutTimer := none }
  if t.outfeed.gate.moving then setGate .unknown t else t

/-! ## Marks -/

/-- A PANEL gains GATE_LATE, and the condition is latched (R162 to R164). -/
def markGateLate (uid : Nat) (s : State) : State := raise .gateLate (markSeg uid .gateLate s)

/-- The held PANEL an open piece's content names. -/
def State.contentPanel (s : State) (c : Content) : Option Segment :=
  match c with
  | .gap => none
  | .seg r => match s.held r.uid with
    | some g => if g.kind = .panel then some g else none
    | none => none

/-- The held segment a content names. -/
def State.contentSeg (s : State) (c : Content) : Option Segment :=
  match c with
  | .gap => none
  | .seg r => s.held r.uid

/-- A content meets the pass criteria (R160). -/
def State.contentPasses (s : State) (c : Content) : Bool := (s.contentSeg c).any s.passes

/-! ## Outcome (R166 to R168) -/

/-- The body of a PANEL DONE, built after the counts have been incremented (R167). -/
def panelDoneBody (g : Segment) (good : Bool) (d : Option Decision) (s : State) : List Byte :=
  bytesOf 2 g.seg.toNat ++ bytesOf 4 ((g.panelId.getD 0).toNat) ++ bytesOf 1 (if good then 0 else 1) ++
    bytesOf 2 (bitsOf (g.causes.map RejectCause.code)) ++ bytesOf 1 ((d.map Decision.regPleat).getD false).toNat ++
    bytesOf 2 ((d.map Decision.missing).getD 0).toNat ++ bytesOf 4 s.outfeed.good.toNat ++ bytesOf 4 s.outfeed.reject.toNat

/-- Decides the outcome of a PANEL: its count is incremented and a PANEL DONE queued (R166 to R168). -/
def panelOutcome (g : Segment) (good : Bool) (d : Option Decision) (s : State) : State :=
  let t := s.withOutfeed (if good then { s.outfeed with good := s.outfeed.good + 1 }
    else { s.outfeed with reject := s.outfeed.reject + 1 })
  queueTx { kind := .panelDone, dest := 0, body := panelDoneBody g good d t } t

/-! ## Time left (R162, R163) -/

/-- A length leaves too little time for a gate move at the speed held. -/
def State.tooLittle (s : State) (length : Nat) : Bool :=
  0 < s.gov.vA && length * 1000 < s.cfg.outfeed.gateTime * s.gov.vA

/-- The nearest distance from a point to a held segment's lead past it (R159). -/
def State.gapLength (s : State) (point : Word) : Option Nat :=
  (s.web.map.filter (fun g => atOrPast g.arrival point && g.arrival ≠ point)).foldl
    (fun best g =>
      let d := (g.arrival - point).toNat
      match best with
      | none => some d
      | some b => some (min b d)) none

/-! ## Pieces (R159, R162) -/

/-- The decision record of a content (R159). -/
def State.decisionFor (s : State) (c : Content) : Option Decision :=
  (s.contentPanel c).map (fun g => { regPleat := g.regPleat, missing := s.missingSetters g })

/-- Opens a new piece at a cut made and decides it (R159, R162). `edge` is the web point of the boundary, as an entry
count. -/
def openPiece (c : Content) (edge : Word) (s : State) : State :=
  let met := s.contentPasses c
  let required : GatePos := if met then .pass else .divert
  let p : Piece :=
    { content := c, required := required, joined := false, skip := false, decision := s.decisionFor c, met := met }
  let short : Bool := match c with
    | .seg r => ((s.held r.uid).map (fun g => s.tooLittle g.length)).getD false
    | .gap => ((s.gapLength edge).map s.tooLittle).getD false
  if s.outfeed.gate.headsFor required then setPiece (some p) s
  else if short then
    let t := moveGate .divert (setPiece (some { p with required := .divert, skip := true }) s)
    match s.contentPanel c with
    | some g => if met then markGateLate g.uid t else markSeg g.uid .joined t
    | none => t
  else moveGate required (setPiece (some p) s)

/-- Joins across a skipped boundary: the PANELs on either side are marked first, the leaving PANEL's outcome is REJECT, and the
piece goes on with what the boundary opens (R164, R166). With no open piece one is opened already joined (R158). -/
def joinPiece (entering : Content) (s : State) : State :=
  let enteringPasses := s.contentPasses entering
  let leaving := s.outfeed.piece.bind (fun p => (s.contentPanel p.content).map (fun g => (p, g)))
  let t := match leaving with
    | some (p, g) =>
      if s.passes g ∧ p.required = .pass then markGateLate g.uid s
      else if RejectCause.gateLate ∈ g.causes then s
      else markSeg g.uid .joined s
    | none => s
  let u := match s.contentPanel entering with
    | some g => if enteringPasses then markGateLate g.uid t else markSeg g.uid .joined t
    | none => t
  let v := match leaving with
    | some (p, g) => panelOutcome ((u.held g.uid).getD g) false p.decision u
    | none => u
  let piece : Piece :=
    { content := entering, required := .divert, joined := true, skip := false, decision := v.decisionFor entering,
      met := false }
  moveGate .divert (setPiece (some piece) v)

/-- The outcome of the open piece's PANEL at a cut made at its trail (R165, R166). -/
def deliverPiece (s : State) : State :=
  match s.outfeed.piece with
  | none => s
  | some p =>
    match s.contentPanel p.content with
    | none => s
    | some g =>
      panelOutcome g (!p.joined && p.required == .pass && s.outfeed.gate == .resting .pass) p.decision s

/-- Takes a boundary: the cut is made when drive enable is set, the knife IDLE, the gate at rest and the open piece without
the skip mark; otherwise it is skipped and the piece joined (R158, R164, R165). -/
def takeBoundary (entering : Content) (edge : Word) (s : State) : State :=
  let skip := (s.outfeed.piece.map Piece.skip).getD false
  if s.gov.driveEnable && s.outfeed.cutTimer.isNone && !s.outfeed.gate.moving && !skip then
    let t := deliverPiece s
    openPiece entering edge (t.withOutfeed { t.outfeed with cutTimer := some s.cfg.outfeed.cutTime })
  else joinPiece entering s

/-- Re-tests the pass criteria of the open piece and acts on a change of outcome (R163). -/
def retestPiece (s : State) : State :=
  match s.outfeed.piece with
  | none => s
  | some p =>
    let now := s.contentPasses p.content
    if p.joined || p.skip || now == p.met then s
    else if !now then moveGate .divert (setPiece (some { p with required := .divert, met := false }) s)
    else
      match s.contentSeg p.content with
      | none => s
      | some g =>
        let travel := (g.trail + dmm s.cfg.outfeed.cut - s.position).toNat
        if s.tooLittle travel then markGateLate g.uid s
        else moveGate .pass (setPiece (some { p with required := .pass, met := true }) s)

/-- The outfeed unit at the removal of a segment: a PANEL that is the content of the open piece has outcome REJECT (R166). -/
def dropSegOutfeed (g : Segment) (s : State) : State :=
  match s.outfeed.piece with
  | none => s
  | some p =>
    if p.content = .seg g.ref ∧ g.kind = .panel then panelOutcome g false p.decision s else s

end Sys2Proof.Machine
end

