-- ==== Sys2Proof/Machine/Web.lean ====
section
/-! DEFINITION. The web tracker: removal, placement, registration, handoffs, merging, and the cell shift of the heat-set
unit, which merges its verdicts here (R5 to R22, R145, R150). -/

namespace Sys2Proof.Machine

open Sys2Proof

/-! ## Removal and placement (R6, R10, R13) -/

/-- Removes a held segment: its role units end what they hold for it, and a capture window open for it closes without a
miss (R6, R10, R19). -/
def removeSeg (uid : Nat) (s : State) : State :=
  match s.held uid with
  | none => s
  | some g =>
    let t := dropSegKnife uid (dropSegHeat uid (dropSegOutfeed g s))
    t.withWeb { t.web with
      map := t.web.map.filter (fun x => x.uid ≠ uid)
      window := if t.web.window.any (fun r => r.uid == uid) then none else t.web.window
      closing := !t.web.window.any (fun r => r.uid == uid) && t.web.closing }

/-- The segment ahead after the segment behind it has taken a lead past its own lead: an overlap is cut, a gap of 1..20 dmm
closed; a PANEL cut by more than 20 dmm gains SHORTENED (R6). -/
def Segment.adjustTo (a : Segment) (lead : Word) : Segment :=
  let overlap := signedDiff a.trail lead
  let joined := { a with length := (lead - a.arrival).toNat }
  if 20 < overlap then (if a.kind = .panel then joined.mark .shortened else joined)
  else if -20 ≤ overlap ∧ overlap ≠ 0 then joined
  else a

/-- The placement rule for a held segment with a new lead (R6). -/
def placeRule (uid : Nat) (s : State) : State :=
  match s.held uid with
  | none => s
  | some b =>
    let ahead := (s.web.map.takeWhile (fun g => g.uid ≠ uid)).reverse
    let covered := fun (a : Segment) => atOrPast a.arrival b.arrival
    let t := (ahead.takeWhile covered).foldl (fun t a => removeSeg a.uid t) s
    match ahead.dropWhile covered with
    | [] => t
    | a :: _ => updateSeg a.uid (fun x => x.adjustTo b.arrival) t

/-- Appends a segment as the upstream-most one, with a record of its own. -/
def appendSeg (g : Segment) (s : State) : State :=
  s.withWeb { s.web with map := s.web.map ++ [{ g with uid := s.web.nextUid }], nextUid := s.web.nextUid + 1 }

/-- Places a received segment: superseded segments are removed, the segment appended and the placement rule applied (R13). -/
def placeSegment (g : Segment) (s : State) : State :=
  let t := (s.web.map.filter (fun h => atOrPast h.arrival g.arrival)).foldl (fun t h => removeSeg h.uid t) s
  placeRule t.web.nextUid (appendSeg g t)

/-! ## Registration (R15 to R19) -/

/-- REG_LOST is latched and holds the line (R19). -/
def latchRegLost (s : State) : State := setHold .regLost (raise .regLost s)

/-- Closes the open window with no mark inside it: the miss is counted (R19). -/
def closeWindowMiss (s : State) : State :=
  match s.web.window with
  | none => s
  | some r =>
    let a := s.withWeb { s.web with window := none, closing := false, missCount := min 2 (s.web.missCount + 1) }
    let b := a.withCond { a.cond with missedMarks := saturate 65535 (a.cond.missedMarks + 1) }
    let c := raise .markMissed (if b.is .pleat then markSeg r.uid .unregistered b else b)
    if 2 ≤ c.web.missCount then latchRegLost c else c

/-- Opens the capture window of a PANEL; a window already open closes first (R16). -/
def openWindow (g : Segment) (s : State) : State :=
  let t := updateSeg g.uid (fun x => { x with opened := true }) (closeWindowMiss s)
  t.withWeb { t.web with window := some g.ref, closing := false }

/-- The closing point of the open window has been reached with its candidate mark inside: the closing waits for that candidate
(R16). -/
def holdClosing (s : State) : State := s.withWeb { s.web with closing := true }

/-- The opening point of a PANEL's window (R16). -/
def State.openPoint (s : State) (g : Segment) : Word := g.arrival + dmm s.cfg.sensor - dmm s.cfg.wBefore

/-- The closing point of a PANEL's window (R16). -/
def State.closePoint (s : State) (g : Segment) : Word := g.arrival + dmm s.cfg.sensor + dmm s.cfg.wAfter

/-- An edge lies inside the open window: the PANEL whose window it is (R16). -/
def State.windowOf (s : State) (edge : Word) : Option Segment :=
  match s.web.window with
  | none => none
  | some r => match s.held r.uid with
    | some g => if atOrPast edge (s.openPoint g) && atOrPast (s.closePoint g) edge then some g else none
    | none => none

/-- Moves a segment and every segment held behind it (R17). -/
def shiftFrom (uid : Nat) (d : Word) (s : State) : State :=
  s.withWeb { s.web with
    map := s.web.map.takeWhile (fun g => g.uid ≠ uid) ++
      (s.web.map.dropWhile (fun g => g.uid ≠ uid)).map (fun g => { g with arrival := g.arrival + d }) }

/-- Delivers an accepted mark with its edge: inside the open window it corrects the map, elsewhere it is stray (R17,
R18). -/
def acceptMark (edge : Word) (s : State) : State :=
  match s.windowOf edge with
  | none => s.withCond { s.cond with strayMarks := saturate 65535 (s.cond.strayMarks + 1) }
  | some g =>
    let a := shiftFrom g.uid (edge - (g.arrival + dmm s.cfg.sensor)) s
    let b := a.withWeb { a.web with window := none, closing := false, missCount := 0 }
    placeRule g.uid (if b.is .pleat then updateSeg g.uid (fun x => { x with regPleat := true }) b else b)

/-! ## Handoffs (R8, R9) -/

/-- The length a HANDOFF carries: in the PLEAT the pleated length recorded for the PANEL, else the record's (R8, R72). -/
def State.handoffLength (s : State) (g : Segment) : Nat :=
  if s.is .pleat then
    match s.pattern.pleatedLengths.find? (fun x => x.ref.uid == g.uid) with
    | some x => x.length
    | none => g.length
  else g.length

/-- Queues the HANDOFF of a segment and sets handed; the OUTFEED sets handed alone (R8). -/
def sendHandoff (g : Segment) (s : State) : State :=
  if s.is .outfeed then updateSeg g.uid (fun x => { x with handed := true }) s
  else
    let body := handoffBody g (s.handoffLength g) (s.is .pleat || g.pleated) (g.newSeq || s.web.firstSend)
    let t := queueTx
      { kind := .handoff, dest := s.cfg.downstream, body := body, exitPoint := g.arrival + s.exitOffset } s
    let u := updateSeg g.uid (fun x => { x with handed := true, pleated := t.is .pleat || x.pleated }) t
    let v := u.withWeb { u.web with firstSend := false }
    v.withPattern { v.pattern with pleatedLengths := v.pattern.pleatedLengths.filter (fun x => x.ref.uid ≠ g.uid) }

/-! ## Merging (R20, R21) -/

/-- What a verdict does to a matching segment (R20). -/
def Segment.merge (g : Segment) (v : Verdict) (origin : Nat) : Segment :=
  match v with
  | .set => { g with setters := g.setters ||| maskOf [origin] }
  | .underDose => g.mark .underSet
  | .overDose => g.mark .overSet
  | .underOver => (g.mark .underSet).mark .overSet
  | .notJudged => g

/-- A verdict's seg id and panel id match a segment (R20). -/
def Segment.matches (g : Segment) (seg : Half) (panelId : Word) : Bool :=
  g.seg == seg && g.kind ≠ .untracked && (g.kind ≠ .panel || g.panelId == some panelId)

/-- Merges a verdict into every matching held segment (R20). -/
def mergeVerdict (seg : Half) (panelId : Word) (v : Verdict) (origin : Nat) (s : State) : State :=
  s.withWeb { s.web with
    map := s.web.map.map (fun g => if g.matches seg panelId then g.merge v origin else g) }

/-- Enters a panel id in the cancel list: the 4 most recent, newest last (R21). -/
def enterCancel (id : Word) (l : List Word) : List Word :=
  let kept := removeAll id l ++ [id]
  kept.drop (kept.length - 4)

/-- Marks every held PANEL of a panel id CANCELLED and enters the id in the cancel list (R21). -/
def cancelPanel (id : Word) (s : State) : State :=
  s.withWeb { s.web with
    map := s.web.map.map (fun g => if g.kind = .panel ∧ g.panelId = some id then g.mark .cancelled else g)
    cancelList := enterCancel id s.web.cancelList }

/-! ## The cell shift (R145, R149, R150) -/

/-- The two bytes of a peak temperature; a peak outside the signed 16-bit field is sent as a free value (log entry 9). -/
def peakField (peak : Option Int) : Half :=
  let p := peak.getD (-500)
  if -32768 ≤ p ∧ p ≤ 32767 then BitVec.ofInt 16 p else Config.unstatedPeak p

/-- The body of a DOSE VERDICT (R150). -/
def verdictBody (j : Judgement) (g : Segment) : List Byte :=
  bytesOf 2 j.ref.seg.toNat ++ bytesOf 4 ((g.panelId.getD 0).toNat) ++ bytesOf 1 j.verdict.code ++ bytesOf 4 j.least ++
    bytesOf 4 j.greatest ++ bytesOf 2 (peakField j.peak).toNat

/-- Closes an entry: the DOSE VERDICT is queued, UNDER_SET and OVER_SET latched, the verdict merged into the own copy (R150; in the
order of the rule's words, log entry 54). DESIGN CHOICE, unsafe (log entry 53): at UNDER_OVER UNDER_SET rises first, so its notice
shows it alone and OVER_SET is the later rising. -/
def closeEntry (j : Judgement) (g : Segment) (s : State) : State :=
  let v := j.verdict
  let a := queueTx { kind := .doseVerdict, dest := 0, body := verdictBody j g } s
  let b := if v = .underDose ∨ v = .underOver then raise .underSet a else a
  let c := if v = .overDose ∨ v = .underOver then raise .overSet b else b
  let d := mergeVerdict g.seg (g.panelId.getD 0) v s.cfg.address c
  d.withHeat { d.heat with
    judgements := d.heat.judgements.map (fun x => if x.ref.uid == g.uid then { x with closed := true } else x) }

/-- Closes the OPEN entries whose segment's trail the leaving cell holds or has passed, downstream-most first (R150). -/
def closeEntries (c : Cell) (edge : Word) (s : State) : State :=
  s.web.map.foldl
    (fun t g =>
      match t.heat.judgements.find? (fun j => j.ref.uid == g.uid && !j.closed) with
      | none => t
      | some j => if !c.refers g.uid || atOrPast edge g.trail then closeEntry j g t else t) s

/-- One shift of the cell line: the leaving cell is judged and discarded, entries close, the cells move up and a new cell 0 is
made (R145, R146, R149, R150). -/
def shiftCells (s : State) : State :=
  let a := s.cfg.setter
  let anchor := s.heat.shiftAnchor + dmm a.cell
  let edge := anchor - dmm a.entry
  let t := match s.heat.cells.getLast? with
    | some c => closeEntries c (edge - dmm (a.cells * a.cell)) (judgeCell c s)
    | none => s
  t.withHeat { t.heat with cells := t.newCell edge :: t.heat.cells.dropLast, shiftAnchor := anchor }

end Sys2Proof.Machine
end

