-- ==== Sys2Proof/Machine/Orders.lean ====
section
/-! DEFINITION. The order unit: admission and refusal, the order wait, births (R78 to R93). -/

namespace Sys2Proof.Machine

open Sys2Proof

/-! ## The order wait (R91 to R93) -/

/-- Sets the order wait with the hold cause and the level condition that follow it (R93). -/
def setWait (w : OrderWait) (s : State) : State :=
  let t := s.withOrder { s.order with wait := w }
  let u := followHold .lotWait (w == .lotWait) (followHold .noOrders (w == .noOrders) t)
  follow .lotMismatch (w == .lotWait) (follow .noOrders (w == .noOrders) u)

/-- Re-evaluates a wait that stands, by the first line of R92 that applies. -/
def reviewWait (s : State) : State :=
  if s.order.wait = .none then s
  else if s.order.queue.isEmpty then setWait .noOrders s
  else
    match s.activeLot with
    | none => s
    | some lot => if s.order.queue.any (fun o => o.lot == lot) then setWait .none s else setWait .lotWait s

/-! ## Admission (R79, R80) and cancel (R81) -/

/-- An order measured OK, as the body gives it. -/
structure Measured where
  panelId : Word
  pattern : Nat
  repeats : Nat
  recipe : Nat
  lot : Half
  flat : Nat
  pleated : Nat
  strokes : Nat
  deriving DecidableEq, Repr

/-- The fields of an ORDER MEASURE body (chapter Telegram Reference). -/
def readMeasured (b : List Byte) : Measured :=
  { panelId := BitVec.ofNat 32 (fieldAt b 0 4), pattern := fieldAt b 4 1, repeats := fieldAt b 5 1,
    recipe := fieldAt b 6 1, lot := BitVec.ofNat 16 (fieldAt b 7 2), flat := fieldAt b 10 4, pleated := fieldAt b 14 4,
    strokes := fieldAt b 18 4 }

/-- The fields of a measure lie in the ranges of R80. -/
def Measured.inRange (m : Measured) : Bool :=
  1 ≤ m.pattern && m.pattern ≤ 32 && 1 ≤ m.repeats && m.repeats ≤ 99 && 1 ≤ m.recipe && m.recipe ≤ 16 &&
    1000 ≤ m.flat && m.flat ≤ 200000 && 1000 ≤ m.pleated && m.pleated ≤ m.flat && m.strokes ≠ 0

/-- Why an order is refused, by the first test of R80 that applies. -/
def State.refusalOf (s : State) (m : Measured) : Option RefusalReason :=
  if !m.inRange then some .field
  else if s.order.queue.any (fun o => o.panelId == m.panelId) then some .duplicate
  else if s.web.map.any (fun g => g.kind == .panel && g.panelId == some m.panelId) then some .born
  else if m.panelId ∈ s.web.cancelList then some .cancelled
  else if 32 ≤ s.order.queue.length then some .full
  else none

/-- Admits a measured order at the tail of the queue, or refuses it with ORDER_REFUSED and a refusal record (R80, R92). -/
def admitOrder (m : Measured) (s : State) : State :=
  match s.refusalOf m with
  | some reason => raise .orderRefused (s.withOrder { s.order with refusal := some (m.panelId, reason) })
  | none =>
    reviewWait (s.withOrder { s.order with
      queue := s.order.queue ++
        [{ panelId := m.panelId, pattern := m.pattern, recipe := m.recipe, lot := m.lot, flat := m.flat }] })

/-- Removes a queued order of a panel id and re-evaluates the wait (R81, R92). -/
def cancelOrder (id : Word) (s : State) : State :=
  if s.order.queue.any (fun o => o.panelId == id) then
    reviewWait (s.withOrder { s.order with queue := s.order.queue.filter (fun o => o.panelId ≠ id) })
  else s

/-! ## Births (R82 to R90) -/

/-- A birth is due: the position is at or past the birth point, or a birth that came due is held back (R82, R83). -/
def State.birthDue (s : State) : Bool :=
  s.order.birthHeld || atOrPast s.position (s.order.anchor + dmm s.cfg.unwind.punch)

/-- The holds that keep a due birth back (R83). -/
def State.birthBlocked (s : State) : Bool := 48 ≤ s.mapCount || s.activeArm.isNone || s.order.fence

/-- The segment a birth makes, before its arrival and length are known to the map (R85). -/
inductive Born where
  | splice
  | panel (o : Order)
  | leader
  deriving DecidableEq, Repr

/-- What is born, by the first line of R85 that applies. -/
def State.bornNow (s : State) : Born :=
  if s.order.spliceRequest then .splice
  else
    match s.activeLot with
    | none => .leader
    | some lot => match s.order.queue.find? (fun o => o.lot == lot) with
      | some o => .panel o
      | none => .leader

/-- The record of a segment born at an arrival (R85, R90). -/
def State.bornSegment (s : State) (b : Born) (arrival : Word) : Segment :=
  let base : Segment := { seg := s.order.nextSeg, arrival := arrival, newSeq := s.order.newSequence }
  match b with
  | .splice => { base with kind := .splice, length := s.cfg.unwind.spliceLen }
  | .panel o =>
    { base with
      kind := .panel, panelId := some o.panelId, pattern := some o.pattern, recipe := o.recipe, lot := some o.lot,
      length := o.flat }
  | .leader => { base with kind := .leader, lot := s.activeLot, length := s.cfg.unwind.leaderLen }

/-- What a birth does in the order unit and the roll unit beside the map: request and fence, queue, punch and wait
(R85, R86, R88, R89, R91). -/
def afterBirth (b : Born) (seg : Half) (arrival : Word) (s : State) : State :=
  match b with
  | .splice =>
    let t := s.withOrder { s.order with spliceRequest := false, fence := true }
    t.withRoll { t.roll with spliceMiddle := some (seg, arrival + dmm (s.cfg.unwind.spliceLen / 2)) }
  | .panel o =>
    setWait .none (s.withOrder { s.order with
      queue := s.order.queue.filter (fun x => x.panelId ≠ o.panelId), punches := s.order.punches + 1 })
  | .leader => setWait (if s.order.queue.isEmpty then .noOrders else .lotWait) s

/-- Makes a birth: on time at the anchor, or delayed with its lead at the punch and the placement rule applied (R82, R83,
R85). -/
def makeBirth (s : State) : State :=
  let delayed := s.order.birthHeld
  let arrival := if delayed then s.position - dmm s.cfg.unwind.punch else s.order.anchor
  let b := s.bornNow
  let g := s.bornSegment b arrival
  let uid := s.web.nextUid
  let t := appendSeg g s
  let u := if delayed then placeRule uid t else t
  let v := u.withOrder { u.order with
    anchor := arrival + dmm g.length
    nextSeg := u.order.nextSeg + 1
    newSequence := false
    birthHeld := false
    stall := .none }
  afterBirth b g.seg arrival v

/-- A map stall at standstill: MAP_FULL is latched and the contribution withdrawn (R84). -/
def stallAtStandstill (s : State) : State :=
  if s.order.stall = .contributing ∧ s.gov.vA = 0 then
    raise .mapFull (s.withOrder { s.order with stall := .withdrawn })
  else s

/-- A due birth is held back; held by the map stall it supplies a ceiling contribution of 0 (R83, R84). -/
def holdBirth (s : State) : State :=
  let stall := if 48 ≤ s.mapCount ∧ s.order.stall = .none then MapStall.contributing else s.order.stall
  stallAtStandstill (s.withOrder { s.order with birthHeld := true, stall := stall })

/-- The map stall ends with room in the map (R84). -/
def endStall (s : State) : State := s.withOrder { s.order with stall := .none }

end Sys2Proof.Machine
end

