-- ==== Sys2Proof/Machine/Rolls.lean ====
section
/-! DEFINITION. The roll unit: arms, measuring, ROLL conditions, the splice sequence with its aborts, the unwind
(R96 to R122). -/

namespace Sys2Proof.Machine

open Sys2Proof

/-- Loads an arm's record. -/
def setArm (a : ArmName) (x : Arm) (s : State) : State :=
  s.withRoll (match a with
    | .arm1 => { s.roll with arm1 := x }
    | .arm2 => { s.roll with arm2 := x })

/-- The level of an arm's ready input. -/
def Pins.ready (p : Pins) (a : ArmName) : Bool :=
  match a with
  | .arm1 => p.ready1
  | .arm2 => p.ready2

/-- The number of an arm. -/
def armNumber (a : ArmName) : Nat :=
  match a with
  | .arm1 => 1
  | .arm2 => 2

/-- ROLL_LOW and ROLL_OUT with its hold cause follow the ACTIVE arm's remaining length (R105). DESIGN CHOICE, unsafe (log entry 53):
where both rise at one evaluation, ROLL_LOW rises first, so its notice shows it alone and ROLL_OUT is the later rising. -/
def rollConditions (s : State) : State :=
  let low := s.activeRemaining.any (fun l => l ≤ s.cfg.unwind.reserve)
  let out := s.activeRemaining.any (fun l => l ≤ s.cfg.unwind.coreGuard) && s.roll.spliceState == .run &&
    s.activeArm.any (fun a => (s.arm (otherArm a)).state ≠ .ready)
  followHold .rollOut out (follow .rollOut out (follow .rollLow low s))

/-! ## The splice sequence (R114, R120, R121) -/

/-- Starts a splice that brings in an arm (R114). -/
def startSplice (a : ArmName) (s : State) : State :=
  let t := s.withRoll { s.roll with spliceState := .prefill, spliceArm := some a, spliceMiddle := none }
  rollConditions (t.withOrder { t.order with spliceRequest := true })

/-- The start test of a splice called by length (R114). -/
def spliceTest (s : State) : State :=
  match s.activeArm with
  | none => s
  | some a =>
    if s.roll.spliceState == .run && s.mode == .active && s.activeRemaining.any (fun l => l ≤ s.cfg.unwind.reserve) &&
        (s.arm (otherArm a)).state == .ready then
      startSplice (otherArm a) s
    else s

/-- The sequence returns to RUN: the splice arm is cleared, an untaken request withdrawn, the fence lifted, and the start test
made (R86, R87, R114, R120, R121). -/
def returnToRun (s : State) : State :=
  let t := s.withRoll { s.roll with spliceState := .run, spliceArm := none, spliceMiddle := none }
  spliceTest (rollConditions (t.withOrder { t.order with spliceRequest := false, fence := false }))

/-- The states in which a splice can be aborted (R121). -/
def SpliceState.abortable (x : SpliceState) : Bool :=
  match x with
  | .prefill | .spliceWait | .stopOld => true
  | .run | .paste | .startNew | .recover => false

/-- Aborts a splice (R121). -/
def abortSplice (s : State) : State := returnToRun (raise .spliceAbort s)

/-- Resolves the sequence at a trip or an entry to STANDBY (R122). -/
def resolveSplice (s : State) : State :=
  if s.roll.spliceState.abortable then returnToRun s
  else if s.roll.spliceState = .startNew then s.withRoll { s.roll with webTimer := none }
  else s

/-- PREFILL goes to SPLICE_WAIT (R115). -/
def State.prefillDone (s : State) : Bool :=
  s.roll.spliceState == .prefill && s.roll.spliceMiddle.isSome && s.cfg.unwind.fillSplice ≤ s.fill

/-- The stopping distance of the unwind, ceil(v_u² / (2 × a_unwind)) (R116). -/
def State.stoppingDistance (s : State) : Nat := ceilDiv (s.roll.vU * s.roll.vU) (2 * s.cfg.unwind.acceleration)

/-- SPLICE_WAIT goes to STOP_OLD (R116). -/
def State.stopOldDue (s : State) : Bool :=
  s.roll.spliceState == .spliceWait && s.cfg.unwind.fillSplice ≤ s.fill &&
    s.roll.spliceMiddle.any (fun m => signedDiff m.2 s.position ≤ s.stoppingDistance)

/-- In STOP_OLD the fill has reached fill_min or below: an abort (R121). -/
def State.stopOldLow (s : State) : Bool := s.roll.spliceState == .stopOld && s.fill ≤ s.cfg.unwind.fillMin

/-- RECOVER goes to RUN (R120). -/
def State.recovered (s : State) : Bool :=
  s.roll.spliceState == .recover && (s.cfg.unwind.fillNominal ≤ s.fill || s.activeArm.isNone)

/-- Enters a splice state, with the conditions that are evaluated at each change of it (R105). -/
def enterSplice (x : SpliceState) (s : State) : State := rollConditions (s.withRoll { s.roll with spliceState := x })

/-- Enters PASTE: the paste output is on for t_paste and the old arm is EXPIRING (R117). -/
def enterPaste (s : State) : State :=
  let t := match s.activeArm with
    | some a => setArm a { s.arm a with state := .expiring, lastSample := none, mark := none } s
    | none => s
  enterSplice .paste (t.withRoll { t.roll with
    pasteOutput := true, pasteTimer := some s.cfg.unwind.pasteTime })

/-- An arm becomes ACTIVE: from v_u 0, with no sample and no mark; it lifts the splice fence and re-evaluates the order wait
(R87, R92, R96, R99, R110; v_u at once: DEDUCED, log entry 28). -/
def activateArm (a : ArmName) (s : State) : State :=
  let t := setArm a { s.arm a with state := .active, lastSample := none, mark := none } s
  let u := t.withRoll { t.roll with vU := 0 }
  rollConditions (reviewWait (u.withOrder { u.order with fence := false }))

/-! ## Arms (R98, R100, R101) -/

/-- What an arm's loss does to a splice not yet pasted: the splice arm becoming LOADED or EMPTY, or the ACTIVE arm becoming
EMPTY, aborts it (R121). -/
def abortIf (cause : Bool) (s : State) : State :=
  if cause && s.roll.spliceState.abortable then abortSplice s else s

/-- The loads of a record from a ROLL DATA (R98). -/
def loadArm (a : ArmName) (lot : Half) (thickness core circumference : Nat) (s : State) : State :=
  let roll : Roll :=
    { lot := lot, thickness := thickness, core := core, circumference := circumference, verified := false,
      remaining := remainingLength circumference core thickness }
  setArm a { state := if s.pins.ready a then .ready else .loaded, roll := some roll } s

/-- An arm becomes EMPTY (R96, R101). Its conditions are evaluated before the abort (log entry 53, DESIGN CHOICE). -/
def emptyArm (a : ArmName) (s : State) : State :=
  let x := (s.arm a).state
  if x = .empty then s
  else
    let t := setArm a {} s
    let u := rollConditions t
    abortIf (x == .active || u.roll.spliceArm == some a) u

/-! ## Measuring (R102, R103) -/

/-- A roll with a new circumference and the remaining length computed from it (R104). -/
def Roll.measured (r : Roll) (c : Nat) : Roll :=
  { r with circumference := c, verified := true, remaining := remainingLength c r.core r.thickness }

/-- A sample agrees with a reference within 5% (R103). -/
def agrees (sample reference : Nat) : Bool :=
  100 * ((sample - reference) + (reference - sample)) ≤ 5 * reference

/-- A sample is accepted by the filter of R103. -/
def Arm.accepts (x : Arm) (r : Roll) (sample : Nat) : Bool :=
  if r.verified then agrees sample r.circumference
  else x.lastSample.any (fun l => agrees sample l)

/-- Filters a sample of the ACTIVE arm (R103). -/
def filterSample (a : ArmName) (sample : Nat) (s : State) : State :=
  let x := s.arm a
  match x.roll with
  | none => s
  | some r =>
    if x.accepts r sample then
      rollConditions (spliceTest (setArm a { x with roll := some (r.measured sample), lastSample := some sample } s))
    else setArm a { x with lastSample := some sample } s

/-- Takes a revolution pulse of an arm (R102). -/
def takeRevolution (a : ArmName) (s : State) : State :=
  let x := s.arm a
  if x.state ≠ .active then s
  else
    match x.mark with
    | none => setArm a { x with mark := some s.position } s
    | some m =>
      let sample := (s.position - m).toNat
      let t := setArm a { x with mark := some s.position } s
      if sample = 0 ∨ 2147483648 ≤ sample then t else filterSample a sample t

/-! ## Speeds at a ramp update (R109, R110, R112, R119) -/

/-- v_out, 100 times the outfeed travel over the last 10 ms, and the exit command (R109). DESIGN CHOICE, unsafe (log entry 48): the
exit command follows a new PLEAT ratio at the next ramp update, not at the taking of the LINE PULSE that carries it. -/
def measureOut (s : State) : State :=
  let history := (s.outCount :: s.roll.outHistory).take 11
  let travel := match history[10]? with
    | some old => (signedDiff s.outCount old).toNat
    | none => 0
  let exit := if s.gov.driveEnable then min 15000 (s.gov.vA * s.lineRatio / 4096) else 0
  s.withRoll { s.roll with outHistory := history, vOut := 100 * travel, exitCommand := exit }

/-- A speed moved toward a demand by at most a step. -/
def approach (step demand v : Nat) : Nat := if v ≤ demand then min demand (v + step) else max demand (v - step)

/-- v_u moved toward the unwind demand (R110). -/
def driveUnwind (s : State) : State :=
  s.withRoll { s.roll with vU := approach s.cfg.unwind.aUnwind s.unwindDemand s.roll.vU }

/-- In STOP_OLD the unwind standing enters PASTE, tested at the ramp update also with v_u already 0 (R117; DEDUCED, log entry 23). -/
def pasteTest (s : State) : State := if s.roll.spliceState = .stopOld ∧ s.roll.vU = 0 then enterPaste s else s

/-- In START_NEW web-present is seen with v_u above 0, and with v_u at or above v_out an ACTIVE station goes to RECOVER
(R119, R122; in ACTIVE alone: DEDUCED, log entry 22). -/
def startNewTest (s : State) : State :=
  if s.roll.spliceState = .startNew then
    let t := if s.pins.webPresent && 0 < s.roll.vU then s.withRoll { s.roll with webSeen := true, webTimer := none } else s
    if t.roll.webSeen && t.mode == .active && t.roll.vOut ≤ t.roll.vU then enterSplice .recover t else t
  else s

/-- The flat ceiling is computed anew (R112). -/
def loadFlatCeiling (s : State) : State := s.withRoll { s.roll with flatCeiling := s.flatCeilingNow }

/-- The roll unit at a ramp update. DESIGN CHOICE, unsafe (log entry 52): v_out is taken first, so v_u moves by the demand with the
v_out of the same update, and the tests of STOP_OLD and START_NEW read both (R109, R110, R117, R119). -/
def rampRoll (s : State) : State := startNewTest (pasteTest (driveUnwind (measureOut s)))

/-! ## Modes -/

/-- The roll unit at an entry of the station to ACTIVE: a waiting START_NEW goes to RECOVER, and the start test is made
(R114, R122). -/
def rollAtActive (s : State) : State :=
  if s.is .unwind then
    if s.roll.spliceState = .startNew then
      let t := enterSplice .recover s
      if t.recovered then returnToRun t else t
    else spliceTest s
  else s

/-- Drive enable is cleared: v_u becomes 0 at once (R110). -/
def stopUnwind (s : State) : State := s.withRoll { s.roll with vU := 0, exitCommand := 0 }

end Sys2Proof.Machine
end

