-- ==== Sys2Proof/Machine/Modes.lean ====
section
/-! DEFINITION. Drive enable, trips, the entries to ACTIVE, STANDBY and JOINING, and the settling of everything that follows
from a step: position events, splice transitions, births, re-made figures, the join test and the wake
(R2, R16, R40 to R46, R63, R83, R115 to R121, R157, R181, R190 to R193). -/

namespace Sys2Proof.Machine

open Sys2Proof

/-! ## Drive enable (R40, R44, R68, R110, R161, R170) -/

/-- Clears drive enable: the unwind stops, a depth move is abandoned, a cut stroke ends, a gate move is abandoned and the
valves close. -/
def clearDrive (s : State) : State :=
  closeValves (outfeedDriveClear (abandonMove (stopUnwind (s.withGov { s.gov with driveEnable := false }))))

/-- Sets drive enable: the depth test is made, and in the OUTFEED the gate is checked and moved. -/
def setDrive (s : State) : State :=
  let t := startMove (s.withGov { s.gov with driveEnable := true })
  if t.is .outfeed then gateAtDriveSet t else t

/-! ## Trips (R42 to R44) -/

/-- Queues a TRIP to all carrying a cause (R42). -/
def queueTrip (c : TripCause) (s : State) : State :=
  if c = .dupAddress then s else queueTx { kind := .trip, dest := 0, body := bytesOf 1 c.code } s

/-- Enters TRIPPED: the mode left is recorded, knife and steam are removed, the splice is resolved, the trip timer starts; at
standstill drive enable is cleared at once (R42, R44, R71, R122). -/
def enterTripped (s : State) : State :=
  let a := setMode .tripped (s.withGov { s.gov with beforeTrip := some s.mode, tripTimer := some 3000 })
  let b := a.withLoader { a.loader with joinTimer := none }
  let c := b.withCond { b.cond with wakeDue := false }
  let d := resolveSplice (closeValves (tripKnife c))
  if d.gov.vA = 0 then clearDrive (d.withGov { d.gov with tripTimer := none }) else d

/-- Adds a local trip cause (R41, R42). -/
def addTrip (c : TripCause) (s : State) : State :=
  match s.mode with
  | .joining | .active | .standby =>
    let t := s.withGov { s.gov with trips := insertNew c s.gov.trips }
    pulseForMode (enterTripped (queueTrip c t))
  | .tripped =>
    if c ∈ s.gov.trips then s else queueTrip c (s.withGov { s.gov with trips := s.gov.trips ++ [c] })
  | .powerUp | .configuring | .configFault => s

/-- The speed governor takes the trip latch: the causes are added and the latch emptied; a station not yet TRIPPED trips
without sending a TRIP (R43). -/
def takeLatch (s : State) : State :=
  if s.bus.latchRoster || s.bus.latchTerminal then
    let p := if s.bus.latchRoster then insertNew TripCause.peer s.gov.trips else s.gov.trips
    let q := if s.bus.latchTerminal then insertNew TripCause.terminal p else p
    let t := (s.withGov { s.gov with trips := q }).withBus { s.bus with latchRoster := false, latchTerminal := false }
    if t.mode = .tripped then t else pulseForMode (enterTripped t)
  else s

/-! ## Entries to ACTIVE and STANDBY (R191 to R193) -/

/-- Enters ACTIVE: drive enable is set, a pulse queued, the chamber warmed and the roll unit started (R40, R191, R193). Coming
from STANDBY drive enable stays set, and the depth test alone is made (R67, R170, R193). -/
def enterActive (s : State) : State :=
  let a := setMode .active (s.withLoader { s.loader with joinTimer := none })
  let b := a.withCond { a.cond with wakeDue := false }
  let c := if b.gov.driveEnable then startMove b else setDrive b
  rollAtActive (warmChamber (pulseForMode c))

/-- Enters STANDBY (R192). -/
def enterStandby (s : State) : State :=
  let t := pulseForMode (setMode .standby s)
  resolveSplice (if t.is .setter then setChamber .cold t else t)

/-! ## What falls due (R2) -/

/-- Something that falls due with a position, a fill or a held birth. -/
inductive Due where
  | openWindow (g : Segment)
  | acceptMark (edge : Word)
  | holdClosing
  | closeWindow
  | fold
  | endRun
  | startRun (g : Segment)
  | shift
  | boundary (g : Segment) (isLead : Bool) (point : Word)
  | handoff (g : Segment)
  | trailExit (g : Segment)
  | prefillDone
  | stopOld
  | stopOldLow
  | recovered
  | birth
  | holdBirth
  | endStall
  deriving DecidableEq, Repr

/-- The candidate mark's edge lies in the window that waits to close (R16). -/
def State.candidateInside (s : State) (g : Segment) : Bool :=
  s.web.candidate.any (fun e => atOrPast e (s.openPoint g) && atOrPast (s.closePoint g) e)

/-- The acceptance of the candidate mark, when it is due (R15). -/
def State.dueMark (s : State) : Option Due :=
  match s.web.candidate with
  | some e => if atOrPast s.position (e + dmm s.cfg.markFilter) then some (.acceptMark e) else none
  | none => none

/-- The closing of the open window, when it is due: at the closing point, or, with a candidate mark inside, not before that
candidate is gone, wherever the position stands then (R16). -/
def State.dueClosing (s : State) : Option Due :=
  match s.web.window.bind (fun r => s.held r.uid) with
  | none => none
  | some g =>
    if s.web.closing || atOrPast s.position (s.closePoint g) then
      if s.candidateInside g then (if s.web.closing then none else some .holdClosing) else some .closeWindow
    else none

/-- Window events due: an opening, the acceptance of a filtered mark, a closing (R15, R16). An opening and an acceptance that one
edge brings due have no order in the manual: the opening is taken first, so that the window it closes is a miss and the mark a
stray (DESIGN CHOICE, log entry 40). -/
def State.dueWindow (s : State) : Option Due :=
  if s.hasMark then
    match s.web.map.find? (fun g => g.kind == .panel && !g.opened && atOrPast s.position (s.openPoint g)) with
    | some g => some (.openWindow g)
    | none =>
      match s.dueMark with
      | some d => some d
      | none => s.dueClosing
  else none

/-- Knife events due: a fold of the open run, its end at the trail, the start of a run (R61 to R63). In a panel cut short by R6 a
fold point can lie at its trail or past it: reached in one edge with the trail, the fold is taken before the run ends (DESIGN
CHOICE, log entry 42). -/
def State.dueKnife (s : State) : Option Due :=
  let start := (s.web.map.find? (fun g => g.kind == .panel && !g.ran && atOrPast s.position (s.knifePoint g))).map
    Due.startRun
  match s.pattern.run with
  | none => start
  | some r =>
    match s.held r.ref.uid with
    | none => some .endRun
    | some g =>
      match s.runPleats[r.nextPleat]? with
      | some p =>
        if atOrPast s.position (s.foldPoint g p) then some .fold
        else if atOrPast s.position (s.knifePoint g + dmm g.length) then some .endRun
        else start
      | none => if atOrPast s.position (s.knifePoint g + dmm g.length) then some .endRun else start

/-- The shift of the cell line that is due (R145). -/
def State.dueShift (s : State) : Option Due :=
  if atOrPast s.position (s.heat.shiftAnchor + dmm s.cfg.setter.cell) then some .shift else none

/-- The boundaries due, the lead of a segment or a trail at which no held segment leads (R157). -/
def State.dueBoundaries (s : State) : List (Segment × Bool × Word) :=
  let cut := dmm s.cfg.outfeed.cut
  (s.web.map.filter (fun g => !g.leadCut && atOrPast s.position (g.arrival + cut))).map (fun g => (g, true, g.arrival)) ++
    (s.web.map.filter (fun g => !g.trailCut && atOrPast s.position (g.trail + cut) &&
      !s.web.map.any (fun h => h.arrival == g.trail))).map (fun g => (g, false, g.trail))

/-- The boundary taken next: the downstream-most point of those reached (R157). -/
def State.dueBoundary (s : State) : Option Due :=
  match s.dueBoundaries with
  | [] => none
  | b :: bs =>
    let travel := fun (x : Segment × Bool × Word) => (s.position - x.2.2).toNat
    let best := bs.foldl (fun a x => if travel a < travel x then x else a) b
    some (.boundary best.1 best.2.1 best.2.2)

/-- Roll and order events due, by the fill, the distance to the splice middle and the birth point (R82, R83, R115, R116, R120,
R121). -/
def State.dueUnwind (s : State) : Option Due :=
  if s.prefillDone then some .prefillDone
  else if s.stopOldDue then some .stopOld
  else if s.stopOldLow then some .stopOldLow
  else if s.recovered then some .recovered
  else if s.order.stall ≠ .none ∧ s.mapCount < 48 then some .endStall
  else if s.birthDue then
    if s.birthBlocked then
      if s.order.birthHeld && (s.order.stall ≠ .none || s.mapCount < 48) then none else some .holdBirth
    else some .birth
  else none

/-- The event of the role unit that is due. -/
def State.dueRole (s : State) : Option Due :=
  match s.role with
  | some .pleat => s.dueKnife
  | some .setter => s.dueShift
  | some .outfeed => s.dueBoundary
  | some .unwind | none => none

/-- Handoffs and trail exits due, downstream-most first; a handoff comes before the exit of the same segment (R8, R10). -/
def State.dueExit (s : State) : Option Due :=
  match s.web.map.find? (fun g => !g.handed && atOrPast s.exitCount (g.arrival + s.exitOffset)) with
  | some g => some (.handoff g)
  | none =>
    (s.web.map.find? (fun g => atOrPast s.exitCount (g.arrival + s.exitOffset + dmm g.length))).map Due.trailExit

/-- The next thing that falls due; none while nothing does. The order among things due at once is log entry 7. -/
def State.due (s : State) : Option Due :=
  if s.operating then
    match s.dueWindow with
    | some d => some d
    | none => match s.dueRole with
      | some d => some d
      | none => match s.dueExit with
        | some d => some d
        | none => if s.is .unwind then s.dueUnwind else none
  else none

/-- What a boundary opens: the held segment leading at its point, or a gap (R159). -/
def State.entering (s : State) (point : Word) : Content :=
  match s.web.map.find? (fun g => g.arrival == point) with
  | some g => .seg g.ref
  | none => .gap

/-- Notes the boundary at a point as taken: the lead there, and every trail there, which is the same boundary (R157). -/
def noteBoundary (point : Word) (s : State) : State :=
  s.withWeb { s.web with
    map := s.web.map.map (fun g =>
      { g with leadCut := g.leadCut || g.arrival == point, trailCut := g.trailCut || g.trail == point }) }

/-- Takes one thing that has fallen due. -/
def takeDue (d : Due) (s : State) : State :=
  match d with
  | .openWindow g => openWindow g s
  | .acceptMark e => acceptMark e (s.withWeb { s.web with candidate := none })
  | .holdClosing => holdClosing s
  | .closeWindow => closeWindowMiss s
  | .fold => takeFold s
  | .endRun => endRun s
  | .startRun g => startRun g s
  | .shift => shiftCells s
  | .boundary _ _ point => takeBoundary (s.entering point) point (noteBoundary point s)
  | .handoff g => sendHandoff g s
  | .trailExit g => removeSeg g.uid s
  | .prefillDone => enterSplice .spliceWait s
  | .stopOld => enterSplice .stopOld s
  | .stopOldLow => abortSplice s
  | .recovered => returnToRun s
  | .birth => makeBirth s
  | .holdBirth => holdBirth s
  | .endStall => endStall s

/-- The outfeed unit re-tests its open piece (R163). -/
def retest (s : State) : State := if s.is .outfeed then retestPiece s else s

/-- Takes what has fallen due, one after another, until nothing is due. The bound is far above what one step can bring due
(log entry 8). -/
def settleLoop : Nat → State → State
  | 0, s => s
  | n + 1, s =>
    let t := retest s
    match t.due with
    | none => t
    | some d => settleLoop n (takeDue d t)

/-- Everything a step has brought due. -/
def settle (s : State) : State := settleLoop 16384 s

/-! ## Figures made again, the join test and the wake (R37, R181, R191) -/

/-- Makes again what follows from the figures a step has changed: chamber and setpoints in the SETTER, and the target speed
(R37, R130, R133, R134, R154). -/
def refresh (s : State) : State :=
  let t := refreshHeat s
  t.withGov { t.gov with vT := t.targetSpeed }

/-- The station enters ACTIVE within this step: by the join test in JOINING, or by a wake in STANDBY (R181, R191). -/
def State.activeDue (s : State) : Bool := s.joinReady || (s.mode == .standby && s.cond.wakeDue)

/-- Ends a step that moves no web: figures are made again, and an entry to ACTIVE that has fallen due is made. -/
def conclude (s : State) : State :=
  let t := refresh s
  if t.activeDue then refresh (settle (enterActive t)) else t

/-- Ends a step that may bring position events due. -/
def finish (s : State) : State := conclude (settle s)

/-! ## The two shapes of a meaning -/

/-- What a command answers. -/
abbrev Answer := Host.Outcome State Fault Refusal

/-- A command acted on in the operating modes that moves no web and no point of it; in the other modes nothing is done. -/
def operate (f : State → State) (s : State) : Answer := .next (if s.operating then conclude (f s) else s)

/-- A command acted on in the operating modes after which position events may be due (R2). -/
def operateWeb (f : State → State) (s : State) : Answer := .next (if s.operating then finish (f s) else s)

end Sys2Proof.Machine
end

