-- ==== Sys2Proof/Machine/Arms.lean ====
section
/-! DEFINITION. The roll arms' inputs and the timers of a splice as commands (R99 to R105, R118, R119, R121). -/

namespace Sys2Proof.Machine

open Sys2Proof

/-- The level of an arm's revolution input. -/
def Pins.revolution (p : Pins) (a : ArmName) : Bool :=
  match a with
  | .arm1 => p.revolution1
  | .arm2 => p.revolution2

/-- The level of an arm's empty input. -/
def Pins.empty (p : Pins) (a : ArmName) : Bool :=
  match a with
  | .arm1 => p.empty1
  | .arm2 => p.empty2

/-- Sets an arm's revolution input. -/
def Pins.setRevolution (p : Pins) (a : ArmName) (level : Bool) : Pins :=
  match a with
  | .arm1 => { p with revolution1 := level }
  | .arm2 => { p with revolution2 := level }

/-- Sets an arm's ready input. -/
def Pins.setReady (p : Pins) (a : ArmName) (level : Bool) : Pins :=
  match a with
  | .arm1 => { p with ready1 := level }
  | .arm2 => { p with ready2 := level }

/-- Sets an arm's empty input. -/
def Pins.setEmpty (p : Pins) (a : ArmName) (level : Bool) : Pins :=
  match a with
  | .arm1 => { p with empty1 := level }
  | .arm2 => { p with empty2 := level }

/-- The configured revolution edge of an arm: 1 RISING, 2 FALLING, 3 BOTH (R102, R185). -/
def UnwindArea.edgeCode (u : UnwindArea) (a : ArmName) : Nat :=
  match a with
  | .arm1 => u.edges % 4
  | .arm2 => u.edges / 4 % 4

/-- A change of a revolution input is the configured edge (R102). -/
def isEdge (code : Nat) (before now : Bool) : Bool :=
  match before, now with
  | false, true => code == 1 || code == 3
  | true, false => code == 2 || code == 3
  | _, _ => false

/-- A revolution input at a level (R102). -/
def revolve (a : ArmName) (active : Bool) (s : State) : State :=
  let t := s.withPins (s.pins.setRevolution a active)
  if s.is .unwind && isEdge (s.cfg.unwind.edgeCode a) (s.pins.revolution a) active then takeRevolution a t else t

/-- REVOLUTION_PULSE (R102). -/
def execRevolutionPulse (arm : ArmName) (active : Bool) (s : State) : Answer :=
  .next (if s.operating then finish (revolve arm active s) else s.withPins (s.pins.setRevolution arm active))

/-- A LOADED arm becomes READY: ROLL_OUT is evaluated again and a splice may start (R100, R105, R114). -/
def armBecomesReady (a : ArmName) (s : State) : State :=
  rollConditions (spliceTest (setArm a { s.arm a with state := .ready } s))

/-- A READY arm becomes LOADED: a splice not yet pasted that brings it in is aborted (R100, R105, R121). -/
def armLosesReady (a : ArmName) (s : State) : State :=
  let t := rollConditions (setArm a { s.arm a with state := .loaded } s)
  abortIf (t.roll.spliceArm == some a) t

/-- An arm-ready input at a level (R100). -/
def changeReady (a : ArmName) (active : Bool) (s : State) : State :=
  let t := s.withPins (s.pins.setReady a active)
  if s.is .unwind then
    match (s.arm a).state, active with
    | .loaded, true => armBecomesReady a t
    | .ready, false => armLosesReady a t
    | _, _ => t
  else t

/-- ARM_READY_CHANGE (R100). -/
def execArmReadyChange (arm : ArmName) (active : Bool) (s : State) : Answer :=
  .next (if s.operating then finish (changeReady arm active s) else s.withPins (s.pins.setReady arm active))

/-- An arm-empty input at a level: each change to active empties the arm (R101). -/
def changeEmpty (a : ArmName) (active : Bool) (s : State) : State :=
  let t := s.withPins (s.pins.setEmpty a active)
  if s.is .unwind && active && !s.pins.empty a then emptyArm a t else t

/-- ARM_EMPTY (R101). -/
def execArmEmpty (arm : ArmName) (active : Bool) (s : State) : Answer :=
  .next (if s.operating then finish (changeEmpty arm active s) else s.withPins (s.pins.setEmpty arm active))

/-- The paste output goes off and its timer stops (R118, R123). -/
def stopPaste (s : State) : State := s.withRoll { s.roll with pasteOutput := false, pasteTimer := none }

/-- The splice arm becomes ACTIVE when it is LOADED or READY (R118). -/
def bringIn (s : State) : State :=
  match s.roll.spliceArm with
  | some a =>
    match (s.arm a).state with
    | .loaded | .ready => activateArm a s
    | .empty | .active | .expiring => s
  | none => s

/-- The paste timer expires in PASTE: START_NEW, the splice arm ACTIVE, and in ACTIVE the web-present timer runs (R118). DESIGN
CHOICE, unsafe (log entry 46): where a trip or STANDBY in PASTE has been cleared by then, R122's entry without the timer and
R118's test of the mode differ, and the mode at the expiry decides. -/
def beginNewRoll (s : State) : State :=
  let t := bringIn (enterSplice .startNew (s.withRoll { s.roll with webSeen := false }))
  if t.mode = .active then t.withRoll { t.roll with webTimer := some 2000 } else t

/-- The paste timer expires in an operating mode. A paste begun before a RESTART changes no splice state (R118, R123). -/
def pasteDone (s : State) : State :=
  let t := stopPaste s
  if s.roll.spliceState = .paste then beginNewRoll t else t

/-- PASTE_TIMER_EXPIRY (R118, R123). -/
def execPasteTimerExpiry (s : State) : Answer :=
  .next (if running s.roll.pasteTimer then (if s.operating then finish (pasteDone s) else stopPaste s) else s)

/-- The web-present timer expires with the input not seen: SPLICE_FAIL (R119). -/
def webPresentExpiry (s : State) : State :=
  if running s.roll.webTimer then
    let t := s.withRoll { s.roll with webTimer := none }
    if s.roll.spliceState = .startNew ∧ s.roll.webSeen = false then addTrip .spliceFail t else t
  else s

/-- WEB_PRESENT_TIMER_EXPIRY (R119). -/
def execWebPresentTimerExpiry (s : State) : Answer := operateWeb webPresentExpiry s

end Sys2Proof.Machine
end

