-- ==== Sys2Proof/Machine/Frame.lean ====
section
/-! DEFINITION. Frames on the line bus: stuffing, fields, the CRC and the checks of the bus unit (R198, R199, R204). A bit is
`true` when recessive (1) and `false` when dominant (0). The start bit is dominant and is not among the bits given here. -/

namespace Sys2Proof.Machine

open Sys2Proof

/-- A telegram (R199). -/
structure Telegram where
  kind : Kind
  origin : Nat
  dest : Nat
  body : List Byte
  deriving DecidableEq, Repr

/-- The low `n` bits of a number, most significant first. -/
def bitList : Nat → Nat → List Bool
  | 0, _ => []
  | n + 1, v => v.testBit n :: bitList n v

/-- The number a list of bits holds, most significant first. -/
def bitNumber (bits : List Bool) : Nat := bits.foldl (fun acc b => 2 * acc + b.toNat) 0

/-- The 15-bit header: class, kind, origin, destination (R199). -/
def headerNumber (t : Telegram) : Nat := ((t.kind.cls * 32 + t.kind.code) * 16 + t.origin) * 16 + t.dest

/-- The header, length and body bits of a telegram, over which the CRC runs. -/
def contentBits (t : Telegram) : List Bool :=
  bitList 15 (headerNumber t) ++ bitList 8 t.body.length ++ t.body.flatMap (fun b => bitList 8 b.toNat)

/-- One step of the CRC register, polynomial 0x8005 (R199). -/
def crcStep (r : Half) (b : Bool) : Half :=
  if (r.getLsbD 15) != b then (r <<< 1) ^^^ 0x8005 else r <<< 1

/-- The CRC register over bits, from 0. -/
def crcOf (bits : List Bool) : Half := bits.foldl crcStep 0

/-- Stuffs bits after a run of `run` bits equal to `last`: after every run of 6 equal bits the complement is sent, which begins
a run of its own. No stuff bit follows the last bit (R198). -/
def stuffBits (last : Bool) (run : Nat) : List Bool → List Bool
  | [] => []
  | b :: rest =>
    if run = 6 then (!last) :: b :: stuffBits b (if b = !last then 2 else 1) rest
    else b :: stuffBits b (if b = last then run + 1 else 1) rest

/-- The bits a sender drives after the start bit (R198, R199). -/
def frameBits (t : Telegram) : List Bool :=
  stuffBits false 1 (contentBits t ++ bitList 16 (crcOf (contentBits t)).toNat)

/-- Reading a run of data bits: the bits, the run in progress, and what is left. -/
structure BitRead where
  bits : List Bool
  last : Bool
  run : Nat
  rest : List Bool
  deriving DecidableEq, Repr

/-- Reads `need` data bits, removing stuff bits. `none` when seven equal bits are read, or when the bits end first
(R198, R204). -/
def readBits (need : Nat) (last : Bool) (run : Nat) : List Bool → Option BitRead
  | [] => if need = 0 then some { bits := [], last := last, run := run, rest := [] } else none
  | b :: rest =>
    if need = 0 then some { bits := [], last := last, run := run, rest := b :: rest }
    else if run = 6 then (if b = last then none else readBits need b 1 rest)
    else
      match readBits (need - 1) b (if b = last then run + 1 else 1) rest with
      | none => none
      | some r => some { r with bits := b :: r.bits }

/-- The bytes of a run of bits, in eights. -/
def bytesOfBits : Nat → List Bool → List Byte
  | 0, _ => []
  | n + 1, bits => BitVec.ofNat 8 (bitNumber (bits.take 8)) :: bytesOfBits n (bits.drop 8)

/-- Reads one frame and makes the checks of R204. `none` is a check error: a stuff violation, a length above 28, an end
before the last CRC bit, a wrong CRC, a class that is not the kind's, or a length the kind does not admit. Bits after the
last CRC bit belong to no frame. -/
def readFrame (bits : List Bool) : Option Telegram :=
  match readBits 23 false 1 bits with
  | none => none
  | some head =>
    let header := bitNumber (head.bits.take 15)
    let length := bitNumber (head.bits.drop 15)
    if 28 < length then none
    else
      match readBits (8 * length + 16) head.last head.run head.rest with
      | none => none
      | some tail =>
        let bodyBits := tail.bits.take (8 * length)
        let crc := bitNumber (tail.bits.drop (8 * length))
        let body := bytesOfBits length bodyBits
        if (crcOf (head.bits ++ bodyBits)).toNat ≠ crc then none
        else
          match kindOfCode ((header / 256) % 32) with
          | none => none
          | some k =>
            if header / 8192 ≠ k.cls then none
            else if !lengthAdmitted k body then none
            else some { kind := k, origin := (header / 16) % 16, dest := header % 16, body := body }

end Sys2Proof.Machine
end

