-- ==== Sys2Proof/Machine/Record.lean ====
section
/-! DEFINITION. The 128-byte configuration record: its layout, its check sum, its field tests and its cross-checks
(R184 to R187). -/

namespace Sys2Proof.Machine

open Sys2Proof

/-- A signed 16-bit field at an offset. -/
def signedAt (bytes : List Byte) (offset : Nat) : Int := signed16 (fieldAt bytes offset 2)

/-- The scaling of channel `n` (R185, offset 0x27). -/
def readScaling (bytes : List Byte) (n : Nat) : Scaling :=
  { offset := signedAt bytes (0x27 + 4 * n), span := fieldAt bytes (0x29 + 4 * n) 2 }

/-- The role area read as a PLEAT's. -/
def readPleatArea (b : List Byte) : PleatArea :=
  { knife := fieldAt b 0x4B 4, strokeTime := fieldAt b 0x4F 2, actuatorRate := fieldAt b 0x51 2,
    flatMax := fieldAt b 0x53 2, lookAhead := fieldAt b 0x55 4, lateTol := fieldAt b 0x59 2,
    filterCode := fieldAt b 0x5B 1 }

/-- The role area read as the UNWIND's. -/
def readUnwindArea (b : List Byte) : UnwindArea :=
  { punch := fieldAt b 0x4B 2, fMax := fieldAt b 0x4D 4, fillMin := fieldAt b 0x51 4, fillNominal := fieldAt b 0x55 4,
    fillSplice := fieldAt b 0x59 4, kFill := fieldAt b 0x5D 2, unwindMax := fieldAt b 0x5F 2,
    aUnwind := fieldAt b 0x61 1, reserve := fieldAt b 0x62 4, coreGuard := fieldAt b 0x66 4,
    leaderLen := fieldAt b 0x6A 2, spliceLen := fieldAt b 0x6C 2, pasteTime := fieldAt b 0x6E 2,
    edges := fieldAt b 0x70 1 }

/-- The role area read as a SETTER's. -/
def readSetterArea (b : List Byte) : SetterArea :=
  { entry := fieldAt b 0x4B 4, chamber := fieldAt b 0x4F 4, cell := fieldAt b 0x53 2, cells := fieldAt b 0x55 1,
    zones := fieldAt b 0x56 1, b1 := fieldAt b 0x57 1, b2 := fieldAt b 0x58 1, b3 := fieldAt b 0x59 1,
    tBase := signedAt b 0x5A, parkSp := signedAt b 0x5C, keepSp := signedAt b 0x5E, band := fieldAt b 0x60 2,
    parkTime := fieldAt b 0x62 4, cutMargin := fieldAt b 0x66 2, cutOptions := fieldAt b 0x68 1,
    kp := fieldAt b 0x69 2, ki := fieldAt b 0x6B 2, pMin := signedAt b 0x6D }

/-- The role area read as the OUTFEED's. -/
def readOutfeedArea (b : List Byte) : OutfeedArea :=
  { cut := fieldAt b 0x4B 4, gateTime := fieldAt b 0x4F 2, cutTime := fieldAt b 0x51 2 }

/-- The record's fields in the layout of R185. -/
def readImage (b : List Byte) : Image :=
  { magic := fieldAt b 0x00 2, version := fieldAt b 0x02 1, address := fieldAt b 0x03 1, roleCode := fieldAt b 0x04 1,
    upstream := fieldAt b 0x05 1, downstream := fieldAt b 0x06 1, markOptions := fieldAt b 0x07 1,
    roster := BitVec.ofNat 16 (fieldAt b 0x08 2), terminals := BitVec.ofNat 16 (fieldAt b 0x0A 2),
    scale1 := fieldAt b 0x0C 4, scale2 := fieldAt b 0x10 4, exit := fieldAt b 0x14 4, approach := fieldAt b 0x18 4,
    sensor := fieldAt b 0x1C 2, wBefore := fieldAt b 0x1E 2, wAfter := fieldAt b 0x20 2, lineMax := fieldAt b 0x22 2,
    aUp := fieldAt b 0x24 1, aDn := fieldAt b 0x25 1, aE := fieldAt b 0x26 1,
    scaling := (List.range 8).map (readScaling b), reportMask := BitVec.ofNat 32 (fieldAt b 0x47 4),
    pleat := readPleatArea b, unwind := readUnwindArea b, setter := readSetterArea b, outfeed := readOutfeedArea b }

/-- The sum of the 64 words of the record, modulo 65536 (R185). -/
def recordSum (b : List Byte) : Nat := ((List.range 64).foldl (fun acc n => acc + fieldAt b (2 * n) 2) 0) % 65536

/-- A number lies in a range. -/
def within (low high n : Nat) : Bool := low ≤ n && n ≤ high

/-- A signed number lies in a range. -/
def withinInt (low high n : Int) : Bool := low ≤ n && n ≤ high

/-- S is present in a record that is not the UNWIND's (R185). -/
def Image.sensorPresent (i : Image) : Bool := i.sensor ≠ 65535

/-- The common fields lie in their ranges (R185, R186). -/
def commonFieldsOk (i : Image) (r : Role) : Bool :=
  within 1 15 i.address && within 256 1048576 i.scale1 && (r ≠ .unwind || within 256 1048576 i.scale2) &&
    within 1000 1000000 i.exit && (r == .unwind || within 0 200000 i.approach) &&
    (r == .unwind || !i.sensorPresent || (within 0 999 i.wBefore && within 0 999 i.wAfter)) &&
    within 1 6000 i.lineMax && within 1 100 i.aUp && within 1 100 i.aDn && within 1 100 i.aE

/-- The fields of the role area lie in their ranges (R185, R186). DESIGN CHOICE, unsafe (log entry 50): bits 3 to 7 of the SETTER's
cut options and bits 4 to 7 of the UNWIND's revolution edges are not read, and any value in them is accepted. -/
def roleFieldsOk (i : Image) (r : Role) : Bool :=
  match r with
  | .pleat =>
    within 20 500 i.pleat.strokeTime && within 100 20000 i.pleat.actuatorRate && within 1 15000 i.pleat.flatMax &&
      within 0 200000 i.pleat.lookAhead && within 0 1000 i.pleat.lateTol && within 0 3 i.pleat.filterCode
  | .unwind =>
    within 0 5000 i.unwind.punch && within 1000 200000 i.unwind.fMax && within 0 20000 i.unwind.kFill &&
      within 1 15000 i.unwind.unwindMax && within 1 100 i.unwind.aUnwind && within 0 2000000 i.unwind.reserve &&
      within 1000 20000 i.unwind.leaderLen && within 1000 20000 i.unwind.spliceLen &&
      within 100 5000 i.unwind.pasteTime && within 1 3 (i.unwind.edges % 4) && within 1 3 (i.unwind.edges / 4 % 4)
  | .setter =>
    within 200 1000 i.setter.cell && within 1 64 i.setter.cells && within 1 4 i.setter.zones &&
      withinInt (-500) 1750 i.setter.tBase && withinInt (-500) 1750 i.setter.parkSp &&
      withinInt (-500) 1750 i.setter.keepSp && within 1 500 i.setter.band && within 0 600000 i.setter.parkTime &&
      within 1 500 i.setter.cutMargin && within 0 2 (i.setter.cutOptions / 2 % 4) && within 0 4095 i.setter.kp &&
      within 0 4095 i.setter.ki
  | .outfeed => within 10 5000 i.outfeed.gateTime && within 10 1000 i.outfeed.cutTime

/-- The zone boundaries b_1 to b_(Z−1) (R185). -/
def SetterArea.boundaries (a : SetterArea) : List Nat := [a.b1, a.b2, a.b3].take (a.zones - 1)

/-- A list of numbers rises strictly. -/
def rising : List Nat → Bool
  | a :: b :: rest => a < b && rising (b :: rest)
  | _ => true

/-- The cross-checks all roles share (R187). -/
def commonCrossOk (i : Image) : Bool :=
  !inMask i.roster 0 && !inMask i.terminals 0 && within 4 7 (addressesOf i.roster).length && inMask i.roster i.address &&
    (i.roster &&& i.terminals) == 0

/-- The cross-checks of a role (R187). -/
def roleCrossOk (i : Image) (r : Role) : Bool :=
  let neighbour (a : Nat) : Bool := inMask i.roster a && a ≠ i.address
  let windowEnd := i.sensor + i.wAfter
  let windowOk := !i.sensorPresent || (i.wBefore ≤ i.sensor && windowEnd ≤ i.exit && i.wBefore + i.wAfter < 1000)
  match r with
  | .unwind =>
    i.upstream == 0 && neighbour i.downstream && i.unwind.punch < i.exit && i.unwind.fillMin < i.unwind.fillNominal &&
      i.unwind.fillNominal < i.unwind.fillSplice && i.unwind.fillSplice ≤ i.unwind.fMax &&
      i.unwind.coreGuard < i.unwind.reserve
  | .pleat =>
    neighbour i.upstream && neighbour i.downstream && i.upstream ≠ i.downstream && windowOk &&
      i.pleat.knife < i.exit && (!i.sensorPresent || windowEnd ≤ i.pleat.knife)
  | .setter =>
    neighbour i.upstream && neighbour i.downstream && i.upstream ≠ i.downstream && windowOk &&
      i.setter.chamber == i.setter.cells * i.setter.cell &&
      i.setter.entry + i.setter.chamber + i.setter.cell ≤ i.exit &&
      (!i.sensorPresent || windowEnd + i.setter.cell ≤ i.setter.entry) &&
      rising (0 :: i.setter.boundaries ++ [i.setter.cells])
  | .outfeed =>
    i.downstream == 0 && neighbour i.upstream && windowOk && i.outfeed.cut < i.exit &&
      (!i.sensorPresent || windowEnd ≤ i.outfeed.cut)

/-- The outcome of the record check: a fault class, or the record's image (R184). -/
inductive RecordCheck where
  | fails (cls : Nat)
  | passes (image : Image)
  deriving DecidableEq, Repr

/-- The record check: the first test failed gives the fault class (R184). -/
def checkRecord (b : List Byte) : RecordCheck :=
  let i := readImage b
  if i.magic ≠ 0x2D40 ∨ i.version ≠ 3 then .fails 1
  else if recordSum b ≠ 65535 then .fails 2
  else
    match roleOfCode i.roleCode with
    | none => .fails 3
    | some r =>
      if !(commonFieldsOk i r && roleFieldsOk i r) then .fails 3
      else if !(commonCrossOk i && roleCrossOk i r) then .fails 4
      else .passes i

end Sys2Proof.Machine
end

