-- ==== Sys2Proof/Machine/Start.lean ====
section
/-! DEFINITION. The starts: what a RESTART leaves, the record check, and the values every unit takes when the station leaves
CONFIGURING (R1, R7, R23, R48, R77, R94, R106, R123, R156, R171, R182 to R190, R195, R213). -/

namespace Sys2Proof.Machine

open Sys2Proof

/-! ## The kept tables (R189) -/

/-- The kept-role record names the role of the record in force, so that kept tables serve the start (R189). -/
def State.keeps (s : State) : Bool := s.loader.keptRole.isSome && s.loader.keptRole == s.role

/-- A slot after a restart: a pending copy is promoted (R77). -/
def PatternSlot.atRestart (x : PatternSlot) : PatternSlot :=
  match x.pending with
  | some c => x.activate c
  | none => x

/-- An arm after a restart: its roll is not verified and holds no sample and no mark (R123). -/
def Arm.atRestart (a : Arm) : Arm :=
  { a with roll := a.roll.map (fun r => { r with verified := false }), lastSample := none, mark := none }

/-! ## The units when the station leaves CONFIGURING -/

/-- fill_at_start: channel 0 of the last completed scan limited to 0..F_max, or 0 when its sample was bad (R106). -/
def State.fillAtStart (s : State) : Nat :=
  match s.channelValue 0 with
  | some v => (limitInt 0 s.cfg.unwind.fMax v).toNat
  | none => 0

/-- P0 = X + fill_at_start in the UNWIND (R3); no other role reads it. -/
def State.startP0 (s : State) : Word := if s.is .unwind then dmm (s.cfg.exit + s.fillAtStart) else 0

/-- The start span of R7. Its lead boundary is taken as already passed (R157). -/
def State.startSpan (s : State) : Segment :=
  let length := if s.is .unwind then s.cfg.exit + s.fillAtStart else s.cfg.exit + s.cfg.approach
  { kind := .untracked, length := length, handed := true, leadCut := true,
    arrival := if s.is .unwind then 0 - s.startP0 else 0 - dmm s.cfg.exit }

/-- The web tracker at a start (R1, R7, R23). -/
def startWeb (s : State) : State :=
  s.withWeb { p0 := s.startP0, map := [s.startSpan], firstSend := true, nextUid := 1 }

/-- The order unit at a start (R94). The count of punches goes on (log entry 32). -/
def startOrder (s : State) : State := s.withOrder { newSequence := true, punches := s.order.punches }

/-- The pattern unit at a start (R77). -/
def startPattern (s : State) : State :=
  s.withPattern (if s.keeps then { slots := s.pattern.slots.map PatternSlot.atRestart } else {})

/-- The roll unit at a start, before its conditions and its ceiling are evaluated (R123). DESIGN CHOICE, unsafe (log entry 47): a
paste in flight at the RESTART runs on whatever role the new record names (R117, R195), where R189 with the power-on column of
R123 would stop it under another role. -/
def startRoll (s : State) : State :=
  s.withRoll
    { arm1 := if s.keeps then s.roll.arm1.atRestart else {}
      arm2 := if s.keeps then s.roll.arm2.atRestart else {}
      pasteTimer := s.roll.pasteTimer
      pasteOutput := s.roll.pasteOutput
      fillBase := s.fillAtStart
      outHistory := [0] }

/-- A zone record at a start (R156). -/
def State.startZone (s : State) : Zone := { sp := s.cfg.setter.keepSp, spEff := s.cfg.setter.keepSp }

/-- The heat-set unit at a start. The channels stand as the first scan has loaded them (R124, R126, R156). -/
def startHeat (s : State) : State :=
  s.withHeat
    { channels := s.heat.channels
      recipes := if s.keeps then s.heat.recipes else List.replicate 16 none
      zones := if s.is .setter then List.replicate s.cfg.setter.zones s.startZone else []
      cells := if s.is .setter then List.replicate s.cfg.setter.cells {} else []
      heatTimer := if s.is .setter then some 200 else none }

/-- Every unit at its start values: the governor and the peer table (R48), the bus unit (R213), the outfeed unit (R171), the
condition unit (R182), and the units above; the UNWIND then evaluates its roll conditions and its flat ceiling (R123). -/
def startUnits (s : State) : State :=
  let a := startHeat (startRoll (startPattern (startOrder (startWeb s))))
  let b := ((((a.withGov {}).withPeers emptyPeers).withBus {}).withOutfeed {}).withCond {}
  if b.is .unwind then loadFlatCeiling (rollConditions b) else b

/-- Enters JOINING: the mode's first pulse, the pulse timer at 25 ms and the join timer at 1000 ms (R25, R190). -/
def enterJoining (s : State) : State :=
  let t := pulseForMode (setMode .joining s)
  t.withLoader { t.loader with joinTimer := some 1000 }

/-- The station leaves CONFIGURING: start values, JOINING, and an ESTOP input found active trips at once (R41, R184, R190). -/
def leaveConfiguring (s : State) : State :=
  let a := s.withLoader { s.loader with scanning := false, faultClass := none }
  let b := enterJoining (startUnits a)
  finish (if b.pins.estop then addTrip .estopInput b else b)

/-! ## The record read (R184, R188) -/

/-- The bytes in the read buffer: a memory that does not answer leaves every byte 0xFF (R184). -/
def readBuffer (answer : Option (List Byte)) : List Byte := answer.getD (List.replicate 128 0xFF)

/-- A record that fails: CONFIG_FAULT with its class. The transmitter is off there, so a telegram still in transmission since a
RESTART is discarded (R188; log entry 24). -/
def enterConfigFault (cls : Nat) (s : State) : State :=
  setMode .configFault
    ((s.withLoader { s.loader with reading := false, faultClass := some cls }).withBus { s.bus with tx := [] })

/-- A record that passes becomes the image, and the sensor scan starts with every channel empty (R124, R126, R184). -/
def acceptRecord (i : Image) (s : State) : State :=
  let t := s.withLoader { s.loader with image := some i, reading := false, scanning := true, faultClass := none }
  t.withHeat { t.heat with channels := List.replicate 8 {} }

/-- Begins the read of the record at an entry to CONFIGURING (R184). -/
def enterConfiguring (s : State) : State :=
  let t := setMode .configuring s
  t.withLoader { t.loader with reading := true, scanning := false, faultClass := none, joinTimer := none }

/-! ## RESTART (R189, R195) -/

/-- What a RESTART leaves of the bus unit: the telegram in transmission, which is still completed (R195, R213). -/
def Bus.atRestart (b : Bus) : Bus := { tx := b.tx.filter TxEntry.inTransmission }

/-- What a RESTART leaves of the web tracker: the position counters, which are set to 0 when the station leaves CONFIGURING
(R1, R23). -/
def Web.atRestart (w : Web) : Web := { infeed := w.infeed, outfeed := w.outfeed }

/-- What a RESTART leaves of the roll unit: the arms and a paste in flight (R123, R195). -/
def RollUnit.atRestart (r : RollUnit) : RollUnit :=
  { arm1 := r.arm1, arm2 := r.arm2, pasteTimer := r.pasteTimer, pasteOutput := r.pasteOutput }

/-- Takes a RESTART: cause and kept role are recorded, drive enable is cleared with every output but a paste in flight, what is
in flight ends, the queues and the trip latch are emptied, and the station enters CONFIGURING (R189, R195). -/
def takeRestart (s : State) : State :=
  let kept := if s.operating then s.role else s.loader.keptRole
  let a := s.withLoader { s.loader with restartCause := .restart, keptRole := kept }
  let b := (((a.withBus a.bus.atRestart).withGov {}).withPeers emptyPeers).withWeb a.web.atRestart
  let c := ((b.withOrder { punches := b.order.punches }).withPattern { slots := b.pattern.slots }).withRoll b.roll.atRestart
  let d := ((c.withHeat { recipes := c.heat.recipes }).withOutfeed {}).withCond {}
  enterConfiguring d

end Sys2Proof.Machine
end

