-- ==== Sys2Proof/Machine/BusUnit.lean ====
section
/-! DEFINITION. The bus unit's commands: a frame read, the transmitter, sender faults and the recovery
(R9, R35, R178, R194 to R213). -/

namespace Sys2Proof.Machine

open Sys2Proof

/-! ## Receiving (R204 to R209) -/

/-- A frame that fails a check is counted (R204). -/
def countCheckError (s : State) : State :=
  s.withCond { s.cond with checkErrors := saturate 65535 (s.cond.checkErrors + 1) }

/-- The own origin heard: the latch is set, the transmitter off with it, DUP_ADDRESS latched and the station tripped; a second
one latches nothing new (R206). -/
def hearDuplicate (s : State) : State :=
  if s.bus.duplicate then s
  else addTrip .dupAddress (raise .dupAddress (s.withBus { s.bus with duplicate := true }))

/-- An origin that may not send a kind (R205). -/
def State.stray (s : State) (t : Telegram) : Bool :=
  match inMask s.cfg.roster t.origin, inMask s.cfg.terminals t.origin with
  | false, false => true
  | true, _ => t.kind.origins == .terminals
  | false, true => t.kind.origins == .stations

/-- A stray sender is counted and latched (R205). -/
def countStray (s : State) : State :=
  raise .straySender (s.withCond { s.cond with straySenders := saturate 65535 (s.cond.straySenders + 1) })

/-- A TRIP sets the trip latch by its origin (R207). -/
def latchTrip (origin : Nat) (s : State) : State :=
  s.withBus { s.bus with
    latchRoster := s.bus.latchRoster || inMask s.cfg.roster origin
    latchTerminal := s.bus.latchTerminal || inMask s.cfg.terminals origin }

/-- Destination and kind admit a telegram to the receive queue (R208). -/
def State.admits (s : State) (t : Telegram) : Bool :=
  (t.dest == s.cfg.address || (t.dest == 0 && t.kind ≠ .handoff)) && s.role.any (fun r => t.kind.takenBy r)

/-- A telegram joins the receive queue with the position as its arrival count, or is lost to an overrun (R209). -/
def deliver (t : Telegram) (s : State) : State :=
  if s.bus.rx.length < 6 then
    s.withBus { s.bus with
      rx := s.bus.rx ++ [{ kind := t.kind, origin := t.origin, dest := t.dest, body := t.body, arrival := s.position }] }
  else raise .rxOverrun (s.withCond { s.cond with overruns := saturate 65535 (s.cond.overruns + 1) })

/-- A well-formed telegram in the operating modes (R205 to R209). -/
def receiveTelegram (t : Telegram) (s : State) : State :=
  if t.origin = s.cfg.address then hearDuplicate s
  else if s.stray t then countStray s
  else if t.kind = .trip then latchTrip t.origin s
  else if s.admits t then deliver t s
  else s

/-- A frame in the operating modes (R204). -/
def receiveFrame (bits : List Bool) (s : State) : State :=
  match readFrame bits with
  | none => countCheckError s
  | some t => receiveTelegram t s

/-- A frame in CONFIGURING and CONFIG_FAULT: a well-formed RESTART to destination 0 is taken, all else discarded (R194,
R204; log entry 14). -/
def listenForRestart (bits : List Bool) (s : State) : State :=
  match readFrame bits with
  | some t => if t.kind = .restart ∧ t.dest = 0 then takeRestart s else s
  | none => s

/-- FRAME_RECEIVED by mode (R213). -/
def execFrameReceived (bits : List Bool) (s : State) : Answer :=
  match s.mode with
  | .powerUp => .next s
  | .configuring | .configFault => .next (listenForRestart bits s)
  | .joining | .active | .tripped | .standby => .next (finish (receiveFrame bits s))

/-! ## Sending (R9, R200 to R203) -/

/-- The transmitter is enabled (R200). -/
def State.transmitterEnabled (s : State) : Bool := s.operating && !s.bus.off && !s.bus.duplicate

/-- A telegram is in transmission. -/
def Bus.sending (b : Bus) : Bool := b.tx.any TxEntry.inTransmission

/-- A telegram as its transmission begins: in transmission, its origin the own address, a HANDOFF stamped with its overshoot
(R9, R199, R200). -/
def TxEntry.begun (e : TxEntry) (address : Nat) (exitCount : Word) : TxEntry :=
  { e with
    inTransmission := true
    origin := address
    body := if e.kind = .handoff then stampOvershoot e.body (exitCount - e.exitPoint).toNat else e.body }

/-- The telegram an entry in transmission is (R199). -/
def TxEntry.telegram (e : TxEntry) : Telegram := { kind := e.kind, origin := e.origin, dest := e.dest, body := e.body }

/-- The bits of the frame in transmission, its dominant start bit first (R198, R199). -/
def State.drivenFrame (s : State) : Option (List Bool) :=
  (s.bus.tx.find? TxEntry.inTransmission).map (fun e => false :: frameBits e.telegram)

/-- With the transmitter enabled and nothing in transmission, the first waiting telegram in queue order is begun (R200). -/
def beginTransmission (s : State) : State :=
  if s.transmitterEnabled && !s.bus.sending then
    match s.bus.tx with
    | [] => s
    | e :: rest => setTx (e.begun s.cfg.address s.exitCount :: rest) s
  else s

/-- TRANSMISSION_BEGIN (R200). -/
def execTransmissionBegin (s : State) : Answer := operate beginTransmission s

/-- The telegram in transmission has left the queue (R200). -/
def dropSent (s : State) : State := setTx (s.bus.tx.filter (fun e => !e.inTransmission)) s

/-- The condition unit is told of a CONDITION NOTICE completed (R178). -/
def noteSent (e : TxEntry) (s : State) : State :=
  if e.kind = .conditionNotice then noticeCompleted (groupOfCode (fieldAt e.body 0 1)) s else s

/-- A transmission is complete: the place is freed, the sender fault count is 0, the notice records move on and a PENDING
notice is offered (R177, R178, R200). -/
def completeTransmission (s : State) : State :=
  match s.bus.tx.find? TxEntry.inTransmission with
  | none => s
  | some e =>
    let t := dropSent s
    offerPending (noteSent e (t.withBus { t.bus with faultCount := 0 }))

/-- TRANSMISSION_COMPLETE (R200). After a RESTART the telegram leaves the emptied queue alone (R195). -/
def execTransmissionComplete (s : State) : Answer :=
  .next (if s.operating then conclude (completeTransmission s) else dropSent s)

/-- With two pulses waiting, the newer takes the place of the older, so that one waits (R211; log entry 39). -/
def mergePulses : List TxEntry → List TxEntry
  | [] => []
  | x :: xs =>
    if x.waitingPulse then
      match (xs.filter TxEntry.waitingPulse).getLast? with
      | some newest => newest :: xs.filter (fun e => !e.waitingPulse)
      | none => x :: xs
    else x :: mergePulses xs

/-- The telegram in transmission becomes waiting again in its place (R200, R211). A place that falls free by the merge of two pulses
is offered to no PENDING notice before the next completion (DESIGN CHOICE, log entry 45). -/
def makeWaiting (s : State) : State :=
  setTx (mergePulses (s.bus.tx.map (fun e => { e with inTransmission := false }))) s

/-- ARBITRATION_LOST (R201). After a RESTART the telegram is discarded with the queue (R195; log entry 24). -/
def execArbitrationLost (s : State) : Answer := .next (if s.operating then conclude (makeWaiting s) else dropSent s)

/-- At 16 sender faults the bus state becomes BUS_OFF: the condition and the hold cause are set and the recovery timer
started (R35, R203). -/
def busOffTest (s : State) : State :=
  if 16 ≤ s.bus.faultCount ∧ s.bus.off = false then
    setHold .busOff (raise .busOff (s.withBus { s.bus with off := true, recovery := some 500 }))
  else s

/-- A sender fault: the telegram waits again, BUS_FAULT is latched and the fault counted (R202). -/
def faultSender (s : State) : State :=
  if s.bus.sending then
    let t := makeWaiting s
    busOffTest (raise .busFault (t.withBus { t.bus with faultCount := saturate 16 (t.bus.faultCount + 1) }))
  else s

/-- SENDER_FAULT (R202). After a RESTART the telegram is discarded with the queue (R195; log entry 24). -/
def execSenderFault (s : State) : Answer := .next (if s.operating then conclude (faultSender s) else dropSent s)

/-- BUS_OFF (R203). -/
def execBusOff (s : State) : Answer := operate busOffTest s

/-- The recovery timer expires: the bus state is ON again (R35, R203). -/
def recoverBus (s : State) : State :=
  if running s.bus.recovery then
    clearHold .busOff (fall .busOff (s.withBus { s.bus with off := false, faultCount := 0, recovery := none }))
  else s

/-- RECOVERY_TIMER_EXPIRY (R203). -/
def execRecoveryTimerExpiry (s : State) : Answer := operate recoverBus s

end Sys2Proof.Machine
end

