-- ==== Sys2Proof/Machine/Field.lean ====
section
/-! DEFINITION. The field lines as commands: encoders, the mark input, the knife and its timers, the cut knife and the gate (R1,
R15, R64 to R70, R158, R161). The roll arms' inputs are in Machine/Arms.lean. -/

namespace Sys2Proof.Machine

open Sys2Proof

/-! ## Encoders and the mark sensor -/

/-- Counts one edge of an encoder; encoder 2 is counted in the UNWIND only (R1). -/
def countEdge (encoder : EncoderName) (forward : Bool) (s : State) : State :=
  match encoder with
  | .encoder1 => s.withWeb { s.web with infeed := stepCounter s.web.infeed s.cfg.scale1 forward }
  | .encoder2 =>
    if s.is .unwind then s.withWeb { s.web with outfeed := stepCounter s.web.outfeed s.cfg.scale2 forward } else s

/-- In the UNWIND a raw fill that an edge brings from above 0 to 0 or below trips (R108). DESIGN CHOICE, unsafe (log entry 51): in
STOP_OLD with the same edge at fill_min or below, the trip comes before the abort of R121, so SPLICE_ABORT is not latched. -/
def countAndTest (encoder : EncoderName) (forward : Bool) (s : State) : State :=
  let t := countEdge encoder forward s
  if s.is .unwind && 0 < s.rawFill && t.rawFill ≤ 0 then addTrip .accumEmpty t else t

/-- ENCODER_EDGE (R1): every position event whose point is reached is taken (R2). -/
def execEncoderEdge (encoder : EncoderName) (forward : Bool) (s : State) : Answer :=
  operateWeb (countAndTest encoder forward) s

/-- REG_LOST: the second miss in a row holds the line (R19). -/
def regLostTest (s : State) : State :=
  if 2 ≤ s.web.missCount ∧ HoldCause.regLost ∉ s.gov.holds then latchRegLost s else s

/-- REG_LOST (R19). -/
def execRegLost (s : State) : Answer := operate regLostTest s

/-- The mark input at a level: becoming active makes a candidate mark with its edge at the position, becoming inactive discards
a candidate not yet accepted (R15). -/
def takeMark (high : Bool) (s : State) : State :=
  let t := s.withPins { s.pins with markHigh := high }
  if s.hasMark then
    match s.cfg.markActive s.pins.markHigh, s.cfg.markActive high with
    | false, true => t.withWeb { t.web with candidate := some t.position }
    | true, false => t.withWeb { t.web with candidate := none }
    | _, _ => t
  else t

/-- MARK_INPUT (R15). -/
def execMarkInput (high : Bool) (s : State) : Answer :=
  .next (if s.operating then finish (takeMark high s) else s.withPins { s.pins with markHigh := high })

/-! ## The knife -/

/-- The stroke-complete input: the stroke ends, a clean one sets the consecutive-limit count to 0, and the held fold or the
next depth follows (R64). -/
def strokeDone (s : State) : State :=
  match s.pattern.stroke with
  | none => s
  | some k =>
    let t := idleKnife s
    afterKnife (if k.limited then t else t.withPattern { t.pattern with limitCount := 0 })

/-- STROKE_COMPLETE (R64). -/
def execStrokeComplete (s : State) : Answer := operate strokeDone s

/-- The stall timer expires: the stroke ends, its panel gains MISPLEAT, and KNIFE_STALL trips the station (R64;
log entry 37). -/
def strokeStalled (s : State) : State :=
  match s.pattern.stroke with
  | none => s
  | some k => addTrip .knifeStall (afterKnife (markSeg k.ref.uid .mispleat (idleKnife s)))

/-- STALL_TIMER_EXPIRY (R64). -/
def execStallTimerExpiry (s : State) : Answer := operateWeb strokeStalled s

/-- The move timer expires: the actuator stands at the target, and the held fold or the next depth follows (R68). -/
def moveDone (s : State) : State :=
  match s.pattern.move with
  | none => s
  | some m => afterKnife (s.withPattern { s.pattern with depth := some m.target, move := none })

/-- MOVE_TIMER_EXPIRY (R68). -/
def execMoveTimerExpiry (s : State) : Answer := operate moveDone s

/-- The current filter in microseconds (R69, R185). -/
def PleatArea.currentFilter (a : PleatArea) : Nat :=
  match a.filterCode with
  | 0 => 0
  | 1 => 20
  | 2 => 50
  | _ => 100

/-- The third limited stroke in a row trips the station (R70). -/
def jamTest (s : State) : State :=
  if 3 ≤ s.pattern.limitCount then addTrip .knifeJam (s.withPattern { s.pattern with limitCount := 0 }) else s

/-- KNIFE_JAM (R70). -/
def execKnifeJam (s : State) : Answer := operateWeb jamTest s

/-- An assertion of the comparator in a stroke not yet limited is a current-limit detection (R69, R70). -/
def limitStroke (microseconds : Nat) (s : State) : State :=
  match s.pattern.stroke with
  | none => s
  | some k =>
    if k.limited ∨ microseconds < s.cfg.pleat.currentFilter then s
    else
      let a := s.withPattern { s.pattern with
        stroke := some { k with limited := true }, limitCount := s.pattern.limitCount + 1 }
      let b := markSeg k.ref.uid .knifeLimited a
      let c := b.withCond { b.cond with limitedStrokes := saturate 65535 (b.cond.limitedStrokes + 1) }
      jamTest (raise .knifeLimit c)

/-- CURRENT_LIMIT_DETECTION (R69). -/
def execCurrentLimitDetection (microseconds : Nat) (s : State) : Answer := operateWeb (limitStroke microseconds) s

/-! ## The outfeed -/

/-- The cut timer expires: the knife is IDLE (R158). -/
def cutDone (s : State) : State := s.withOutfeed { s.outfeed with cutTimer := none }

/-- CUT_TIMER_EXPIRY (R158). -/
def execCutTimerExpiry (s : State) : Answer := operate cutDone s

/-- The gate timer expires: the target's position input decides between the target and UNKNOWN with GATE_LATE (R161). -/
def gateDone (s : State) : State :=
  match s.outfeed.gate with
  | .travelling target _ =>
    if s.pins.gateInput target then setGate (.resting target) s else raise .gateLate (setGate .unknown s)
  | .resting _ | .unknown => s

/-- GATE_TIMER_EXPIRY (R161), with the position inputs as they stand. -/
def execGateTimerExpiry (gatePass gateDivert : Bool) (s : State) : Answer :=
  let t := s.withPins { s.pins with gatePass := gatePass, gateDivert := gateDivert }
  operate gateDone t

end Sys2Proof.Machine
end

