-- ==== Sys2Proof/WellFormed.lean ====
section
/-! DEFINITION. Which commands can exist at all. Everything a type does not already say about an operand. -/

namespace Sys2Proof

/-- A read of the configuration memory that answers gives 128 bytes (R184). -/
def wellFormedAnswer (answer : Option (List Byte)) : Bool :=
  match answer with
  | none => true
  | some bytes => bytes.length == 128

/-- A scan gives one sample for each of the eight channels (R124). -/
def wellFormedSamples (samples : List (BitVec 12)) : Bool := samples.length == 8

/-- The peer table has entries for the addresses 1 to 15. -/
def wellFormedAddress (address : Nat) : Bool := 1 ≤ address && address ≤ 15

/-- The commands that can be sent. -/
def wellFormed (c : Instr) : Bool :=
  match c with
  | .configurationReadComplete answer => wellFormedAnswer answer
  | .sensorScanComplete samples => wellFormedSamples samples
  | .peerEntryLate address => wellFormedAddress address
  | .peerEntryLost address => wellFormedAddress address
  | .powerOnReset | .powerOnResetRelease | .sensorFault _ | .sensorFaultClear _ | .readyHeatEntry
  | .zoneCut _ | .heatControlBoundary | .parkTimerExpiry | .rampUpdate _ _ _ | .pulseTimerExpiry
  | .joinTimerExpiry | .tripTimerExpiry | .estopInput _ | .encoderEdge _ _ | .regLost | .markInput _
  | .strokeComplete | .stallTimerExpiry | .moveTimerExpiry | .currentLimitDetection _ | .knifeJam
  | .cutTimerExpiry | .gateTimerExpiry _ _ | .revolutionPulse _ _ | .armReadyChange _ _ | .armEmpty _ _
  | .pasteTimerExpiry | .webPresentTimerExpiry | .frameReceived _ | .tripLatchTaken | .transmissionBegin
  | .transmissionComplete | .arbitrationLost | .senderFault | .busOff | .recoveryTimerExpiry | .tripClear
  | .hold | .release | .handoff | .speedSet | .linePulse | .doseVerdict | .orderMeasure | .cancel
  | .conditionAck | .panelOrder | .patternFragment | .recipe | .rollData | .standby | .wake | .restart
  | .faultLampFlash => true

end Sys2Proof
end

