-- ==== Sys2Proof/Machine/Ramp.lean ====
section
/-! DEFINITION. The ramp update, the liveness of the peers, and the timers of the governor and the station
(R25, R29, R30, R38, R41, R44, R109 to R112, R190). -/

namespace Sys2Proof.Machine

open Sys2Proof

/-! ## Timers -/

/-- A gate after one more millisecond (R161). -/
def Gate.tick (g : Gate) : Gate :=
  match g with
  | .travelling target timer => .travelling target (timer - 1)
  | .resting _ | .unknown => g

/-- Every running timer after one more millisecond. -/
def tickTimers (s : State) : State :=
  let a := s.withLoader { s.loader with joinTimer := tickTimer s.loader.joinTimer }
  let b := a.withBus { a.bus with recovery := tickTimer a.bus.recovery }
  let c := b.withGov { b.gov with tripTimer := tickTimer b.gov.tripTimer, pulseTimer := tickTimer b.gov.pulseTimer }
  let d := c.withPattern { c.pattern with
    stroke := c.pattern.stroke.map (fun k => { k with timer := tickTimer k.timer })
    move := c.pattern.move.map (fun m => { m with timer := tickTimer m.timer }) }
  let e := d.withRoll { d.roll with pasteTimer := tickTimer d.roll.pasteTimer, webTimer := tickTimer d.roll.webTimer }
  let f := e.withHeat { e.heat with parkTimer := tickTimer e.heat.parkTimer, heatTimer := tickTimer e.heat.heatTimer }
  f.withOutfeed { f.outfeed with cutTimer := tickTimer f.outfeed.cutTimer, gate := f.outfeed.gate.tick }

/-! ## Peers (R29, R30) -/

/-- The liveness of an entry follows its age; an UNKNOWN entry and a LOST one wait for a pulse (R29). -/
def PeerEntry.judged (e : PeerEntry) : PeerEntry :=
  match e.liveness with
  | .unknown | .lost => e
  | .live | .late =>
    if 4 * e.interval < e.age then { e with liveness := .lost }
    else if 2 * e.interval < e.age then { e with liveness := .late }
    else e

/-- An entry a millisecond later (R29). -/
def PeerEntry.aged (e : PeerEntry) : PeerEntry :=
  if e.liveness = .unknown then e else { e with age := saturate 65535 (e.age + 1) }.judged

/-- PEER_LATE is set while a roster entry is LATE (R30). -/
def followPeerLate (s : State) : State :=
  follow .peerLate (s.rosterOthers.any (fun a => (s.peer a).liveness == .late)) s

/-- An entry goes to LOST with its next millisecond (R29). -/
def PeerEntry.goesLost (e : PeerEntry) : Bool := e.liveness ≠ .lost && e.aged.liveness == .lost

/-- Every entry a millisecond later. PEER_LATE follows the new liveness first, so that the notice of a PEER_LOST that rises with it
carries no PEER_LATE that has cleared (R29, R30; log entry 26). -/
def agePeers (s : State) : State :=
  let t := followPeerLate (s.withPeers (s.peers.map PeerEntry.aged))
  if s.peers.any PeerEntry.goesLost then raise .peerLost t else t

/-- The transition of one entry to LATE, when its age has brought it there (R29). -/
def lateTest (address : Nat) (s : State) : State :=
  let e := s.peer address
  if e.liveness = .live ∧ 2 * e.interval < e.age then followPeerLate (setPeer address { e with liveness := .late } s) else s

/-- The transition of one entry to LOST, when its age has brought it there: it leaves LATE before PEER_LOST is latched (R29,
R30). -/
def lostTest (address : Nat) (s : State) : State :=
  let e := s.peer address
  if e.liveness = .late ∧ 4 * e.interval < e.age then
    raise .peerLost (followPeerLate (setPeer address { e with liveness := .lost } s))
  else s

/-! ## The ramp (R38, R44) -/

/-- v_a after a ramp update (R38). -/
def State.rampedSpeed (s : State) : Nat :=
  if s.mode = .tripped then s.gov.vA - s.cfg.aE
  else if s.gov.vA < s.gov.vT then min (s.gov.vA + s.cfg.aUp) s.gov.vT
  else max (s.gov.vA - s.cfg.aDn) s.gov.vT

/-- Moves v_a; in TRIPPED, v_a reaching 0 clears drive enable and stops the trip timer (R38, R44). -/
def rampGov (s : State) : State :=
  let t := s.withGov { s.gov with vA := s.rampedSpeed }
  if t.mode = .tripped ∧ 0 < s.gov.vA ∧ t.gov.vA = 0 then clearDrive (t.withGov { t.gov with tripTimer := none }) else t

/-- The UNWIND at a ramp update, in the order of log entry 52 (R84, R109 to R112, R117, R119; DESIGN CHOICE). -/
def rampUnwind (s : State) : State := if s.is .unwind then stallAtStandstill (loadFlatCeiling (rampRoll s)) else s

/-- The levels of the inputs that a ramp update samples (log entry 6). -/
def samplePins (webPresent gatePass gateDivert : Bool) (s : State) : State :=
  s.withPins { s.pins with webPresent := webPresent, gatePass := gatePass, gateDivert := gateDivert }

/-- What a ramp update does in the operating modes, before position events are taken (the order is log entry 52, DESIGN CHOICE). -/
def rampStep (s : State) : State := rampUnwind (agePeers (rampGov s))

/-- RAMP_UPDATE (R38): timers advance in every mode, the governor, the peers and the UNWIND in the operating modes. -/
def execRampUpdate (webPresent gatePass gateDivert : Bool) (s : State) : Answer :=
  let t := tickTimers (samplePins webPresent gatePass gateDivert s)
  .next (if t.operating then finish (rampStep t) else t)

/-- PEER_ENTRY_LATE (R29). -/
def execPeerEntryLate (address : Nat) (s : State) : Answer :=
  if wellFormedAddress address then operateWeb (lateTest address) s else .fault .illFormedCommand

/-- PEER_ENTRY_LOST (R29). -/
def execPeerEntryLost (address : Nat) (s : State) : Answer :=
  if wellFormedAddress address then operateWeb (lostTest address) s else .fault .illFormedCommand

/-! ## Timers of the governor and the station -/

/-- The expiry of the pulse timer queues a pulse and starts it again (R25). -/
def pulseExpiry (s : State) : State := if running s.gov.pulseTimer then pulseForMode s else s

/-- PULSE_TIMER_EXPIRY (R25). -/
def execPulseTimerExpiry (s : State) : Answer := operate pulseExpiry s

/-- The expiry of the join timer: with a roster entry UNKNOWN, PEER_LOST is latched and the timer started again; else it stops
(R190). -/
def joinExpiry (s : State) : State :=
  if s.mode = .joining ∧ running s.loader.joinTimer then
    if s.settersUnknown then
      let t := raise .peerLost s
      t.withLoader { t.loader with joinTimer := some 1000 }
    else s.withLoader { s.loader with joinTimer := none }
  else s

/-- JOIN_TIMER_EXPIRY (R190). -/
def execJoinTimerExpiry (s : State) : Answer := operate joinExpiry s

/-- The expiry of the trip timer clears drive enable (R44). -/
def tripExpiry (s : State) : State :=
  if running s.gov.tripTimer then clearDrive (s.withGov { s.gov with tripTimer := none }) else s

/-- TRIP_TIMER_EXPIRY (R44). -/
def execTripTimerExpiry (s : State) : Answer := operate tripExpiry s

/-- The ESTOP input at a level: becoming active adds ESTOP_INPUT (R41). -/
def setEstop (active : Bool) (s : State) : State :=
  let t := s.withPins { s.pins with estop := active }
  if active && !s.pins.estop then addTrip .estopInput t else t

/-- ESTOP_INPUT (R41, R47): outside the operating modes the level alone is noted. -/
def execEstopInput (active : Bool) (s : State) : Answer :=
  .next (if s.operating then finish (setEstop active s) else s.withPins { s.pins with estop := active })

/-- The governor takes the trip latch (R43). -/
def execTripLatchTaken (s : State) : Answer := operateWeb takeLatch s

end Sys2Proof.Machine
end

