-- ==== Sys2Proof/Machine/Telegrams.lean ====
section
/-! DEFINITION. The telegrams of every role, taken from the receive queue by the speed governor, the peer monitor, the web
tracker, the condition unit and the station mode (R11 to R14, R20, R21, R28, R32, R34, R46, R81, R179, R192 to R195). -/

namespace Sys2Proof.Machine

open Sys2Proof

/-! ## Taking a telegram (R209) -/

/-- The oldest entry of the receive queue, when it is of a kind, and the state with its place freed (R209). -/
def takeEntry (k : Kind) (s : State) : Option (RxEntry × State) :=
  match s.bus.rx with
  | [] => none
  | e :: rest => if e.kind = k then some (e, s.withBus { s.bus with rx := rest }) else none

/-- The owning unit acts on the oldest entry of the receive queue, when it is of a kind (R209). -/
def takeAs (k : Kind) (f : RxEntry → State → State) (s : State) : State :=
  match takeEntry k s with
  | some (e, t) => f e t
  | none => s

/-! ## Speed governor -/

/-- A TRIP CLEAR is accepted (R46). -/
def State.clearAccepted (s : State) : Bool :=
  s.mode == .tripped && s.gov.vA == 0 && !s.pins.estop && !(s.gov.trips.contains .dupAddress)

/-- Returns from a trip to the mode before it: JOINING again, or ACTIVE (R46, R190). -/
def leaveTrip (s : State) : State :=
  let t := s.withGov { s.gov with trips := [], beforeTrip := none }
  if s.gov.beforeTrip = some .joining then enterJoining t else enterActive t

/-- TRIP CLEAR taken (R46). -/
def takeTripClear (_e : RxEntry) (s : State) : State := if s.clearAccepted then leaveTrip s else s

/-- TRIP_CLEAR (R46). -/
def execTripClear (s : State) : Answer := operateWeb (takeAs .tripClear takeTripClear) s

/-- HOLD taken (R34). -/
def takeHold (_e : RxEntry) (s : State) : State := setHold .operator s

/-- HOLD (R34). -/
def execHold (s : State) : Answer := operate (takeAs .hold takeHold) s

/-- RELEASE taken (R34). -/
def takeRelease (_e : RxEntry) (s : State) : State := clearHold .operator s

/-- RELEASE (R34). -/
def execRelease (s : State) : Answer := operate (takeAs .release takeRelease) s

/-- SPEED SET taken: a speed above 6000 is ignored (R32). -/
def takeSpeedSet (e : RxEntry) (s : State) : State :=
  let speed := fieldAt e.body 0 2
  if speed ≤ 6000 then s.withGov { s.gov with vOp := speed } else s

/-- SPEED_SET (R32). -/
def execSpeedSet (s : State) : Answer := operate (takeAs .speedSet takeSpeedSet) s

/-! ## Peer monitor (R28) -/

/-- The ratio of a pulse's role fields: for a PLEAT the ratio, with `none` outside for a value that makes the pulse ignored
(R27, R28). -/
def pulseRatio (r : Role) (body : List Byte) : Option (Option Nat) :=
  if r = .pleat then
    let ratio := fieldAt body 11 2
    if 4096 ≤ ratio ∧ ratio ≤ 20480 then some (some ratio) else none
  else some none

/-- The advertised interval of a pulse's interval code (R26, R28). -/
def pulseInterval (code : Nat) : Option Nat :=
  match code with
  | 0 => some 25
  | 1 => some 250
  | _ => none

/-- The peer table entry a pulse loads; none for a pulse that is ignored (R28). -/
def readPulse (body : List Byte) : Option PeerEntry :=
  match modeOfCode (fieldAt body 0 1), roleOfCode (fieldAt body 1 1), pulseInterval (fieldAt body 8 1 / 32 % 4) with
  | some m, some r, some i =>
    (pulseRatio r body).map (fun ratio =>
      { liveness := .live, role := some r, mode := some m, ceiling := fieldAt body 2 2,
        holds := holdsOfBits (fieldAt body 6 1), ratio := ratio, interval := i, age := 0 })
  | _, _, _ => none

/-- LINE PULSE taken (R28, R30). The exit command follows the ratio at the next ramp update (log entry 48). -/
def takeLinePulse (e : RxEntry) (s : State) : State :=
  if inMask s.cfg.roster e.origin && e.origin ≠ s.cfg.address then
    match readPulse e.body with
    | some p => followPeerLate (setPeer e.origin p s)
    | none => s
  else s

/-- LINE_PULSE (R28). -/
def execLinePulse (s : State) : Answer := operateWeb (takeAs .linePulse takeLinePulse) s

/-! ## Web tracker (R11 to R14, R20, R21) -/

/-- The sequence check of a taken HANDOFF (R12). -/
def checkSequence (seg : Half) (newSeq : Bool) (s : State) : State :=
  let t := s.withWeb { s.web with expected := some (seg + 1) }
  if !newSeq && s.web.expected.any (fun x => x ≠ seg) then raise .seqGap t else t

/-- The segment a HANDOFF places, CANCELLED when its panel id is in the cancel list (R13, R21). -/
def State.handoffSegment (s : State) (e : RxEntry) : Segment :=
  let g := readHandoff e.body 0 (e.arrival + dmm s.cfg.approach - dmm (fieldAt e.body 20 2))
  if g.panelId.any (fun id => s.web.cancelList.contains id) then g.mark .cancelled else g

/-- The capacity check and the placement of a HANDOFF (R13, R14). -/
def admitHandoff (e : RxEntry) (s : State) : State :=
  if 48 ≤ s.mapCount then setHold .mapFull (raise .mapFull s) else placeSegment (s.handoffSegment e) s

/-- HANDOFF taken: only from the configured upstream address, so never in the UNWIND (R11). -/
def takeHandoff (e : RxEntry) (s : State) : State :=
  if e.origin = s.cfg.upstream ∧ s.is .unwind = false then
    let g := s.handoffSegment e
    admitHandoff e (checkSequence g.seg g.newSeq s)
  else s

/-- HANDOFF (R11 to R14). -/
def execHandoff (s : State) : Answer := operateWeb (takeAs .handoff takeHandoff) s

/-- DOSE VERDICT taken (R20). -/
def takeDoseVerdict (e : RxEntry) (s : State) : State :=
  mergeVerdict (BitVec.ofNat 16 (fieldAt e.body 0 2)) (BitVec.ofNat 32 (fieldAt e.body 2 4))
    (verdictOfCode (fieldAt e.body 6 1)) e.origin s

/-- DOSE_VERDICT (R20). -/
def execDoseVerdict (s : State) : Answer := operateWeb (takeAs .doseVerdict takeDoseVerdict) s

/-- CANCEL taken; in the UNWIND it removes a queued order as well (R21, R81). -/
def takeCancel (e : RxEntry) (s : State) : State :=
  let id : Word := BitVec.ofNat 32 (fieldAt e.body 0 4)
  let t := cancelPanel id s
  if t.is .unwind then cancelOrder id t else t

/-- CANCEL (R21, R81). -/
def execCancel (s : State) : Answer := operateWeb (takeAs .cancel takeCancel) s

/-! ## Condition unit (R179) -/

/-- The zones a CONDITION ACK of ZONE_CUT names (R179). -/
def State.ackZones (s : State) (which : Nat) : List Nat :=
  (List.range s.cfg.setter.zones).filter (fun z => which = 255 ∨ which = z)

/-- Acknowledges ZONE_CUT of one zone: in LATCH mode the cut ends first; a cut that stands sets the flag again (R141, R174,
R179). -/
def ackZone (z : Nat) (s : State) : State :=
  let t := if s.cfg.setter.latchMode then setZone z { s.zone z with cut := false, overCount := 0 } s else s
  if t.flagged (.zoneCut z) then (if (t.zone z).cut then reassert (.zoneCut z) t else fall (.zoneCut z) t) else t

/-- Acknowledges a latched condition other than ZONE_CUT, with what it releases (R179). -/
def ackLatched (c : Cond) (s : State) : State :=
  match c with
  | .regLost => clearHold .regLost (fall .regLost (s.withWeb { s.web with missCount := 0 }))
  | .mapFull => clearHold .mapFull (fall .mapFull s)
  | .dupAddress => if s.bus.duplicate && s.flagged c then reassert c s else fall c s
  | .peerLate | .peerLost | .busFault | .busOff | .rxOverrun | .straySender | .seqGap | .markMissed | .strokeLate
  | .knifeLimit | .gateLate | .orderRefused | .noOrders | .zoneCut _ | .sensorFault _ | .steamLow | .underSet | .overSet
  | .speedFloor | .rollLow | .rollOut | .lotMismatch | .spliceAbort | .accumDrift | .rollRefused => fall c s

/-- CONDITION ACK taken (R179). DESIGN CHOICE, unsafe (log entry 49): ALL treats the zones one by one from zone 0 upward, so a
notice built when a still-cut zone's flag is set again carries a higher zone's ZONE_CUT that is cleared after it. -/
def takeConditionAck (e : RxEntry) (s : State) : State :=
  let code := fieldAt e.body 0 1
  if code = 16 then
    if s.is .setter then (s.ackZones (fieldAt e.body 1 1)).foldl (fun t z => ackZone z t) s else s
  else
    match latchedOfCode code with
    | some c => ackLatched c s
    | none => s

/-- CONDITION_ACK (R179). -/
def execConditionAck (s : State) : Answer := operate (takeAs .conditionAck takeConditionAck) s

/-! ## Station mode (R192 to R195) -/

/-- STANDBY taken: in ACTIVE at standstill (R192). -/
def takeStandby (_e : RxEntry) (s : State) : State :=
  if s.mode = .active ∧ s.gov.vA = 0 then enterStandby s else s

/-- STANDBY (R192). -/
def execStandby (s : State) : Answer := operateWeb (takeAs .standby takeStandby) s

/-- WAKE taken: in STANDBY (R193). -/
def takeWake (_e : RxEntry) (s : State) : State := if s.mode = .standby then enterActive s else s

/-- WAKE (R193). -/
def execWake (s : State) : Answer := operateWeb (takeAs .wake takeWake) s

/-- RESTART (R194, R195): at standstill a new start begins; the restarted station has no figures to make again. In CONFIGURING
and CONFIG_FAULT the telegram is taken at the end of its frame (log entry 14). -/
def execRestart (s : State) : Answer :=
  .next (
    if s.operating then
      match takeEntry .restart s with
      | some (_, t) => if t.gov.vA = 0 then takeRestart t else conclude t
      | none => s
    else s)

/-- The number of phases of the lamp's pattern for a class: n flashes of two phases and the long dark one (R188). -/
def lampPhases (cls : Nat) : Nat := 2 * cls + 1

/-- The lamp is lit in a phase (R188). -/
def phaseLit (cls phase : Nat) : Bool := phase < 2 * cls && phase % 2 == 0

/-- How long a phase lasts, in ms (R188). -/
def phaseTime (cls phase : Nat) : Nat := if phase < 2 * cls then 200 else 1000

/-- The lamp's next phase (R188). -/
def flashLamp (s : State) : State :=
  match s.loader.lamp, s.loader.faultClass with
  | .flashing n, some cls => s.withLoader { s.loader with lamp := .flashing ((n + 1) % lampPhases cls) }
  | _, _ => s

/-- FAULT_LAMP_FLASH (R188): in CONFIG_FAULT a phase of the pattern ends. -/
def execFaultLampFlash (s : State) : Answer := .next (if s.mode = .configFault then flashLamp s else s)

end Sys2Proof.Machine
end

