-- ==== Sys2Proof/Machine/RoleTelegrams.lean ====
section
/-! DEFINITION. The telegrams of one role each, taken from the receive queue: orders measured and admitted, pattern uploads,
recipes, roll data (R52 to R60, R79, R80, R97 to R99, R114, R127). -/

namespace Sys2Proof.Machine

open Sys2Proof

/-! ## ORDER MEASURE (R79, R80) -/

/-- ORDER MEASURE taken by the UNWIND: only a status of OK goes on to the admission checks (R79). The role units are idle in
other roles, whose take tables keep these telegrams out of the receive queue (R208). -/
def takeOrderMeasure (e : RxEntry) (s : State) : State :=
  if s.is .unwind ∧ fieldAt e.body 9 1 = MeasureStatus.ok.code then admitOrder (readMeasured e.body) s else s

/-- ORDER_MEASURE (R79, R80). -/
def execOrderMeasure (s : State) : Answer := operate (takeAs .orderMeasure takeOrderMeasure) s

/-! ## PANEL ORDER (R58 to R60) -/

/-- The outcome of a measure (R58, R59). -/
structure Measure where
  status : MeasureStatus
  flat : Nat
  pleated : Nat
  strokes : Nat
  version : Byte
  deriving DecidableEq, Repr

/-- Measures an order of a pattern number, a repeat count and a recipe against the active copy of its slot (R58, R59). -/
def State.measure (s : State) (number repeats recipe : Nat) : Measure :=
  let empty := fun (status : MeasureStatus) =>
    ({ status := status, flat := 0, pleated := 0, strokes := 0, version := 0 } : Measure)
  if !(1 ≤ number && number ≤ 32 && 1 ≤ repeats && repeats ≤ 99 && 1 ≤ recipe && recipe ≤ 16) then empty .badField
  else
    match (s.slot number).active with
    | none => empty .noPattern
    | some c =>
      let status : MeasureStatus :=
        if 200000 < c.flat repeats then .tooLong else if c.pleated repeats < 1000 then .tooShort else .ok
      { status := status, flat := c.flat repeats, pleated := c.pleated repeats, strokes := c.strokes repeats,
        version := (s.slot number).version }

/-- The body of the ORDER MEASURE that answers a PANEL ORDER (R60). -/
def State.measureBody (s : State) (order : List Byte) : List Byte :=
  let m := s.measure (fieldAt order 4 1) (fieldAt order 5 1) (fieldAt order 6 1)
  order.take 9 ++ bytesOf 1 m.status.code ++ bytesOf 4 m.flat ++ bytesOf 4 m.pleated ++ bytesOf 4 m.strokes ++
    bytesOf 1 m.version.toNat

/-- PANEL ORDER taken: its measure is queued to all (R60). -/
def takePanelOrder (e : RxEntry) (s : State) : State :=
  if s.is .pleat then queueTx { kind := .orderMeasure, dest := 0, body := s.measureBody e.body } s else s

/-- PANEL_ORDER (R58). -/
def execPanelOrder (s : State) : Answer := operate (takeAs .panelOrder takePanelOrder) s

/-! ## PATTERN FRAGMENT (R52 to R56) -/

/-- Sets the upload status (R52). -/
def setUpload (number : Option Nat) (status : UploadStatus) (s : State) : State :=
  s.withPattern { s.pattern with uploadPattern := number, uploadStatus := status }

/-- Loads or empties the staging buffer. -/
def setStaging (u : Option Staging) (s : State) : State := s.withPattern { s.pattern with staging := u }

/-- Discards the upload in progress with a status (R54, R55). -/
def dropUpload (number : Option Nat) (status : UploadStatus) (s : State) : State :=
  setUpload number status (setStaging none s)

/-- The open run is bound to a slot (R56). -/
def State.runBoundTo (s : State) (number : Nat) : Bool :=
  match s.pattern.run with
  | some r => r.bound.isSome && r.slot == number
  | none => false

/-- Commits a staged upload: active at once, or pending while the open run is bound to its slot (R56). -/
def commitUpload (u : Staging) (s : State) : State :=
  let copy : PatternCopy := { leadIn := u.leadIn, tail := u.tail, steps := u.steps }
  let t := setStaging none s
  if t.runBoundTo u.pattern then
    setUpload (some u.pattern) .pending (setSlot u.pattern { t.slot u.pattern with pending := some copy } t)
  else setUpload (some u.pattern) .active (setSlot u.pattern ((t.slot u.pattern).activate copy) t)

/-- The commit check of a last fragment (R55). -/
def commitCheck (u : Staging) (s : State) : State :=
  if u.steps.length = u.stepCount then commitUpload u s else dropUpload (some u.pattern) .sequence s

/-- Loads an upload that has passed its checks, and commits it on the last fragment (R53, R55). -/
def stageUpload (u : Staging) (last : Bool) (s : State) : State :=
  if last then commitCheck u s else setStaging (some u) s

/-- The last-fragment flag of a fragment's control byte. -/
def lastFragment (body : List Byte) : Bool := (fieldAt body 2 1).testBit 3

/-- The steps-held field of a fragment's control byte. -/
def stepsHeld (body : List Byte) : Nat := fieldAt body 2 1 / 16 % 8

/-- The upload a fragment 0 begins (R53). -/
def firstStaging (body : List Byte) : Staging :=
  { tag := fieldAt body 0 1, pattern := fieldAt body 1 1, leadIn := fieldAt body 3 2, tail := fieldAt body 5 2,
    stepCount := fieldAt body 7 1, steps := readSteps body 8 (stepsHeld body), expected := 1 }

/-- The fields of a fragment 0 lie in their ranges (R54). -/
def Staging.headerOk (u : Staging) : Bool :=
  (patternNumber u.pattern).isSome && u.leadIn ≤ 20000 && u.tail ≤ 20000 && 1 ≤ u.stepCount && u.stepCount ≤ 24

/-- A fragment 0: an upload in progress is abandoned, and a new one begins (R53, R54). -/
def beginUpload (body : List Byte) (s : State) : State :=
  let u := firstStaging body
  let t := match s.pattern.staging with
    | some old => dropUpload (some old.pattern) .abandoned s
    | none => dropUpload (patternNumber u.pattern) .none s
  if u.headerOk && u.steps.all PatternStep.inRange then stageUpload u (lastFragment body) t
  else dropUpload (patternNumber u.pattern) .badStep t

/-- A fragment continues the upload in progress in sequence (R55). -/
def Staging.follows (u : Staging) (body : List Byte) : Bool :=
  fieldAt body 0 1 == u.tag && fieldAt body 1 1 == u.pattern && fieldAt body 2 1 % 8 == u.expected &&
    fieldAt body 2 1 % 8 ≤ 5 && u.steps.length + stepsHeld body ≤ u.stepCount

/-- A fragment of another index: it continues the upload, or is out of sequence (R54, R55). One that would exceed the step count and
holds a step out of range as well is out of sequence: its status is SEQUENCE (DESIGN CHOICE, log entry 41). -/
def continueUpload (body : List Byte) (s : State) : State :=
  match s.pattern.staging with
  | none => dropUpload (patternNumber (fieldAt body 1 1)) .sequence s
  | some u =>
    if u.follows body then
      let steps := readSteps body 3 (stepsHeld body)
      if steps.all PatternStep.inRange then
        stageUpload { u with steps := u.steps ++ steps, expected := u.expected + 1 } (lastFragment body) s
      else dropUpload (some u.pattern) .badStep s
    else dropUpload (some u.pattern) .sequence s

/-- PATTERN FRAGMENT taken (R53, R55). -/
def takePatternFragment (e : RxEntry) (s : State) : State :=
  if s.is .pleat then (if fieldAt e.body 2 1 % 8 = 0 then beginUpload e.body s else continueUpload e.body s) else s

/-- PATTERN_FRAGMENT (R52 to R56). -/
def execPatternFragment (s : State) : Answer := operate (takeAs .patternFragment takePatternFragment) s

/-! ## RECIPE (R127) -/

/-- The recipe a body carries (R127). -/
def readRecipe (b : List Byte) : Recipe :=
  { setpoints := [signed16 (fieldAt b 1 2), signed16 (fieldAt b 3 2), signed16 (fieldAt b 5 2), signed16 (fieldAt b 7 2)]
    doseMin := fieldAt b 9 4, doseMax := fieldAt b 13 4 }

/-- Every field of a recipe lies in its range (R127). -/
def Recipe.inRange (r : Recipe) : Bool :=
  r.setpoints.all (fun t => -500 ≤ t && t ≤ 1750) && 1 ≤ r.doseMin && r.doseMin < r.doseMax

/-- RECIPE taken: the entry is loaded whole, or the recipe refused whole (R127). -/
def takeRecipe (e : RxEntry) (s : State) : State :=
  let number := fieldAt e.body 0 1
  let r := readRecipe e.body
  if s.is .setter ∧ 1 ≤ number ∧ number ≤ 16 ∧ r.inRange then
    s.withHeat { s.heat with recipes := s.heat.recipes.set (number - 1) (some r) }
  else s

/-- RECIPE (R127). -/
def execRecipe (s : State) : Answer := operate (takeAs .recipe takeRecipe) s

/-! ## ROLL DATA (R97 to R99, R114) -/

/-- The fields of a ROLL DATA. -/
structure RollData where
  arm : Option ArmName
  threaded : Bool
  spliceNow : Bool
  lot : Half
  thickness : Nat
  core : Nat
  circumference : Nat
  deriving DecidableEq, Repr

/-- The arm of an arm number. -/
def armOfNumber (n : Nat) : Option ArmName :=
  match n with
  | 1 => some .arm1
  | 2 => some .arm2
  | _ => none

/-- The fields of a ROLL DATA body; the roll id is not kept (R97). -/
def readRollData (b : List Byte) : RollData :=
  { arm := armOfNumber (fieldAt b 0 1), threaded := (fieldAt b 1 1).testBit 0, spliceNow := (fieldAt b 1 1).testBit 1,
    lot := BitVec.ofNat 16 (fieldAt b 6 2), thickness := fieldAt b 8 2, core := fieldAt b 10 2,
    circumference := fieldAt b 12 2 }

/-- The fields lie in the ranges of R96, C is not below c0, and not both flags are set (R97). -/
def RollData.fieldsOk (d : RollData) : Bool :=
  20 ≤ d.thickness && d.thickness ≤ 3000 && 500 ≤ d.core && d.core ≤ 20000 && 500 ≤ d.circumference &&
    d.circumference ≤ 60000 && d.core ≤ d.circumference && !(d.threaded && d.spliceNow)

/-- The conditions of threaded (R99). -/
def State.mayThread (s : State) : Bool :=
  s.activeArm.isNone && s.roll.spliceState == .run && s.pins.webPresent

/-- The conditions of splice-now, tested after the loading (R114). -/
def State.maySplice (s : State) (a : ArmName) : Bool :=
  s.mode == .active && s.activeArm == some (otherArm a) && s.roll.spliceState == .run && (s.arm a).state == .ready

/-- Sets the ROLL DATA status; a refusing result latches ROLL_REFUSED, after what the loading has
brought (R97; the order is log entry 53, DESIGN CHOICE). -/
def setRollStatus (arm : Nat) (r : RollResult) (s : State) : State :=
  let t := s.withRoll { s.roll with statusArm := arm, statusResult := r }
  match r with
  | .badField | .busy | .notTaken => raise .rollRefused t
  | .none | .threaded | .splice | .loaded => t

/-- Loads a record as for a ROLL DATA without flags: its readiness may start a splice, and its lack may abort one
(R98, R105, R114, R121). -/
def loadPlain (a : ArmName) (d : RollData) (s : State) : State :=
  let t := rollConditions (spliceTest (loadArm a d.lot d.thickness d.core d.circumference s))
  abortIf ((t.arm a).state == .loaded && t.roll.spliceArm == some a) t

/-- A ROLL DATA for an arm that is neither ACTIVE nor EXPIRING (R97 to R99). -/
def loadRoll (a : ArmName) (d : RollData) (s : State) : State :=
  let loaded := loadArm a d.lot d.thickness d.core d.circumference s
  if d.threaded then
    if s.mayThread then setRollStatus (armNumber a) .threaded (activateArm a loaded)
    else setRollStatus (armNumber a) .notTaken (loadPlain a d s)
  else if d.spliceNow then
    if loaded.maySplice a then setRollStatus (armNumber a) .splice (startSplice a loaded)
    else setRollStatus (armNumber a) .notTaken (loadPlain a d s)
  else setRollStatus (armNumber a) .loaded (loadPlain a d s)

/-- An arm refuses ROLL DATA (R97). -/
def Arm.busy (x : Arm) : Bool := x.state == .active || x.state == .expiring

/-- A ROLL DATA by the first line of R97 that applies. -/
def describeRoll (d : RollData) (s : State) : State :=
  match d.arm with
  | none => setRollStatus 0 .badField s
  | some a =>
    if !d.fieldsOk then setRollStatus (armNumber a) .badField s
    else if (s.arm a).busy then setRollStatus (armNumber a) .busy s
    else loadRoll a d s

/-- ROLL DATA taken by the UNWIND (R97). -/
def takeRollData (e : RxEntry) (s : State) : State :=
  if s.is .unwind then describeRoll (readRollData e.body) s else s

/-- ROLL_DATA (R97). -/
def execRollData (s : State) : Answer := operateWeb (takeAs .rollData takeRollData) s

end Sys2Proof.Machine
end

