-- ==== Sys2Proof/Machine/Scan.lean ====
section
/-! DEFINITION. The starts and the sensor scan as commands: power-on reset and its release, the completion of the record read,
the completion of a scan, and the transitions a scan brings about (R107, R124 to R142, R183 to R188). -/

namespace Sys2Proof.Machine

open Sys2Proof

/-! ## Power-on reset and the record read -/

/-- POWER_ON_RESET: POWER_UP from any mode, every unit at its value after power-on reset. The levels at the input pins and
the commands that wait are the outside world's and stand (R183; log entry 10). -/
def execPowerOnReset (s : State) : Answer := .next ((State.reset.withPins s.pins).withPending s.pending)

/-- POWER_ON_RESET_RELEASE: POWER_UP is left for CONFIGURING, and the record read begins (R183, R184). -/
def execPowerOnResetRelease (s : State) : Answer := .next (if s.mode = .powerUp then enterConfiguring s else s)

/-- What the completion of the record read does with the bytes in the read buffer (R184, R188). -/
def takeRecord (bytes : List Byte) (s : State) : State :=
  match checkRecord bytes with
  | .fails cls => enterConfigFault cls s
  | .passes i => acceptRecord i s

/-- CONFIGURATION_READ_COMPLETE: the record is checked (R184). -/
def execConfigurationReadComplete (answer : Option (List Byte)) (s : State) : Answer :=
  if wellFormedAnswer answer then
    .next (if s.mode = .configuring ∧ s.loader.reading then takeRecord (readBuffer answer) s else s)
  else .fault .illFormedCommand

/-! ## The sensor scan -/

/-- Re-bases the fill on the sensor (R107, R108): a fill more than 500 dmm off latches ACCUM_DRIFT, and a raw fill brought from
above 0 to 0 or below trips. DESIGN CHOICE, unsafe (log entry 51): in STOP_OLD with the fill so brought to fill_min or below, the
trip comes before the abort of R121, so SPLICE_ABORT is not latched. -/
def compareFill (s : State) : State :=
  match s.channelValue 0 with
  | none => s
  | some v =>
    if 500 < ((s.fill : Int) - v).natAbs then
      let t := raise .accumDrift
        (s.withRoll { s.roll with fillBase := v - signedDiff s.position s.outCount })
      if 0 < s.rawFill ∧ t.rawFill ≤ 0 then addTrip .accumEmpty t else t
    else s

/-- What a scan in an operating mode does after the samples: faults in every role, the tests of the SETTER, the fill comparison
of the UNWIND (R124). The manual gives the tests of one completion no order: the over-temperature test comes before the band test,
so that it reads the setpoints in force at the completion, and STEAM_LOW comes last (DESIGN CHOICE, log entry 43). -/
def scanTests (s : State) : State :=
  let t := judgeFaults s
  match t.role with
  | some .setter => steamTest (bandScan (overTempTest (doseTick t)))
  | some .unwind => compareFill t
  | some .pleat | some .outfeed | none => t

/-- SENSOR_SCAN_COMPLETE: the eight samples are taken. The first scan after the record check ends CONFIGURING; each further one
is a dose tick and makes the tests (R124, R184). -/
def execSensorScanComplete (samples : List (BitVec 12)) (s : State) : Answer :=
  if wellFormedSamples samples then
    .next (
      if s.mode = .configuring ∧ s.loader.scanning then leaveConfiguring (takeSamples samples s)
      else if s.operating then finish (scanTests (takeSamples samples s))
      else s)
  else .fault .illFormedCommand

/-! ## Transitions a scan brings about (log entry 3) -/

/-- SENSOR_FAULT of a channel (R126). -/
def execSensorFault (channel : Fin 8) (s : State) : Answer := operate (declareFault channel.val) s

/-- SENSOR_FAULT_CLEAR of a channel (R126). -/
def execSensorFaultClear (channel : Fin 8) (s : State) : Answer := operate (clearFault channel.val) s

/-- READY_HEAT_ENTRY: after 200 passing scans in WARMING (R132). -/
def readyHeatTest (s : State) : State :=
  if s.heat.chamber = .warming ∧ 200 ≤ s.heat.bandCount then enterReadyHeat s else s

/-- READY_HEAT_ENTRY (R132). -/
def execReadyHeatEntry (s : State) : Answer := operate readyHeatTest s

/-- The over-limit count of an uncut zone has reached the cut filter (R139). -/
def cutTest (z : Nat) (s : State) : State :=
  if z < s.heat.zones.length ∧ (s.zone z).cut = false ∧ s.cfg.setter.cutFilter ≤ (s.zone z).overCount then cutZone z s else s

/-- ZONE_CUT of a zone (R139). -/
def execZoneCut (zone : Fin 4) (s : State) : Answer := operate (cutTest zone.val) s

/-- The control boundary of a SETTER, with its timer started again at 200 ms (R136, R137). -/
def heatBoundary (s : State) : State :=
  if s.is .setter ∧ running s.heat.heatTimer then
    let t := controlZones s
    t.withHeat { t.heat with heatTimer := some 200 }
  else s

/-- HEAT_CONTROL_BOUNDARY (R136, R137). -/
def execHeatControlBoundary (s : State) : Answer := operate heatBoundary s

/-- READY_HEAT is left for PARKED at the expiry of the park timer (R133). -/
def parkExpiry (s : State) : State :=
  if s.heat.chamber = .readyHeat ∧ running s.heat.parkTimer then setChamber .parked s else s

/-- PARK_TIMER_EXPIRY (R133). -/
def execParkTimerExpiry (s : State) : Answer := operate parkExpiry s

end Sys2Proof.Machine
end

