-- ==== Sys2Proof/Machine/Dispatch.lean ====
section
/-! DEFINITION. One arm for every command, in the order of spec/opcode_table.json. -/

namespace Sys2Proof.Machine

open Sys2Proof

def exec (i : Instr) (s : State) : Host.Outcome State Fault Refusal :=
  match i with
  | .powerOnReset => Sys2Proof.Machine.execPowerOnReset s
  | .powerOnResetRelease => Sys2Proof.Machine.execPowerOnResetRelease s
  | .configurationReadComplete answer => Sys2Proof.Machine.execConfigurationReadComplete answer s
  | .sensorScanComplete samples => Sys2Proof.Machine.execSensorScanComplete samples s
  | .sensorFault channel => Sys2Proof.Machine.execSensorFault channel s
  | .sensorFaultClear channel => Sys2Proof.Machine.execSensorFaultClear channel s
  | .readyHeatEntry => Sys2Proof.Machine.execReadyHeatEntry s
  | .zoneCut zone => Sys2Proof.Machine.execZoneCut zone s
  | .heatControlBoundary => Sys2Proof.Machine.execHeatControlBoundary s
  | .parkTimerExpiry => Sys2Proof.Machine.execParkTimerExpiry s
  | .rampUpdate webPresent gatePass gateDivert => Sys2Proof.Machine.execRampUpdate webPresent gatePass gateDivert s
  | .peerEntryLate address => Sys2Proof.Machine.execPeerEntryLate address s
  | .peerEntryLost address => Sys2Proof.Machine.execPeerEntryLost address s
  | .pulseTimerExpiry => Sys2Proof.Machine.execPulseTimerExpiry s
  | .joinTimerExpiry => Sys2Proof.Machine.execJoinTimerExpiry s
  | .tripTimerExpiry => Sys2Proof.Machine.execTripTimerExpiry s
  | .estopInput active => Sys2Proof.Machine.execEstopInput active s
  | .encoderEdge encoder forward => Sys2Proof.Machine.execEncoderEdge encoder forward s
  | .regLost => Sys2Proof.Machine.execRegLost s
  | .markInput high => Sys2Proof.Machine.execMarkInput high s
  | .strokeComplete => Sys2Proof.Machine.execStrokeComplete s
  | .stallTimerExpiry => Sys2Proof.Machine.execStallTimerExpiry s
  | .moveTimerExpiry => Sys2Proof.Machine.execMoveTimerExpiry s
  | .currentLimitDetection microseconds => Sys2Proof.Machine.execCurrentLimitDetection microseconds s
  | .knifeJam => Sys2Proof.Machine.execKnifeJam s
  | .cutTimerExpiry => Sys2Proof.Machine.execCutTimerExpiry s
  | .gateTimerExpiry gatePass gateDivert => Sys2Proof.Machine.execGateTimerExpiry gatePass gateDivert s
  | .revolutionPulse arm active => Sys2Proof.Machine.execRevolutionPulse arm active s
  | .armReadyChange arm active => Sys2Proof.Machine.execArmReadyChange arm active s
  | .armEmpty arm active => Sys2Proof.Machine.execArmEmpty arm active s
  | .pasteTimerExpiry => Sys2Proof.Machine.execPasteTimerExpiry s
  | .webPresentTimerExpiry => Sys2Proof.Machine.execWebPresentTimerExpiry s
  | .frameReceived bits => Sys2Proof.Machine.execFrameReceived bits s
  | .tripLatchTaken => Sys2Proof.Machine.execTripLatchTaken s
  | .transmissionBegin => Sys2Proof.Machine.execTransmissionBegin s
  | .transmissionComplete => Sys2Proof.Machine.execTransmissionComplete s
  | .arbitrationLost => Sys2Proof.Machine.execArbitrationLost s
  | .senderFault => Sys2Proof.Machine.execSenderFault s
  | .busOff => Sys2Proof.Machine.execBusOff s
  | .recoveryTimerExpiry => Sys2Proof.Machine.execRecoveryTimerExpiry s
  | .tripClear => Sys2Proof.Machine.execTripClear s
  | .hold => Sys2Proof.Machine.execHold s
  | .release => Sys2Proof.Machine.execRelease s
  | .handoff => Sys2Proof.Machine.execHandoff s
  | .speedSet => Sys2Proof.Machine.execSpeedSet s
  | .linePulse => Sys2Proof.Machine.execLinePulse s
  | .doseVerdict => Sys2Proof.Machine.execDoseVerdict s
  | .orderMeasure => Sys2Proof.Machine.execOrderMeasure s
  | .cancel => Sys2Proof.Machine.execCancel s
  | .conditionAck => Sys2Proof.Machine.execConditionAck s
  | .panelOrder => Sys2Proof.Machine.execPanelOrder s
  | .patternFragment => Sys2Proof.Machine.execPatternFragment s
  | .recipe => Sys2Proof.Machine.execRecipe s
  | .rollData => Sys2Proof.Machine.execRollData s
  | .standby => Sys2Proof.Machine.execStandby s
  | .wake => Sys2Proof.Machine.execWake s
  | .restart => Sys2Proof.Machine.execRestart s
  | .faultLampFlash => Sys2Proof.Machine.execFaultLampFlash s

end Sys2Proof.Machine
end

