-- ==== Sys2Proof/Machine/Outputs.lean ====
section
/-! DEFINITION. The field outputs as they follow from the state. None is stored: each is the manual's figure for the registers
held (R39, R64, R67, R73, R89, R109, R110, R117, R138, R155, R158, R161, R183, R188, R197 to R199). Speeds are in dmm/s and valves in
per mille; the scaling of an output to its full scale is outside the manual's rules (log entry 34). -/

namespace Sys2Proof.Machine

open Sys2Proof

/-- The station's outputs. -/
structure Outputs where
  /-- The PLEAT's infeed speed output (R73). -/
  infeed : Nat
  /-- The running arm's unwind drive (R110). -/
  unwind : Nat
  /-- The accumulator exit drive (R109). -/
  exit : Nat
  /-- The chamber conveyance of a SETTER and the cooling conveyor of the OUTFEED (R39, R155). -/
  conveyance : Nat
  strokeLeft : Bool
  strokeRight : Bool
  /-- The depth the actuator is driven toward, while a move is in flight (R67; log entry 44). -/
  depth : Option Nat
  /-- The steam valves of zones 0 to 3 (R138). -/
  valves : List Nat
  paste : Bool
  cut : Bool
  /-- The position the gate is driven toward, while it is driven (R161). -/
  gate : Option GatePos
  lamp : Bool
  transmitter : Bool
  /-- The bits of the frame the transmitter drives, the start bit first (R198, R199). -/
  frame : Option (List Bool)
  deriving DecidableEq, Repr

/-- A speed under drive enable (R39). -/
def State.driven (s : State) (speed : Nat) : Nat := if s.gov.driveEnable then speed else 0

/-- A stroke output is energised: a stroke of the blade not yet limited, with the knife drive on (R64, R69, R71). -/
def State.strokeOutput (s : State) (b : Blade) : Bool :=
  s.knifeDrive && s.pattern.stroke.any (fun k => k.blade == b && !k.limited)

/-- The steam valve output of a zone (R138). -/
def State.valveOutput (s : State) (z : Nat) : Nat :=
  if s.valveHeld z || s.heat.zones.length ≤ z then 0 else (s.zone z).valve

/-- The position the gate is driven toward: while a move is in flight, and at rest none. The manual names the driving of a move and no
release of the output at its end (R161; DESIGN CHOICE, log entry 44). -/
def State.gateOutput (s : State) : Option GatePos :=
  if s.gov.driveEnable then
    match s.outfeed.gate with
    | .travelling target _ => some target
    | .resting _ | .unknown => none
  else none

/-- The fault lamp (R188, R197). -/
def State.lampLit (s : State) : Bool :=
  match s.loader.lamp with
  | .dark => false
  | .lit => true
  | .flashing phase => phaseLit (s.loader.faultClass.getD 0) phase

/-- The outputs of a state. In POWER_UP, CONFIGURING and CONFIG_FAULT drive enable is clear and no unit holds anything that
drives one, but a paste in flight (R123, R183, R188). -/
def State.outputs (s : State) : Outputs :=
  { infeed := if s.is .pleat then s.driven s.flatSpeed else 0
    unwind := if s.is .unwind then s.driven s.roll.vU else 0
    exit := if s.is .unwind then s.driven s.roll.exitCommand else 0
    conveyance := if s.is .setter || s.is .outfeed then s.driven s.gov.vA else 0
    strokeLeft := s.strokeOutput .left
    strokeRight := s.strokeOutput .right
    depth := if s.gov.driveEnable then s.pattern.move.map DepthMove.target else none
    valves := (List.range 4).map s.valveOutput
    paste := s.roll.pasteOutput
    cut := s.gov.driveEnable && s.outfeed.cutTimer.isSome
    gate := s.gateOutput
    lamp := s.lampLit
    transmitter := s.transmitterEnabled || s.bus.sending
    frame := s.drivenFrame }

end Sys2Proof.Machine
end

