-- ==== Sys2Proof/Safety.lean ====
section
/-! DEFINITION. What counts as a sound state of the block, in the terms the claims use: one predicate for each promise the
manual makes of every moment, and the two predicates that say what a command leaves as it was. -/

namespace Sys2Proof.Machine

open Sys2Proof

/-! ## Promises of every moment -/

/-- The image is one the record check passes: magic, version, every field test and every cross-check (R185 to R187). The sum
stands on the 128 bytes, which the image does not keep: Obligations.RecordByteChangeCaught says what it catches. -/
def Image.legal (i : Image) : Bool :=
  i.magic == 0x2D40 && i.version == 3 &&
    match roleOfCode i.roleCode with
    | none => false
    | some r => commonFieldsOk i r && roleFieldsOk i r && commonCrossOk i && roleCrossOk i r

/-- The station works from a record that passed its check (R184, R188). -/
structure ImageSafe (s : State) : Prop where
  legal : ∀ i, s.loader.image = some i → i.legal = true
  present : s.operating = true ∨ s.loader.scanning = true → s.loader.image.isSome = true

/-- The applied and target speeds by mode, and the modes in which drive enable is set (R37, R38, R40, R44). -/
structure SpeedSafe (s : State) : Prop where
  applied_le : s.gov.vA ≤ s.cfg.lineMax
  target_le : s.gov.vT ≤ s.cfg.lineMax
  target_zero : s.mode ≠ .active → s.gov.vT = 0
  applied_zero : s.mode ≠ .active → s.mode ≠ .tripped → s.gov.vA = 0
  drive_set : s.mode = .active ∨ s.mode = .standby → s.gov.driveEnable = true
  drive_in_trip : s.gov.driveEnable = true → s.mode ≠ .active → s.mode ≠ .standby →
    s.mode = .tripped ∧ 0 < s.gov.vA ∧ s.gov.tripTimer.isSome = true
  trip_timer : s.gov.tripTimer.isSome = true → s.mode = .tripped ∧ 0 < s.gov.vA ∧ s.gov.driveEnable = true

/-- With drive enable clear nothing that drive enable gates is in motion, and in TRIPPED neither the knife nor the steam acts
(R39, R42, R68, R71, R110, R138, R161, R170). -/
structure MotionSafe (s : State) : Prop where
  unwind : s.gov.driveEnable = false → s.roll.vU = 0 ∧ s.roll.exitCommand = 0
  actuator : s.gov.driveEnable = false → s.pattern.move = none
  cut : s.gov.driveEnable = false → s.outfeed.cutTimer = none
  gate : s.gov.driveEnable = false → s.outfeed.gate.moving = false
  knife : s.gov.driveEnable = false ∨ s.mode = .tripped → s.pattern.stroke = none
  steam : s.gov.driveEnable = false ∨ s.mode = .tripped → ∀ z ∈ s.heat.zones, z.valve = 0

/-- Each timer runs only where its rule lets it (R25, R117 to R119, R133, R190, R203), and the trip causes and the mode before
trip are held in TRIPPED alone (R42, R46). -/
structure TimerSafe (s : State) : Prop where
  join : s.loader.joinTimer.isSome = true → s.mode = .joining
  pulse : s.gov.pulseTimer.isSome = s.operating
  recovery : s.bus.recovery.isSome = s.bus.off
  paste : s.roll.pasteTimer.isSome = s.roll.pasteOutput
  pasting : s.roll.spliceState = .paste → s.operating = true ∧ s.roll.pasteTimer.isSome = true
  web : s.roll.webTimer.isSome = true → s.roll.spliceState = .startNew ∧ s.mode = .active ∧ s.roll.webSeen = false
  park : s.heat.parkTimer.isSome = true → s.heat.chamber = .readyHeat
  heat : s.heat.heatTimer.isSome = (s.operating && s.is .setter)
  reading : s.loader.reading = true → s.mode = .configuring ∧ s.loader.scanning = false
  scanning : s.loader.scanning = true → s.mode = .configuring
  trips : s.gov.trips ≠ [] ↔ s.mode = .tripped
  before : s.gov.beforeTrip.isSome = true ↔ s.mode = .tripped

/-- A count that saturates at 65535 (R180). -/
def CountersFit (c : CondUnit) : Prop :=
  c.checkErrors ≤ 65535 ∧ c.overruns ≤ 65535 ∧ c.straySenders ≤ 65535 ∧ c.strayMarks ≤ 65535 ∧ c.missedMarks ≤ 65535 ∧
    c.limitedStrokes ≤ 65535

/-- The transmit queue: at most 8 telegrams in the order of their classes, at most one in transmission, at most one LINE PULSE
waiting (R210, R211). -/
structure TxSafe (l : List TxEntry) : Prop where
  length_le : l.length ≤ 8
  ordered : l.Pairwise (fun a b => a.kind.cls ≤ b.kind.cls)
  sending_le : (l.filter TxEntry.inTransmission).length ≤ 1
  pulses_le : (l.filter TxEntry.waitingPulse).length ≤ 1

/-- The pattern copies and the staged upload hold at most 24 steps (R49, R54, R55). -/
structure StepsFit (u : PatternUnit) : Prop where
  active : ∀ x ∈ u.slots, ∀ c ∈ x.active, c.steps.length ≤ 24
  pending : ∀ x ∈ u.slots, ∀ c ∈ x.pending, c.steps.length ≤ 24
  staging : ∀ x ∈ u.staging, x.steps.length ≤ 24 ∧ x.stepCount ≤ 24
  bound : ∀ r ∈ u.run, ∀ b ∈ r.bound, b.copy.steps.length ≤ 24

/-- The SETTER's tables: Z zones, at most 4, and N cells, at most 64, in the operating modes of a SETTER and none elsewhere
(R129, R145); one judgement entry for each held segment it judges, so never more than the map holds (R147). -/
structure HeatTablesFit (s : State) : Prop where
  zones : s.heat.zones.length = (if s.operating = true ∧ s.is .setter = true then s.cfg.setter.zones else 0)
  zones_le : s.heat.zones.length ≤ 4
  cells : s.heat.cells.length = (if s.operating = true ∧ s.is .setter = true then s.cfg.setter.cells else 0)
  cells_le : s.heat.cells.length ≤ 64
  judged_once : (s.heat.judgements.map (fun j => j.ref.uid)).Nodup
  judged_held : ∀ j ∈ s.heat.judgements, ∃ g ∈ s.web.map, g.uid = j.ref.uid
  judged_le : s.heat.judgements.length ≤ s.web.map.length

/-- The capacities of the manual (chapter About this manual) and the ranges of its counts. -/
structure CapacitySafe (s : State) : Prop where
  map_le : s.web.map.length ≤ 48
  rx_le : s.bus.rx.length ≤ 6
  tx : TxSafe s.bus.tx
  orders_le : s.order.queue.length ≤ 32
  cancel_le : s.web.cancelList.length ≤ 4
  miss_le : s.web.missCount ≤ 2
  limit_le : s.pattern.limitCount ≤ 2
  fault_le : s.bus.faultCount ≤ 16
  counters : CountersFit s.cond
  slots : s.pattern.slots.length = 32
  steps : StepsFit s.pattern
  recipes : s.heat.recipes.length = 16
  channels : s.heat.channels.length = 8
  samples_le : ∀ c ∈ s.heat.channels, c.bad ≤ 4 ∧ c.good ≤ 10
  heat : HeatTablesFit s
  peers : s.peers.length = 15
  ages_le : ∀ e ∈ s.peers, e.age ≤ 65535

/-- A map in the order of its arrival counts with no overlap: of any two records the one behind leads past the lead of the one
ahead, and at or past its trail (R5). Arrivals count modulo 2^32, so a length and a span of the map lie below 2^31, half the
count, as R2 takes it. -/
structure MapOrdered (l : List Segment) : Prop where
  length_lt : ∀ g ∈ l, g.length < 2147483648
  apart : l.Pairwise (fun a b => 0 < (b.arrival - a.arrival).toNat ∧ a.length ≤ (b.arrival - a.arrival).toNat ∧
    (b.arrival - a.arrival).toNat + b.length < 2147483648)

/-- Orders are held by the UNWIND in its operating modes, none twice, and none that a PANEL of the map has taken (R78). -/
structure OrderSafe (s : State) : Prop where
  place : s.order.queue ≠ [] → s.operating = true ∧ s.is .unwind = true
  once : (s.order.queue.map Order.panelId).Nodup
  unborn : ∀ o ∈ s.order.queue, ∀ g ∈ s.web.map, g.kind = .panel → g.panelId ≠ some o.panelId

/-- The figures that follow from others are current: v_t, the setpoints in force, and no entry to ACTIVE left to be made
(R37, R130, R181, R191). -/
structure FiguresCurrent (s : State) : Prop where
  target : s.gov.vT = s.targetSpeed
  setpoints : s.operating = true → s.is .setter = true → ∀ z, z < s.heat.zones.length → (s.zone z).sp = s.setpoint z
  entered : s.activeDue = false

/-- The units of the roles a station does not have are idle in its operating modes (chapter About this manual, Blocks). -/
structure IdleSafe (s : State) : Prop where
  pattern : s.operating = true → s.is .pleat = false → s.pattern = { slots := s.pattern.slots }
  order : s.operating = true → s.is .unwind = false →
    s.order = { newSequence := s.order.newSequence, punches := s.order.punches }
  roll : s.operating = true → s.is .unwind = false →
    s.roll = { arm1 := s.roll.arm1, arm2 := s.roll.arm2, pasteTimer := s.roll.pasteTimer,
               pasteOutput := s.roll.pasteOutput, fillBase := s.roll.fillBase, outHistory := s.roll.outHistory }
  heat : s.operating = true → s.is .setter = false →
    s.heat = { channels := s.heat.channels, recipes := s.heat.recipes }
  outfeed : s.operating = true → s.is .outfeed = false → s.outfeed = {}

/-- The records of the map have names of their own. -/
structure RecordsNamed (s : State) : Prop where
  once : (s.web.map.map Segment.uid).Nodup
  fresh : ∀ g ∈ s.web.map, g.uid < s.web.nextUid

/-- What a record keeps for as long as it is held: its fixed fields, and every mark it has been given (R4, R20, R22). -/
structure MarksKept (g h : Segment) : Prop where
  seg : h.seg = g.seg
  kind : h.kind = g.kind
  panelId : h.panelId = g.panelId
  pattern : h.pattern = g.pattern
  recipe : h.recipe = g.recipe
  lot : h.lot = g.lot
  newSeq : h.newSeq = g.newSeq
  causes : ∀ c ∈ g.causes, c ∈ h.causes
  setters : ∀ a, inMask g.setters a = true → inMask h.setters a = true
  pleated : g.pleated = true → h.pleated = true
  regPleat : g.regPleat = true → h.regPleat = true
  handed : g.handed = true → h.handed = true

/-! ## What a command leaves as it was -/

/-- The state with the oldest entry of the receive queue taken (R209). -/
def State.freed (s : State) (rest : List RxEntry) : State := s.withBus { s.bus with rx := rest }

/-- No entry to ACTIVE can fall due: the station is ACTIVE, TRIPPED, or JOINING with the join test failing (R181, R191). -/
def State.steady (s : State) : Prop :=
  s.mode = .active ∨ s.mode = .tripped ∨ s.mode = .joining ∧ s.joinReady = false

/-- As `steady`, with STANDBY where nothing is made again there: no SETTER, and no wake due (R154, R181). -/
def State.quiet (s : State) : Prop :=
  s.steady ∨ s.mode = .standby ∧ s.is .setter = false ∧ s.cond.wakeDue = false

/-- `t` is `u` but for the figures made again at the end of a command: v_t (R37), and in a SETTER the chamber's demand and
park tests, the setpoints in force and SPEED_FLOOR with its notice (R130, R133, R134, R154). -/
structure FiguresOnly (u t : State) : Prop where
  loader : t.loader = u.loader
  bus : { t.bus with tx := u.bus.tx } = u.bus
  tx : t.bus.tx = u.bus.tx ∨
    Cond.speedFloor ∉ u.cond.flags ∧ Cond.speedFloor ∈ t.cond.flags ∧
      t.bus.tx = insertByClass { kind := .conditionNotice, dest := 0, body := noticeBody .heat t } u.bus.tx
  peers : t.peers = u.peers
  gov : { t.gov with vT := u.gov.vT } = u.gov
  target : t.gov.vT = t.targetSpeed
  web : t.web = u.web
  order : t.order = u.order
  pattern : t.pattern = u.pattern
  roll : t.roll = u.roll
  heat : { t.heat with chamber := u.heat.chamber, bandCount := u.heat.bandCount, parkTimer := u.heat.parkTimer,
                       zones := u.heat.zones } = u.heat
  zones : t.heat.zones.map (fun z => { z with sp := 0 }) = u.heat.zones.map (fun z => { z with sp := 0 })
  outfeed : t.outfeed = u.outfeed
  cond : { t.cond with flags := u.cond.flags, heat := u.cond.heat, wakeDue := u.cond.wakeDue } = u.cond
  flags : ∀ c, c ≠ Cond.speedFloor → (c ∈ t.cond.flags ↔ c ∈ u.cond.flags)
  pins : t.pins = u.pins
  pending : t.pending = u.pending
  others : u.is .setter = false → t.heat = u.heat ∧ t.cond = u.cond ∧ t.bus = u.bus

/-- The commands that bring the level of an input pin (log entry 6). -/
def bringsLevel (c : Instr) : Prop :=
  (∃ w p d, c = .rampUpdate w p d) ∨ (∃ b, c = .estopInput b) ∨ (∃ b, c = .markInput b) ∨
  (∃ p d, c = .gateTimerExpiry p d) ∨ (∃ a b, c = .revolutionPulse a b) ∨ (∃ a b, c = .armReadyChange a b) ∨
  (∃ a b, c = .armEmpty a b)

/-- What a LINE PULSE tells a peer of its sender (R26 to R28). -/
def State.asPeer (s : State) : PeerEntry :=
  { liveness := .live, role := s.role, mode := some s.mode, ceiling := s.advertisedCeiling,
    holds := advertisedHolds.filter (fun h => h ∈ s.gov.holds),
    ratio := if s.is .pleat then some s.advertisedRatio else none,
    interval := if s.mode = .standby then 250 else 25, age := 0 }

end Sys2Proof.Machine
end

