-- ==== Sys2Proof/Certificates/Slice0/Obligations.lean ====
section
/-! DEFINITION. The statements for the provers, each with the rules of the spec it formalises. Where a clause rests on a
choice of the model, the docstring names the log entry. -/

open Sys2Proof Sys2Proof.Machine

/-! ## The block as a whole -/

/-- A step takes the command at the front of the queue with the rest of the queue in its place, and on an empty queue the
block idles (log entry 1). -/
def Obligations.StepRunsFrontCommand : Prop :=
  ∀ s : State,
    (∀ (c : Instr) (rest : List Instr), s.pending = c :: rest → step s = exec c (s.withPending rest)) ∧
    (s.pending = [] → step s = .next s)

/-- Every command that can be sent is carried out in every state, and the others fault; no command touches the queue of those
that wait, and the levels of the input pins change with the commands that bring them alone (log entries 1, 2, 6, 10). -/
def Obligations.CommandsAnswerWithinBounds : Prop :=
  ∀ (c : Instr) (s : State),
    (wellFormed c = true → ∃ t, exec c s = .next t ∧ t.pending = s.pending ∧ (¬ bringsLevel c → t.pins = s.pins)) ∧
    (wellFormed c = false → exec c s = .fault .illFormedCommand)

/-- The state after power-on reset meets every invariant stated below (R183), with the model's values where the manual gives a
register none (log entries 10 and 33, DESIGN CHOICE). -/
def Obligations.ResetMeetsInvariants : Prop :=
  ImageSafe State.reset ∧ SpeedSafe State.reset ∧ MotionSafe State.reset ∧ TimerSafe State.reset ∧
  CapacitySafe State.reset ∧ OrderSafe State.reset ∧ FiguresCurrent State.reset ∧ RecordsNamed State.reset ∧
  IdleSafe State.reset

/-- A step keeps the applied and target speeds within v_line_max and 0 outside the modes that run, and drive enable in the
modes that hold it: set in ACTIVE and STANDBY, and otherwise set only while a trip ramps down under the trip timer (R37, R38,
R40, R44). -/
def Obligations.SpeedInvariantKept : Prop :=
  ∀ s t : State, SpeedSafe s → step s = .next t → SpeedSafe t

/-- A step keeps everything that drive enable gates at rest while it is clear, and the knife and the steam off in TRIPPED
(R39, R42, R68, R71, R110, R138, R161, R170). -/
def Obligations.MotionInvariantKept : Prop :=
  ∀ s t : State, SpeedSafe s → MotionSafe s → step s = .next t → MotionSafe t

/-- A step keeps each timer running only where its rule lets it, and the trip causes and the mode before trip held in TRIPPED
alone (R25, R42, R46, R117 to R119, R133, R190, R203). -/
def Obligations.TimerInvariantKept : Prop :=
  ∀ s t : State, TimerSafe s → step s = .next t → TimerSafe t

/-- From a station whose record in force is legal a step keeps within the manual's capacity the map, the order queue, the cancel
list, the receive and the transmit queue (in class order, at most one telegram in transmission and one pulse waiting), the peer
table and its ages, the channels, the recipe table, the pattern table and the steps of every copy and upload, the Z zones, the
cell line of exactly N cells, the judgement list, and the counts of misses, limited strokes, sender faults, samples and
conditions (R5, R19, R21, R29, R49, R54, R70, R78, R126, R127, R129, R145, R147, R180, R202, R209 to R211). -/
def Obligations.CapacityInvariantKept : Prop :=
  ∀ s t : State, ImageSafe s → CapacitySafe s → step s = .next t → CapacitySafe t

/-- A step never brings a panel id twice into the order queue, nor into the queue and a PANEL of the map (R78). -/
def Obligations.OrderInvariantKept : Prop :=
  ∀ s t : State, OrderSafe s → step s = .next t → OrderSafe t

/-- A step never leaves the station with an image whose magic, version, fields or cross-checks the record check refuses, nor working
without an image (R184 to R188). The sum is a test of the bytes, which the image does not keep. -/
def Obligations.ImageInvariantKept : Prop :=
  ∀ s t : State, ImageSafe s → step s = .next t → ImageSafe t

/-- While the station stays in its operating modes no command takes a cause, a SETTER or a flag off a held segment, nor
changes one of its fixed fields (R4, R20, R22). -/
def Obligations.SegmentMarksOnlyGrow : Prop :=
  ∀ (c : Instr) (s t : State), s.operating = true → RecordsNamed s → exec c s = .next t →
    RecordsNamed t ∧ ∀ g ∈ s.web.map, ∀ h ∈ t.web.map, h.uid = g.uid → MarksKept g h

/-- A step leaves the target speed and the setpoints in force at the figures they follow, and no entry to ACTIVE to be made
(R37, R130, R181, R191; log entry 29 for the wake at the end of the step). -/
def Obligations.FiguresStayCurrent : Prop :=
  ∀ s t : State, FiguresCurrent s → step s = .next t → FiguresCurrent t

/-- A step in the operating modes leaves the units of the other roles idle, and a start finds them so (chapter About this manual,
Blocks; R77, R94, R123, R156, R171). -/
def Obligations.IdleUnitsStayIdle : Prop :=
  ∀ s t : State, IdleSafe s → step s = .next t → IdleSafe t

/-- The target speed after every step: 0 in each case of R37, and otherwise the lowest of v_op, v_line_max, the own ceiling and
the last ceiling of every roster entry. -/
def Obligations.TargetSpeedLaw : Prop :=
  ∀ s t : State, FiguresCurrent s → step s = .next t →
    (t.mode ≠ .active ∨ t.holdKnown = true ∨
        (∃ a ∈ t.rosterOthers, (t.peer a).liveness = .unknown ∨ (t.peer a).liveness = .lost ∨
          (t.peer a).mode ≠ some .active) ∨ t.compositionValid = false →
      t.gov.vT = 0) ∧
    (t.mode = .active → t.holdKnown = false →
      (∀ a ∈ t.rosterOthers, ((t.peer a).liveness = .live ∨ (t.peer a).liveness = .late) ∧
        (t.peer a).mode = some .active) → t.compositionValid = true →
      (t.gov.vT ≤ t.gov.vOp ∧ t.gov.vT ≤ t.cfg.lineMax ∧ t.gov.vT ≤ t.ownCeiling ∧
        ∀ a ∈ t.rosterOthers, t.gov.vT ≤ (t.peer a).ceiling) ∧
      (t.gov.vT = t.gov.vOp ∨ t.gov.vT = t.cfg.lineMax ∨ t.gov.vT = t.ownCeiling ∨
        ∃ a ∈ t.rosterOthers, t.gov.vT = (t.peer a).ceiling))

/-- The restart cause: POWER_ON at a power-on reset, RESTART at a RESTART taken, kept by everything else, and carried in every
pulse and every notice (R196). A RESTART taken is one that brings the station to CONFIGURING, with the flags, the counters and
the pulse sequence number cleared. In the operating modes it is the command RESTART, in CONFIGURING and CONFIG_FAULT the end of
the RESTART's frame, as log entry 14 has it (R194, R195, R204). -/
def Obligations.RestartCauseLaw : Prop :=
  (∀ (c : Instr) (s t : State), exec c s = .next t →
    (c = .powerOnReset → t.loader.restartCause = .powerOn) ∧
    (c ≠ .powerOnReset →
      t.loader.restartCause = s.loader.restartCause ∨
        t.loader.restartCause = .restart ∧ t.mode = .configuring ∧
          (c = .restart ∧ s.operating = true ∨
            ∃ bits, c = .frameReceived bits ∧ (s.mode = .configuring ∨ s.mode = .configFault)))) ∧
  (∀ (s : State) (e : RxEntry) (rest : List RxEntry), s.operating = true → s.gov.vA = 0 →
    s.bus.rx = e :: rest → e.kind = .restart →
    ∃ t, exec .restart s = .next t ∧ t.loader.restartCause = .restart) ∧
  (∀ s : State, (fieldAt (pulseBody s) 8 1).testBit 4 = (s.loader.restartCause == .restart)) ∧
  (∀ (g : Group) (s : State), fieldAt (noticeBody g s) 1 1 = s.loader.restartCause.code) ∧
  (∀ s : State, (takeRestart s).gov.sequence = 0 ∧ (takeRestart s).cond = {})

/-! ## Encodings -/

/-- Every telegram that can be sent is read back from the bits its sender drives, whatever the bus carries after its last CRC
bit (R198, R199, R204; log entry 15). -/
def Obligations.FrameRoundTrip : Prop :=
  ∀ (m : Telegram) (after : List Bool), m.origin < 16 → m.dest < 16 → m.body.length ≤ 28 →
    lengthAdmitted m.kind m.body = true → readFrame (frameBits m ++ after) = some m

/-- The pulse a station builds tells a peer its role, mode, ceiling, holds, ratio and interval; the record a HANDOFF carries,
with the overshoot its sender stamps, is the one its receiver reads (R8, R9, R13, R26 to R28, R33, R36, R76, R216; log entries 16
and 17). -/
def Obligations.BodiesReadBack : Prop :=
  (∀ s : State, s.operating = true → s.role.isSome = true → s.cfg.lineMax ≤ 6000 →
      (s.is .pleat = true → s.advertisedRatio ≤ 20480) →
      readPulse (pulseBody s) = some s.asPeer) ∧
  (∀ (g : Segment) (length travel uid : Nat) (pleated newSeq : Bool) (arrival : Word),
      length < 4294967296 → g.recipe ≤ 16 → (g.kind ≠ .panel → g.recipe = 0) →
      (g.kind = .panel → g.panelId.isSome = true ∧ g.lot.isSome = true ∧ ∃ p, g.pattern = some p ∧ p ≤ 255) →
      (g.kind ≠ .panel → g.panelId = none ∧ g.pattern = none) →
      (g.kind = .leader → g.lot.isSome = true) → (g.kind = .splice ∨ g.kind = .untracked → g.lot = none) →
      g.setters.getLsbD 0 = false →
      let sent := stampOvershoot (handoffBody g length pleated newSeq) travel
      let read := readHandoff sent uid arrival
      fieldAt sent 20 2 = min 65535 travel ∧
      read = { g with uid := uid, length := length, arrival := arrival, pleated := pleated, newSeq := newSeq,
                      causes := read.causes, handed := false, opened := false, ran := false, leadCut := false,
                      trailCut := false } ∧
      ∀ c, c ∈ read.causes ↔ c ∈ g.causes)

/-- A record that passes the record check fails it after any change of one byte, by its sum (R184, R185). -/
def Obligations.RecordByteChangeCaught : Prop :=
  ∀ (b : List Byte) (i : Image) (k : Nat) (x : Byte), b.length = 128 → checkRecord b = .passes i →
    k < 128 → b[k]? ≠ some x → ∃ cls, checkRecord (b.set k x) = .fails cls ∧ (cls = 1 ∨ cls = 2)

/-! ## Figures -/

/-- F, P and the strokes of an order, their greatest values, and F − P (R59). -/
def Obligations.MeasureFigures : Prop :=
  (∀ (c : PatternCopy) (n : Nat),
    c.flat n = c.leadIn + n * (c.steps.map (fun p => p.count * (p.pitch + 2 * p.depth))).sum + c.tail ∧
    c.pleated n = c.leadIn + n * (c.steps.map (fun p => p.count * p.pitch)).sum + c.tail ∧
    c.strokes n = n * (c.steps.map PatternStep.count).sum ∧
    c.pleated n ≤ c.flat n ∧
    c.flat n = c.pleated n + 2 * n * (c.steps.map (fun p => p.count * p.depth)).sum) ∧
  (∀ (c : PatternCopy) (n : Nat), c.leadIn ≤ 20000 → c.tail ≤ 20000 → c.steps.length ≤ 24 →
    (∀ p ∈ c.steps, p.inRange = true) → n ≤ 99 →
    c.flat n ≤ 3029440000 ∧ c.pleated n ≤ 605920000 ∧ c.strokes n ≤ 605880) ∧
  (∃ c : PatternCopy, c.leadIn ≤ 20000 ∧ c.tail ≤ 20000 ∧ c.steps.length ≤ 24 ∧ (∀ p ∈ c.steps, p.inRange = true) ∧
    c.flat 99 = 3029440000 ∧ c.pleated 99 = 605920000 ∧ c.strokes 99 = 605880) ∧
  (3029440000 < 256 ^ 4)

/-- A mark inside no open window is stray: it is counted and moves no segment. A second mark in a window is stray, because the
first one closed it, and so is every mark while no window is open; a window is a PANEL's (R18). -/
def Obligations.StrayMarksMoveNothing : Prop :=
  (∀ (s : State) (edge : Word), s.windowOf edge = none →
    (acceptMark edge s).web = s.web ∧
    (acceptMark edge s).cond.strayMarks = min 65535 (s.cond.strayMarks + 1)) ∧
  (∀ (s : State) (edge edge' : Word) (g : Segment), s.windowOf edge = some g →
    (acceptMark edge s).windowOf edge' = none) ∧
  (∀ (s : State) (edge : Word), s.web.window = none → s.windowOf edge = none) ∧
  (∀ (s : State) (g : Segment), s.dueWindow = some (.openWindow g) → g.kind = .panel)

/-- The good and the reject count: one more at each outcome, modulo 2^32, before the PANEL DONE body is built; 0 after every
start; nothing for a piece without a PANEL; a REJECT for each of two PANELs in a joined piece (R168). -/
def Obligations.PanelCountsFollowOutcomes : Prop :=
  (∀ (g : Segment) (good : Bool) (d : Option Decision) (s : State),
    (panelOutcome g good d s).outfeed.good = s.outfeed.good + (if good then 1 else 0) ∧
    (panelOutcome g good d s).outfeed.reject = s.outfeed.reject + (if good then 0 else 1) ∧
    (s.bus.tx.length < 8 → ∃ e ∈ (panelOutcome g good d s).bus.tx, e.kind = .panelDone ∧
      fieldAt e.body 12 4 = (panelOutcome g good d s).outfeed.good.toNat ∧
      fieldAt e.body 16 4 = (panelOutcome g good d s).outfeed.reject.toNat)) ∧
  (∀ s t : State, exec .powerOnReset s = .next t ∨ t = takeRestart s ∨ t = startUnits s →
    t.outfeed.good = 0 ∧ t.outfeed.reject = 0) ∧
  (∀ s : State, (∀ p, s.outfeed.piece = some p → s.contentPanel p.content = none) →
    (deliverPiece s).outfeed = s.outfeed) ∧
  (∀ (s : State) (p : Piece) (g : Segment) (entering : Content), s.outfeed.piece = some p →
    s.contentPanel p.content = some g →
    (joinPiece entering s).outfeed.reject = s.outfeed.reject + 1 ∧ (joinPiece entering s).outfeed.good = s.outfeed.good ∧
    (p.joined = true → (deliverPiece s).outfeed.reject = s.outfeed.reject + 1 ∧
      (deliverPiece s).outfeed.good = s.outfeed.good))

/-- STEAM_LOW after a completed scan in a SETTER: set while the steam pressure on channel 4 lies below p_min, or while channel 4
is faulted or holds no value, and clear otherwise (R142). -/
def Obligations.SteamLowFollowsScan : Prop :=
  ∀ (samples : List (BitVec 12)) (s : State), samples.length = 8 → s.operating = true → s.is .setter = true →
    ∃ t, exec (.sensorScanComplete samples) s = .next t ∧
      (Cond.steamLow ∈ t.cond.flags ↔
        (t.channel 4).faulted = true ∨ (t.channel 4).value = none ∨
          ∃ p, (t.channel 4).value = some p ∧ p < s.cfg.setter.pMin)

/-! ## The governor, the peers and the station's timers -/

/-- A ramp update moves the applied speed toward the target by a_up or a_dn, and in TRIPPED toward 0 by a_e; nothing else moves
it but a start or a restart, which leave 0; it stays within v_line_max and rises only below the target, and a_up, a_dn and a_e
are configured 1..100 (R38, R186). That the update moves v_a by the target speed held before the command is log entry 26, and that
it brings the three pin levels log entry 6. -/
def Obligations.RampLaw : Prop :=
  (∀ (w p d : Bool) (s : State), ∃ t, exec (.rampUpdate w p d) s = .next t ∧
    t.pins = { s.pins with webPresent := w, gatePass := p, gateDivert := d } ∧
    (s.operating = false → t.gov.vA = s.gov.vA) ∧
    (s.operating = true →
      (s.mode = .tripped → t.gov.vA = s.gov.vA - s.cfg.aE) ∧
      (s.mode ≠ .tripped → s.gov.vA < s.gov.vT → t.gov.vA = min (s.gov.vA + s.cfg.aUp) s.gov.vT) ∧
      (s.mode ≠ .tripped → s.gov.vT < s.gov.vA → t.gov.vA = max (s.gov.vA - s.cfg.aDn) s.gov.vT) ∧
      (s.mode ≠ .tripped → s.gov.vA = s.gov.vT → t.gov.vA = s.gov.vA))) ∧
  (∀ (c : Instr) (s t : State), exec c s = .next t → (∀ w p d, c ≠ .rampUpdate w p d) →
    t.gov.vA = s.gov.vA ∨ t.gov.vA = 0) ∧
  (∀ s t : State, SpeedSafe s → step s = .next t →
    t.gov.vA ≤ t.cfg.lineMax ∧ (s.gov.vA < t.gov.vA → s.gov.vA < s.gov.vT) ∧ (t.mode = .tripped → t.gov.vT = 0)) ∧
  (∀ s : State, (startUnits s).gov.vA = 0) ∧
  (∀ i : Image, i.legal = true →
    (1 ≤ i.aUp ∧ i.aUp ≤ 100) ∧ (1 ≤ i.aDn ∧ i.aDn ≤ 100) ∧ (1 ≤ i.aE ∧ i.aE ≤ 100))

/-- The ages of the peer table at a ramp update, and the liveness that follows them, with PEER_LATE as the entries of the roster
stand after it and PEER_LOST latched where one goes to LOST; the transitions to LATE and LOST as commands; the entry a pulse loads
(R28, R29, R30; log entry 3). -/
def Obligations.PeersAgeAndAreHeard : Prop :=
  (∀ (w p d : Bool) (s : State) (a : Nat), s.operating = true → s.peers.length = 15 → 1 ≤ a → a ≤ 15 →
    ∃ t, exec (.rampUpdate w p d) s = .next t ∧
      ((s.peer a).liveness = .unknown → t.peer a = s.peer a) ∧
      ((s.peer a).liveness ≠ .unknown →
        t.peer a = { s.peer a with age := min 65535 ((s.peer a).age + 1), liveness := (t.peer a).liveness } ∧
        ((s.peer a).liveness = .lost → (t.peer a).liveness = .lost) ∧
        ((s.peer a).liveness ≠ .lost →
          (4 * (s.peer a).interval < (t.peer a).age → (t.peer a).liveness = .lost) ∧
          (2 * (s.peer a).interval < (t.peer a).age → (t.peer a).age ≤ 4 * (s.peer a).interval →
            (t.peer a).liveness = .late) ∧
          ((t.peer a).age ≤ 2 * (s.peer a).interval → (t.peer a).age ≤ 4 * (s.peer a).interval →
            (t.peer a).liveness = (s.peer a).liveness))) ∧
      (Cond.peerLate ∈ t.cond.flags ↔ ∃ b ∈ t.rosterOthers, (t.peer b).liveness = .late) ∧
      ((s.peer a).liveness ≠ .lost → (t.peer a).liveness = .lost → Cond.peerLost ∈ t.cond.flags)) ∧
  (∀ (a : Nat) (s : State), s.operating = true → 1 ≤ a → a ≤ 15 →
    (∃ t, exec (.peerEntryLate a) s = .next t ∧
      t.peers = (if (s.peer a).liveness = .live ∧ 2 * (s.peer a).interval < (s.peer a).age then
        s.peers.set (a - 1) { s.peer a with liveness := .late } else s.peers)) ∧
    (∃ t, exec (.peerEntryLost a) s = .next t ∧
      ((s.peer a).liveness = .late → 4 * (s.peer a).interval < (s.peer a).age →
        t.peers = s.peers.set (a - 1) { s.peer a with liveness := .lost } ∧ Cond.peerLost ∈ t.cond.flags) ∧
      (¬((s.peer a).liveness = .late ∧ 4 * (s.peer a).interval < (s.peer a).age) → t.peers = s.peers))) ∧
  (∀ (s : State) (e : RxEntry) (rest : List RxEntry), s.operating = true → s.bus.rx = e :: rest → e.kind = .linePulse →
    ∃ t, exec .linePulse s = .next t ∧ t.bus.rx = rest ∧
      (∀ p, inMask s.cfg.roster e.origin = true → e.origin ≠ s.cfg.address → readPulse e.body = some p →
        t.peers = s.peers.set (e.origin - 1) p) ∧
      (inMask s.cfg.roster e.origin = false ∨ e.origin = s.cfg.address ∨ readPulse e.body = none → t.peers = s.peers))

/-- The expiries of the station's timers. The pulse timer's queues the pulse built from the state held, counts the sequence on and
starts the timer again at the period of the mode (R25, R26, R211). In JOINING a roster entry never heard latches PEER_LOST and
starts the join timer again, else it stops (R190). The trip timer's clears drive enable and leaves the applied speed (R44). -/
def Obligations.StationTimers : Prop :=
  (∀ s : State, s.operating = true → s.quiet →
      (s.gov.pulseTimer = none → ∃ t, exec .pulseTimerExpiry s = .next t ∧ FiguresOnly s t) ∧
      (s.gov.pulseTimer.isSome = true →
        ∃ t, exec .pulseTimerExpiry s = .next t ∧ t.gov.sequence = s.gov.sequence + 1 ∧
          t.gov.pulseTimer = some (if s.mode = .standby then 250 else 25) ∧ t.mode = s.mode ∧ t.web = s.web ∧
          (s.bus.tx.any TxEntry.waitingPulse = true ∨ s.bus.tx.length < 8 →
            ({ kind := .linePulse, dest := 0, body := pulseBody s } : TxEntry) ∈ t.bus.tx))) ∧
  (∀ s : State, s.mode = .joining → s.joinReady = false → s.loader.joinTimer.isSome = true →
    ∃ t, exec .joinTimerExpiry s = .next t ∧ t.mode = .joining ∧
      ((∃ a ∈ s.rosterOthers, (s.peer a).liveness = .unknown) →
        t.loader.joinTimer = some 1000 ∧ Cond.peerLost ∈ t.cond.flags) ∧
      ((∀ a ∈ s.rosterOthers, (s.peer a).liveness ≠ .unknown) →
        t.loader.joinTimer = none ∧ (Cond.peerLost ∈ t.cond.flags ↔ Cond.peerLost ∈ s.cond.flags))) ∧
  (∀ s : State, s.mode = .tripped → s.gov.tripTimer.isSome = true →
    ∃ t, exec .tripTimerExpiry s = .next t ∧ t.mode = .tripped ∧ t.gov.driveEnable = false ∧ t.gov.tripTimer = none ∧
      t.gov.vA = s.gov.vA ∧ t.gov.trips = s.gov.trips ∧ t.roll.vU = 0 ∧ t.outfeed.cutTimer = none ∧
      t.pattern.move = none ∧ (∀ z ∈ t.heat.zones, z.valve = 0) ∧ t.web = s.web)

/-- The ESTOP input becoming active trips the station: the cause is added and a TRIP of it queued, the mode left is recorded,
the trip timer started, and the knife and the steam removed; at standstill drive enable is cleared at once (R41, R42, R44,
R47). -/
def Obligations.EstopTrips : Prop :=
  (∀ s : State, s.operating = true → s.pins.estop = false →
    ∃ t, exec (.estopInput true) s = .next t ∧ t.pins = { s.pins with estop := true } ∧ t.mode = .tripped ∧
      TripCause.estopInput ∈ t.gov.trips ∧ (∀ c ∈ s.gov.trips, c ∈ t.gov.trips) ∧ t.gov.vA = s.gov.vA ∧
      (s.mode ≠ .tripped →
        t.gov.beforeTrip = some s.mode ∧ t.gov.tripTimer = (if s.gov.vA = 0 then none else some 3000) ∧
        (s.gov.vA = 0 → t.gov.driveEnable = false) ∧ t.pattern.stroke = none ∧ (∀ z ∈ t.heat.zones, z.valve = 0) ∧
        (s.bus.tx.length < 8 → ∃ e ∈ t.bus.tx, e.kind = .trip ∧ e.dest = 0 ∧ fieldAt e.body 0 1 = 0)) ∧
      (s.mode = .tripped → t.gov.beforeTrip = s.gov.beforeTrip ∧ t.gov.tripTimer = s.gov.tripTimer)) ∧
  (∀ (s : State) (level : Bool), s.operating = true → (level = false ∨ s.pins.estop = true) →
    ∃ t, exec (.estopInput level) s = .next t ∧ t.pins = { s.pins with estop := level } ∧ t.gov.trips = s.gov.trips) ∧
  (∀ (s : State) (level : Bool), s.operating = false →
    exec (.estopInput level) s = .next (s.withPins { s.pins with estop := level }))

/-- Taking the trip latch empties it, adds PEER and TERMINAL by its flags and trips the station without a TRIP of its own; an
empty latch trips nothing (R43). -/
def Obligations.TripLatchTrips : Prop :=
  ∀ s : State, s.operating = true →
    (s.bus.latchRoster = true ∨ s.bus.latchTerminal = true →
      ∃ t, exec .tripLatchTaken s = .next t ∧ t.bus.latchRoster = false ∧ t.bus.latchTerminal = false ∧
        t.mode = .tripped ∧ (s.bus.latchRoster = true → TripCause.peer ∈ t.gov.trips) ∧
        (s.bus.latchTerminal = true → TripCause.terminal ∈ t.gov.trips) ∧ (∀ c ∈ s.gov.trips, c ∈ t.gov.trips) ∧
        (s.mode ≠ .tripped → t.gov.beforeTrip = some s.mode) ∧
        (s.mode = .tripped → t.gov.beforeTrip = s.gov.beforeTrip ∧ t.gov.tripTimer = s.gov.tripTimer) ∧
        (∀ e ∈ t.bus.tx, e.kind = .trip → e ∈ s.bus.tx)) ∧
    (s.bus.latchRoster = false → s.bus.latchTerminal = false →
      ∃ t, exec .tripLatchTaken s = .next t ∧ t.gov.trips = s.gov.trips ∧ (s.steady → FiguresOnly (settle s) t))

/-- A TRIP CLEAR is accepted in TRIPPED at standstill, with the ESTOP input inactive and no DUP_ADDRESS: the causes are emptied
and the station returns to JOINING, or enters ACTIVE with drive enable set. Any other is ignored (R46). -/
def Obligations.TripClearReturns : Prop :=
  ∀ (s : State) (e : RxEntry) (rest : List RxEntry), s.operating = true → s.bus.rx = e :: rest → e.kind = .tripClear →
    (s.mode = .tripped → s.gov.vA = 0 → s.pins.estop = false → TripCause.dupAddress ∉ s.gov.trips →
      ∃ t, exec .tripClear s = .next t ∧ t.bus.rx = rest ∧ t.gov.trips = [] ∧ t.gov.beforeTrip = none ∧
        (s.gov.beforeTrip = some .joining → (∃ a ∈ s.rosterOthers, (s.peer a).liveness ≠ .live) →
          t.mode = .joining ∧ t.gov.driveEnable = s.gov.driveEnable ∧ t.loader.joinTimer = some 1000) ∧
        (s.gov.beforeTrip ≠ some .joining → t.mode = .active ∧ t.gov.driveEnable = true)) ∧
    (s.mode ≠ .tripped ∨ 0 < s.gov.vA ∨ s.pins.estop = true ∨ TripCause.dupAddress ∈ s.gov.trips →
      ∃ t, exec .tripClear s = .next t ∧ t.bus.rx = rest ∧ t.gov.trips = s.gov.trips ∧
        (s.steady → FiguresOnly (settle (s.freed rest)) t))

/-- HOLD sets and RELEASE clears the hold cause OPERATOR, and SPEED SET loads v_op unless its speed lies above 6000; nothing
else changes but the figures made again (R32, R33, R34, R37). -/
def Obligations.HoldReleaseAndSpeedSet : Prop :=
  ∀ (s : State) (e : RxEntry) (rest : List RxEntry), s.operating = true → s.bus.rx = e :: rest →
    (e.kind = .hold → ∃ t, exec .hold s = .next t ∧ t.bus.rx = rest ∧ t.gov.vOp = s.gov.vOp ∧
      (s.quiet → HoldCause.operator ∈ t.gov.holds ∧
        FiguresOnly ((s.freed rest).withGov { s.gov with holds := insertNew .operator s.gov.holds }) t)) ∧
    (e.kind = .release → ∃ t, exec .release s = .next t ∧ t.bus.rx = rest ∧ t.gov.vOp = s.gov.vOp ∧
      (s.quiet → HoldCause.operator ∉ t.gov.holds ∧
        FiguresOnly ((s.freed rest).withGov { s.gov with holds := removeAll .operator s.gov.holds }) t)) ∧
    (e.kind = .speedSet → ∃ t, exec .speedSet s = .next t ∧ t.bus.rx = rest ∧
      t.gov.vOp = (if fieldAt e.body 0 2 ≤ 6000 then fieldAt e.body 0 2 else s.gov.vOp) ∧
      (s.quiet → FiguresOnly ((s.freed rest).withGov
        { s.gov with vOp := if fieldAt e.body 0 2 ≤ 6000 then fieldAt e.body 0 2 else s.gov.vOp }) t))

/-! ## The web tracker -/

/-- An edge adds or subtracts the encoder scale, count and fraction together; encoder 2 counts in the UNWIND alone. In the
UNWIND an edge that brings the raw fill from above 0 to 0 or below trips (R1, R106, R108). -/
def Obligations.EncoderEdgeCounts : Prop :=
  ∀ (s : State) (forward : Bool), s.operating = true →
    (∃ t, exec (.encoderEdge .encoder1 forward) s = .next t ∧
      t.web.infeed = (if forward then s.web.infeed + BitVec.ofNat 48 s.cfg.scale1
        else s.web.infeed - BitVec.ofNat 48 s.cfg.scale1) ∧
      t.web.outfeed = s.web.outfeed ∧ t.web.p0 = s.web.p0 ∧ t.gov.vA = s.gov.vA ∧
      (s.is .unwind = true → 0 < s.rawFill → t.rawFill ≤ 0 → TripCause.accumEmpty ∈ t.gov.trips ∧ t.mode = .tripped) ∧
      (s.is .unwind = false ∨ s.rawFill ≤ 0 ∨ 0 < t.rawFill → t.gov.trips = s.gov.trips)) ∧
    (∃ t, exec (.encoderEdge .encoder2 forward) s = .next t ∧
      t.web.outfeed = (if s.is .unwind then
        (if forward then s.web.outfeed + BitVec.ofNat 48 s.cfg.scale2 else s.web.outfeed - BitVec.ofNat 48 s.cfg.scale2)
        else s.web.outfeed) ∧
      t.web.infeed = s.web.infeed ∧ t.web.p0 = s.web.p0 ∧ t.gov.vA = s.gov.vA ∧
      (s.is .unwind = true → 0 < s.rawFill → t.rawFill ≤ 0 → TripCause.accumEmpty ∈ t.gov.trips ∧ t.mode = .tripped) ∧
      (s.is .unwind = false ∨ s.rawFill ≤ 0 ∨ 0 < t.rawFill → t.gov.trips = s.gov.trips))

/-- The mark input becoming active makes a candidate mark with its edge at the position, becoming inactive discards one; without
S, and in the UNWIND, it is not read. The second miss in a row latches REG_LOST and holds the line (R15, R19; log entry 3). -/
def Obligations.MarkInputAndRegLost : Prop :=
  (∀ (s : State) (high : Bool), s.operating = true → s.steady →
    ∃ t, exec (.markInput high) s = .next t ∧ t.pins = { s.pins with markHigh := high } ∧
      (s.hasMark = true → s.cfg.markActive s.pins.markHigh = false → s.cfg.markActive high = true →
        FiguresOnly (settle ((s.withPins { s.pins with markHigh := high }).withWeb
          { s.web with candidate := some s.position })) t) ∧
      (s.hasMark = true → s.cfg.markActive s.pins.markHigh = true → s.cfg.markActive high = false →
        FiguresOnly (settle ((s.withPins { s.pins with markHigh := high }).withWeb { s.web with candidate := none })) t) ∧
      (s.hasMark = false ∨ high = s.pins.markHigh →
        FiguresOnly (settle (s.withPins { s.pins with markHigh := high })) t)) ∧
  (∀ s : State, s.operating = true → s.steady →
    (2 ≤ s.web.missCount → HoldCause.regLost ∉ s.gov.holds →
      ∃ t, exec .regLost s = .next t ∧ HoldCause.regLost ∈ t.gov.holds ∧ Cond.regLost ∈ t.cond.flags ∧ t.web = s.web ∧
        t.gov.vT = 0) ∧
    (s.web.missCount < 2 ∨ HoldCause.regLost ∈ s.gov.holds → ∃ t, exec .regLost s = .next t ∧ FiguresOnly s t))

/-- A HANDOFF from the configured upstream station is checked for sequence, and a full map discards it with MAP_FULL latched and
held; one from elsewhere, and any in the UNWIND, changes nothing (R11, R12, R14). -/
def Obligations.HandoffReceived : Prop :=
  ∀ (s : State) (e : RxEntry) (rest : List RxEntry), s.operating = true → s.bus.rx = e :: rest → e.kind = .handoff →
    (e.origin ≠ s.cfg.upstream ∨ s.is .unwind = true →
      ∃ t, exec .handoff s = .next t ∧ t.bus.rx = rest ∧ t.web.expected = s.web.expected ∧
        (s.steady → FiguresOnly (settle (s.freed rest)) t)) ∧
    (e.origin = s.cfg.upstream → s.is .unwind = false →
      ∃ t, exec .handoff s = .next t ∧ t.bus.rx = rest ∧
        t.web.expected = some (BitVec.ofNat 16 (fieldAt e.body 0 2) + 1) ∧
        (∀ x, s.web.expected = some x → x ≠ BitVec.ofNat 16 (fieldAt e.body 0 2) →
          (fieldAt e.body 15 1).testBit 2 = false → Cond.seqGap ∈ t.cond.flags) ∧
        (48 ≤ s.web.map.length → Cond.mapFull ∈ t.cond.flags ∧ HoldCause.mapFull ∈ t.gov.holds ∧ t.gov.vT = 0) ∧
        (s.web.map.length < 48 → s.steady →
          FiguresOnly (settle (placeSegment
            (s.handoffSegment e)
            (checkSequence (BitVec.ofNat 16 (fieldAt e.body 0 2)) ((fieldAt e.body 15 1).testBit 2) (s.freed rest)))) t))

/-- Placement: the segments whose lead is at or past the new lead are superseded, the new one is the upstream-most with a record
of its own, and the segment ahead alone is fitted: cut by an overlap, a PANEL marked SHORTENED when by more than 20 dmm, drawn
out over a gap of 1 to 20 dmm, and otherwise left. A mark inside the open window of a PANEL moves it and every segment behind it by
δ, within −w_before..w_after, fits the segment ahead in the same way, and closes the window. Both keep a map in the order of its
arrivals with no overlap, while no span of it reaches 2^31 (R2, R5, R6, R13, R17). -/
def Obligations.PlacementRule : Prop :=
  (∀ (s : State) (g : Segment), RecordsNamed s →
    let kept := s.web.map.filter (fun h => !atOrPast h.arrival g.arrival)
    (placeSegment g s).web.map =
      kept.dropLast ++ (kept.getLast?.map (fun a => a.adjustTo g.arrival)).toList ++ [{ g with uid := s.web.nextUid }] ∧
    RecordsNamed (placeSegment g s) ∧
    (MapOrdered s.web.map → g.length < 2147483648 →
      (∀ h ∈ kept, (g.arrival - h.arrival).toNat + g.length < 2147483648) → MapOrdered (placeSegment g s).web.map)) ∧
  (∀ (s : State) (edge : Word) (g : Segment), RecordsNamed s → s.windowOf edge = some g →
    ∃ pre post, s.web.map = pre ++ g :: post ∧
      let δ : Word := edge - (g.arrival + dmm s.cfg.sensor)
      let lead : Word := g.arrival + δ
      let kept := (pre.reverse.dropWhile (fun h => atOrPast h.arrival lead)).reverse
      let t := acceptMark edge s
      t.web.map = kept.dropLast ++ (kept.getLast?.map (fun a => a.adjustTo lead)).toList ++
        { g with arrival := lead, regPleat := s.is .pleat || g.regPleat } ::
          post.map (fun h => { h with arrival := h.arrival + δ }) ∧
      t.web.window = none ∧ t.web.missCount = 0 ∧ RecordsNamed t ∧
      (s.cfg.wBefore + s.cfg.wAfter < 1000 → -(s.cfg.wBefore : Int) ≤ δ.toInt ∧ δ.toInt ≤ s.cfg.wAfter) ∧
      (MapOrdered s.web.map →
        (∀ x ∈ kept, ∀ h ∈ g :: post, (h.arrival + δ - x.arrival).toNat + h.length < 2147483648) →
        MapOrdered t.web.map)) ∧
  (∀ (a : Segment) (lead : Word),
    (20 < signedDiff a.trail lead → a.kind = .panel →
      a.adjustTo lead = { a with length := (lead - a.arrival).toNat, causes := insertNew .shortened a.causes }) ∧
    (20 < signedDiff a.trail lead → a.kind ≠ .panel → a.adjustTo lead = { a with length := (lead - a.arrival).toNat }) ∧
    (-20 ≤ signedDiff a.trail lead → signedDiff a.trail lead ≤ 20 → signedDiff a.trail lead ≠ 0 →
      a.adjustTo lead = { a with length := (lead - a.arrival).toNat } ∧ (a.adjustTo lead).trail = lead) ∧
    (signedDiff a.trail lead < -20 ∨ signedDiff a.trail lead = 0 → a.adjustTo lead = a))

/-- A DOSE VERDICT is merged into every held segment of its seg id that is not UNTRACKED, a PANEL only of its panel id. A CANCEL
marks every held PANEL of its id, enters the id newest in the cancel list of 4, and in the UNWIND removes its order
(R20, R21, R81). -/
def Obligations.VerdictAndCancel : Prop :=
  ∀ (s : State) (e : RxEntry) (rest : List RxEntry), s.operating = true → s.bus.rx = e :: rest →
    (e.kind = .doseVerdict → s.steady →
      ∃ t, exec .doseVerdict s = .next t ∧ t.bus.rx = rest ∧
        FiguresOnly (settle ((s.freed rest).withWeb { s.web with
          map := s.web.map.map (fun g =>
            if g.seg.toNat = fieldAt e.body 0 2 ∧ g.kind ≠ .untracked ∧
              (g.kind = .panel → g.panelId = some (BitVec.ofNat 32 (fieldAt e.body 2 4))) then
              match fieldAt e.body 6 1 with
              | 0 => { g with setters := g.setters ||| BitVec.ofNat 16 (2 ^ e.origin) }
              | 1 => { g with causes := insertNew .underSet g.causes }
              | 2 => { g with causes := insertNew .overSet g.causes }
              | 3 => { g with causes := insertNew .overSet (insertNew .underSet g.causes) }
              | _ => g
            else g) })) t) ∧
    (e.kind = .cancel → RecordsNamed s →
      let id : Word := BitVec.ofNat 32 (fieldAt e.body 0 4)
      ∃ t, exec .cancel s = .next t ∧ t.bus.rx = rest ∧
        t.web.cancelList = (removeAll id s.web.cancelList ++ [id]).drop ((removeAll id s.web.cancelList).length + 1 - 4) ∧
        (∀ g ∈ s.web.map, g.kind = .panel → g.panelId = some id → ∀ h ∈ t.web.map, h.uid = g.uid →
          RejectCause.cancelled ∈ h.causes) ∧
        (s.is .unwind = true → ∀ o ∈ t.order.queue, o.panelId ≠ id) ∧
        (s.is .unwind = false → s.steady → t.order.queue = s.order.queue))

/-! ## The knife and the patterns -/

/-- The ends of a stroke and of a depth move: a clean stroke sets the consecutive-limit count to 0; with nothing wanted next the
knife rests; at either end a held fold is stroked when the actuator stands at its depth, and late it is marked, and another depth
wanted starts a move of ceil(|Δd| × 1000 / r_d) ms. Without a stroke or a move in flight the input or timer does nothing
(R64, R65, R66, R67, R68). -/
def Obligations.StrokeAndMoveEnd : Prop :=
  (∀ s : State, s.operating = true → s.quiet →
    (s.pattern.stroke = none → ∃ t, exec .strokeComplete s = .next t ∧ FiguresOnly s t) ∧
    (s.pattern.move = none → ∃ t, exec .moveTimerExpiry s = .next t ∧ FiguresOnly s t)) ∧
  (∀ (s : State) (k : Stroke), s.operating = true → s.pattern.stroke = some k →
    ∃ t, exec .strokeComplete s = .next t ∧
      t.pattern.limitCount = (if k.limited then s.pattern.limitCount else 0) ∧
      (s.quiet → s.pattern.heldFold = none → (∀ d, s.depthWanted = some d → s.pattern.depth = some d) →
        FiguresOnly (s.withPattern { s.pattern with
          stroke := none, limitCount := if k.limited then s.pattern.limitCount else 0 }) t) ∧
      (∀ d, s.quiet → s.pattern.heldFold = none → s.depthWanted = some d → s.pattern.depth ≠ some d →
        s.pattern.move = none → s.knifeDrive = true →
        FiguresOnly (s.withPattern { s.pattern with
          stroke := none, limitCount := if k.limited then s.pattern.limitCount else 0,
          move := some { target := d, timer := some (ceilDiv ((match s.pattern.depth with
            | some now => (now - d) + (d - now)
            | none => 2000) * 1000) s.cfg.pleat.actuatorRate) } }) t) ∧
      (∀ (r : KnifeRun) (n : Nat) (p : Pleat), s.steady → s.pattern.run = some r → s.pattern.heldFold = some n →
        s.runPleats[n]? = some p → s.pattern.depth = some p.depth → s.pattern.move = none → s.knifeDrive = true →
        t.pattern.heldFold = none ∧
        t.pattern.stroke = some { ref := r.ref, pleat := n, blade := p.blade, start := s.position, limited := false,
                                  timer := some (2 * s.cfg.pleat.strokeTime) } ∧
        (∀ g, s.held r.ref.uid = some g → s.cfg.pleat.lateTol < (s.position - s.foldPoint g p).toNat →
          Cond.strokeLate ∈ t.cond.flags ∧
          ∀ h ∈ t.web.map, h.uid = r.ref.uid → RejectCause.mispleat ∈ h.causes))) ∧
  (∀ (s : State) (m : DepthMove), s.operating = true → s.pattern.move = some m →
    ∃ t, exec .moveTimerExpiry s = .next t ∧ t.pattern.depth = some m.target ∧
      (s.quiet → (s.pattern.heldFold = none ∧ (∀ d, s.depthWanted = some d → d = m.target)) ∨ s.depthWanted = none ∨
          s.pattern.stroke.isSome = true ∨ s.knifeDrive = false →
        FiguresOnly (s.withPattern { s.pattern with depth := some m.target, move := none }) t) ∧
      (∀ d, s.quiet → s.depthWanted = some d → d ≠ m.target → s.pattern.stroke = none → s.knifeDrive = true →
        FiguresOnly (s.withPattern { s.pattern with
          depth := some m.target
          move := some { target := d, timer := some (ceilDiv (((m.target - d) + (d - m.target)) * 1000)
            s.cfg.pleat.actuatorRate) } }) t) ∧
      (∀ (r : KnifeRun) (n : Nat) (p : Pleat), s.steady → s.pattern.run = some r → s.pattern.heldFold = some n →
        s.runPleats[n]? = some p → p.depth = m.target → s.pattern.stroke = none → s.knifeDrive = true →
        t.pattern = { s.pattern with
          depth := some m.target, move := none, heldFold := none
          stroke := some { ref := r.ref, pleat := n, blade := p.blade, start := s.position, limited := false,
                           timer := some (2 * s.cfg.pleat.strokeTime) } } ∧
        (∀ g, s.held r.ref.uid = some g → s.cfg.pleat.lateTol < (s.position - s.foldPoint g p).toNat →
          Cond.strokeLate ∈ t.cond.flags ∧
          ∀ h ∈ t.web.map, h.uid = r.ref.uid → RejectCause.mispleat ∈ h.causes)))

/-- A stroke that stalls trips the station with KNIFE_STALL and marks its panel; a current-limit detection marks the stroke, its
panel and the count, and the third limited stroke in a row trips with KNIFE_JAM and sets the count to 0 (R64, R69, R70;
log entries 3 and 37). -/
def Obligations.KnifeFaultsTrip : Prop :=
  (∀ s : State, s.operating = true → s.steady → s.pattern.stroke = none →
    (∃ t, exec .stallTimerExpiry s = .next t ∧ FiguresOnly (settle s) t) ∧
    (∀ us, ∃ t, exec (.currentLimitDetection us) s = .next t ∧ FiguresOnly (settle s) t)) ∧
  (∀ (s : State) (k : Stroke), s.operating = true → RecordsNamed s → s.pattern.stroke = some k →
    (∃ t, exec .stallTimerExpiry s = .next t ∧ t.mode = .tripped ∧ TripCause.knifeStall ∈ t.gov.trips ∧
      t.pattern.stroke = none ∧ t.pattern.limitCount = s.pattern.limitCount ∧
      ∀ g ∈ s.web.map, g.uid = k.ref.uid → ∀ h ∈ t.web.map, h.uid = g.uid → RejectCause.mispleat ∈ h.causes) ∧
    (∀ us : Nat, k.limited = false → s.cfg.pleat.currentFilter ≤ us →
      ∃ t, exec (.currentLimitDetection us) s = .next t ∧ Cond.knifeLimit ∈ t.cond.flags ∧
        t.cond.limitedStrokes = min 65535 (s.cond.limitedStrokes + 1) ∧
        (∀ g ∈ s.web.map, g.uid = k.ref.uid → ∀ h ∈ t.web.map, h.uid = g.uid → RejectCause.knifeLimited ∈ h.causes) ∧
        (s.pattern.limitCount < 2 → t.pattern.limitCount = s.pattern.limitCount + 1 ∧ t.gov.trips = s.gov.trips ∧
          t.pattern.stroke = some { k with limited := true }) ∧
        (2 ≤ s.pattern.limitCount → t.pattern.limitCount = 0 ∧ TripCause.knifeJam ∈ t.gov.trips ∧ t.mode = .tripped)) ∧
    (∀ us : Nat, s.steady → (k.limited = true ∨ us < s.cfg.pleat.currentFilter) →
      ∃ t, exec (.currentLimitDetection us) s = .next t ∧ FiguresOnly (settle s) t)) ∧
  (∀ s : State, s.operating = true →
    (3 ≤ s.pattern.limitCount → ∃ t, exec .knifeJam s = .next t ∧ t.pattern.limitCount = 0 ∧
      TripCause.knifeJam ∈ t.gov.trips ∧ t.mode = .tripped) ∧
    (s.pattern.limitCount < 3 → ∃ t, exec .knifeJam s = .next t ∧ t.pattern.limitCount = s.pattern.limitCount ∧
      t.gov.trips = s.gov.trips ∧ (s.steady → FiguresOnly (settle s) t)))

/-- A knife run binds the active copy and the n recovered from the record length, and records P + (L − F); a panel that no copy
fits gains MEASURE_STALE and the run strokes nothing (R51, R61). -/
def Obligations.KnifeRunBinds : Prop :=
  ∀ (s : State) (g : Segment), s.pattern.run = none → RecordsNamed s → g ∈ s.web.map → g.kind = .panel →
    (∀ c n, (s.slot (g.pattern.getD 0)).active = some c → c.recoverRepeats g.length = some n →
      (startRun g s).pattern.run =
        some { ref := g.ref, panelId := g.panelId, slot := g.pattern.getD 0, nextPleat := 0,
               bound := some { copy := c, version := (s.slot (g.pattern.getD 0)).version, repeats := n } } ∧
      1 ≤ n ∧ n ≤ 99 ∧ g.length ≤ c.flat n + 20 ∧ c.flat n ≤ g.length + 20 ∧
      ∃ x ∈ (startRun g s).pattern.pleatedLengths, x.ref = g.ref ∧
        (x.length : Int) = max 0 ((c.pleated n : Int) + g.length - c.flat n)) ∧
    ((∀ c, (s.slot (g.pattern.getD 0)).active = some c →
        ∀ n, 1 ≤ n → n ≤ 99 → c.flat n + 20 < g.length ∨ g.length + 20 < c.flat n) →
      (startRun g s).pattern.run =
        some { ref := g.ref, panelId := g.panelId, slot := g.pattern.getD 0, nextPleat := 0, bound := none } ∧
      (startRun g s).runPleats = [] ∧
      ∀ h ∈ (startRun g s).web.map, h.uid = g.uid → RejectCause.measureStale ∈ h.causes)

/-- A PANEL ORDER is answered with an ORDER MEASURE to all: its own fields as received, then the status with F, P, strokes and
the version of the active copy, or 0 with BAD_FIELD and NO_PATTERN (R58, R59, R60). -/
def Obligations.PanelOrderMeasured : Prop :=
  ∀ (s : State) (e : RxEntry) (rest : List RxEntry), s.operating = true → s.quiet → s.is .pleat = true →
    s.bus.rx = e :: rest → e.kind = .panelOrder → e.body.length = 9 → s.bus.tx.length < 8 →
    let p := fieldAt e.body 4 1
    let n := fieldAt e.body 5 1
    let legal := (1 ≤ p ∧ p ≤ 32) ∧ (1 ≤ n ∧ n ≤ 99) ∧ (1 ≤ fieldAt e.body 6 1 ∧ fieldAt e.body 6 1 ≤ 16)
    ∃ t, exec .panelOrder s = .next t ∧ t.bus.rx = rest ∧ t.web = s.web ∧ t.pattern = s.pattern ∧
      ∃ m ∈ t.bus.tx, m.kind = .orderMeasure ∧ m.dest = 0 ∧ m.body.take 9 = e.body ∧
        (¬ legal → m.body.drop 9 = bytesOf 1 2 ++ bytesOf 13 0) ∧
        (legal → (s.slot p).active = none → m.body.drop 9 = bytesOf 1 1 ++ bytesOf 13 0) ∧
        (∀ c, legal → (s.slot p).active = some c →
          m.body.drop 9 =
            bytesOf 1 (if 200000 < c.flat n then 3 else if c.pleated n < 1000 then 4 else 0) ++ bytesOf 4 (c.flat n) ++
              bytesOf 4 (c.pleated n) ++ bytesOf 4 (c.strokes n) ++ bytesOf 1 (s.slot p).version.toNat)

/-- A pattern upload: fragment 0 begins one, abandoning another; a field out of range gives BAD_STEP and a fragment out of
sequence SEQUENCE; the last fragment, first or later, of a whole upload makes the copy active, or pending while the open run
is bound to its slot, and with another total of steps it gives SEQUENCE (R52 to R56). A fragment that exceeds the step count is out
of sequence whatever its steps hold: the model's choice, log entry 41. -/
def Obligations.PatternUploadCommits : Prop :=
  ∀ (s : State) (e : RxEntry) (rest : List RxEntry), s.operating = true → s.quiet → s.is .pleat = true →
    s.bus.rx = e :: rest → e.kind = .patternFragment →
    let b := e.body
    let first := firstStaging b
    let legal := (1 ≤ first.pattern ∧ first.pattern ≤ 32) ∧ first.leadIn ≤ 20000 ∧ first.tail ≤ 20000 ∧
      (1 ≤ first.stepCount ∧ first.stepCount ≤ 24) ∧ ∀ p ∈ first.steps, p.inRange = true
    let named := if 1 ≤ first.pattern ∧ first.pattern ≤ 32 then some first.pattern else none
    ∃ t, exec .patternFragment s = .next t ∧ t.bus.rx = rest ∧ t.web = s.web ∧
      (fieldAt b 2 1 % 8 = 0 → ¬ legal → t.pattern =
        { s.pattern with staging := none, uploadPattern := named, uploadStatus := .badStep }) ∧
      (fieldAt b 2 1 % 8 = 0 → legal → (fieldAt b 2 1).testBit 3 = false → t.pattern =
        { s.pattern with
          staging := some first
          uploadPattern := match s.pattern.staging with
            | some old => some old.pattern
            | none => some first.pattern
          uploadStatus := match s.pattern.staging with
            | some _ => .abandoned
            | none => .none }) ∧
      (fieldAt b 2 1 % 8 = 0 → legal → (fieldAt b 2 1).testBit 3 = true → first.steps.length = first.stepCount →
        let copy : PatternCopy := { leadIn := first.leadIn, tail := first.tail, steps := first.steps }
        t.pattern.staging = none ∧ t.pattern.uploadPattern = some first.pattern ∧
        (s.runBoundTo first.pattern = false → t.pattern.uploadStatus = .active ∧
          (s.pattern.slots.length = 32 → t.slot first.pattern =
            { active := some copy, pending := none, version := (s.slot first.pattern).version + 1 })) ∧
        (s.runBoundTo first.pattern = true → t.pattern.uploadStatus = .pending ∧
          (s.pattern.slots.length = 32 →
            t.slot first.pattern = { s.slot first.pattern with pending := some copy }))) ∧
      (fieldAt b 2 1 % 8 = 0 → legal → (fieldAt b 2 1).testBit 3 = true → first.steps.length ≠ first.stepCount →
        t.pattern = { s.pattern with
          staging := none, uploadPattern := some first.pattern, uploadStatus := .sequence }) ∧
      (fieldAt b 2 1 % 8 ≠ 0 → s.pattern.staging = none → t.pattern =
        { s.pattern with uploadPattern := named, uploadStatus := .sequence }) ∧
      (∀ u, fieldAt b 2 1 % 8 ≠ 0 → s.pattern.staging = some u →
        let steps := readSteps b 3 (fieldAt b 2 1 / 16 % 8)
        let inOrder := fieldAt b 0 1 = u.tag ∧ fieldAt b 1 1 = u.pattern ∧ fieldAt b 2 1 % 8 = u.expected ∧
          fieldAt b 2 1 % 8 ≤ 5 ∧ u.steps.length + fieldAt b 2 1 / 16 % 8 ≤ u.stepCount
        (¬ inOrder → t.pattern = { s.pattern with
          staging := none, uploadPattern := some u.pattern, uploadStatus := .sequence }) ∧
        (inOrder → (∃ p ∈ steps, p.inRange = false) → t.pattern = { s.pattern with
          staging := none, uploadPattern := some u.pattern, uploadStatus := .badStep }) ∧
        (inOrder → (∀ p ∈ steps, p.inRange = true) → (fieldAt b 2 1).testBit 3 = false → t.pattern = { s.pattern with
          staging := some { u with steps := u.steps ++ steps, expected := u.expected + 1 } }) ∧
        (inOrder → (∀ p ∈ steps, p.inRange = true) → (fieldAt b 2 1).testBit 3 = true →
          u.steps.length + steps.length ≠ u.stepCount → t.pattern = { s.pattern with
            staging := none, uploadPattern := some u.pattern, uploadStatus := .sequence }) ∧
        (inOrder → (∀ p ∈ steps, p.inRange = true) → (fieldAt b 2 1).testBit 3 = true →
          u.steps.length + steps.length = u.stepCount →
          let copy : PatternCopy := { leadIn := u.leadIn, tail := u.tail, steps := u.steps ++ steps }
          t.pattern.staging = none ∧ t.pattern.uploadPattern = some u.pattern ∧ t.pattern.run = s.pattern.run ∧
          (s.runBoundTo u.pattern = false → t.pattern.uploadStatus = .active) ∧
          (s.runBoundTo u.pattern = true → t.pattern.uploadStatus = .pending) ∧
          (1 ≤ u.pattern → u.pattern ≤ 32 → s.pattern.slots.length = 32 →
            (s.runBoundTo u.pattern = false → t.slot u.pattern =
              { active := some copy, pending := none, version := (s.slot u.pattern).version + 1 }) ∧
            (s.runBoundTo u.pattern = true → t.slot u.pattern = { s.slot u.pattern with pending := some copy }))))

/-! ## The outfeed -/

/-- The cut timer's expiry rests the knife. The gate timer's reads the input of the target: the gate stands there, or is UNKNOWN
with GATE_LATE latched. At a boundary the cut is made when drive enable is set, the knife IDLE, the gate at rest and the piece
without the skip mark, and its PANEL is GOOD only as a piece of its own with the gate resting at its required position PASS;
else the boundary is skipped, its PANEL is REJECT, and the piece goes on joined with DIVERT required (R158, R161, R164 to R166;
log entry 18 for a boundary with no piece open). -/
def Obligations.CutsAndGateMoves : Prop :=
  (∀ s : State, s.operating = true → s.quiet →
    ∃ t, exec .cutTimerExpiry s = .next t ∧ FiguresOnly (s.withOutfeed { s.outfeed with cutTimer := none }) t) ∧
  (∀ (s : State) (pass divert : Bool), s.operating = true →
    let p := { s.pins with gatePass := pass, gateDivert := divert }
    ∃ t, exec (.gateTimerExpiry pass divert) s = .next t ∧ t.pins = p ∧
      (∀ target left, s.quiet → s.outfeed.gate = .travelling target left → p.gateInput target = true →
        FiguresOnly ((s.withPins p).withOutfeed { s.outfeed with gate := .resting target }) t) ∧
      (∀ target left, s.steady → s.outfeed.gate = .travelling target left → p.gateInput target = false →
        t.outfeed = { s.outfeed with gate := .unknown } ∧ Cond.gateLate ∈ t.cond.flags) ∧
      (s.quiet → s.outfeed.gate.moving = false → FiguresOnly (s.withPins p) t)) ∧
  (∀ (s : State) (entering : Content) (edge : Word),
      let clear := s.gov.driveEnable = true ∧ s.outfeed.cutTimer = none ∧ s.outfeed.gate.moving = false ∧
        ∀ p, s.outfeed.piece = some p → p.skip = false
      let t := takeBoundary entering edge s
      (clear → t.outfeed.cutTimer = some s.cfg.outfeed.cutTime ∧
        (∃ p, t.outfeed.piece = some p ∧ p.content = entering ∧ p.joined = false) ∧
        (∀ p g, s.outfeed.piece = some p → s.contentPanel p.content = some g →
          t.outfeed.good = s.outfeed.good +
            (if p.joined = false ∧ p.required = .pass ∧ s.outfeed.gate = .resting .pass then 1 else 0) ∧
          t.outfeed.good + t.outfeed.reject = s.outfeed.good + s.outfeed.reject + 1)) ∧
      (¬ clear → t.outfeed.cutTimer = s.outfeed.cutTimer ∧
        (∃ p, t.outfeed.piece = some p ∧ p.content = entering ∧ p.joined = true ∧ p.required = .divert ∧ p.skip = false) ∧
        t.outfeed.good = s.outfeed.good ∧
        (∀ p g, s.outfeed.piece = some p → s.contentPanel p.content = some g →
          t.outfeed.reject = s.outfeed.reject + 1)))

/-! ## Orders and rolls -/

/-- An ORDER MEASURE with status OK is refused by the first of the five tests that applies, with the refusal record loaded and
ORDER_REFUSED latched, or else admitted at the tail; with any other status nothing is done (R79, R80). -/
def Obligations.OrderMeasured : Prop :=
  ∀ (s : State) (e : RxEntry) (rest : List RxEntry), s.operating = true → s.steady → s.is .unwind = true →
    s.bus.rx = e :: rest → e.kind = .orderMeasure →
    let id : Word := BitVec.ofNat 32 (fieldAt e.body 0 4)
    let inRange := (1 ≤ fieldAt e.body 4 1 ∧ fieldAt e.body 4 1 ≤ 32) ∧ (1 ≤ fieldAt e.body 5 1 ∧ fieldAt e.body 5 1 ≤ 99) ∧
      (1 ≤ fieldAt e.body 6 1 ∧ fieldAt e.body 6 1 ≤ 16) ∧ (1000 ≤ fieldAt e.body 10 4 ∧ fieldAt e.body 10 4 ≤ 200000) ∧
      (1000 ≤ fieldAt e.body 14 4 ∧ fieldAt e.body 14 4 ≤ fieldAt e.body 10 4) ∧ fieldAt e.body 18 4 ≠ 0
    let queued := ∃ o ∈ s.order.queue, o.panelId = id
    let born := ∃ g ∈ s.web.map, g.kind = .panel ∧ g.panelId = some id
    ∃ t, exec .orderMeasure s = .next t ∧ t.bus.rx = rest ∧ t.web = s.web ∧
      (fieldAt e.body 9 1 ≠ 0 → FiguresOnly (s.freed rest) t) ∧
      (fieldAt e.body 9 1 = 0 →
        (∀ reason,
          reason = .field ∧ ¬ inRange ∨ reason = .duplicate ∧ inRange ∧ queued ∨
          reason = .born ∧ inRange ∧ ¬ queued ∧ born ∨
          reason = .cancelled ∧ inRange ∧ ¬ queued ∧ ¬ born ∧ id ∈ s.web.cancelList ∨
          reason = .full ∧ inRange ∧ ¬ queued ∧ ¬ born ∧ id ∉ s.web.cancelList ∧ 32 ≤ s.order.queue.length →
          t.order = { s.order with refusal := some (id, reason) } ∧ Cond.orderRefused ∈ t.cond.flags) ∧
        (inRange → ¬ queued → ¬ born → id ∉ s.web.cancelList → s.order.queue.length < 32 →
          t.order.queue = s.order.queue ++ [
            { panelId := id, pattern := fieldAt e.body 4 1, recipe := fieldAt e.body 6 1,
              lot := BitVec.ofNat 16 (fieldAt e.body 7 2), flat := fieldAt e.body 10 4 }] ∧
          t.order.refusal = s.order.refusal ∧ t.order.anchor = s.order.anchor ∧ t.order.nextSeg = s.order.nextSeg))

/-- A birth: on time its lead is the anchor and the segment is appended; delayed its lead is the position less U, and the
segment made before it is fitted, or removed where the new lead has reached its own. Either moves the anchor to the new trail,
and ends the hold and the map stall. Born is the SPLICE that is requested, else the oldest order of the active lot as a PANEL,
which leaves the queue and is punched, else a LEADER of the active lot, which sets the order wait (R6, R82 to R86, R88 to R91). -/
def Obligations.BirthMade : Prop :=
  ∀ s : State,
    let t := makeBirth s
    let lead : Word := if s.order.birthHeld then s.position - dmm s.cfg.unwind.punch else s.order.anchor
    let kept := (s.web.map.reverse.dropWhile (fun h => atOrPast h.arrival lead)).reverse
    ∃ g : Segment,
      (s.order.birthHeld = false → t.web.map = s.web.map ++ [g]) ∧
      (s.order.birthHeld = true → RecordsNamed s →
        t.web.map = kept.dropLast ++ (kept.getLast?.map (fun a => a.adjustTo lead)).toList ++ [g]) ∧
      (RecordsNamed s → RecordsNamed t) ∧ g.seg = s.order.nextSeg ∧ g.arrival = lead ∧
      t.order.birthHeld = false ∧ t.order.stall = .none ∧
      g.newSeq = s.order.newSequence ∧ g.handed = false ∧ g.causes = [] ∧ g.uid = s.web.nextUid ∧
      t.order.anchor = lead + dmm g.length ∧ t.order.nextSeg = s.order.nextSeg + 1 ∧
      t.order.newSequence = false ∧
      (s.order.spliceRequest = true →
        g.kind = .splice ∧ g.length = s.cfg.unwind.spliceLen ∧ t.order.spliceRequest = false ∧ t.order.fence = true ∧
        t.roll.spliceMiddle = some (g.seg, lead + dmm (s.cfg.unwind.spliceLen / 2)) ∧
        t.order.queue = s.order.queue ∧ t.order.wait = s.order.wait ∧ t.order.punches = s.order.punches) ∧
      (∀ lot o, s.order.spliceRequest = false → s.activeLot = some lot →
        s.order.queue.find? (fun x => x.lot == lot) = some o →
        g.kind = .panel ∧ g.panelId = some o.panelId ∧ g.pattern = some o.pattern ∧ g.recipe = o.recipe ∧
        g.lot = some lot ∧ g.length = o.flat ∧ t.order.queue = s.order.queue.filter (fun x => x.panelId ≠ o.panelId) ∧
        t.order.wait = .none ∧ t.order.punches = s.order.punches + 1) ∧
      (∀ lot, s.order.spliceRequest = false → s.activeLot = some lot → (∀ o ∈ s.order.queue, o.lot ≠ lot) →
        g.kind = .leader ∧ g.lot = some lot ∧ g.length = s.cfg.unwind.leaderLen ∧ t.order.queue = s.order.queue ∧
        t.order.wait = (if s.order.queue = [] then .noOrders else .lotWait) ∧ t.order.punches = s.order.punches)

/-- A ROLL DATA: BAD_FIELD, BUSY, THREADED, SPLICE, NOT_TAKEN or LOADED by the first line that applies; the record loaded, READY
or LOADED by the ready input, and ACTIVE when threaded; the other arm as it was (R97, R98, R99, R104, R114). That the result of
an arm number other than 1 and 2 is reported as arm 0, and that a threaded flag is acted on before a splice-now flag, is log
entry 20. -/
def Obligations.RollDescribed : Prop :=
  ∀ (s : State) (e : RxEntry) (rest : List RxEntry), s.operating = true → s.is .unwind = true →
    s.bus.rx = e :: rest → e.kind = .rollData →
    let d := readRollData e.body
    let legal := (20 ≤ d.thickness ∧ d.thickness ≤ 3000) ∧ (500 ≤ d.core ∧ d.core ≤ 20000) ∧
      (500 ≤ d.circumference ∧ d.circumference ≤ 60000) ∧ d.core ≤ d.circumference ∧
      ¬ (d.threaded = true ∧ d.spliceNow = true)
    let roll : Roll :=
      { lot := d.lot, thickness := d.thickness, core := d.core, circumference := d.circumference, verified := false,
        remaining := (d.circumference * d.circumference - d.core * d.core) * 113 / (142 * d.thickness) }
    ∃ t, exec .rollData s = .next t ∧ t.bus.rx = rest ∧
      (d.arm = none → t.roll.statusArm = 0 ∧ t.roll.statusResult = .badField ∧ t.roll.arm1 = s.roll.arm1 ∧
        t.roll.arm2 = s.roll.arm2 ∧ Cond.rollRefused ∈ t.cond.flags) ∧
      (∀ a, d.arm = some a →
        t.roll.statusArm = armNumber a ∧ t.arm (otherArm a) = s.arm (otherArm a) ∧
        (¬ legal → t.roll.statusResult = .badField ∧ t.arm a = s.arm a ∧ Cond.rollRefused ∈ t.cond.flags) ∧
        (legal → (s.arm a).state = .active ∨ (s.arm a).state = .expiring →
          t.roll.statusResult = .busy ∧ t.arm a = s.arm a ∧ Cond.rollRefused ∈ t.cond.flags) ∧
        (legal → (s.arm a).state ≠ .active → (s.arm a).state ≠ .expiring →
          let waiting : Arm := { state := if s.pins.ready a then .ready else .loaded, roll := some roll }
          (d.threaded = true → s.activeArm = none → s.roll.spliceState = .run → s.pins.webPresent = true →
            t.roll.statusResult = .threaded ∧ t.arm a = { waiting with state := .active }) ∧
          (d.threaded = true → (s.activeArm ≠ none ∨ s.roll.spliceState ≠ .run ∨ s.pins.webPresent = false) →
            t.roll.statusResult = .notTaken ∧ t.arm a = waiting ∧ Cond.rollRefused ∈ t.cond.flags) ∧
          (d.spliceNow = true → s.mode = .active → s.activeArm = some (otherArm a) → s.roll.spliceState = .run →
            s.pins.ready a = true → t.roll.statusResult = .splice ∧ t.arm a = waiting) ∧
          (d.spliceNow = true → (s.mode ≠ .active ∨ s.activeArm ≠ some (otherArm a) ∨ s.roll.spliceState ≠ .run ∨
            s.pins.ready a = false) →
            t.roll.statusResult = .notTaken ∧ t.arm a = waiting ∧ Cond.rollRefused ∈ t.cond.flags) ∧
          (d.threaded = false → d.spliceNow = false → t.roll.statusResult = .loaded ∧ t.arm a = waiting)))

/-- A revolution input at the configured edge on the ACTIVE arm moves the mark and, but for a sample of 0 or of 2^31 or more,
gives a sample: agreeing within 5% with C of a verified roll, or with the last sample of an unverified one, it becomes C and the
remaining length is computed anew, free where its figure does not fit 32 bits (R102 to R104; log entry 21). -/
def Obligations.RevolutionMeasures : Prop :=
  ∀ (s : State) (a : ArmName) (level : Bool), s.operating = true →
    ∃ t, exec (.revolutionPulse a level) s = .next t ∧ t.pins = s.pins.setRevolution a level ∧
      t.arm (otherArm a) = s.arm (otherArm a) ∧
      (s.is .unwind = false ∨ isEdge (s.cfg.unwind.edgeCode a) (s.pins.revolution a) level = false ∨
        (s.arm a).state ≠ .active → t.arm a = s.arm a) ∧
      (s.is .unwind = true → isEdge (s.cfg.unwind.edgeCode a) (s.pins.revolution a) level = true →
        (s.arm a).state = .active →
        ((s.arm a).mark = none → t.arm a = { s.arm a with mark := some s.position }) ∧
        (∀ m r, (s.arm a).mark = some m → (s.arm a).roll = some r →
          let sample := (s.position - m).toNat
          let reference := if r.verified then some r.circumference else (s.arm a).lastSample
          let agrees := ∃ l, reference = some l ∧ 100 * ((sample - l) + (l - sample)) ≤ 5 * l
          (sample = 0 ∨ 2147483648 ≤ sample → t.arm a = { s.arm a with mark := some s.position }) ∧
          (0 < sample → sample < 2147483648 → ¬ agrees →
            t.arm a = { s.arm a with mark := some s.position, lastSample := some sample }) ∧
          (0 < sample → sample < 2147483648 → agrees →
            ∃ length, t.arm a = { s.arm a with mark := some s.position, lastSample := some sample, roll := some { r with
              circumference := sample, verified := true, remaining := length } } ∧
            (sample ≤ r.core → length = 0) ∧
            (r.core < sample → (sample * sample - r.core * r.core) * 113 / (142 * r.thickness) ≤ 4294967295 →
              length = (sample * sample - r.core * r.core) * 113 / (142 * r.thickness)))))

/-- The arm-ready input makes a LOADED arm READY and a READY one LOADED; the arm-empty input becoming active empties the arm;
the other arm is as it was. The start test begins a splice with the other arm when the ACTIVE arm's length is at the reserve. In
PREFILL, SPLICE_WAIT and STOP_OLD the splice arm's loss of ready or its emptying, or the emptying of the ACTIVE arm, aborts the
splice (R86, R87, R100, R101, R105, R111, R114, R121). -/
def Obligations.ArmInputsTaken : Prop :=
  (∀ (s : State) (a : ArmName) (level : Bool), s.operating = true →
    ∃ t, exec (.armReadyChange a level) s = .next t ∧ t.pins = s.pins.setReady a level ∧
      t.arm (otherArm a) = s.arm (otherArm a) ∧
      t.arm a = (if s.is .unwind = true ∧ (s.arm a).state = .loaded ∧ level = true then { s.arm a with state := .ready }
        else if s.is .unwind = true ∧ (s.arm a).state = .ready ∧ level = false then { s.arm a with state := .loaded }
        else s.arm a)) ∧
  (∀ (s : State) (a : ArmName) (level : Bool), s.operating = true →
    ∃ t, exec (.armEmpty a level) s = .next t ∧ t.pins = s.pins.setEmpty a level ∧
      t.arm (otherArm a) = s.arm (otherArm a) ∧
      t.arm a = (if s.is .unwind = true ∧ level = true ∧ s.pins.empty a = false ∧ (s.arm a).state ≠ .empty then {}
        else s.arm a)) ∧
  (∀ s : State,
    let t := spliceTest s
    (∀ a r, s.activeArm = some a → (s.arm a).roll = some r → r.remaining ≤ s.cfg.unwind.reserve →
      (s.arm (otherArm a)).state = .ready → s.roll.spliceState = .run → s.mode = .active →
      t.roll.spliceState = .prefill ∧ t.roll.spliceArm = some (otherArm a) ∧ t.roll.spliceMiddle = none ∧
      t.order.spliceRequest = true ∧ t.fillTarget = s.cfg.unwind.fillSplice ∧ Cond.rollOut ∉ t.cond.flags ∧
      HoldCause.rollOut ∉ t.gov.holds ∧ t.roll.arm1 = s.roll.arm1 ∧ t.roll.arm2 = s.roll.arm2) ∧
    (s.roll.spliceState ≠ .run ∨ s.mode ≠ .active ∨
        (∀ a r, s.activeArm = some a → (s.arm a).roll = some r → s.cfg.unwind.reserve < r.remaining ∨
          (s.arm (otherArm a)).state ≠ .ready) →
      t = s)) ∧
  (∀ (s : State) (a : ArmName) (c : Instr), s.operating = true → s.is .unwind = true →
    s.roll.spliceState = .prefill ∨ s.roll.spliceState = .spliceWait ∨ s.roll.spliceState = .stopOld →
    c = .armReadyChange a false ∧ (s.arm a).state = .ready ∧ s.roll.spliceArm = some a ∨
      c = .armEmpty a true ∧ s.pins.empty a = false ∧ (s.arm a).state ≠ .empty ∧
        ((s.arm a).state = .active ∨ s.roll.spliceArm = some a) →
    ∃ t, exec c s = .next t ∧ Cond.spliceAbort ∈ t.cond.flags ∧ t.roll.spliceState = .run ∧ t.roll.spliceArm = none ∧
      t.order.spliceRequest = false ∧ t.order.fence = false)

/-- The paste timer's expiry switches the paste output off, in PASTE enters START_NEW and makes a splice arm that holds a record
ACTIVE, with the web-present timer started in ACTIVE alone; the web-present timer's expiry with the input not seen trips with
SPLICE_FAIL (R118, R119, R123). The other transitions of the splice: what falls due in PREFILL, SPLICE_WAIT, STOP_OLD and
RECOVER, and what it brings (R115, R116, R120, R121); PASTE when the unwind stands (R117); the web seen and RECOVER (R119); a
trip, and the return to ACTIVE (R122). Six of its clauses are the model's: where a birth or the end of a map stall is due at the
same count, the splice transition is taken first (log entry 7, DEDUCED); the tests at a ramp update read the v_u and the v_out of
that update (log entry 52, DESIGN CHOICE); START_NEW goes to RECOVER only in ACTIVE, where
R119's words have no test of the mode (log entry 22, DEDUCED); PASTE is tested at the ramp update also with v_u already 0 (log
entry 23, DEDUCED); v_u is 0 at the arm's becoming ACTIVE (R110; log entry 28, DEDUCED); the mode at the paste's expiry decides
of the web-present timer, also after a trip or STANDBY in PASTE that has been cleared by then (log entry 46, DESIGN CHOICE). -/
def Obligations.SpliceTimers : Prop :=
  (∀ s : State, s.operating = true → s.roll.pasteTimer.isSome = true →
    ∃ t, exec .pasteTimerExpiry s = .next t ∧ t.roll.pasteOutput = false ∧ t.roll.pasteTimer = none ∧
      (s.roll.spliceState = .paste →
        (∀ a, s.roll.spliceArm = some a → (s.arm a).state = .loaded ∨ (s.arm a).state = .ready →
          t.arm a = { s.arm a with state := .active, lastSample := none, mark := none } ∧
          t.arm (otherArm a) = s.arm (otherArm a) ∧ t.roll.vU = 0) ∧
        ((∀ a, s.roll.spliceArm = some a → (s.arm a).state ≠ .loaded ∧ (s.arm a).state ≠ .ready) →
          t.roll.arm1 = s.roll.arm1 ∧ t.roll.arm2 = s.roll.arm2) ∧
        (s.steady → t.roll.spliceState = .startNew ∧ t.roll.webSeen = false ∧
          t.roll.webTimer = (if s.mode = .active then some 2000 else s.roll.webTimer)))) ∧
  (∀ s : State, s.operating = false → s.roll.pasteTimer.isSome = true →
    exec .pasteTimerExpiry s = .next (s.withRoll { s.roll with pasteOutput := false, pasteTimer := none })) ∧
  (∀ s : State, s.operating = true → s.roll.webTimer.isSome = true →
    ∃ t, exec .webPresentTimerExpiry s = .next t ∧ t.roll.webTimer = none ∧
      (s.roll.spliceState = .startNew → s.roll.webSeen = false → TripCause.spliceFail ∈ t.gov.trips ∧ t.mode = .tripped) ∧
      (s.roll.spliceState ≠ .startNew ∨ s.roll.webSeen = true → t.gov.trips = s.gov.trips)) ∧
  (∀ s : State, s.operating = true → s.is .unwind = true → s.dueExit = none →
    (s.due = some .prefillDone ↔ s.roll.spliceState = .prefill ∧ s.roll.spliceMiddle.isSome = true ∧
      s.cfg.unwind.fillSplice ≤ s.fill) ∧
    (s.due = some .stopOld ↔ s.roll.spliceState = .spliceWait ∧ s.cfg.unwind.fillSplice ≤ s.fill ∧
      ∃ seg middle, s.roll.spliceMiddle = some (seg, middle) ∧
        signedDiff middle s.position ≤ (ceilDiv (s.roll.vU * s.roll.vU) (2 * (s.cfg.unwind.aUnwind * 1000)) : Nat)) ∧
    (s.due = some .stopOldLow ↔ s.roll.spliceState = .stopOld ∧ s.fill ≤ s.cfg.unwind.fillMin) ∧
    (s.due = some .recovered ↔ s.roll.spliceState = .recover ∧
      (s.cfg.unwind.fillNominal ≤ s.fill ∨ s.activeArm = none))) ∧
  (∀ s : State,
    let starts := s.mode = .active ∧ ∃ a r, s.activeArm = some a ∧ (s.arm a).roll = some r ∧
      r.remaining ≤ s.cfg.unwind.reserve ∧ (s.arm (otherArm a)).state = .ready
    (takeDue .prefillDone s).roll = { s.roll with spliceState := .spliceWait } ∧
    (takeDue .stopOld s).roll = { s.roll with spliceState := .stopOld } ∧ (takeDue .stopOld s).unwindDemand = 0 ∧
    Cond.spliceAbort ∈ (takeDue .stopOldLow s).cond.flags ∧
    ∀ t, t = takeDue .stopOldLow s ∨ t = takeDue .recovered s →
      t.roll.arm1 = s.roll.arm1 ∧ t.roll.arm2 = s.roll.arm2 ∧ t.order.fence = false ∧ t.web = s.web ∧
      (¬ starts → t.roll.spliceState = .run ∧ t.roll.spliceArm = none ∧ t.order.spliceRequest = false ∧
        t.fillTarget = s.cfg.unwind.fillNominal) ∧
      (∀ a, starts → s.activeArm = some a → t.roll.spliceState = .prefill ∧ t.roll.spliceArm = some (otherArm a) ∧
        t.order.spliceRequest = true)) ∧
  (∀ (s : State) (w p d : Bool), s.operating = true → s.is .unwind = true → s.roll.spliceState = .stopOld →
    ∃ t, exec (.rampUpdate w p d) s = .next t ∧
      (s.roll.vU ≤ s.cfg.unwind.aUnwind → t.roll.spliceState = .paste ∧ t.roll.vU = 0 ∧ t.roll.pasteOutput = true ∧
        t.roll.pasteTimer = some s.cfg.unwind.pasteTime ∧ ∀ a, s.activeArm = some a →
          t.arm a = { s.arm a with state := .expiring, lastSample := none, mark := none }) ∧
      (s.cfg.unwind.aUnwind < s.roll.vU → s.mode ≠ .tripped → s.cfg.unwind.fillMin < s.fill →
        t.roll.spliceState = .stopOld ∧ t.roll.vU = s.roll.vU - s.cfg.unwind.aUnwind)) ∧
  (∀ (s : State) (w p d : Bool), s.operating = true → s.steady → s.is .unwind = true → s.roll.spliceState = .startNew →
    ∃ t, exec (.rampUpdate w p d) s = .next t ∧
      (t.roll.webSeen = true ↔ s.roll.webSeen = true ∨ w = true ∧ 0 < t.roll.vU) ∧
      (w = true → 0 < t.roll.vU → t.roll.webTimer = none) ∧
      (t.roll.webSeen = true → s.mode = .active → t.roll.vOut ≤ t.roll.vU → t.roll.spliceState ≠ .startNew ∧
        (t.fill < s.cfg.unwind.fillNominal → t.activeArm ≠ none → t.roll.spliceState = .recover)) ∧
      (t.roll.webSeen = false ∨ s.mode ≠ .active ∨ t.roll.vU < t.roll.vOut → t.roll.spliceState = .startNew)) ∧
  (∀ s : State, s.operating = true → s.is .unwind = true → s.mode ≠ .tripped → s.pins.estop = false →
    ∃ t, exec (.estopInput true) s = .next t ∧
      (s.roll.spliceState = .prefill ∨ s.roll.spliceState = .spliceWait ∨ s.roll.spliceState = .stopOld →
        t.roll.spliceState = .run ∧ t.roll.spliceArm = none ∧ t.order.spliceRequest = false ∧ t.order.fence = false ∧
        (Cond.spliceAbort ∈ t.cond.flags ↔ Cond.spliceAbort ∈ s.cond.flags)) ∧
      (s.roll.spliceState = .paste → t.roll.spliceState = .paste ∧ t.roll.spliceArm = s.roll.spliceArm ∧
        t.roll.pasteTimer = s.roll.pasteTimer ∧ t.roll.pasteOutput = s.roll.pasteOutput) ∧
      (s.roll.spliceState = .startNew → t.roll.spliceState = .startNew ∧ t.roll.webTimer = none ∧
        t.roll.webSeen = s.roll.webSeen)) ∧
  (∀ s : State, s.is .unwind = true → s.roll.spliceState = .startNew →
    s.fill < s.cfg.unwind.fillNominal → s.activeArm ≠ none →
    (rollAtActive s).roll = { s.roll with spliceState := .recover })

/-! ## The heat-set unit -/

/-- A scan loads every used channel with its scaled sample, or counts a bad one; the fourth consecutive bad sample declares a
channel faulted, the tenth consecutive good one clears it; SENSOR_FAULT and SENSOR_FAULT_CLEAR take what stands due
(R125, R126; log entry 3, and 30 for the good count at the
clearing). -/
def Obligations.ChannelsScannedAndJudged : Prop :=
  (∀ (samples : List (BitVec 12)) (s : State) (n : Nat) (raw : BitVec 12), samples.length = 8 → s.operating = true →
    s.heat.channels.length = 8 → samples[n]? = some raw → s.usesChannel n = true →
    let c := s.channel n
    let bad := raw.toNat ≤ 16 ∨ 4080 ≤ raw.toNat
    ∃ t, exec (.sensorScanComplete samples) s = .next t ∧
      (bad → t.channel n = { c with bad := min 4 (c.bad + 1), good := 0, faulted := c.faulted || 4 ≤ c.bad + 1 }) ∧
      (¬ bad → (t.channel n).value =
        some ((s.cfg.scaling.getD n {}).offset + (raw.toNat * (s.cfg.scaling.getD n {}).span / 4095 : Nat)) ∧
        (t.channel n).bad = 0 ∧
        (t.channel n).faulted = (c.faulted && (c.good + 1 < 10 : Bool)) ∧
        (c.faulted = true → (t.channel n).good = min 10 (c.good + 1)))) ∧
  (∀ (s : State) (n : Fin 8), s.operating = true → s.steady → s.heat.channels.length = 8 →
    (s.usesChannel n = true → 4 ≤ (s.channel n).bad → (s.channel n).faulted = false →
      ∃ t, exec (.sensorFault n) s = .next t ∧ t.channel n = { s.channel n with faulted := true } ∧
        Cond.sensorFault n ∈ t.cond.flags ∧ (s.is .setter = true → (t.zone n).valve = 0)) ∧
    (s.usesChannel n = false ∨ (s.channel n).bad < 4 ∨ (s.channel n).faulted = true →
      ∃ t, exec (.sensorFault n) s = .next t ∧ FiguresOnly s t) ∧
    (s.usesChannel n = true → 10 ≤ (s.channel n).good → (s.channel n).faulted = true →
      ∃ t, exec (.sensorFaultClear n) s = .next t ∧ t.channel n = { s.channel n with faulted := false } ∧
        Cond.sensorFault n ∉ t.cond.flags) ∧
    (s.usesChannel n = false ∨ (s.channel n).good < 10 ∨ (s.channel n).faulted = false →
      ∃ t, exec (.sensorFaultClear n) s = .next t ∧ FiguresOnly s t))

/-- The chamber's transitions as commands: READY_HEAT after 200 passing scans in WARMING, PARKED at the expiry of the park timer,
and the cut of a zone whose over-limit count has reached the filter (R132, R133, R139; log entry 3). -/
def Obligations.ChamberTransitions : Prop :=
  ∀ s : State, s.operating = true → s.steady →
    (s.heat.chamber = .warming → 200 ≤ s.heat.bandCount →
      ∃ t, exec .readyHeatEntry s = .next t ∧ t.web = s.web ∧ t.heat.zones.length = s.heat.zones.length ∧
        t.heat.chamber =
          (if s.gov.vA = 0 ∧ s.lineDemand = false ∧ s.cfg.setter.parkTime = 0 then .parked else .readyHeat) ∧
        (s.cfg.setter.parkTime ≠ 0 →
          t.heat.parkTimer = (if s.gov.vA = 0 ∧ s.lineDemand = false then some s.cfg.setter.parkTime else none))) ∧
    (s.heat.chamber ≠ .warming ∨ s.heat.bandCount < 200 →
      ∃ t, exec .readyHeatEntry s = .next t ∧ FiguresOnly s t) ∧
    (s.heat.chamber = .readyHeat → s.heat.parkTimer.isSome = true → s.lineDemand = false →
      ∃ t, exec .parkTimerExpiry s = .next t ∧ t.heat.chamber = .parked ∧ t.heat.parkTimer = none ∧ t.web = s.web ∧
        (s.is .setter = true → ∀ z ∈ t.heat.zones, z.sp = s.cfg.setter.parkSp)) ∧
    (s.heat.chamber ≠ .readyHeat ∨ s.heat.parkTimer = none →
      ∃ t, exec .parkTimerExpiry s = .next t ∧ FiguresOnly s t) ∧
    (∀ z : Fin 4, z.val < s.heat.zones.length → (s.zone z).cut = false →
      s.cfg.setter.cutFilter ≤ (s.zone z).overCount →
      ∃ t, exec (.zoneCut z) s = .next t ∧ (t.zone z).cut = true ∧ (t.zone z).valve = 0 ∧ (t.zone z).overCount = 0 ∧
        Cond.zoneCut z ∈ t.cond.flags ∧ t.web = s.web ∧
        ∀ y, y ≠ z.val → (t.zone y).cut = (s.zone y).cut ∧ (t.zone y).valve = (s.zone y).valve) ∧
    (∀ z : Fin 4, s.heat.zones.length ≤ z.val ∨ (s.zone z).cut = true ∨
        (s.zone z).overCount < s.cfg.setter.cutFilter →
      ∃ t, exec (.zoneCut z) s = .next t ∧ FiguresOnly s t)

/-- The control of a zone at a control boundary: P and the integral step truncated toward zero, the integral held at the limits
of the output before, both limited to 0..1000, and the valve driven with the output. A cut zone is restored in CYCLE mode once
its temperature is at or below its limit less 30 dK, its ZONE_CUT standing, and controlled with the others. A zone that is held
off keeps its integral and gives 0 (R136 to R141). -/
def Obligations.HeatControlComputes : Prop :=
  (∀ s : State, s.operating = true → s.steady → s.is .setter = false ∨ s.heat.heatTimer = none →
    ∃ t, exec .heatControlBoundary s = .next t ∧ FiguresOnly s t) ∧
  (∀ (s : State) (z : Nat), s.operating = true → s.steady → s.is .setter = true → s.heat.heatTimer.isSome = true →
    z < s.cfg.setter.zones → z < s.heat.zones.length →
    ∃ t, exec .heatControlBoundary s = .next t ∧ t.heat.heatTimer = some 200 ∧
      (t.zone z).spEff = s.effectiveSetpoint (s.zone z).sp ∧
      ((t.zone z).cut = true ↔ (s.zone z).cut = true ∧ ¬ (s.cfg.setter.latchMode = false ∧
        ∃ temp, s.zoneTemp z = some temp ∧ temp ≤ min ((s.zone z).sp + s.cfg.setter.cutMargin) 1750 - 30)) ∧
      (Cond.zoneCut z ∈ t.cond.flags ↔ Cond.zoneCut z ∈ s.cond.flags) ∧
      (s.mode = .tripped ∨ s.gov.driveEnable = false ∨ s.zoneTemp z = none ∨ (t.zone z).cut = true →
        (t.zone z).output = 0 ∧ (t.zone z).valve = 0 ∧ (t.zone z).integral = (s.zone z).integral) ∧
      (∀ temp, s.mode ≠ .tripped → s.gov.driveEnable = true → s.zoneTemp z = some temp → (t.zone z).cut = false →
        let e := (t.zone z).spEff - temp
        let p := Int.tdiv (s.cfg.setter.kp * e) 64
        let still := ((s.zone z).output = 1000 ∧ 0 < e) ∨ ((s.zone z).output = 0 ∧ e < 0)
        (still → (t.zone z).integral = (s.zone z).integral) ∧
        (¬ still → ((t.zone z).integral : Int) =
          max 0 (min 1000 ((s.zone z).integral + Int.tdiv (s.cfg.setter.ki * e) 64))) ∧
        ((t.zone z).output : Int) = max 0 (min 1000 (p + (t.zone z).integral)) ∧
        (t.zone z).valve = (t.zone z).output))

/-- A RECIPE whose every field lies in its range is loaded whole under its number, and any other leaves the table; nothing else
changes but the figures made again (R127). -/
def Obligations.RecipeLoadedWhole : Prop :=
  ∀ (s : State) (e : RxEntry) (rest : List RxEntry), s.operating = true → s.is .setter = true →
    s.bus.rx = e :: rest → e.kind = .recipe →
    let number := fieldAt e.body 0 1
    let points := [signed16 (fieldAt e.body 1 2), signed16 (fieldAt e.body 3 2), signed16 (fieldAt e.body 5 2),
      signed16 (fieldAt e.body 7 2)]
    let legal := (1 ≤ number ∧ number ≤ 16) ∧ (∀ p ∈ points, -500 ≤ p ∧ p ≤ 1750) ∧ 1 ≤ fieldAt e.body 9 4 ∧
      fieldAt e.body 9 4 < fieldAt e.body 13 4
    ∃ t, exec .recipe s = .next t ∧ t.bus.rx = rest ∧
      (legal → t.heat.recipes = s.heat.recipes.set (number - 1)
          (some { setpoints := points, doseMin := fieldAt e.body 9 4, doseMax := fieldAt e.body 13 4 }) ∧
        (s.steady → FiguresOnly ((s.freed rest).withHeat { s.heat with recipes := t.heat.recipes }) t)) ∧
      (¬ legal → t.heat.recipes = s.heat.recipes ∧ (s.steady → FiguresOnly (s.freed rest) t))

/-- A dose tick adds to every cell the figure of its zone above the dose base, saturating, and carries the peak on; a cell of a
faulted zone gains nothing. A shift discards the last cell, moves the others up and enters an empty one. The leaving cell is judged
for each PANEL it refers to, whose entry is made or brought up to date, and closed with the last cell of its fabric; an OPEN entry
the cell does not refer to is closed. A closing latches UNDER_SET and OVER_SET, merges the verdict into the own copy and queues the
DOSE VERDICT; a removal drops the entry (R20, R144, R145, R147 to R151; the peak outside 16 bits is log entry 9). -/
def Obligations.CellsDosedAndShifted : Prop :=
  (∀ (s : State) (k : Nat) (c : Cell), s.heat.cells[k]? = some c →
    (∀ temp, s.zoneTemp (s.cfg.setter.zoneOfCell k) = some temp →
      (doseTick s).heat.cells[k]? = some { c with
        dose := min 4294967295 (c.dose + (temp - s.cfg.setter.tBase).toNat)
        peak := some (match c.peak with
          | some p => max p temp
          | none => temp) }) ∧
    (s.zoneTemp (s.cfg.setter.zoneOfCell k) = none → (doseTick s).heat.cells[k]? = some c)) ∧
  (∀ s : State, (shiftCells s).heat.cells.tail = s.heat.cells.dropLast ∧
    (∃ c, (shiftCells s).heat.cells.head? = some c ∧ c.dose = 0 ∧ c.peak = none) ∧
    (shiftCells s).heat.shiftAnchor = s.heat.shiftAnchor + dmm s.cfg.setter.cell) ∧
  (∀ (s : State) (c : Cell) (g : Segment), RecordsNamed s → (s.heat.judgements.map (fun j => j.ref.uid)).Nodup →
    s.heat.cells.getLast? = some c → g ∈ s.web.map → g.kind = .panel → g.panelId.isSome = true → g.recipe ≠ 0 →
    let a := s.cfg.setter
    let edge : Word := s.heat.shiftAnchor + dmm a.cell - dmm a.entry - dmm (a.cells * a.cell)
    let referred := (∃ r, (c.lead = some r ∨ c.trail = some r) ∧ r.uid = g.uid)
    let before := s.heat.judgements.find? (fun j => j.ref.uid == g.uid)
    let t := shiftCells s
    let after := t.heat.judgements.find? (fun j => j.ref.uid == g.uid)
    (∀ j, before = some j → j.closed = true → after = some j) ∧
    (∀ j, before = some j → j.closed = false → ¬ referred → after = some { j with closed := true }) ∧
    (before = none → ¬ referred → after = none) ∧
    ((∀ j, before = some j → j.closed = false) → referred →
      ∃ j, after = some j ∧ j.ref = (before.map Judgement.ref).getD g.ref ∧
        (j.closed = true ↔ atOrPast edge g.trail = true) ∧
        (j.underFlag = true ↔ (∃ x, before = some x ∧ x.underFlag = true) ∨
          ∃ r, s.recipeEntry g.recipe = some r ∧ c.dose < r.doseMin) ∧
        (j.overFlag = true ↔ (∃ x, before = some x ∧ x.overFlag = true) ∨
          ∃ r, s.recipeEntry g.recipe = some r ∧ r.doseMax < c.dose) ∧
        (j.unjudged = true ↔ (∃ x, before = some x ∧ x.unjudged = true) ∨ s.recipeEntry g.recipe = none) ∧
        (before = none → j.least = c.dose ∧ j.greatest = c.dose ∧ j.peak = c.peak) ∧
        (∀ x, before = some x → j.least = min x.least c.dose ∧ j.greatest = max x.greatest c.dose ∧
          j.peak = (match x.peak, c.peak with
            | some p, some q => some (max p q)
            | some p, none => some p
            | none, q => q))) ∧
    (∀ j, after = some j → j.closed = true → (∀ x, before = some x → x.closed = false) →
      (j.underFlag = true → Cond.underSet ∈ t.cond.flags) ∧ (j.overFlag = true → Cond.overSet ∈ t.cond.flags) ∧
      (∃ h ∈ t.web.map, h.uid = g.uid ∧ (j.underFlag = true → RejectCause.underSet ∈ h.causes) ∧
        (j.overFlag = true → RejectCause.overSet ∈ h.causes) ∧
        (j.underFlag = false → j.overFlag = false → j.unjudged = false → s.cfg.address ≤ 15 →
          inMask h.setters s.cfg.address = true)) ∧
      (s.bus.tx.length < 8 →
        (∀ h ∈ s.web.map, h.uid ≠ g.uid → ∀ y ∈ t.heat.judgements, y.ref.uid = h.uid → y.closed = true →
          ∃ z ∈ s.heat.judgements, z.ref.uid = h.uid ∧ z.closed = true) →
        ∃ e ∈ t.bus.tx, e.kind = .doseVerdict ∧ e.dest = 0 ∧
          fieldAt e.body 0 2 = j.ref.seg.toNat ∧ fieldAt e.body 2 4 = (g.panelId.getD 0).toNat ∧
          fieldAt e.body 6 1 = (if j.underFlag then (if j.overFlag then 3 else 1) else if j.overFlag then 2
            else if j.unjudged then 4 else 0) ∧
          (j.least ≤ 4294967295 → fieldAt e.body 7 4 = j.least) ∧
          (j.greatest ≤ 4294967295 → fieldAt e.body 11 4 = j.greatest) ∧
          (-32768 ≤ j.peak.getD (-500) → j.peak.getD (-500) ≤ 32767 →
            signed16 (fieldAt e.body 15 2) = j.peak.getD (-500))))) ∧
  (∀ (s : State) (uid : Nat), (s.held uid).isSome = true →
    ∀ j, j ∈ (removeSeg uid s).heat.judgements ↔ j ∈ s.heat.judgements ∧ j.ref.uid ≠ uid)

/-! ## The bus unit -/

/-- A frame in the operating modes: a check error is counted; the own origin sets the duplicate-address latch and trips; a stray
sender is counted; a TRIP sets the trip latch; an admitted telegram joins the queue with its arrival count, or is lost to an
overrun; any other is discarded. In CONFIGURING and CONFIG_FAULT a RESTART to all alone is taken, and in POWER_UP nothing
(R194, R204 to R209, R213; log entry 14). -/
def Obligations.FramesReceived : Prop :=
  (∀ (s : State) (bits : List Bool), s.operating = true → readFrame bits = none →
    ∃ t, exec (.frameReceived bits) s = .next t ∧ t.cond.checkErrors = min 65535 (s.cond.checkErrors + 1) ∧
      t.bus.rx = s.bus.rx ∧ t.bus.latchRoster = s.bus.latchRoster ∧ t.bus.latchTerminal = s.bus.latchTerminal ∧
      t.bus.duplicate = s.bus.duplicate) ∧
  (∀ (s : State) (bits : List Bool) (m : Telegram), s.operating = true → readFrame bits = some m →
    let stray := (inMask s.cfg.roster m.origin = false ∧ inMask s.cfg.terminals m.origin = false) ∨
      (inMask s.cfg.roster m.origin = true ∧ m.kind.origins = .terminals) ∨
      (inMask s.cfg.roster m.origin = false ∧ inMask s.cfg.terminals m.origin = true ∧ m.kind.origins = .stations)
    let admitted := (m.dest = s.cfg.address ∨ m.dest = 0 ∧ m.kind ≠ .handoff) ∧
      ∃ r, s.role = some r ∧ m.kind.takenBy r = true
    ∃ t, exec (.frameReceived bits) s = .next t ∧ t.cond.checkErrors = s.cond.checkErrors ∧
      (m.origin = s.cfg.address → t.bus.duplicate = true ∧ t.bus.rx = s.bus.rx ∧
        (s.bus.duplicate = false → TripCause.dupAddress ∈ t.gov.trips ∧ t.mode = .tripped ∧
          Cond.dupAddress ∈ t.cond.flags)) ∧
      (m.origin ≠ s.cfg.address → stray → t.bus.rx = s.bus.rx ∧ t.bus.duplicate = s.bus.duplicate ∧
        t.cond.straySenders = min 65535 (s.cond.straySenders + 1) ∧ Cond.straySender ∈ t.cond.flags) ∧
      (m.origin ≠ s.cfg.address → ¬ stray → m.kind = .trip → t.bus.rx = s.bus.rx ∧
        t.bus.latchRoster = (s.bus.latchRoster || inMask s.cfg.roster m.origin) ∧
        t.bus.latchTerminal = (s.bus.latchTerminal || inMask s.cfg.terminals m.origin)) ∧
      (m.origin ≠ s.cfg.address → ¬ stray → m.kind ≠ .trip → admitted → s.bus.rx.length < 6 →
        t.bus.rx = s.bus.rx ++
          [{ kind := m.kind, origin := m.origin, dest := m.dest, body := m.body, arrival := s.position }] ∧
        t.cond.overruns = s.cond.overruns) ∧
      (m.origin ≠ s.cfg.address → ¬ stray → m.kind ≠ .trip → admitted → 6 ≤ s.bus.rx.length →
        t.bus.rx = s.bus.rx ∧ t.cond.overruns = min 65535 (s.cond.overruns + 1) ∧ Cond.rxOverrun ∈ t.cond.flags) ∧
      (m.origin ≠ s.cfg.address → ¬ stray → m.kind ≠ .trip → ¬ admitted → t.bus.rx = s.bus.rx ∧
        t.cond.overruns = s.cond.overruns ∧ t.bus.latchRoster = s.bus.latchRoster)) ∧
  (∀ (s : State) (bits : List Bool), s.mode = .configuring ∨ s.mode = .configFault →
    (∀ m, readFrame bits = some m → m.kind = .restart → m.dest = 0 →
      ∃ t, exec (.frameReceived bits) s = .next t ∧ t.mode = .configuring ∧ t.loader.reading = true ∧
        t.loader.restartCause = .restart ∧ t.loader.keptRole = s.loader.keptRole) ∧
    ((∀ m, readFrame bits = some m → m.kind ≠ .restart ∨ m.dest ≠ 0) → exec (.frameReceived bits) s = .next s)) ∧
  (∀ (s : State) (bits : List Bool), s.mode = .powerUp → exec (.frameReceived bits) s = .next s)

/-- The turns of a transmission: with the transmitter enabled and nothing in transmission the head of the queue is begun, a
HANDOFF stamped with its overshoot, and the transmitter drives its frame with the own address as origin; a completion frees its
place and sets the sender fault count to 0; a lost arbitration leaves the telegram waiting in its place (R9, R198 to R201, R211;
log entry 39, DEDUCED). That a place freed by the merge of two waiting pulses is then offered to no PENDING notice is the model's
choice (log entry 45, DESIGN CHOICE). After a RESTART the telegram leaves the emptied queue (R195; log entry 24, DEDUCED). -/
def Obligations.TransmissionTurns : Prop :=
  (∀ s : State, s.operating = true → s.quiet →
    (∀ e rest, s.bus.off = false → s.bus.duplicate = false → s.bus.tx = e :: rest →
      (∀ x ∈ s.bus.tx, x.inTransmission = false) →
      ∃ t, exec .transmissionBegin s = .next t ∧
        let body := if e.kind = .handoff then
          e.body.take 20 ++ bytesOf 2 (min 65535 (s.exitCount - e.exitPoint).toNat) else e.body
        FiguresOnly (s.withBus { s.bus with
          tx := { e with inTransmission := true, origin := s.cfg.address, body := body } :: rest }) t ∧
        t.outputs.transmitter = true ∧
        t.outputs.frame = some (false ::
          frameBits { kind := e.kind, origin := s.cfg.address, dest := e.dest, body := body })) ∧
    (s.bus.off = true ∨ s.bus.duplicate = true ∨ s.bus.tx = [] ∨ (∃ x ∈ s.bus.tx, x.inTransmission = true) →
      ∃ t, exec .transmissionBegin s = .next t ∧ FiguresOnly s t) ∧
    (∃ t, exec .arbitrationLost s = .next t ∧
      FiguresOnly (s.withBus { s.bus with
        tx := mergePulses (s.bus.tx.map (fun x => { x with inTransmission := false })) }) t)) ∧
  (∀ (s : State) (e : TxEntry), s.operating = true → s.bus.tx.find? TxEntry.inTransmission = some e →
    ∃ t, exec .transmissionComplete s = .next t ∧ t.bus.faultCount = 0 ∧
      (s.quiet → (∀ x ∈ t.bus.tx, x.inTransmission = false) ∧
        (e.kind ≠ .conditionNotice → (∀ g, (s.cond.record g).notice ≠ .pending) →
          FiguresOnly (s.withBus { s.bus with
            tx := s.bus.tx.filter (fun x => !x.inTransmission), faultCount := 0 }) t))) ∧
  (∀ s : State, s.operating = true → s.quiet → s.bus.tx.find? TxEntry.inTransmission = none →
    ∃ t, exec .transmissionComplete s = .next t ∧ FiguresOnly s t) ∧
  (∀ s : State, s.operating = false →
    let sent := s.withBus { s.bus with tx := s.bus.tx.filter (fun x => !x.inTransmission) }
    exec .transmissionComplete s = .next sent ∧ exec .arbitrationLost s = .next sent ∧ exec .senderFault s = .next sent)

/-- At the completion of a group's CONDITION NOTICE the summary is cleared and the notice is NONE, or with a later rising a new
notice, built then, is queued at once and the summary stays (R177, R178). -/
def Obligations.NoticeCompleted : Prop :=
  ∀ (s : State) (e : TxEntry) (g : Group), s.operating = true → s.quiet → s.is .setter = false →
    s.bus.tx.find? TxEntry.inTransmission = some e → e.kind = .conditionNotice → fieldAt e.body 0 1 = g.code →
    s.bus.tx.length ≤ 8 → (∀ h, h ≠ g → (s.cond.record h).notice ≠ .pending) →
    ∃ t, exec .transmissionComplete s = .next t ∧
      ((s.cond.record g).later = false →
        t.cond.record g = { summary := false, notice := .none, later := false }) ∧
      ((s.cond.record g).later = true →
        t.cond.record g = { summary := (s.cond.record g).summary, notice := .queued, later := false } ∧
        ∃ x ∈ t.bus.tx, x.kind = .conditionNotice ∧ x.inTransmission = false ∧ x.body = noticeBody g s) ∧
      (∀ h, h ≠ g → t.cond.record h = s.cond.record h) ∧ t.cond.flags = s.cond.flags

/-- A sender fault leaves the telegram waiting, latches BUS_FAULT and is counted; at 16 the bus goes BUS_OFF, with the condition,
the hold cause and the recovery timer of 500 ms; its expiry takes all of them back and sets the count to 0 (R35, R202, R203;
log entry 3). -/
def Obligations.SenderFaultsAndRecovery : Prop :=
  (∀ s : State, s.operating = true → s.steady → s.bus.sending = true →
    ∃ t, exec .senderFault s = .next t ∧ t.bus.faultCount = min 16 (s.bus.faultCount + 1) ∧
      Cond.busFault ∈ t.cond.flags ∧ (∀ x ∈ t.bus.tx, x.inTransmission = false) ∧
      (s.bus.off = false → s.bus.faultCount < 15 → t.bus.off = false ∧ t.gov.holds = s.gov.holds) ∧
      (s.bus.off = false → 15 ≤ s.bus.faultCount → t.bus.off = true ∧ t.bus.recovery = some 500 ∧
        Cond.busOff ∈ t.cond.flags ∧ HoldCause.busOff ∈ t.gov.holds ∧ t.gov.vT = 0)) ∧
  (∀ s : State, s.operating = true → s.steady → s.bus.sending = false →
    ∃ t, exec .senderFault s = .next t ∧ FiguresOnly s t) ∧
  (∀ s : State, s.operating = true → s.steady →
    (16 ≤ s.bus.faultCount → s.bus.off = false →
      ∃ t, exec .busOff s = .next t ∧ t.bus.off = true ∧ t.bus.recovery = some 500 ∧ Cond.busOff ∈ t.cond.flags ∧
        HoldCause.busOff ∈ t.gov.holds ∧ t.gov.vT = 0 ∧ t.bus.faultCount = s.bus.faultCount) ∧
    (s.bus.faultCount < 16 ∨ s.bus.off = true → ∃ t, exec .busOff s = .next t ∧ FiguresOnly s t)) ∧
  (∀ s : State, s.operating = true → s.quiet →
    (s.bus.recovery.isSome = true → ∃ t, exec .recoveryTimerExpiry s = .next t ∧ t.bus.off = false ∧
      t.bus.faultCount = 0 ∧ t.bus.recovery = none ∧ Cond.busOff ∉ t.cond.flags ∧ HoldCause.busOff ∉ t.gov.holds ∧
      t.web = s.web) ∧
    (s.bus.recovery = none → ∃ t, exec .recoveryTimerExpiry s = .next t ∧ FiguresOnly s t))

/-! ## Conditions and modes -/

/-- A CONDITION ACK clears a latched flag and releases what REG_LOST and MAP_FULL hold; DUP_ADDRESS stays set with its latch; a
level condition and an unknown code change nothing; ZONE_CUT acts on the zones it names, ending the cut in LATCH mode, and
staying set over a cut that stands (R179). -/
def Obligations.ConditionAcknowledged : Prop :=
  ∀ (s : State) (e : RxEntry) (rest : List RxEntry), s.operating = true → s.bus.rx = e :: rest →
    e.kind = .conditionAck →
    let code := fieldAt e.body 0 1
    (∀ c, s.quiet → latchedOfCode code = some c → (c = .dupAddress → s.bus.duplicate = false) →
      ∃ t, exec .conditionAck s = .next t ∧ c ∉ t.cond.flags ∧
        FiguresOnly (((((s.freed rest).withCond { s.cond with flags := removeAll c s.cond.flags }).withGov
          { s.gov with holds := if c = .regLost then removeAll .regLost s.gov.holds
                                else if c = .mapFull then removeAll .mapFull s.gov.holds else s.gov.holds })).withWeb
          { s.web with missCount := if c = .regLost then 0 else s.web.missCount }) t) ∧
    (s.quiet → code = 6 → s.bus.duplicate = true →
      ∃ t, exec .conditionAck s = .next t ∧ t.bus.rx = rest ∧
        (Cond.dupAddress ∈ t.cond.flags ↔ Cond.dupAddress ∈ s.cond.flags)) ∧
    (s.quiet → latchedOfCode code = none → code ≠ 16 ∨ s.is .setter = false →
      ∃ t, exec .conditionAck s = .next t ∧ FiguresOnly (s.freed rest) t) ∧
    (s.steady → code = 16 → s.is .setter = true →
      ∃ t, exec .conditionAck s = .next t ∧ t.bus.rx = rest ∧ ∀ z, z < s.cfg.setter.zones →
        ((fieldAt e.body 1 1 = 255 ∨ fieldAt e.body 1 1 = z) →
          (s.cfg.setter.latchMode = true → (t.zone z).cut = false ∧ Cond.zoneCut z ∉ t.cond.flags) ∧
          (s.cfg.setter.latchMode = false → (t.zone z).cut = (s.zone z).cut ∧
            (Cond.zoneCut z ∈ t.cond.flags ↔ Cond.zoneCut z ∈ s.cond.flags ∧ (s.zone z).cut = true))) ∧
        (fieldAt e.body 1 1 ≠ 255 → fieldAt e.body 1 1 ≠ z →
          (t.zone z).cut = (s.zone z).cut ∧ (Cond.zoneCut z ∈ t.cond.flags ↔ Cond.zoneCut z ∈ s.cond.flags)))

/-- STANDBY is taken in ACTIVE at standstill and left at once when a condition rises with it; WAKE is taken in STANDBY and enters
ACTIVE with drive enable set; each is ignored elsewhere (R40, R131, R181, R192, R193; log entry 29 for the wake at
the end of the step). -/
def Obligations.StandbyAndWake : Prop :=
  ∀ (s : State) (e : RxEntry) (rest : List RxEntry), s.operating = true → s.bus.rx = e :: rest →
    (e.kind = .standby →
      (s.mode = .active → s.gov.vA = 0 → s.cond.wakeDue = false →
        ∃ t, exec .standby s = .next t ∧ t.bus.rx = rest ∧ t.gov.vA = 0 ∧
          (s.gov.driveEnable = true → t.gov.driveEnable = true) ∧
          t.mode = (if (refresh (settle (enterStandby (s.freed rest)))).cond.wakeDue then .active else .standby) ∧
          (t.mode = .standby → t.gov.vT = 0 ∧ t.gov.pulseTimer = some 250 ∧
            (s.is .setter = true → t.heat.chamber = .cold ∧ ∀ z ∈ t.heat.zones, z.sp = s.cfg.setter.keepSp))) ∧
      (s.mode ≠ .active ∨ 0 < s.gov.vA →
        ∃ t, exec .standby s = .next t ∧ t.bus.rx = rest ∧ (s.steady → FiguresOnly (settle (s.freed rest)) t))) ∧
    (e.kind = .wake →
      (s.mode = .standby → ∃ t, exec .wake s = .next t ∧ t.bus.rx = rest ∧ t.mode = .active ∧
        t.gov.driveEnable = true ∧ t.gov.pulseTimer = some 25 ∧
        (s.is .setter = true → s.heat.chamber = .cold → t.heat.chamber = .warming)) ∧
      (s.mode ≠ .standby → ∃ t, exec .wake s = .next t ∧ t.bus.rx = rest ∧
        (s.steady → FiguresOnly (settle (s.freed rest)) t)))

/-- A RESTART in the operating modes is taken at standstill: the cause and the kept role are recorded, the read of the record
begins anew, and nothing is left in flight but a telegram in transmission and a paste; the pattern table, the recipes and the
arms are kept, and the position counters with them (R1). With the line moving it is ignored (R123, R189, R194, R195). Outside
the operating modes the command does nothing: a RESTART is taken there at the end of its frame (log entry 14), and what becomes
of the telegram left in transmission is log entry 24. That the units stand at these values from the RESTART on, and not from the
leaving of CONFIGURING, is the model's choice (log entry 33, DESIGN CHOICE): P0, the fill base and the flat ceiling 0, the splice
middle none, an empty peer entry's interval and age 0, and no map, outfeed history, zone or cell records. -/
def Obligations.RestartBegins : Prop :=
  (∀ (s : State) (e : RxEntry) (rest : List RxEntry), s.operating = true → s.bus.rx = e :: rest → e.kind = .restart →
    (s.gov.vA = 0 →
      ∃ t, exec .restart s = .next t ∧ t.mode = .configuring ∧ t.loader.restartCause = .restart ∧
        t.loader.keptRole = s.role ∧ t.loader.image = s.loader.image ∧ t.loader.reading = true ∧
        t.loader.scanning = false ∧ t.loader.lamp = .lit ∧ t.gov = {} ∧ t.peers = emptyPeers ∧
        t.bus = { tx := s.bus.tx.filter TxEntry.inTransmission } ∧
        t.web = { infeed := s.web.infeed, outfeed := s.web.outfeed } ∧
        t.pattern = { slots := s.pattern.slots } ∧
        t.roll = { arm1 := s.roll.arm1, arm2 := s.roll.arm2, pasteTimer := s.roll.pasteTimer,
                   pasteOutput := s.roll.pasteOutput } ∧
        t.heat = { recipes := s.heat.recipes } ∧ t.outfeed = {} ∧ t.cond = {} ∧ t.pins = s.pins) ∧
    (0 < s.gov.vA → ∃ t, exec .restart s = .next t ∧ t.loader.restartCause = s.loader.restartCause ∧
      (s.quiet → FiguresOnly (s.freed rest) t))) ∧
  (∀ s : State, s.operating = false → exec .restart s = .next s)

/-- Power-on reset gives POWER_UP with every unit at its value after power-on reset, its release begins the record read; the read's
completion gives CONFIG_FAULT with the class of the first test failed, class 1 for a memory that does not answer, or the image
and the scan; the fault lamp runs through n flashes and a pause (R183, R184, R188; log entry 10). Of the values at power-on reset,
those that the manual gives no register are the model's choice (log entry 33, DESIGN CHOICE): the absent image, P0, the fill base
and the flat ceiling 0, the join and heat control timers stopped, the splice middle none, an empty peer entry's interval and age
0, and the empty outfeed history, map, zone and cell records. That the entry to CONFIG_FAULT empties the transmit queue, also of a
telegram still in transmission after a RESTART, which R195 lets complete, is log entry 24 (DEDUCED). -/
def Obligations.StartOfTheStation : Prop :=
  (∀ s : State, ∃ t, exec .powerOnReset s = .next t ∧ t.mode = .powerUp ∧ t.loader = State.reset.loader ∧
    t.bus = {} ∧ t.peers = emptyPeers ∧ t.gov = {} ∧ t.web = {} ∧ t.order = {} ∧ t.pattern = {} ∧ t.roll = {} ∧
    t.heat = {} ∧ t.outfeed = {} ∧ t.cond = {} ∧ t.loader.restartCause = .powerOn ∧ t.loader.lamp = .lit ∧
    t.loader.image = none ∧ t.pins = s.pins) ∧
  (∀ s : State, (s.mode = .powerUp → ∃ t, exec .powerOnResetRelease s = .next t ∧ t.mode = .configuring ∧
      t.loader.reading = true ∧ t.loader.lamp = .lit ∧ t.loader.restartCause = s.loader.restartCause ∧
      t.gov = s.gov ∧ t.web = s.web) ∧
    (s.mode ≠ .powerUp → exec .powerOnResetRelease s = .next s)) ∧
  (∀ (s : State) (answer : Option (List Byte)), s.mode = .configuring → s.loader.reading = true →
    (answer = none → ∃ t, exec (.configurationReadComplete answer) s = .next t ∧ t.mode = .configFault ∧
      t.loader.faultClass = some 1) ∧
    (∀ b, answer = some b → b.length = 128 →
      (∀ cls, checkRecord b = .fails cls → ∃ t, exec (.configurationReadComplete answer) s = .next t ∧
        t.mode = .configFault ∧ t.loader.faultClass = some cls ∧ t.loader.lamp = .flashing 0 ∧
        t.loader.image = s.loader.image ∧ t.loader.reading = false ∧ t.bus.tx = [] ∧ t.outputs.transmitter = false) ∧
      (∀ i, checkRecord b = .passes i → ∃ t, exec (.configurationReadComplete answer) s = .next t ∧
        t.mode = .configuring ∧ t.loader.image = some i ∧ t.loader.scanning = true ∧ t.loader.reading = false ∧
        t.heat.channels = List.replicate 8 {} ∧ t.gov = s.gov))) ∧
  (∀ (s : State) (n cls : Nat), s.mode = .configFault → s.loader.lamp = .flashing n → s.loader.faultClass = some cls →
    n ≤ 2 * cls →
    ∃ t, exec .faultLampFlash s = .next t ∧ t.mode = .configFault ∧
      t.loader.lamp = .flashing (if n = 2 * cls then 0 else n + 1) ∧
      (s.lampLit = true ↔ n < 2 * cls ∧ n % 2 = 0)) ∧
  (∀ s : State, s.mode ≠ .configFault → exec .faultLampFlash s = .next s)

/-- The first scan after the record check ends CONFIGURING with every unit at its start values: JOINING, or TRIPPED with
ESTOP_INPUT over it when the ESTOP input is active, never ACTIVE; no scan is taken in the modes before (R41, R48, R184, R190).
The start values hold for every image that brings no birth and no boundary due at position 0: the map with the start span, P0
and the fill base of the sensor's fill (R3, R7, R23, R106), the order, pattern, roll and outfeed units (R77, R94, R123, R171),
the zones and the cell line of N cells (R156), and the tables kept when the kept role is the record's (R189). That a paste in
flight runs on also under another role is the model's choice (log entry 47, DESIGN CHOICE), and so is the count of punches that
goes on (log entry 32); that the kept role is compared here is log entry 36 (DEDUCED). -/
def Obligations.FirstScanStartsTheLine : Prop :=
  (∀ (samples : List (BitVec 12)) (s : State), samples.length = 8 → s.mode = .configuring → s.loader.scanning = true →
    ∃ t, exec (.sensorScanComplete samples) s = .next t ∧ t.loader.scanning = false ∧
      t.loader.image = s.loader.image ∧ t.loader.restartCause = s.loader.restartCause ∧ t.peers = emptyPeers ∧
      t.gov.vOp = 0 ∧ t.gov.vT = 0 ∧ t.gov.vA = 0 ∧ t.gov.driveEnable = false ∧ t.web.infeed = 0 ∧ t.web.outfeed = 0 ∧
      t.web.expected = none ∧ t.web.cancelList = [] ∧ t.bus.rx = [] ∧ t.bus.faultCount = 0 ∧ t.bus.off = false ∧
      t.cond.checkErrors = 0 ∧
      (s.pins.estop = false → t.mode = .joining ∧ t.gov.trips = [] ∧ t.loader.joinTimer = some 1000 ∧
        t.loader.lamp = .dark) ∧
      (s.pins.estop = true → t.mode = .tripped ∧ t.gov.trips = [.estopInput] ∧ t.gov.beforeTrip = some .joining)) ∧
  (∀ (samples : List (BitVec 12)) (raw : BitVec 12) (s : State) (i : Image), samples.length = 8 → samples[0]? = some raw →
    s.mode = .configuring → s.loader.scanning = true → s.loader.image = some i → i.legal = true →
    s.heat.channels = List.replicate 8 {} →
    (s.is .unwind = true → 0 < i.unwind.punch) → (s.is .outfeed = true → 0 < i.approach + i.outfeed.cut) →
    let value : Int := (i.scaling.getD 0 {}).offset + (raw.toNat * (i.scaling.getD 0 {}).span / 4095 : Nat)
    let fill : Nat := if 16 < raw.toNat ∧ raw.toNat < 4080 then (max 0 (min (i.unwind.fMax : Int) value)).toNat else 0
    let kept := s.loader.keptRole = s.role
    let cold (a : Arm) : Arm :=
      { a with roll := a.roll.map (fun r => { r with verified := false }), lastSample := none, mark := none }
    let span : Segment := if s.is .unwind then
        { kind := .untracked, length := i.exit + fill, arrival := 0 - dmm (i.exit + fill), handed := true, leadCut := true }
      else
        { kind := .untracked, length := i.exit + i.approach, arrival := 0 - dmm i.exit, handed := true, leadCut := true }
    ∃ t, exec (.sensorScanComplete samples) s = .next t ∧
      t.web = { p0 := if s.is .unwind then dmm (i.exit + fill) else 0, map := [span], firstSend := true, nextUid := 1 } ∧
      (s.is .unwind = true → t.roll.fillBase = fill ∧ t.fill = fill) ∧
      t.order = { newSequence := true, punches := s.order.punches } ∧
      t.pattern = { slots := if kept then s.pattern.slots.map (fun x => match x.pending with
        | some c => { active := some c, pending := none, version := x.version + 1 }
        | none => x) else List.replicate 32 {} } ∧
      t.roll.arm1 = (if kept then cold s.roll.arm1 else {}) ∧ t.roll.arm2 = (if kept then cold s.roll.arm2 else {}) ∧
      t.roll.spliceState = .run ∧ t.roll.spliceArm = none ∧ t.roll.webTimer = none ∧ t.roll.vU = 0 ∧
      t.roll.vOut = 0 ∧ t.roll.exitCommand = 0 ∧ t.roll.statusArm = 0 ∧ t.roll.statusResult = .none ∧
      t.roll.pasteTimer = s.roll.pasteTimer ∧ t.roll.pasteOutput = s.roll.pasteOutput ∧
      t.heat = { channels := t.heat.channels
                 recipes := if kept then s.heat.recipes else List.replicate 16 none
                 zones := if s.is .setter then
                     List.replicate i.setter.zones { sp := i.setter.keepSp, spEff := i.setter.keepSp }
                   else []
                 cells := if s.is .setter then List.replicate i.setter.cells {} else []
                 heatTimer := if s.is .setter then some 200 else none } ∧
      t.outfeed = {}) ∧
  (∀ (samples : List (BitVec 12)) (s : State), samples.length = 8 → s.operating = false →
    (s.mode ≠ .configuring ∨ s.loader.scanning = false) → exec (.sensorScanComplete samples) s = .next s)

/-- While drive enable is clear every speed output stands at 0 and the strokes, the actuator, the cut knife, the gate and the steam
valves are held off; the paste output is outside it (R39). -/
def Obligations.DriveEnableGatesOutputs : Prop :=
  ∀ s : State, s.gov.driveEnable = false →
    let o := s.outputs
    o.infeed = 0 ∧ o.unwind = 0 ∧ o.exit = 0 ∧ o.conveyance = 0 ∧ o.strokeLeft = false ∧ o.strokeRight = false ∧
    o.depth = none ∧ o.cut = false ∧ o.gate = none ∧ (∀ v ∈ o.valves, v = 0) ∧ o.paste = s.roll.pasteOutput
end

