-- ==== Sys2Proof/Laws/State.lean ====
section
/-! SUPPORT. One lemma for every field after every update of the state, so that no proof unfolds a record update. -/

namespace Sys2Proof.Machine

open Sys2Proof

/-! ### withLoader -/

@[simp] theorem State.withLoader_loader (s : State) (x : Loader) : (s.withLoader x).loader = x := rfl
@[simp] theorem State.withLoader_bus (s : State) (x : Loader) : (s.withLoader x).bus = s.bus := rfl
@[simp] theorem State.withLoader_peers (s : State) (x : Loader) : (s.withLoader x).peers = s.peers := rfl
@[simp] theorem State.withLoader_gov (s : State) (x : Loader) : (s.withLoader x).gov = s.gov := rfl
@[simp] theorem State.withLoader_web (s : State) (x : Loader) : (s.withLoader x).web = s.web := rfl
@[simp] theorem State.withLoader_order (s : State) (x : Loader) : (s.withLoader x).order = s.order := rfl
@[simp] theorem State.withLoader_pattern (s : State) (x : Loader) : (s.withLoader x).pattern = s.pattern := rfl
@[simp] theorem State.withLoader_roll (s : State) (x : Loader) : (s.withLoader x).roll = s.roll := rfl
@[simp] theorem State.withLoader_heat (s : State) (x : Loader) : (s.withLoader x).heat = s.heat := rfl
@[simp] theorem State.withLoader_outfeed (s : State) (x : Loader) : (s.withLoader x).outfeed = s.outfeed := rfl
@[simp] theorem State.withLoader_cond (s : State) (x : Loader) : (s.withLoader x).cond = s.cond := rfl
@[simp] theorem State.withLoader_pins (s : State) (x : Loader) : (s.withLoader x).pins = s.pins := rfl
@[simp] theorem State.withLoader_pending (s : State) (x : Loader) : (s.withLoader x).pending = s.pending := rfl
@[simp] theorem State.withLoader_self (s : State) : s.withLoader s.loader = s := rfl
@[simp] theorem State.withLoader_twice (s : State) (x y : Loader) : (s.withLoader x).withLoader y = s.withLoader y := rfl

/-! ### withBus -/

@[simp] theorem State.withBus_loader (s : State) (x : Bus) : (s.withBus x).loader = s.loader := rfl
@[simp] theorem State.withBus_bus (s : State) (x : Bus) : (s.withBus x).bus = x := rfl
@[simp] theorem State.withBus_peers (s : State) (x : Bus) : (s.withBus x).peers = s.peers := rfl
@[simp] theorem State.withBus_gov (s : State) (x : Bus) : (s.withBus x).gov = s.gov := rfl
@[simp] theorem State.withBus_web (s : State) (x : Bus) : (s.withBus x).web = s.web := rfl
@[simp] theorem State.withBus_order (s : State) (x : Bus) : (s.withBus x).order = s.order := rfl
@[simp] theorem State.withBus_pattern (s : State) (x : Bus) : (s.withBus x).pattern = s.pattern := rfl
@[simp] theorem State.withBus_roll (s : State) (x : Bus) : (s.withBus x).roll = s.roll := rfl
@[simp] theorem State.withBus_heat (s : State) (x : Bus) : (s.withBus x).heat = s.heat := rfl
@[simp] theorem State.withBus_outfeed (s : State) (x : Bus) : (s.withBus x).outfeed = s.outfeed := rfl
@[simp] theorem State.withBus_cond (s : State) (x : Bus) : (s.withBus x).cond = s.cond := rfl
@[simp] theorem State.withBus_pins (s : State) (x : Bus) : (s.withBus x).pins = s.pins := rfl
@[simp] theorem State.withBus_pending (s : State) (x : Bus) : (s.withBus x).pending = s.pending := rfl
@[simp] theorem State.withBus_self (s : State) : s.withBus s.bus = s := rfl
@[simp] theorem State.withBus_twice (s : State) (x y : Bus) : (s.withBus x).withBus y = s.withBus y := rfl

/-! ### withPeers -/

@[simp] theorem State.withPeers_loader (s : State) (x : List PeerEntry) : (s.withPeers x).loader = s.loader := rfl
@[simp] theorem State.withPeers_bus (s : State) (x : List PeerEntry) : (s.withPeers x).bus = s.bus := rfl
@[simp] theorem State.withPeers_peers (s : State) (x : List PeerEntry) : (s.withPeers x).peers = x := rfl
@[simp] theorem State.withPeers_gov (s : State) (x : List PeerEntry) : (s.withPeers x).gov = s.gov := rfl
@[simp] theorem State.withPeers_web (s : State) (x : List PeerEntry) : (s.withPeers x).web = s.web := rfl
@[simp] theorem State.withPeers_order (s : State) (x : List PeerEntry) : (s.withPeers x).order = s.order := rfl
@[simp] theorem State.withPeers_pattern (s : State) (x : List PeerEntry) : (s.withPeers x).pattern = s.pattern := rfl
@[simp] theorem State.withPeers_roll (s : State) (x : List PeerEntry) : (s.withPeers x).roll = s.roll := rfl
@[simp] theorem State.withPeers_heat (s : State) (x : List PeerEntry) : (s.withPeers x).heat = s.heat := rfl
@[simp] theorem State.withPeers_outfeed (s : State) (x : List PeerEntry) : (s.withPeers x).outfeed = s.outfeed := rfl
@[simp] theorem State.withPeers_cond (s : State) (x : List PeerEntry) : (s.withPeers x).cond = s.cond := rfl
@[simp] theorem State.withPeers_pins (s : State) (x : List PeerEntry) : (s.withPeers x).pins = s.pins := rfl
@[simp] theorem State.withPeers_pending (s : State) (x : List PeerEntry) : (s.withPeers x).pending = s.pending := rfl
@[simp] theorem State.withPeers_self (s : State) : s.withPeers s.peers = s := rfl
@[simp] theorem State.withPeers_twice (s : State) (x y : List PeerEntry) : (s.withPeers x).withPeers y = s.withPeers y := rfl

/-! ### withGov -/

@[simp] theorem State.withGov_loader (s : State) (x : Gov) : (s.withGov x).loader = s.loader := rfl
@[simp] theorem State.withGov_bus (s : State) (x : Gov) : (s.withGov x).bus = s.bus := rfl
@[simp] theorem State.withGov_peers (s : State) (x : Gov) : (s.withGov x).peers = s.peers := rfl
@[simp] theorem State.withGov_gov (s : State) (x : Gov) : (s.withGov x).gov = x := rfl
@[simp] theorem State.withGov_web (s : State) (x : Gov) : (s.withGov x).web = s.web := rfl
@[simp] theorem State.withGov_order (s : State) (x : Gov) : (s.withGov x).order = s.order := rfl
@[simp] theorem State.withGov_pattern (s : State) (x : Gov) : (s.withGov x).pattern = s.pattern := rfl
@[simp] theorem State.withGov_roll (s : State) (x : Gov) : (s.withGov x).roll = s.roll := rfl
@[simp] theorem State.withGov_heat (s : State) (x : Gov) : (s.withGov x).heat = s.heat := rfl
@[simp] theorem State.withGov_outfeed (s : State) (x : Gov) : (s.withGov x).outfeed = s.outfeed := rfl
@[simp] theorem State.withGov_cond (s : State) (x : Gov) : (s.withGov x).cond = s.cond := rfl
@[simp] theorem State.withGov_pins (s : State) (x : Gov) : (s.withGov x).pins = s.pins := rfl
@[simp] theorem State.withGov_pending (s : State) (x : Gov) : (s.withGov x).pending = s.pending := rfl
@[simp] theorem State.withGov_self (s : State) : s.withGov s.gov = s := rfl
@[simp] theorem State.withGov_twice (s : State) (x y : Gov) : (s.withGov x).withGov y = s.withGov y := rfl

/-! ### withWeb -/

@[simp] theorem State.withWeb_loader (s : State) (x : Web) : (s.withWeb x).loader = s.loader := rfl
@[simp] theorem State.withWeb_bus (s : State) (x : Web) : (s.withWeb x).bus = s.bus := rfl
@[simp] theorem State.withWeb_peers (s : State) (x : Web) : (s.withWeb x).peers = s.peers := rfl
@[simp] theorem State.withWeb_gov (s : State) (x : Web) : (s.withWeb x).gov = s.gov := rfl
@[simp] theorem State.withWeb_web (s : State) (x : Web) : (s.withWeb x).web = x := rfl
@[simp] theorem State.withWeb_order (s : State) (x : Web) : (s.withWeb x).order = s.order := rfl
@[simp] theorem State.withWeb_pattern (s : State) (x : Web) : (s.withWeb x).pattern = s.pattern := rfl
@[simp] theorem State.withWeb_roll (s : State) (x : Web) : (s.withWeb x).roll = s.roll := rfl
@[simp] theorem State.withWeb_heat (s : State) (x : Web) : (s.withWeb x).heat = s.heat := rfl
@[simp] theorem State.withWeb_outfeed (s : State) (x : Web) : (s.withWeb x).outfeed = s.outfeed := rfl
@[simp] theorem State.withWeb_cond (s : State) (x : Web) : (s.withWeb x).cond = s.cond := rfl
@[simp] theorem State.withWeb_pins (s : State) (x : Web) : (s.withWeb x).pins = s.pins := rfl
@[simp] theorem State.withWeb_pending (s : State) (x : Web) : (s.withWeb x).pending = s.pending := rfl
@[simp] theorem State.withWeb_self (s : State) : s.withWeb s.web = s := rfl
@[simp] theorem State.withWeb_twice (s : State) (x y : Web) : (s.withWeb x).withWeb y = s.withWeb y := rfl

/-! ### withOrder -/

@[simp] theorem State.withOrder_loader (s : State) (x : OrderUnit) : (s.withOrder x).loader = s.loader := rfl
@[simp] theorem State.withOrder_bus (s : State) (x : OrderUnit) : (s.withOrder x).bus = s.bus := rfl
@[simp] theorem State.withOrder_peers (s : State) (x : OrderUnit) : (s.withOrder x).peers = s.peers := rfl
@[simp] theorem State.withOrder_gov (s : State) (x : OrderUnit) : (s.withOrder x).gov = s.gov := rfl
@[simp] theorem State.withOrder_web (s : State) (x : OrderUnit) : (s.withOrder x).web = s.web := rfl
@[simp] theorem State.withOrder_order (s : State) (x : OrderUnit) : (s.withOrder x).order = x := rfl
@[simp] theorem State.withOrder_pattern (s : State) (x : OrderUnit) : (s.withOrder x).pattern = s.pattern := rfl
@[simp] theorem State.withOrder_roll (s : State) (x : OrderUnit) : (s.withOrder x).roll = s.roll := rfl
@[simp] theorem State.withOrder_heat (s : State) (x : OrderUnit) : (s.withOrder x).heat = s.heat := rfl
@[simp] theorem State.withOrder_outfeed (s : State) (x : OrderUnit) : (s.withOrder x).outfeed = s.outfeed := rfl
@[simp] theorem State.withOrder_cond (s : State) (x : OrderUnit) : (s.withOrder x).cond = s.cond := rfl
@[simp] theorem State.withOrder_pins (s : State) (x : OrderUnit) : (s.withOrder x).pins = s.pins := rfl
@[simp] theorem State.withOrder_pending (s : State) (x : OrderUnit) : (s.withOrder x).pending = s.pending := rfl
@[simp] theorem State.withOrder_self (s : State) : s.withOrder s.order = s := rfl
@[simp] theorem State.withOrder_twice (s : State) (x y : OrderUnit) : (s.withOrder x).withOrder y = s.withOrder y := rfl

/-! ### withPattern -/

@[simp] theorem State.withPattern_loader (s : State) (x : PatternUnit) : (s.withPattern x).loader = s.loader := rfl
@[simp] theorem State.withPattern_bus (s : State) (x : PatternUnit) : (s.withPattern x).bus = s.bus := rfl
@[simp] theorem State.withPattern_peers (s : State) (x : PatternUnit) : (s.withPattern x).peers = s.peers := rfl
@[simp] theorem State.withPattern_gov (s : State) (x : PatternUnit) : (s.withPattern x).gov = s.gov := rfl
@[simp] theorem State.withPattern_web (s : State) (x : PatternUnit) : (s.withPattern x).web = s.web := rfl
@[simp] theorem State.withPattern_order (s : State) (x : PatternUnit) : (s.withPattern x).order = s.order := rfl
@[simp] theorem State.withPattern_pattern (s : State) (x : PatternUnit) : (s.withPattern x).pattern = x := rfl
@[simp] theorem State.withPattern_roll (s : State) (x : PatternUnit) : (s.withPattern x).roll = s.roll := rfl
@[simp] theorem State.withPattern_heat (s : State) (x : PatternUnit) : (s.withPattern x).heat = s.heat := rfl
@[simp] theorem State.withPattern_outfeed (s : State) (x : PatternUnit) : (s.withPattern x).outfeed = s.outfeed := rfl
@[simp] theorem State.withPattern_cond (s : State) (x : PatternUnit) : (s.withPattern x).cond = s.cond := rfl
@[simp] theorem State.withPattern_pins (s : State) (x : PatternUnit) : (s.withPattern x).pins = s.pins := rfl
@[simp] theorem State.withPattern_pending (s : State) (x : PatternUnit) : (s.withPattern x).pending = s.pending := rfl
@[simp] theorem State.withPattern_self (s : State) : s.withPattern s.pattern = s := rfl
@[simp] theorem State.withPattern_twice (s : State) (x y : PatternUnit) : (s.withPattern x).withPattern y = s.withPattern y := rfl

/-! ### withRoll -/

@[simp] theorem State.withRoll_loader (s : State) (x : RollUnit) : (s.withRoll x).loader = s.loader := rfl
@[simp] theorem State.withRoll_bus (s : State) (x : RollUnit) : (s.withRoll x).bus = s.bus := rfl
@[simp] theorem State.withRoll_peers (s : State) (x : RollUnit) : (s.withRoll x).peers = s.peers := rfl
@[simp] theorem State.withRoll_gov (s : State) (x : RollUnit) : (s.withRoll x).gov = s.gov := rfl
@[simp] theorem State.withRoll_web (s : State) (x : RollUnit) : (s.withRoll x).web = s.web := rfl
@[simp] theorem State.withRoll_order (s : State) (x : RollUnit) : (s.withRoll x).order = s.order := rfl
@[simp] theorem State.withRoll_pattern (s : State) (x : RollUnit) : (s.withRoll x).pattern = s.pattern := rfl
@[simp] theorem State.withRoll_roll (s : State) (x : RollUnit) : (s.withRoll x).roll = x := rfl
@[simp] theorem State.withRoll_heat (s : State) (x : RollUnit) : (s.withRoll x).heat = s.heat := rfl
@[simp] theorem State.withRoll_outfeed (s : State) (x : RollUnit) : (s.withRoll x).outfeed = s.outfeed := rfl
@[simp] theorem State.withRoll_cond (s : State) (x : RollUnit) : (s.withRoll x).cond = s.cond := rfl
@[simp] theorem State.withRoll_pins (s : State) (x : RollUnit) : (s.withRoll x).pins = s.pins := rfl
@[simp] theorem State.withRoll_pending (s : State) (x : RollUnit) : (s.withRoll x).pending = s.pending := rfl
@[simp] theorem State.withRoll_self (s : State) : s.withRoll s.roll = s := rfl
@[simp] theorem State.withRoll_twice (s : State) (x y : RollUnit) : (s.withRoll x).withRoll y = s.withRoll y := rfl

/-! ### withHeat -/

@[simp] theorem State.withHeat_loader (s : State) (x : HeatUnit) : (s.withHeat x).loader = s.loader := rfl
@[simp] theorem State.withHeat_bus (s : State) (x : HeatUnit) : (s.withHeat x).bus = s.bus := rfl
@[simp] theorem State.withHeat_peers (s : State) (x : HeatUnit) : (s.withHeat x).peers = s.peers := rfl
@[simp] theorem State.withHeat_gov (s : State) (x : HeatUnit) : (s.withHeat x).gov = s.gov := rfl
@[simp] theorem State.withHeat_web (s : State) (x : HeatUnit) : (s.withHeat x).web = s.web := rfl
@[simp] theorem State.withHeat_order (s : State) (x : HeatUnit) : (s.withHeat x).order = s.order := rfl
@[simp] theorem State.withHeat_pattern (s : State) (x : HeatUnit) : (s.withHeat x).pattern = s.pattern := rfl
@[simp] theorem State.withHeat_roll (s : State) (x : HeatUnit) : (s.withHeat x).roll = s.roll := rfl
@[simp] theorem State.withHeat_heat (s : State) (x : HeatUnit) : (s.withHeat x).heat = x := rfl
@[simp] theorem State.withHeat_outfeed (s : State) (x : HeatUnit) : (s.withHeat x).outfeed = s.outfeed := rfl
@[simp] theorem State.withHeat_cond (s : State) (x : HeatUnit) : (s.withHeat x).cond = s.cond := rfl
@[simp] theorem State.withHeat_pins (s : State) (x : HeatUnit) : (s.withHeat x).pins = s.pins := rfl
@[simp] theorem State.withHeat_pending (s : State) (x : HeatUnit) : (s.withHeat x).pending = s.pending := rfl
@[simp] theorem State.withHeat_self (s : State) : s.withHeat s.heat = s := rfl
@[simp] theorem State.withHeat_twice (s : State) (x y : HeatUnit) : (s.withHeat x).withHeat y = s.withHeat y := rfl

/-! ### withOutfeed -/

@[simp] theorem State.withOutfeed_loader (s : State) (x : OutfeedUnit) : (s.withOutfeed x).loader = s.loader := rfl
@[simp] theorem State.withOutfeed_bus (s : State) (x : OutfeedUnit) : (s.withOutfeed x).bus = s.bus := rfl
@[simp] theorem State.withOutfeed_peers (s : State) (x : OutfeedUnit) : (s.withOutfeed x).peers = s.peers := rfl
@[simp] theorem State.withOutfeed_gov (s : State) (x : OutfeedUnit) : (s.withOutfeed x).gov = s.gov := rfl
@[simp] theorem State.withOutfeed_web (s : State) (x : OutfeedUnit) : (s.withOutfeed x).web = s.web := rfl
@[simp] theorem State.withOutfeed_order (s : State) (x : OutfeedUnit) : (s.withOutfeed x).order = s.order := rfl
@[simp] theorem State.withOutfeed_pattern (s : State) (x : OutfeedUnit) : (s.withOutfeed x).pattern = s.pattern := rfl
@[simp] theorem State.withOutfeed_roll (s : State) (x : OutfeedUnit) : (s.withOutfeed x).roll = s.roll := rfl
@[simp] theorem State.withOutfeed_heat (s : State) (x : OutfeedUnit) : (s.withOutfeed x).heat = s.heat := rfl
@[simp] theorem State.withOutfeed_outfeed (s : State) (x : OutfeedUnit) : (s.withOutfeed x).outfeed = x := rfl
@[simp] theorem State.withOutfeed_cond (s : State) (x : OutfeedUnit) : (s.withOutfeed x).cond = s.cond := rfl
@[simp] theorem State.withOutfeed_pins (s : State) (x : OutfeedUnit) : (s.withOutfeed x).pins = s.pins := rfl
@[simp] theorem State.withOutfeed_pending (s : State) (x : OutfeedUnit) : (s.withOutfeed x).pending = s.pending := rfl
@[simp] theorem State.withOutfeed_self (s : State) : s.withOutfeed s.outfeed = s := rfl
@[simp] theorem State.withOutfeed_twice (s : State) (x y : OutfeedUnit) : (s.withOutfeed x).withOutfeed y = s.withOutfeed y := rfl

/-! ### withCond -/

@[simp] theorem State.withCond_loader (s : State) (x : CondUnit) : (s.withCond x).loader = s.loader := rfl
@[simp] theorem State.withCond_bus (s : State) (x : CondUnit) : (s.withCond x).bus = s.bus := rfl
@[simp] theorem State.withCond_peers (s : State) (x : CondUnit) : (s.withCond x).peers = s.peers := rfl
@[simp] theorem State.withCond_gov (s : State) (x : CondUnit) : (s.withCond x).gov = s.gov := rfl
@[simp] theorem State.withCond_web (s : State) (x : CondUnit) : (s.withCond x).web = s.web := rfl
@[simp] theorem State.withCond_order (s : State) (x : CondUnit) : (s.withCond x).order = s.order := rfl
@[simp] theorem State.withCond_pattern (s : State) (x : CondUnit) : (s.withCond x).pattern = s.pattern := rfl
@[simp] theorem State.withCond_roll (s : State) (x : CondUnit) : (s.withCond x).roll = s.roll := rfl
@[simp] theorem State.withCond_heat (s : State) (x : CondUnit) : (s.withCond x).heat = s.heat := rfl
@[simp] theorem State.withCond_outfeed (s : State) (x : CondUnit) : (s.withCond x).outfeed = s.outfeed := rfl
@[simp] theorem State.withCond_cond (s : State) (x : CondUnit) : (s.withCond x).cond = x := rfl
@[simp] theorem State.withCond_pins (s : State) (x : CondUnit) : (s.withCond x).pins = s.pins := rfl
@[simp] theorem State.withCond_pending (s : State) (x : CondUnit) : (s.withCond x).pending = s.pending := rfl
@[simp] theorem State.withCond_self (s : State) : s.withCond s.cond = s := rfl
@[simp] theorem State.withCond_twice (s : State) (x y : CondUnit) : (s.withCond x).withCond y = s.withCond y := rfl

/-! ### withPins -/

@[simp] theorem State.withPins_loader (s : State) (x : Pins) : (s.withPins x).loader = s.loader := rfl
@[simp] theorem State.withPins_bus (s : State) (x : Pins) : (s.withPins x).bus = s.bus := rfl
@[simp] theorem State.withPins_peers (s : State) (x : Pins) : (s.withPins x).peers = s.peers := rfl
@[simp] theorem State.withPins_gov (s : State) (x : Pins) : (s.withPins x).gov = s.gov := rfl
@[simp] theorem State.withPins_web (s : State) (x : Pins) : (s.withPins x).web = s.web := rfl
@[simp] theorem State.withPins_order (s : State) (x : Pins) : (s.withPins x).order = s.order := rfl
@[simp] theorem State.withPins_pattern (s : State) (x : Pins) : (s.withPins x).pattern = s.pattern := rfl
@[simp] theorem State.withPins_roll (s : State) (x : Pins) : (s.withPins x).roll = s.roll := rfl
@[simp] theorem State.withPins_heat (s : State) (x : Pins) : (s.withPins x).heat = s.heat := rfl
@[simp] theorem State.withPins_outfeed (s : State) (x : Pins) : (s.withPins x).outfeed = s.outfeed := rfl
@[simp] theorem State.withPins_cond (s : State) (x : Pins) : (s.withPins x).cond = s.cond := rfl
@[simp] theorem State.withPins_pins (s : State) (x : Pins) : (s.withPins x).pins = x := rfl
@[simp] theorem State.withPins_pending (s : State) (x : Pins) : (s.withPins x).pending = s.pending := rfl
@[simp] theorem State.withPins_self (s : State) : s.withPins s.pins = s := rfl
@[simp] theorem State.withPins_twice (s : State) (x y : Pins) : (s.withPins x).withPins y = s.withPins y := rfl

/-! ### withPending -/

@[simp] theorem State.withPending_loader (s : State) (x : List Instr) : (s.withPending x).loader = s.loader := rfl
@[simp] theorem State.withPending_bus (s : State) (x : List Instr) : (s.withPending x).bus = s.bus := rfl
@[simp] theorem State.withPending_peers (s : State) (x : List Instr) : (s.withPending x).peers = s.peers := rfl
@[simp] theorem State.withPending_gov (s : State) (x : List Instr) : (s.withPending x).gov = s.gov := rfl
@[simp] theorem State.withPending_web (s : State) (x : List Instr) : (s.withPending x).web = s.web := rfl
@[simp] theorem State.withPending_order (s : State) (x : List Instr) : (s.withPending x).order = s.order := rfl
@[simp] theorem State.withPending_pattern (s : State) (x : List Instr) : (s.withPending x).pattern = s.pattern := rfl
@[simp] theorem State.withPending_roll (s : State) (x : List Instr) : (s.withPending x).roll = s.roll := rfl
@[simp] theorem State.withPending_heat (s : State) (x : List Instr) : (s.withPending x).heat = s.heat := rfl
@[simp] theorem State.withPending_outfeed (s : State) (x : List Instr) : (s.withPending x).outfeed = s.outfeed := rfl
@[simp] theorem State.withPending_cond (s : State) (x : List Instr) : (s.withPending x).cond = s.cond := rfl
@[simp] theorem State.withPending_pins (s : State) (x : List Instr) : (s.withPending x).pins = s.pins := rfl
@[simp] theorem State.withPending_pending (s : State) (x : List Instr) : (s.withPending x).pending = x := rfl
@[simp] theorem State.withPending_self (s : State) : s.withPending s.pending = s := rfl
@[simp] theorem State.withPending_twice (s : State) (x y : List Instr) : (s.withPending x).withPending y = s.withPending y := rfl

/-- Two states that agree in every unit are equal. -/
theorem State.ext_units {s t : State} (loader : s.loader = t.loader) (bus : s.bus = t.bus) (peers : s.peers = t.peers)
    (gov : s.gov = t.gov) (web : s.web = t.web) (order : s.order = t.order) (pattern : s.pattern = t.pattern)
    (roll : s.roll = t.roll) (heat : s.heat = t.heat) (outfeed : s.outfeed = t.outfeed) (cond : s.cond = t.cond)
    (pins : s.pins = t.pins) (pending : s.pending = t.pending) : s = t := by
  cases s; cases t; simp_all

end Sys2Proof.Machine
end

