-- ==== Sys2Proof/Laws/Frames.lean ====
section
/-! SUPPORT. Frames: one lemma per shared operation of Machine/, naming every unit of State, and
every register of a unit, that the operation leaves as it was. A frame of a larger operation is read
off the frames of the ones it calls; a proof about a command cites these and unfolds none of them. -/

namespace Sys2Proof.Machine
open Sys2Proof

/-- A projection that every step of a fold keeps is kept by the fold. -/
theorem foldl_keeps {α β γ : Type} (p : β → γ) (f : β → α → β) (h : ∀ b a, p (f b a) = p b) (l : List α) (b : β) :
    p (l.foldl f b) = p b := by
  induction l generalizing b with
  | nil => rfl
  | cons a l ih => rw [List.foldl_cons, ih, h]

/-- What `setMode` leaves as it was. -/
@[simp] theorem setMode_frame (m : Mode) (s : State) :
    (setMode m s).loader.image = s.loader.image ∧ (setMode m s).loader.reading = s.loader.reading ∧
    (setMode m s).loader.scanning = s.loader.scanning ∧ (setMode m s).loader.restartCause = s.loader.restartCause ∧
    (setMode m s).loader.keptRole = s.loader.keptRole ∧ (setMode m s).loader.faultClass = s.loader.faultClass ∧
    (setMode m s).loader.joinTimer = s.loader.joinTimer ∧ (setMode m s).bus = s.bus ∧ (setMode m s).peers = s.peers ∧
    (setMode m s).gov = s.gov ∧ (setMode m s).web = s.web ∧ (setMode m s).order = s.order ∧
    (setMode m s).pattern = s.pattern ∧ (setMode m s).roll = s.roll ∧ (setMode m s).heat = s.heat ∧
    (setMode m s).outfeed = s.outfeed ∧ (setMode m s).cond = s.cond ∧ (setMode m s).pins = s.pins ∧
    (setMode m s).pending = s.pending := by
  simp [setMode]

/-- What `setPeer` leaves as it was. -/
@[simp] theorem setPeer_frame (address : Nat) (e : PeerEntry) (s : State) :
    (setPeer address e s).loader = s.loader ∧ (setPeer address e s).bus = s.bus ∧ (setPeer address e s).gov = s.gov ∧
    (setPeer address e s).web = s.web ∧ (setPeer address e s).order = s.order ∧
    (setPeer address e s).pattern = s.pattern ∧ (setPeer address e s).roll = s.roll ∧
    (setPeer address e s).heat = s.heat ∧ (setPeer address e s).outfeed = s.outfeed ∧
    (setPeer address e s).cond = s.cond ∧ (setPeer address e s).pins = s.pins ∧
    (setPeer address e s).pending = s.pending := by
  simp [setPeer]

/-- What `updateSeg` leaves as it was. -/
@[simp] theorem updateSeg_frame (uid : Nat) (f : Segment → Segment) (s : State) :
    (updateSeg uid f s).loader = s.loader ∧ (updateSeg uid f s).bus = s.bus ∧ (updateSeg uid f s).peers = s.peers ∧
    (updateSeg uid f s).gov = s.gov ∧ (updateSeg uid f s).web.infeed = s.web.infeed ∧
    (updateSeg uid f s).web.outfeed = s.web.outfeed ∧ (updateSeg uid f s).web.p0 = s.web.p0 ∧
    (updateSeg uid f s).web.expected = s.web.expected ∧ (updateSeg uid f s).web.firstSend = s.web.firstSend ∧
    (updateSeg uid f s).web.window = s.web.window ∧ (updateSeg uid f s).web.closing = s.web.closing ∧
    (updateSeg uid f s).web.candidate = s.web.candidate ∧ (updateSeg uid f s).web.missCount = s.web.missCount ∧
    (updateSeg uid f s).web.cancelList = s.web.cancelList ∧ (updateSeg uid f s).web.nextUid = s.web.nextUid ∧
    (updateSeg uid f s).order = s.order ∧ (updateSeg uid f s).pattern = s.pattern ∧
    (updateSeg uid f s).roll = s.roll ∧ (updateSeg uid f s).heat = s.heat ∧ (updateSeg uid f s).outfeed = s.outfeed ∧
    (updateSeg uid f s).cond = s.cond ∧ (updateSeg uid f s).pins = s.pins ∧
    (updateSeg uid f s).pending = s.pending := by
  simp [updateSeg]

/-- What `markSeg` leaves as it was. -/
@[simp] theorem markSeg_frame (uid : Nat) (c : RejectCause) (s : State) :
    (markSeg uid c s).loader = s.loader ∧ (markSeg uid c s).bus = s.bus ∧ (markSeg uid c s).peers = s.peers ∧
    (markSeg uid c s).gov = s.gov ∧ (markSeg uid c s).web.infeed = s.web.infeed ∧
    (markSeg uid c s).web.outfeed = s.web.outfeed ∧ (markSeg uid c s).web.p0 = s.web.p0 ∧
    (markSeg uid c s).web.expected = s.web.expected ∧ (markSeg uid c s).web.firstSend = s.web.firstSend ∧
    (markSeg uid c s).web.window = s.web.window ∧ (markSeg uid c s).web.closing = s.web.closing ∧
    (markSeg uid c s).web.candidate = s.web.candidate ∧ (markSeg uid c s).web.missCount = s.web.missCount ∧
    (markSeg uid c s).web.cancelList = s.web.cancelList ∧ (markSeg uid c s).web.nextUid = s.web.nextUid ∧
    (markSeg uid c s).order = s.order ∧ (markSeg uid c s).pattern = s.pattern ∧ (markSeg uid c s).roll = s.roll ∧
    (markSeg uid c s).heat = s.heat ∧ (markSeg uid c s).outfeed = s.outfeed ∧ (markSeg uid c s).cond = s.cond ∧
    (markSeg uid c s).pins = s.pins ∧ (markSeg uid c s).pending = s.pending := by
  simp [markSeg]

/-- What `setRecord` leaves as it was. -/
@[simp] theorem setRecord_frame (g : Group) (r : GroupRecord) (s : State) :
    (setRecord g r s).loader = s.loader ∧ (setRecord g r s).bus = s.bus ∧ (setRecord g r s).peers = s.peers ∧
    (setRecord g r s).gov = s.gov ∧ (setRecord g r s).web = s.web ∧ (setRecord g r s).order = s.order ∧
    (setRecord g r s).pattern = s.pattern ∧ (setRecord g r s).roll = s.roll ∧ (setRecord g r s).heat = s.heat ∧
    (setRecord g r s).outfeed = s.outfeed ∧ (setRecord g r s).cond.flags = s.cond.flags ∧
    (setRecord g r s).cond.checkErrors = s.cond.checkErrors ∧ (setRecord g r s).cond.overruns = s.cond.overruns ∧
    (setRecord g r s).cond.straySenders = s.cond.straySenders ∧ (setRecord g r s).cond.strayMarks = s.cond.strayMarks ∧
    (setRecord g r s).cond.missedMarks = s.cond.missedMarks ∧
    (setRecord g r s).cond.limitedStrokes = s.cond.limitedStrokes ∧ (setRecord g r s).cond.wakeDue = s.cond.wakeDue ∧
    (setRecord g r s).pins = s.pins ∧ (setRecord g r s).pending = s.pending := by
  generalize h : setRecord g r s = t
  unfold setRecord at h
  (repeat' split at h) <;> subst h <;> simp

/-- What `setTx` leaves as it was. -/
@[simp] theorem setTx_frame (l : List TxEntry) (s : State) :
    (setTx l s).loader = s.loader ∧ (setTx l s).bus.rx = s.bus.rx ∧ (setTx l s).bus.latchRoster = s.bus.latchRoster ∧
    (setTx l s).bus.latchTerminal = s.bus.latchTerminal ∧ (setTx l s).bus.faultCount = s.bus.faultCount ∧
    (setTx l s).bus.off = s.bus.off ∧ (setTx l s).bus.recovery = s.bus.recovery ∧
    (setTx l s).bus.duplicate = s.bus.duplicate ∧ (setTx l s).peers = s.peers ∧ (setTx l s).gov = s.gov ∧
    (setTx l s).web = s.web ∧ (setTx l s).order = s.order ∧ (setTx l s).pattern = s.pattern ∧ (setTx l s).roll = s.roll ∧
    (setTx l s).heat = s.heat ∧ (setTx l s).outfeed = s.outfeed ∧ (setTx l s).cond = s.cond ∧ (setTx l s).pins = s.pins ∧
    (setTx l s).pending = s.pending := by
  simp [setTx]

/-- What `noticeRemoved` leaves as it was. -/
@[simp] theorem noticeRemoved_frame (e : TxEntry) (s : State) :
    (noticeRemoved e s).loader = s.loader ∧ (noticeRemoved e s).bus = s.bus ∧ (noticeRemoved e s).peers = s.peers ∧
    (noticeRemoved e s).gov = s.gov ∧ (noticeRemoved e s).web = s.web ∧ (noticeRemoved e s).order = s.order ∧
    (noticeRemoved e s).pattern = s.pattern ∧ (noticeRemoved e s).roll = s.roll ∧ (noticeRemoved e s).heat = s.heat ∧
    (noticeRemoved e s).outfeed = s.outfeed ∧ (noticeRemoved e s).cond.flags = s.cond.flags ∧
    (noticeRemoved e s).cond.checkErrors = s.cond.checkErrors ∧ (noticeRemoved e s).cond.overruns = s.cond.overruns ∧
    (noticeRemoved e s).cond.straySenders = s.cond.straySenders ∧
    (noticeRemoved e s).cond.strayMarks = s.cond.strayMarks ∧ (noticeRemoved e s).cond.missedMarks = s.cond.missedMarks ∧
    (noticeRemoved e s).cond.limitedStrokes = s.cond.limitedStrokes ∧ (noticeRemoved e s).cond.wakeDue = s.cond.wakeDue ∧
    (noticeRemoved e s).pins = s.pins ∧ (noticeRemoved e s).pending = s.pending := by
  generalize h : noticeRemoved e s = t
  unfold noticeRemoved at h
  (repeat' split at h) <;> subst h <;> simp

/-- What `queueTx` leaves as it was. -/
@[simp] theorem queueTx_frame (e : TxEntry) (s : State) :
    (queueTx e s).loader = s.loader ∧ (queueTx e s).bus.rx = s.bus.rx ∧
    (queueTx e s).bus.latchRoster = s.bus.latchRoster ∧ (queueTx e s).bus.latchTerminal = s.bus.latchTerminal ∧
    (queueTx e s).bus.faultCount = s.bus.faultCount ∧ (queueTx e s).bus.off = s.bus.off ∧
    (queueTx e s).bus.recovery = s.bus.recovery ∧ (queueTx e s).bus.duplicate = s.bus.duplicate ∧
    (queueTx e s).peers = s.peers ∧ (queueTx e s).gov = s.gov ∧ (queueTx e s).web = s.web ∧
    (queueTx e s).order = s.order ∧ (queueTx e s).pattern = s.pattern ∧ (queueTx e s).roll = s.roll ∧
    (queueTx e s).heat = s.heat ∧ (queueTx e s).outfeed = s.outfeed ∧ (queueTx e s).cond.flags = s.cond.flags ∧
    (queueTx e s).cond.checkErrors = s.cond.checkErrors ∧ (queueTx e s).cond.overruns = s.cond.overruns ∧
    (queueTx e s).cond.straySenders = s.cond.straySenders ∧ (queueTx e s).cond.strayMarks = s.cond.strayMarks ∧
    (queueTx e s).cond.missedMarks = s.cond.missedMarks ∧ (queueTx e s).cond.limitedStrokes = s.cond.limitedStrokes ∧
    (queueTx e s).cond.wakeDue = s.cond.wakeDue ∧ (queueTx e s).pins = s.pins ∧ (queueTx e s).pending = s.pending := by
  generalize h : queueTx e s = t
  unfold queueTx at h
  (repeat' split at h) <;> subst h <;> simp

/-- What `offerNotice` leaves as it was. -/
@[simp] theorem offerNotice_frame (g : Group) (s : State) :
    (offerNotice g s).loader = s.loader ∧ (offerNotice g s).bus.rx = s.bus.rx ∧
    (offerNotice g s).bus.latchRoster = s.bus.latchRoster ∧ (offerNotice g s).bus.latchTerminal = s.bus.latchTerminal ∧
    (offerNotice g s).bus.faultCount = s.bus.faultCount ∧ (offerNotice g s).bus.off = s.bus.off ∧
    (offerNotice g s).bus.recovery = s.bus.recovery ∧ (offerNotice g s).bus.duplicate = s.bus.duplicate ∧
    (offerNotice g s).peers = s.peers ∧ (offerNotice g s).gov = s.gov ∧ (offerNotice g s).web = s.web ∧
    (offerNotice g s).order = s.order ∧ (offerNotice g s).pattern = s.pattern ∧ (offerNotice g s).roll = s.roll ∧
    (offerNotice g s).heat = s.heat ∧ (offerNotice g s).outfeed = s.outfeed ∧
    (offerNotice g s).cond.flags = s.cond.flags ∧ (offerNotice g s).cond.checkErrors = s.cond.checkErrors ∧
    (offerNotice g s).cond.overruns = s.cond.overruns ∧ (offerNotice g s).cond.straySenders = s.cond.straySenders ∧
    (offerNotice g s).cond.strayMarks = s.cond.strayMarks ∧ (offerNotice g s).cond.missedMarks = s.cond.missedMarks ∧
    (offerNotice g s).cond.limitedStrokes = s.cond.limitedStrokes ∧ (offerNotice g s).cond.wakeDue = s.cond.wakeDue ∧
    (offerNotice g s).pins = s.pins ∧ (offerNotice g s).pending = s.pending := by
  generalize h : offerNotice g s = t
  unfold offerNotice at h
  (repeat' split at h) <;> subst h <;> simp

/-- What `offerPending` leaves as it was. -/
@[simp] theorem offerPending_frame (s : State) :
    (offerPending s).loader = s.loader ∧ (offerPending s).bus.rx = s.bus.rx ∧
    (offerPending s).bus.latchRoster = s.bus.latchRoster ∧ (offerPending s).bus.latchTerminal = s.bus.latchTerminal ∧
    (offerPending s).bus.faultCount = s.bus.faultCount ∧ (offerPending s).bus.off = s.bus.off ∧
    (offerPending s).bus.recovery = s.bus.recovery ∧ (offerPending s).bus.duplicate = s.bus.duplicate ∧
    (offerPending s).peers = s.peers ∧ (offerPending s).gov = s.gov ∧ (offerPending s).web = s.web ∧
    (offerPending s).order = s.order ∧ (offerPending s).pattern = s.pattern ∧ (offerPending s).roll = s.roll ∧
    (offerPending s).heat = s.heat ∧ (offerPending s).outfeed = s.outfeed ∧ (offerPending s).cond.flags = s.cond.flags ∧
    (offerPending s).cond.checkErrors = s.cond.checkErrors ∧ (offerPending s).cond.overruns = s.cond.overruns ∧
    (offerPending s).cond.straySenders = s.cond.straySenders ∧ (offerPending s).cond.strayMarks = s.cond.strayMarks ∧
    (offerPending s).cond.missedMarks = s.cond.missedMarks ∧
    (offerPending s).cond.limitedStrokes = s.cond.limitedStrokes ∧ (offerPending s).cond.wakeDue = s.cond.wakeDue ∧
    (offerPending s).pins = s.pins ∧ (offerPending s).pending = s.pending := by
  generalize h : offerPending s = t
  unfold offerPending at h
  (repeat' split at h) <;> subst h <;> simp

/-- What `noticeCompleted` leaves as it was. -/
@[simp] theorem noticeCompleted_frame (g : Group) (s : State) :
    (noticeCompleted g s).loader = s.loader ∧ (noticeCompleted g s).bus.rx = s.bus.rx ∧
    (noticeCompleted g s).bus.latchRoster = s.bus.latchRoster ∧
    (noticeCompleted g s).bus.latchTerminal = s.bus.latchTerminal ∧
    (noticeCompleted g s).bus.faultCount = s.bus.faultCount ∧ (noticeCompleted g s).bus.off = s.bus.off ∧
    (noticeCompleted g s).bus.recovery = s.bus.recovery ∧ (noticeCompleted g s).bus.duplicate = s.bus.duplicate ∧
    (noticeCompleted g s).peers = s.peers ∧ (noticeCompleted g s).gov = s.gov ∧ (noticeCompleted g s).web = s.web ∧
    (noticeCompleted g s).order = s.order ∧ (noticeCompleted g s).pattern = s.pattern ∧
    (noticeCompleted g s).roll = s.roll ∧ (noticeCompleted g s).heat = s.heat ∧
    (noticeCompleted g s).outfeed = s.outfeed ∧ (noticeCompleted g s).cond.flags = s.cond.flags ∧
    (noticeCompleted g s).cond.checkErrors = s.cond.checkErrors ∧ (noticeCompleted g s).cond.overruns = s.cond.overruns ∧
    (noticeCompleted g s).cond.straySenders = s.cond.straySenders ∧
    (noticeCompleted g s).cond.strayMarks = s.cond.strayMarks ∧
    (noticeCompleted g s).cond.missedMarks = s.cond.missedMarks ∧
    (noticeCompleted g s).cond.limitedStrokes = s.cond.limitedStrokes ∧
    (noticeCompleted g s).cond.wakeDue = s.cond.wakeDue ∧ (noticeCompleted g s).pins = s.pins ∧
    (noticeCompleted g s).pending = s.pending := by
  generalize h : noticeCompleted g s = t
  unfold noticeCompleted at h
  dsimp only at h
  (repeat' split at h) <;> subst h <;> simp

/-- What `reportRising` leaves as it was. -/
@[simp] theorem reportRising_frame (c : Cond) (s : State) :
    (reportRising c s).loader = s.loader ∧ (reportRising c s).bus.rx = s.bus.rx ∧
    (reportRising c s).bus.latchRoster = s.bus.latchRoster ∧ (reportRising c s).bus.latchTerminal = s.bus.latchTerminal ∧
    (reportRising c s).bus.faultCount = s.bus.faultCount ∧ (reportRising c s).bus.off = s.bus.off ∧
    (reportRising c s).bus.recovery = s.bus.recovery ∧ (reportRising c s).bus.duplicate = s.bus.duplicate ∧
    (reportRising c s).peers = s.peers ∧ (reportRising c s).gov = s.gov ∧ (reportRising c s).web = s.web ∧
    (reportRising c s).order = s.order ∧ (reportRising c s).pattern = s.pattern ∧ (reportRising c s).roll = s.roll ∧
    (reportRising c s).heat = s.heat ∧ (reportRising c s).outfeed = s.outfeed ∧
    (reportRising c s).cond.flags = s.cond.flags ∧ (reportRising c s).cond.checkErrors = s.cond.checkErrors ∧
    (reportRising c s).cond.overruns = s.cond.overruns ∧ (reportRising c s).cond.straySenders = s.cond.straySenders ∧
    (reportRising c s).cond.strayMarks = s.cond.strayMarks ∧ (reportRising c s).cond.missedMarks = s.cond.missedMarks ∧
    (reportRising c s).cond.limitedStrokes = s.cond.limitedStrokes ∧ (reportRising c s).cond.wakeDue = s.cond.wakeDue ∧
    (reportRising c s).pins = s.pins ∧ (reportRising c s).pending = s.pending := by
  generalize h : reportRising c s = t
  unfold reportRising at h
  dsimp only at h
  (repeat' split at h) <;> subst h <;> simp

/-- What `setFlags` leaves as it was. -/
@[simp] theorem setFlags_frame (l : List Cond) (s : State) :
    (setFlags l s).loader = s.loader ∧ (setFlags l s).bus = s.bus ∧ (setFlags l s).peers = s.peers ∧
    (setFlags l s).gov = s.gov ∧ (setFlags l s).web = s.web ∧ (setFlags l s).order = s.order ∧
    (setFlags l s).pattern = s.pattern ∧ (setFlags l s).roll = s.roll ∧ (setFlags l s).heat = s.heat ∧
    (setFlags l s).outfeed = s.outfeed ∧ (setFlags l s).cond.link = s.cond.link ∧ (setFlags l s).cond.web = s.cond.web ∧
    (setFlags l s).cond.heat = s.cond.heat ∧ (setFlags l s).cond.roll = s.cond.roll ∧
    (setFlags l s).cond.checkErrors = s.cond.checkErrors ∧ (setFlags l s).cond.overruns = s.cond.overruns ∧
    (setFlags l s).cond.straySenders = s.cond.straySenders ∧ (setFlags l s).cond.strayMarks = s.cond.strayMarks ∧
    (setFlags l s).cond.missedMarks = s.cond.missedMarks ∧ (setFlags l s).cond.limitedStrokes = s.cond.limitedStrokes ∧
    (setFlags l s).cond.wakeDue = s.cond.wakeDue ∧ (setFlags l s).pins = s.pins ∧ (setFlags l s).pending = s.pending := by
  simp [setFlags]

/-- What `raise` leaves as it was. -/
@[simp] theorem raise_frame (c : Cond) (s : State) :
    (raise c s).loader = s.loader ∧ (raise c s).bus.rx = s.bus.rx ∧ (raise c s).bus.latchRoster = s.bus.latchRoster ∧
    (raise c s).bus.latchTerminal = s.bus.latchTerminal ∧ (raise c s).bus.faultCount = s.bus.faultCount ∧
    (raise c s).bus.off = s.bus.off ∧ (raise c s).bus.recovery = s.bus.recovery ∧
    (raise c s).bus.duplicate = s.bus.duplicate ∧ (raise c s).peers = s.peers ∧ (raise c s).gov = s.gov ∧
    (raise c s).web = s.web ∧ (raise c s).order = s.order ∧ (raise c s).pattern = s.pattern ∧ (raise c s).roll = s.roll ∧
    (raise c s).heat = s.heat ∧ (raise c s).outfeed = s.outfeed ∧ (raise c s).cond.checkErrors = s.cond.checkErrors ∧
    (raise c s).cond.overruns = s.cond.overruns ∧ (raise c s).cond.straySenders = s.cond.straySenders ∧
    (raise c s).cond.strayMarks = s.cond.strayMarks ∧ (raise c s).cond.missedMarks = s.cond.missedMarks ∧
    (raise c s).cond.limitedStrokes = s.cond.limitedStrokes ∧ (raise c s).pins = s.pins ∧
    (raise c s).pending = s.pending := by
  generalize h : raise c s = t
  unfold raise at h
  dsimp only at h
  (repeat' split at h) <;> subst h <;> simp

/-- What `fall` leaves as it was. -/
@[simp] theorem fall_frame (c : Cond) (s : State) :
    (fall c s).loader = s.loader ∧ (fall c s).bus = s.bus ∧ (fall c s).peers = s.peers ∧ (fall c s).gov = s.gov ∧
    (fall c s).web = s.web ∧ (fall c s).order = s.order ∧ (fall c s).pattern = s.pattern ∧ (fall c s).roll = s.roll ∧
    (fall c s).heat = s.heat ∧ (fall c s).outfeed = s.outfeed ∧ (fall c s).cond.link = s.cond.link ∧
    (fall c s).cond.web = s.cond.web ∧ (fall c s).cond.heat = s.cond.heat ∧ (fall c s).cond.roll = s.cond.roll ∧
    (fall c s).cond.checkErrors = s.cond.checkErrors ∧ (fall c s).cond.overruns = s.cond.overruns ∧
    (fall c s).cond.straySenders = s.cond.straySenders ∧ (fall c s).cond.strayMarks = s.cond.strayMarks ∧
    (fall c s).cond.missedMarks = s.cond.missedMarks ∧ (fall c s).cond.limitedStrokes = s.cond.limitedStrokes ∧
    (fall c s).cond.wakeDue = s.cond.wakeDue ∧ (fall c s).pins = s.pins ∧ (fall c s).pending = s.pending := by
  simp [fall]

/-- What `follow` leaves as it was. -/
@[simp] theorem follow_frame (c : Cond) (cause : Bool) (s : State) :
    (follow c cause s).loader = s.loader ∧ (follow c cause s).bus.rx = s.bus.rx ∧
    (follow c cause s).bus.latchRoster = s.bus.latchRoster ∧ (follow c cause s).bus.latchTerminal = s.bus.latchTerminal ∧
    (follow c cause s).bus.faultCount = s.bus.faultCount ∧ (follow c cause s).bus.off = s.bus.off ∧
    (follow c cause s).bus.recovery = s.bus.recovery ∧ (follow c cause s).bus.duplicate = s.bus.duplicate ∧
    (follow c cause s).peers = s.peers ∧ (follow c cause s).gov = s.gov ∧ (follow c cause s).web = s.web ∧
    (follow c cause s).order = s.order ∧ (follow c cause s).pattern = s.pattern ∧ (follow c cause s).roll = s.roll ∧
    (follow c cause s).heat = s.heat ∧ (follow c cause s).outfeed = s.outfeed ∧
    (follow c cause s).cond.checkErrors = s.cond.checkErrors ∧ (follow c cause s).cond.overruns = s.cond.overruns ∧
    (follow c cause s).cond.straySenders = s.cond.straySenders ∧ (follow c cause s).cond.strayMarks = s.cond.strayMarks ∧
    (follow c cause s).cond.missedMarks = s.cond.missedMarks ∧
    (follow c cause s).cond.limitedStrokes = s.cond.limitedStrokes ∧ (follow c cause s).pins = s.pins ∧
    (follow c cause s).pending = s.pending := by
  generalize h : follow c cause s = t
  unfold follow at h
  (repeat' split at h) <;> subst h <;> simp

/-- What `reassert` leaves as it was. -/
@[simp] theorem reassert_frame (c : Cond) (s : State) :
    (reassert c s).loader = s.loader ∧ (reassert c s).bus.rx = s.bus.rx ∧
    (reassert c s).bus.latchRoster = s.bus.latchRoster ∧ (reassert c s).bus.latchTerminal = s.bus.latchTerminal ∧
    (reassert c s).bus.faultCount = s.bus.faultCount ∧ (reassert c s).bus.off = s.bus.off ∧
    (reassert c s).bus.recovery = s.bus.recovery ∧ (reassert c s).bus.duplicate = s.bus.duplicate ∧
    (reassert c s).peers = s.peers ∧ (reassert c s).gov = s.gov ∧ (reassert c s).web = s.web ∧
    (reassert c s).order = s.order ∧ (reassert c s).pattern = s.pattern ∧ (reassert c s).roll = s.roll ∧
    (reassert c s).heat = s.heat ∧ (reassert c s).outfeed = s.outfeed ∧
    (reassert c s).cond.checkErrors = s.cond.checkErrors ∧ (reassert c s).cond.overruns = s.cond.overruns ∧
    (reassert c s).cond.straySenders = s.cond.straySenders ∧ (reassert c s).cond.strayMarks = s.cond.strayMarks ∧
    (reassert c s).cond.missedMarks = s.cond.missedMarks ∧ (reassert c s).cond.limitedStrokes = s.cond.limitedStrokes ∧
    (reassert c s).cond.wakeDue = s.cond.wakeDue ∧ (reassert c s).pins = s.pins ∧ (reassert c s).pending = s.pending := by
  simp [reassert]

/-- What `setHold` leaves as it was. -/
@[simp] theorem setHold_frame (h : HoldCause) (s : State) :
    (setHold h s).loader = s.loader ∧ (setHold h s).bus = s.bus ∧ (setHold h s).peers = s.peers ∧
    (setHold h s).gov.vOp = s.gov.vOp ∧ (setHold h s).gov.vT = s.gov.vT ∧ (setHold h s).gov.vA = s.gov.vA ∧
    (setHold h s).gov.trips = s.gov.trips ∧ (setHold h s).gov.beforeTrip = s.gov.beforeTrip ∧
    (setHold h s).gov.tripTimer = s.gov.tripTimer ∧ (setHold h s).gov.driveEnable = s.gov.driveEnable ∧
    (setHold h s).gov.pulseTimer = s.gov.pulseTimer ∧ (setHold h s).gov.sequence = s.gov.sequence ∧
    (setHold h s).web = s.web ∧ (setHold h s).order = s.order ∧ (setHold h s).pattern = s.pattern ∧
    (setHold h s).roll = s.roll ∧ (setHold h s).heat = s.heat ∧ (setHold h s).outfeed = s.outfeed ∧
    (setHold h s).cond = s.cond ∧ (setHold h s).pins = s.pins ∧ (setHold h s).pending = s.pending := by
  simp [setHold]

/-- What `clearHold` leaves as it was. -/
@[simp] theorem clearHold_frame (h : HoldCause) (s : State) :
    (clearHold h s).loader = s.loader ∧ (clearHold h s).bus = s.bus ∧ (clearHold h s).peers = s.peers ∧
    (clearHold h s).gov.vOp = s.gov.vOp ∧ (clearHold h s).gov.vT = s.gov.vT ∧ (clearHold h s).gov.vA = s.gov.vA ∧
    (clearHold h s).gov.trips = s.gov.trips ∧ (clearHold h s).gov.beforeTrip = s.gov.beforeTrip ∧
    (clearHold h s).gov.tripTimer = s.gov.tripTimer ∧ (clearHold h s).gov.driveEnable = s.gov.driveEnable ∧
    (clearHold h s).gov.pulseTimer = s.gov.pulseTimer ∧ (clearHold h s).gov.sequence = s.gov.sequence ∧
    (clearHold h s).web = s.web ∧ (clearHold h s).order = s.order ∧ (clearHold h s).pattern = s.pattern ∧
    (clearHold h s).roll = s.roll ∧ (clearHold h s).heat = s.heat ∧ (clearHold h s).outfeed = s.outfeed ∧
    (clearHold h s).cond = s.cond ∧ (clearHold h s).pins = s.pins ∧ (clearHold h s).pending = s.pending := by
  simp [clearHold]

/-- What `followHold` leaves as it was. -/
@[simp] theorem followHold_frame (h : HoldCause) (cause : Bool) (s : State) :
    (followHold h cause s).loader = s.loader ∧ (followHold h cause s).bus = s.bus ∧
    (followHold h cause s).peers = s.peers ∧ (followHold h cause s).gov.vOp = s.gov.vOp ∧
    (followHold h cause s).gov.vT = s.gov.vT ∧ (followHold h cause s).gov.vA = s.gov.vA ∧
    (followHold h cause s).gov.trips = s.gov.trips ∧ (followHold h cause s).gov.beforeTrip = s.gov.beforeTrip ∧
    (followHold h cause s).gov.tripTimer = s.gov.tripTimer ∧ (followHold h cause s).gov.driveEnable = s.gov.driveEnable ∧
    (followHold h cause s).gov.pulseTimer = s.gov.pulseTimer ∧ (followHold h cause s).gov.sequence = s.gov.sequence ∧
    (followHold h cause s).web = s.web ∧ (followHold h cause s).order = s.order ∧
    (followHold h cause s).pattern = s.pattern ∧ (followHold h cause s).roll = s.roll ∧
    (followHold h cause s).heat = s.heat ∧ (followHold h cause s).outfeed = s.outfeed ∧
    (followHold h cause s).cond = s.cond ∧ (followHold h cause s).pins = s.pins ∧
    (followHold h cause s).pending = s.pending := by
  generalize h : followHold h cause s = t
  unfold followHold at h
  (repeat' split at h) <;> subst h <;> simp

/-- What `queuePulse` leaves as it was. -/
@[simp] theorem queuePulse_frame (s : State) :
    (queuePulse s).loader = s.loader ∧ (queuePulse s).bus.rx = s.bus.rx ∧
    (queuePulse s).bus.latchRoster = s.bus.latchRoster ∧ (queuePulse s).bus.latchTerminal = s.bus.latchTerminal ∧
    (queuePulse s).bus.faultCount = s.bus.faultCount ∧ (queuePulse s).bus.off = s.bus.off ∧
    (queuePulse s).bus.recovery = s.bus.recovery ∧ (queuePulse s).bus.duplicate = s.bus.duplicate ∧
    (queuePulse s).peers = s.peers ∧ (queuePulse s).gov.vOp = s.gov.vOp ∧ (queuePulse s).gov.vT = s.gov.vT ∧
    (queuePulse s).gov.vA = s.gov.vA ∧ (queuePulse s).gov.holds = s.gov.holds ∧ (queuePulse s).gov.trips = s.gov.trips ∧
    (queuePulse s).gov.beforeTrip = s.gov.beforeTrip ∧ (queuePulse s).gov.tripTimer = s.gov.tripTimer ∧
    (queuePulse s).gov.driveEnable = s.gov.driveEnable ∧ (queuePulse s).gov.pulseTimer = s.gov.pulseTimer ∧
    (queuePulse s).web = s.web ∧ (queuePulse s).order = s.order ∧ (queuePulse s).pattern = s.pattern ∧
    (queuePulse s).roll = s.roll ∧ (queuePulse s).heat = s.heat ∧ (queuePulse s).outfeed = s.outfeed ∧
    (queuePulse s).cond.flags = s.cond.flags ∧ (queuePulse s).cond.checkErrors = s.cond.checkErrors ∧
    (queuePulse s).cond.overruns = s.cond.overruns ∧ (queuePulse s).cond.straySenders = s.cond.straySenders ∧
    (queuePulse s).cond.strayMarks = s.cond.strayMarks ∧ (queuePulse s).cond.missedMarks = s.cond.missedMarks ∧
    (queuePulse s).cond.limitedStrokes = s.cond.limitedStrokes ∧ (queuePulse s).cond.wakeDue = s.cond.wakeDue ∧
    (queuePulse s).pins = s.pins ∧ (queuePulse s).pending = s.pending := by
  generalize h : queuePulse s = t
  unfold queuePulse at h
  (repeat' split at h) <;> subst h <;> simp

/-- What `startPulseTimer` leaves as it was. -/
@[simp] theorem startPulseTimer_frame (s : State) :
    (startPulseTimer s).loader = s.loader ∧ (startPulseTimer s).bus = s.bus ∧ (startPulseTimer s).peers = s.peers ∧
    (startPulseTimer s).gov.vOp = s.gov.vOp ∧ (startPulseTimer s).gov.vT = s.gov.vT ∧
    (startPulseTimer s).gov.vA = s.gov.vA ∧ (startPulseTimer s).gov.holds = s.gov.holds ∧
    (startPulseTimer s).gov.trips = s.gov.trips ∧ (startPulseTimer s).gov.beforeTrip = s.gov.beforeTrip ∧
    (startPulseTimer s).gov.tripTimer = s.gov.tripTimer ∧ (startPulseTimer s).gov.driveEnable = s.gov.driveEnable ∧
    (startPulseTimer s).gov.sequence = s.gov.sequence ∧ (startPulseTimer s).web = s.web ∧
    (startPulseTimer s).order = s.order ∧ (startPulseTimer s).pattern = s.pattern ∧ (startPulseTimer s).roll = s.roll ∧
    (startPulseTimer s).heat = s.heat ∧ (startPulseTimer s).outfeed = s.outfeed ∧ (startPulseTimer s).cond = s.cond ∧
    (startPulseTimer s).pins = s.pins ∧ (startPulseTimer s).pending = s.pending := by
  simp [startPulseTimer]

/-- What `pulseForMode` leaves as it was. -/
@[simp] theorem pulseForMode_frame (s : State) :
    (pulseForMode s).loader = s.loader ∧ (pulseForMode s).bus.rx = s.bus.rx ∧
    (pulseForMode s).bus.latchRoster = s.bus.latchRoster ∧ (pulseForMode s).bus.latchTerminal = s.bus.latchTerminal ∧
    (pulseForMode s).bus.faultCount = s.bus.faultCount ∧ (pulseForMode s).bus.off = s.bus.off ∧
    (pulseForMode s).bus.recovery = s.bus.recovery ∧ (pulseForMode s).bus.duplicate = s.bus.duplicate ∧
    (pulseForMode s).peers = s.peers ∧ (pulseForMode s).gov.vOp = s.gov.vOp ∧ (pulseForMode s).gov.vT = s.gov.vT ∧
    (pulseForMode s).gov.vA = s.gov.vA ∧ (pulseForMode s).gov.holds = s.gov.holds ∧
    (pulseForMode s).gov.trips = s.gov.trips ∧ (pulseForMode s).gov.beforeTrip = s.gov.beforeTrip ∧
    (pulseForMode s).gov.tripTimer = s.gov.tripTimer ∧ (pulseForMode s).gov.driveEnable = s.gov.driveEnable ∧
    (pulseForMode s).web = s.web ∧ (pulseForMode s).order = s.order ∧ (pulseForMode s).pattern = s.pattern ∧
    (pulseForMode s).roll = s.roll ∧ (pulseForMode s).heat = s.heat ∧ (pulseForMode s).outfeed = s.outfeed ∧
    (pulseForMode s).cond.flags = s.cond.flags ∧ (pulseForMode s).cond.checkErrors = s.cond.checkErrors ∧
    (pulseForMode s).cond.overruns = s.cond.overruns ∧ (pulseForMode s).cond.straySenders = s.cond.straySenders ∧
    (pulseForMode s).cond.strayMarks = s.cond.strayMarks ∧ (pulseForMode s).cond.missedMarks = s.cond.missedMarks ∧
    (pulseForMode s).cond.limitedStrokes = s.cond.limitedStrokes ∧ (pulseForMode s).cond.wakeDue = s.cond.wakeDue ∧
    (pulseForMode s).pins = s.pins ∧ (pulseForMode s).pending = s.pending := by
  simp [pulseForMode]

/-- What `setSlot` leaves as it was. -/
@[simp] theorem setSlot_frame (number : Nat) (x : PatternSlot) (s : State) :
    (setSlot number x s).loader = s.loader ∧ (setSlot number x s).bus = s.bus ∧ (setSlot number x s).peers = s.peers ∧
    (setSlot number x s).gov = s.gov ∧ (setSlot number x s).web = s.web ∧ (setSlot number x s).order = s.order ∧
    (setSlot number x s).pattern.staging = s.pattern.staging ∧
    (setSlot number x s).pattern.uploadPattern = s.pattern.uploadPattern ∧
    (setSlot number x s).pattern.uploadStatus = s.pattern.uploadStatus ∧
    (setSlot number x s).pattern.run = s.pattern.run ∧ (setSlot number x s).pattern.stroke = s.pattern.stroke ∧
    (setSlot number x s).pattern.heldFold = s.pattern.heldFold ∧ (setSlot number x s).pattern.depth = s.pattern.depth ∧
    (setSlot number x s).pattern.move = s.pattern.move ∧ (setSlot number x s).pattern.limitCount = s.pattern.limitCount ∧
    (setSlot number x s).pattern.pleatedLengths = s.pattern.pleatedLengths ∧ (setSlot number x s).roll = s.roll ∧
    (setSlot number x s).heat = s.heat ∧ (setSlot number x s).outfeed = s.outfeed ∧ (setSlot number x s).cond = s.cond ∧
    (setSlot number x s).pins = s.pins ∧ (setSlot number x s).pending = s.pending := by
  simp [setSlot]

/-- What `promote` leaves as it was. -/
@[simp] theorem promote_frame (number : Nat) (s : State) :
    (promote number s).loader = s.loader ∧ (promote number s).bus = s.bus ∧ (promote number s).peers = s.peers ∧
    (promote number s).gov = s.gov ∧ (promote number s).web = s.web ∧ (promote number s).order = s.order ∧
    (promote number s).pattern.staging = s.pattern.staging ∧
    (promote number s).pattern.uploadPattern = s.pattern.uploadPattern ∧ (promote number s).pattern.run = s.pattern.run ∧
    (promote number s).pattern.stroke = s.pattern.stroke ∧ (promote number s).pattern.heldFold = s.pattern.heldFold ∧
    (promote number s).pattern.depth = s.pattern.depth ∧ (promote number s).pattern.move = s.pattern.move ∧
    (promote number s).pattern.limitCount = s.pattern.limitCount ∧
    (promote number s).pattern.pleatedLengths = s.pattern.pleatedLengths ∧ (promote number s).roll = s.roll ∧
    (promote number s).heat = s.heat ∧ (promote number s).outfeed = s.outfeed ∧ (promote number s).cond = s.cond ∧
    (promote number s).pins = s.pins ∧ (promote number s).pending = s.pending := by
  generalize h : promote number s = t
  unfold promote at h
  dsimp only at h
  (repeat' split at h) <;> subst h <;> simp

/-- What `misfold` leaves as it was. -/
@[simp] theorem misfold_frame (uid : Nat) (s : State) :
    (misfold uid s).loader = s.loader ∧ (misfold uid s).bus.rx = s.bus.rx ∧
    (misfold uid s).bus.latchRoster = s.bus.latchRoster ∧ (misfold uid s).bus.latchTerminal = s.bus.latchTerminal ∧
    (misfold uid s).bus.faultCount = s.bus.faultCount ∧ (misfold uid s).bus.off = s.bus.off ∧
    (misfold uid s).bus.recovery = s.bus.recovery ∧ (misfold uid s).bus.duplicate = s.bus.duplicate ∧
    (misfold uid s).peers = s.peers ∧ (misfold uid s).gov = s.gov ∧ (misfold uid s).web.infeed = s.web.infeed ∧
    (misfold uid s).web.outfeed = s.web.outfeed ∧ (misfold uid s).web.p0 = s.web.p0 ∧
    (misfold uid s).web.expected = s.web.expected ∧ (misfold uid s).web.firstSend = s.web.firstSend ∧
    (misfold uid s).web.window = s.web.window ∧ (misfold uid s).web.closing = s.web.closing ∧
    (misfold uid s).web.candidate = s.web.candidate ∧ (misfold uid s).web.missCount = s.web.missCount ∧
    (misfold uid s).web.cancelList = s.web.cancelList ∧ (misfold uid s).web.nextUid = s.web.nextUid ∧
    (misfold uid s).order = s.order ∧ (misfold uid s).pattern = s.pattern ∧ (misfold uid s).roll = s.roll ∧
    (misfold uid s).heat = s.heat ∧ (misfold uid s).outfeed = s.outfeed ∧
    (misfold uid s).cond.checkErrors = s.cond.checkErrors ∧ (misfold uid s).cond.overruns = s.cond.overruns ∧
    (misfold uid s).cond.straySenders = s.cond.straySenders ∧ (misfold uid s).cond.strayMarks = s.cond.strayMarks ∧
    (misfold uid s).cond.missedMarks = s.cond.missedMarks ∧
    (misfold uid s).cond.limitedStrokes = s.cond.limitedStrokes ∧ (misfold uid s).pins = s.pins ∧
    (misfold uid s).pending = s.pending := by
  simp [misfold]

/-- What `startMove` leaves as it was. -/
@[simp] theorem startMove_frame (s : State) :
    (startMove s).loader = s.loader ∧ (startMove s).bus = s.bus ∧ (startMove s).peers = s.peers ∧
    (startMove s).gov = s.gov ∧ (startMove s).web = s.web ∧ (startMove s).order = s.order ∧
    (startMove s).pattern.slots = s.pattern.slots ∧ (startMove s).pattern.staging = s.pattern.staging ∧
    (startMove s).pattern.uploadPattern = s.pattern.uploadPattern ∧
    (startMove s).pattern.uploadStatus = s.pattern.uploadStatus ∧ (startMove s).pattern.run = s.pattern.run ∧
    (startMove s).pattern.stroke = s.pattern.stroke ∧ (startMove s).pattern.heldFold = s.pattern.heldFold ∧
    (startMove s).pattern.depth = s.pattern.depth ∧ (startMove s).pattern.limitCount = s.pattern.limitCount ∧
    (startMove s).pattern.pleatedLengths = s.pattern.pleatedLengths ∧ (startMove s).roll = s.roll ∧
    (startMove s).heat = s.heat ∧ (startMove s).outfeed = s.outfeed ∧ (startMove s).cond = s.cond ∧
    (startMove s).pins = s.pins ∧ (startMove s).pending = s.pending := by
  generalize h : startMove s = t
  unfold startMove at h
  (repeat' split at h) <;> subst h <;> simp

/-- What `abandonMove` leaves as it was. -/
@[simp] theorem abandonMove_frame (s : State) :
    (abandonMove s).loader = s.loader ∧ (abandonMove s).bus = s.bus ∧ (abandonMove s).peers = s.peers ∧
    (abandonMove s).gov = s.gov ∧ (abandonMove s).web = s.web ∧ (abandonMove s).order = s.order ∧
    (abandonMove s).pattern.slots = s.pattern.slots ∧ (abandonMove s).pattern.staging = s.pattern.staging ∧
    (abandonMove s).pattern.uploadPattern = s.pattern.uploadPattern ∧
    (abandonMove s).pattern.uploadStatus = s.pattern.uploadStatus ∧ (abandonMove s).pattern.run = s.pattern.run ∧
    (abandonMove s).pattern.stroke = s.pattern.stroke ∧ (abandonMove s).pattern.heldFold = s.pattern.heldFold ∧
    (abandonMove s).pattern.limitCount = s.pattern.limitCount ∧
    (abandonMove s).pattern.pleatedLengths = s.pattern.pleatedLengths ∧ (abandonMove s).roll = s.roll ∧
    (abandonMove s).heat = s.heat ∧ (abandonMove s).outfeed = s.outfeed ∧ (abandonMove s).cond = s.cond ∧
    (abandonMove s).pins = s.pins ∧ (abandonMove s).pending = s.pending := by
  generalize h : abandonMove s = t
  unfold abandonMove at h
  (repeat' split at h) <;> subst h <;> simp

/-- What `beginStroke` leaves as it was. -/
@[simp] theorem beginStroke_frame (k : Nat) (late : Bool) (s : State) :
    (beginStroke k late s).loader = s.loader ∧ (beginStroke k late s).bus.rx = s.bus.rx ∧
    (beginStroke k late s).bus.latchRoster = s.bus.latchRoster ∧
    (beginStroke k late s).bus.latchTerminal = s.bus.latchTerminal ∧
    (beginStroke k late s).bus.faultCount = s.bus.faultCount ∧ (beginStroke k late s).bus.off = s.bus.off ∧
    (beginStroke k late s).bus.recovery = s.bus.recovery ∧ (beginStroke k late s).bus.duplicate = s.bus.duplicate ∧
    (beginStroke k late s).peers = s.peers ∧ (beginStroke k late s).gov = s.gov ∧
    (beginStroke k late s).web.infeed = s.web.infeed ∧ (beginStroke k late s).web.outfeed = s.web.outfeed ∧
    (beginStroke k late s).web.p0 = s.web.p0 ∧ (beginStroke k late s).web.expected = s.web.expected ∧
    (beginStroke k late s).web.firstSend = s.web.firstSend ∧ (beginStroke k late s).web.window = s.web.window ∧
    (beginStroke k late s).web.closing = s.web.closing ∧ (beginStroke k late s).web.candidate = s.web.candidate ∧
    (beginStroke k late s).web.missCount = s.web.missCount ∧
    (beginStroke k late s).web.cancelList = s.web.cancelList ∧ (beginStroke k late s).web.nextUid = s.web.nextUid ∧
    (beginStroke k late s).order = s.order ∧ (beginStroke k late s).pattern.slots = s.pattern.slots ∧
    (beginStroke k late s).pattern.staging = s.pattern.staging ∧
    (beginStroke k late s).pattern.uploadPattern = s.pattern.uploadPattern ∧
    (beginStroke k late s).pattern.uploadStatus = s.pattern.uploadStatus ∧
    (beginStroke k late s).pattern.run = s.pattern.run ∧
    (beginStroke k late s).pattern.heldFold = s.pattern.heldFold ∧
    (beginStroke k late s).pattern.depth = s.pattern.depth ∧ (beginStroke k late s).pattern.move = s.pattern.move ∧
    (beginStroke k late s).pattern.limitCount = s.pattern.limitCount ∧
    (beginStroke k late s).pattern.pleatedLengths = s.pattern.pleatedLengths ∧ (beginStroke k late s).roll = s.roll ∧
    (beginStroke k late s).heat = s.heat ∧ (beginStroke k late s).outfeed = s.outfeed ∧
    (beginStroke k late s).cond.checkErrors = s.cond.checkErrors ∧
    (beginStroke k late s).cond.overruns = s.cond.overruns ∧
    (beginStroke k late s).cond.straySenders = s.cond.straySenders ∧
    (beginStroke k late s).cond.strayMarks = s.cond.strayMarks ∧
    (beginStroke k late s).cond.missedMarks = s.cond.missedMarks ∧
    (beginStroke k late s).cond.limitedStrokes = s.cond.limitedStrokes ∧ (beginStroke k late s).pins = s.pins ∧
    (beginStroke k late s).pending = s.pending := by
  generalize h : beginStroke k late s = t
  unfold beginStroke at h
  dsimp only at h
  (repeat' split at h) <;> subst h <;> simp

/-- What `afterKnife` leaves as it was. -/
@[simp] theorem afterKnife_frame (s : State) :
    (afterKnife s).loader = s.loader ∧ (afterKnife s).bus.rx = s.bus.rx ∧
    (afterKnife s).bus.latchRoster = s.bus.latchRoster ∧ (afterKnife s).bus.latchTerminal = s.bus.latchTerminal ∧
    (afterKnife s).bus.faultCount = s.bus.faultCount ∧ (afterKnife s).bus.off = s.bus.off ∧
    (afterKnife s).bus.recovery = s.bus.recovery ∧ (afterKnife s).bus.duplicate = s.bus.duplicate ∧
    (afterKnife s).peers = s.peers ∧ (afterKnife s).gov = s.gov ∧ (afterKnife s).web.infeed = s.web.infeed ∧
    (afterKnife s).web.outfeed = s.web.outfeed ∧ (afterKnife s).web.p0 = s.web.p0 ∧
    (afterKnife s).web.expected = s.web.expected ∧ (afterKnife s).web.firstSend = s.web.firstSend ∧
    (afterKnife s).web.window = s.web.window ∧ (afterKnife s).web.closing = s.web.closing ∧
    (afterKnife s).web.candidate = s.web.candidate ∧ (afterKnife s).web.missCount = s.web.missCount ∧
    (afterKnife s).web.cancelList = s.web.cancelList ∧ (afterKnife s).web.nextUid = s.web.nextUid ∧
    (afterKnife s).order = s.order ∧ (afterKnife s).pattern.slots = s.pattern.slots ∧
    (afterKnife s).pattern.staging = s.pattern.staging ∧
    (afterKnife s).pattern.uploadPattern = s.pattern.uploadPattern ∧
    (afterKnife s).pattern.uploadStatus = s.pattern.uploadStatus ∧ (afterKnife s).pattern.run = s.pattern.run ∧
    (afterKnife s).pattern.depth = s.pattern.depth ∧ (afterKnife s).pattern.limitCount = s.pattern.limitCount ∧
    (afterKnife s).pattern.pleatedLengths = s.pattern.pleatedLengths ∧ (afterKnife s).roll = s.roll ∧
    (afterKnife s).heat = s.heat ∧ (afterKnife s).outfeed = s.outfeed ∧
    (afterKnife s).cond.checkErrors = s.cond.checkErrors ∧ (afterKnife s).cond.overruns = s.cond.overruns ∧
    (afterKnife s).cond.straySenders = s.cond.straySenders ∧ (afterKnife s).cond.strayMarks = s.cond.strayMarks ∧
    (afterKnife s).cond.missedMarks = s.cond.missedMarks ∧
    (afterKnife s).cond.limitedStrokes = s.cond.limitedStrokes ∧ (afterKnife s).pins = s.pins ∧
    (afterKnife s).pending = s.pending := by
  generalize h : afterKnife s = t
  unfold afterKnife at h
  (repeat' split at h) <;> subst h <;> simp

/-- What `idleKnife` leaves as it was. -/
@[simp] theorem idleKnife_frame (s : State) :
    (idleKnife s).loader = s.loader ∧ (idleKnife s).bus = s.bus ∧ (idleKnife s).peers = s.peers ∧
    (idleKnife s).gov = s.gov ∧ (idleKnife s).web = s.web ∧ (idleKnife s).order = s.order ∧
    (idleKnife s).pattern.slots = s.pattern.slots ∧ (idleKnife s).pattern.staging = s.pattern.staging ∧
    (idleKnife s).pattern.uploadPattern = s.pattern.uploadPattern ∧
    (idleKnife s).pattern.uploadStatus = s.pattern.uploadStatus ∧ (idleKnife s).pattern.run = s.pattern.run ∧
    (idleKnife s).pattern.heldFold = s.pattern.heldFold ∧ (idleKnife s).pattern.depth = s.pattern.depth ∧
    (idleKnife s).pattern.move = s.pattern.move ∧ (idleKnife s).pattern.limitCount = s.pattern.limitCount ∧
    (idleKnife s).pattern.pleatedLengths = s.pattern.pleatedLengths ∧ (idleKnife s).roll = s.roll ∧
    (idleKnife s).heat = s.heat ∧ (idleKnife s).outfeed = s.outfeed ∧ (idleKnife s).cond = s.cond ∧
    (idleKnife s).pins = s.pins ∧ (idleKnife s).pending = s.pending := by
  simp [idleKnife]

/-- What `dropHeldFold` leaves as it was. -/
@[simp] theorem dropHeldFold_frame (s : State) :
    (dropHeldFold s).loader = s.loader ∧ (dropHeldFold s).bus.rx = s.bus.rx ∧
    (dropHeldFold s).bus.latchRoster = s.bus.latchRoster ∧ (dropHeldFold s).bus.latchTerminal = s.bus.latchTerminal ∧
    (dropHeldFold s).bus.faultCount = s.bus.faultCount ∧ (dropHeldFold s).bus.off = s.bus.off ∧
    (dropHeldFold s).bus.recovery = s.bus.recovery ∧ (dropHeldFold s).bus.duplicate = s.bus.duplicate ∧
    (dropHeldFold s).peers = s.peers ∧ (dropHeldFold s).gov = s.gov ∧ (dropHeldFold s).web.infeed = s.web.infeed ∧
    (dropHeldFold s).web.outfeed = s.web.outfeed ∧ (dropHeldFold s).web.p0 = s.web.p0 ∧
    (dropHeldFold s).web.expected = s.web.expected ∧ (dropHeldFold s).web.firstSend = s.web.firstSend ∧
    (dropHeldFold s).web.window = s.web.window ∧ (dropHeldFold s).web.closing = s.web.closing ∧
    (dropHeldFold s).web.candidate = s.web.candidate ∧ (dropHeldFold s).web.missCount = s.web.missCount ∧
    (dropHeldFold s).web.cancelList = s.web.cancelList ∧ (dropHeldFold s).web.nextUid = s.web.nextUid ∧
    (dropHeldFold s).order = s.order ∧ (dropHeldFold s).pattern.slots = s.pattern.slots ∧
    (dropHeldFold s).pattern.staging = s.pattern.staging ∧
    (dropHeldFold s).pattern.uploadPattern = s.pattern.uploadPattern ∧
    (dropHeldFold s).pattern.uploadStatus = s.pattern.uploadStatus ∧ (dropHeldFold s).pattern.run = s.pattern.run ∧
    (dropHeldFold s).pattern.stroke = s.pattern.stroke ∧ (dropHeldFold s).pattern.depth = s.pattern.depth ∧
    (dropHeldFold s).pattern.move = s.pattern.move ∧ (dropHeldFold s).pattern.limitCount = s.pattern.limitCount ∧
    (dropHeldFold s).pattern.pleatedLengths = s.pattern.pleatedLengths ∧ (dropHeldFold s).roll = s.roll ∧
    (dropHeldFold s).heat = s.heat ∧ (dropHeldFold s).outfeed = s.outfeed ∧
    (dropHeldFold s).cond.checkErrors = s.cond.checkErrors ∧ (dropHeldFold s).cond.overruns = s.cond.overruns ∧
    (dropHeldFold s).cond.straySenders = s.cond.straySenders ∧ (dropHeldFold s).cond.strayMarks = s.cond.strayMarks ∧
    (dropHeldFold s).cond.missedMarks = s.cond.missedMarks ∧
    (dropHeldFold s).cond.limitedStrokes = s.cond.limitedStrokes ∧ (dropHeldFold s).pins = s.pins ∧
    (dropHeldFold s).pending = s.pending := by
  generalize h : dropHeldFold s = t
  unfold dropHeldFold at h
  (repeat' split at h) <;> subst h <;> simp

/-- What `endRun` leaves as it was. -/
@[simp] theorem endRun_frame (s : State) :
    (endRun s).loader = s.loader ∧ (endRun s).bus.rx = s.bus.rx ∧ (endRun s).bus.latchRoster = s.bus.latchRoster ∧
    (endRun s).bus.latchTerminal = s.bus.latchTerminal ∧ (endRun s).bus.faultCount = s.bus.faultCount ∧
    (endRun s).bus.off = s.bus.off ∧ (endRun s).bus.recovery = s.bus.recovery ∧
    (endRun s).bus.duplicate = s.bus.duplicate ∧ (endRun s).peers = s.peers ∧ (endRun s).gov = s.gov ∧
    (endRun s).web.infeed = s.web.infeed ∧ (endRun s).web.outfeed = s.web.outfeed ∧ (endRun s).web.p0 = s.web.p0 ∧
    (endRun s).web.expected = s.web.expected ∧ (endRun s).web.firstSend = s.web.firstSend ∧
    (endRun s).web.window = s.web.window ∧ (endRun s).web.closing = s.web.closing ∧
    (endRun s).web.candidate = s.web.candidate ∧ (endRun s).web.missCount = s.web.missCount ∧
    (endRun s).web.cancelList = s.web.cancelList ∧ (endRun s).web.nextUid = s.web.nextUid ∧
    (endRun s).order = s.order ∧ (endRun s).pattern.staging = s.pattern.staging ∧
    (endRun s).pattern.uploadPattern = s.pattern.uploadPattern ∧ (endRun s).pattern.stroke = s.pattern.stroke ∧
    (endRun s).pattern.depth = s.pattern.depth ∧ (endRun s).pattern.move = s.pattern.move ∧
    (endRun s).pattern.limitCount = s.pattern.limitCount ∧
    (endRun s).pattern.pleatedLengths = s.pattern.pleatedLengths ∧ (endRun s).roll = s.roll ∧
    (endRun s).heat = s.heat ∧ (endRun s).outfeed = s.outfeed ∧ (endRun s).cond.checkErrors = s.cond.checkErrors ∧
    (endRun s).cond.overruns = s.cond.overruns ∧ (endRun s).cond.straySenders = s.cond.straySenders ∧
    (endRun s).cond.strayMarks = s.cond.strayMarks ∧ (endRun s).cond.missedMarks = s.cond.missedMarks ∧
    (endRun s).cond.limitedStrokes = s.cond.limitedStrokes ∧ (endRun s).pins = s.pins ∧
    (endRun s).pending = s.pending := by
  generalize h : endRun s = t
  unfold endRun at h
  (repeat' split at h) <;> subst h <;> simp

/-- What `startRun` leaves as it was. -/
@[simp] theorem startRun_frame (g : Segment) (s : State) :
    (startRun g s).loader = s.loader ∧ (startRun g s).bus.rx = s.bus.rx ∧
    (startRun g s).bus.latchRoster = s.bus.latchRoster ∧ (startRun g s).bus.latchTerminal = s.bus.latchTerminal ∧
    (startRun g s).bus.faultCount = s.bus.faultCount ∧ (startRun g s).bus.off = s.bus.off ∧
    (startRun g s).bus.recovery = s.bus.recovery ∧ (startRun g s).bus.duplicate = s.bus.duplicate ∧
    (startRun g s).peers = s.peers ∧ (startRun g s).gov = s.gov ∧ (startRun g s).web.infeed = s.web.infeed ∧
    (startRun g s).web.outfeed = s.web.outfeed ∧ (startRun g s).web.p0 = s.web.p0 ∧
    (startRun g s).web.expected = s.web.expected ∧ (startRun g s).web.firstSend = s.web.firstSend ∧
    (startRun g s).web.window = s.web.window ∧ (startRun g s).web.closing = s.web.closing ∧
    (startRun g s).web.candidate = s.web.candidate ∧ (startRun g s).web.missCount = s.web.missCount ∧
    (startRun g s).web.cancelList = s.web.cancelList ∧ (startRun g s).web.nextUid = s.web.nextUid ∧
    (startRun g s).order = s.order ∧ (startRun g s).pattern.staging = s.pattern.staging ∧
    (startRun g s).pattern.uploadPattern = s.pattern.uploadPattern ∧
    (startRun g s).pattern.stroke = s.pattern.stroke ∧ (startRun g s).pattern.depth = s.pattern.depth ∧
    (startRun g s).pattern.limitCount = s.pattern.limitCount ∧ (startRun g s).roll = s.roll ∧
    (startRun g s).heat = s.heat ∧ (startRun g s).outfeed = s.outfeed ∧
    (startRun g s).cond.checkErrors = s.cond.checkErrors ∧ (startRun g s).cond.overruns = s.cond.overruns ∧
    (startRun g s).cond.straySenders = s.cond.straySenders ∧ (startRun g s).cond.strayMarks = s.cond.strayMarks ∧
    (startRun g s).cond.missedMarks = s.cond.missedMarks ∧
    (startRun g s).cond.limitedStrokes = s.cond.limitedStrokes ∧ (startRun g s).pins = s.pins ∧
    (startRun g s).pending = s.pending := by
  generalize h : startRun g s = t
  unfold startRun at h
  dsimp only at h
  (repeat' split at h) <;> subst h <;> simp

/-- What `takeFold` leaves as it was. -/
@[simp] theorem takeFold_frame (s : State) :
    (takeFold s).loader = s.loader ∧ (takeFold s).bus.rx = s.bus.rx ∧
    (takeFold s).bus.latchRoster = s.bus.latchRoster ∧ (takeFold s).bus.latchTerminal = s.bus.latchTerminal ∧
    (takeFold s).bus.faultCount = s.bus.faultCount ∧ (takeFold s).bus.off = s.bus.off ∧
    (takeFold s).bus.recovery = s.bus.recovery ∧ (takeFold s).bus.duplicate = s.bus.duplicate ∧
    (takeFold s).peers = s.peers ∧ (takeFold s).gov = s.gov ∧ (takeFold s).web.infeed = s.web.infeed ∧
    (takeFold s).web.outfeed = s.web.outfeed ∧ (takeFold s).web.p0 = s.web.p0 ∧
    (takeFold s).web.expected = s.web.expected ∧ (takeFold s).web.firstSend = s.web.firstSend ∧
    (takeFold s).web.window = s.web.window ∧ (takeFold s).web.closing = s.web.closing ∧
    (takeFold s).web.candidate = s.web.candidate ∧ (takeFold s).web.missCount = s.web.missCount ∧
    (takeFold s).web.cancelList = s.web.cancelList ∧ (takeFold s).web.nextUid = s.web.nextUid ∧
    (takeFold s).order = s.order ∧ (takeFold s).pattern.slots = s.pattern.slots ∧
    (takeFold s).pattern.staging = s.pattern.staging ∧ (takeFold s).pattern.uploadPattern = s.pattern.uploadPattern ∧
    (takeFold s).pattern.uploadStatus = s.pattern.uploadStatus ∧ (takeFold s).pattern.depth = s.pattern.depth ∧
    (takeFold s).pattern.limitCount = s.pattern.limitCount ∧
    (takeFold s).pattern.pleatedLengths = s.pattern.pleatedLengths ∧ (takeFold s).roll = s.roll ∧
    (takeFold s).heat = s.heat ∧ (takeFold s).outfeed = s.outfeed ∧
    (takeFold s).cond.checkErrors = s.cond.checkErrors ∧ (takeFold s).cond.overruns = s.cond.overruns ∧
    (takeFold s).cond.straySenders = s.cond.straySenders ∧ (takeFold s).cond.strayMarks = s.cond.strayMarks ∧
    (takeFold s).cond.missedMarks = s.cond.missedMarks ∧ (takeFold s).cond.limitedStrokes = s.cond.limitedStrokes ∧
    (takeFold s).pins = s.pins ∧ (takeFold s).pending = s.pending := by
  generalize h : takeFold s = t
  unfold takeFold at h
  dsimp only at h
  (repeat' split at h) <;> subst h <;> simp

/-- What `tripKnife` leaves as it was. -/
@[simp] theorem tripKnife_frame (s : State) :
    (tripKnife s).loader = s.loader ∧ (tripKnife s).bus.rx = s.bus.rx ∧
    (tripKnife s).bus.latchRoster = s.bus.latchRoster ∧ (tripKnife s).bus.latchTerminal = s.bus.latchTerminal ∧
    (tripKnife s).bus.faultCount = s.bus.faultCount ∧ (tripKnife s).bus.off = s.bus.off ∧
    (tripKnife s).bus.recovery = s.bus.recovery ∧ (tripKnife s).bus.duplicate = s.bus.duplicate ∧
    (tripKnife s).peers = s.peers ∧ (tripKnife s).gov = s.gov ∧ (tripKnife s).web.infeed = s.web.infeed ∧
    (tripKnife s).web.outfeed = s.web.outfeed ∧ (tripKnife s).web.p0 = s.web.p0 ∧
    (tripKnife s).web.expected = s.web.expected ∧ (tripKnife s).web.firstSend = s.web.firstSend ∧
    (tripKnife s).web.window = s.web.window ∧ (tripKnife s).web.closing = s.web.closing ∧
    (tripKnife s).web.candidate = s.web.candidate ∧ (tripKnife s).web.missCount = s.web.missCount ∧
    (tripKnife s).web.cancelList = s.web.cancelList ∧ (tripKnife s).web.nextUid = s.web.nextUid ∧
    (tripKnife s).order = s.order ∧ (tripKnife s).pattern.slots = s.pattern.slots ∧
    (tripKnife s).pattern.staging = s.pattern.staging ∧
    (tripKnife s).pattern.uploadPattern = s.pattern.uploadPattern ∧
    (tripKnife s).pattern.uploadStatus = s.pattern.uploadStatus ∧ (tripKnife s).pattern.run = s.pattern.run ∧
    (tripKnife s).pattern.depth = s.pattern.depth ∧ (tripKnife s).pattern.move = s.pattern.move ∧
    (tripKnife s).pattern.limitCount = s.pattern.limitCount ∧
    (tripKnife s).pattern.pleatedLengths = s.pattern.pleatedLengths ∧ (tripKnife s).roll = s.roll ∧
    (tripKnife s).heat = s.heat ∧ (tripKnife s).outfeed = s.outfeed ∧
    (tripKnife s).cond.checkErrors = s.cond.checkErrors ∧ (tripKnife s).cond.overruns = s.cond.overruns ∧
    (tripKnife s).cond.straySenders = s.cond.straySenders ∧ (tripKnife s).cond.strayMarks = s.cond.strayMarks ∧
    (tripKnife s).cond.missedMarks = s.cond.missedMarks ∧ (tripKnife s).cond.limitedStrokes = s.cond.limitedStrokes ∧
    (tripKnife s).pins = s.pins ∧ (tripKnife s).pending = s.pending := by
  generalize h : tripKnife s = t
  unfold tripKnife at h
  (repeat' split at h) <;> subst h <;> simp

/-- What `dropSegKnife` leaves as it was. -/
@[simp] theorem dropSegKnife_frame (uid : Nat) (s : State) :
    (dropSegKnife uid s).loader = s.loader ∧ (dropSegKnife uid s).bus.rx = s.bus.rx ∧
    (dropSegKnife uid s).bus.latchRoster = s.bus.latchRoster ∧
    (dropSegKnife uid s).bus.latchTerminal = s.bus.latchTerminal ∧
    (dropSegKnife uid s).bus.faultCount = s.bus.faultCount ∧ (dropSegKnife uid s).bus.off = s.bus.off ∧
    (dropSegKnife uid s).bus.recovery = s.bus.recovery ∧ (dropSegKnife uid s).bus.duplicate = s.bus.duplicate ∧
    (dropSegKnife uid s).peers = s.peers ∧ (dropSegKnife uid s).gov = s.gov ∧
    (dropSegKnife uid s).web.infeed = s.web.infeed ∧ (dropSegKnife uid s).web.outfeed = s.web.outfeed ∧
    (dropSegKnife uid s).web.p0 = s.web.p0 ∧ (dropSegKnife uid s).web.expected = s.web.expected ∧
    (dropSegKnife uid s).web.firstSend = s.web.firstSend ∧ (dropSegKnife uid s).web.window = s.web.window ∧
    (dropSegKnife uid s).web.closing = s.web.closing ∧ (dropSegKnife uid s).web.candidate = s.web.candidate ∧
    (dropSegKnife uid s).web.missCount = s.web.missCount ∧ (dropSegKnife uid s).web.cancelList = s.web.cancelList ∧
    (dropSegKnife uid s).web.nextUid = s.web.nextUid ∧ (dropSegKnife uid s).order = s.order ∧
    (dropSegKnife uid s).pattern.staging = s.pattern.staging ∧
    (dropSegKnife uid s).pattern.uploadPattern = s.pattern.uploadPattern ∧
    (dropSegKnife uid s).pattern.stroke = s.pattern.stroke ∧ (dropSegKnife uid s).pattern.depth = s.pattern.depth ∧
    (dropSegKnife uid s).pattern.move = s.pattern.move ∧
    (dropSegKnife uid s).pattern.limitCount = s.pattern.limitCount ∧ (dropSegKnife uid s).roll = s.roll ∧
    (dropSegKnife uid s).heat = s.heat ∧ (dropSegKnife uid s).outfeed = s.outfeed ∧
    (dropSegKnife uid s).cond.checkErrors = s.cond.checkErrors ∧
    (dropSegKnife uid s).cond.overruns = s.cond.overruns ∧
    (dropSegKnife uid s).cond.straySenders = s.cond.straySenders ∧
    (dropSegKnife uid s).cond.strayMarks = s.cond.strayMarks ∧
    (dropSegKnife uid s).cond.missedMarks = s.cond.missedMarks ∧
    (dropSegKnife uid s).cond.limitedStrokes = s.cond.limitedStrokes ∧ (dropSegKnife uid s).pins = s.pins ∧
    (dropSegKnife uid s).pending = s.pending := by
  generalize h : dropSegKnife uid s = t
  unfold dropSegKnife at h
  (repeat' split at h) <;> subst h <;> simp

/-- What `setPiece` leaves as it was. -/
@[simp] theorem setPiece_frame (p : Option Piece) (s : State) :
    (setPiece p s).loader = s.loader ∧ (setPiece p s).bus = s.bus ∧ (setPiece p s).peers = s.peers ∧
    (setPiece p s).gov = s.gov ∧ (setPiece p s).web = s.web ∧ (setPiece p s).order = s.order ∧
    (setPiece p s).pattern = s.pattern ∧ (setPiece p s).roll = s.roll ∧ (setPiece p s).heat = s.heat ∧
    (setPiece p s).outfeed.cutTimer = s.outfeed.cutTimer ∧ (setPiece p s).outfeed.gate = s.outfeed.gate ∧
    (setPiece p s).outfeed.good = s.outfeed.good ∧ (setPiece p s).outfeed.reject = s.outfeed.reject ∧
    (setPiece p s).cond = s.cond ∧ (setPiece p s).pins = s.pins ∧ (setPiece p s).pending = s.pending := by
  simp [setPiece]

/-- What `setGate` leaves as it was. -/
@[simp] theorem setGate_frame (g : Gate) (s : State) :
    (setGate g s).loader = s.loader ∧ (setGate g s).bus = s.bus ∧ (setGate g s).peers = s.peers ∧
    (setGate g s).gov = s.gov ∧ (setGate g s).web = s.web ∧ (setGate g s).order = s.order ∧
    (setGate g s).pattern = s.pattern ∧ (setGate g s).roll = s.roll ∧ (setGate g s).heat = s.heat ∧
    (setGate g s).outfeed.piece = s.outfeed.piece ∧ (setGate g s).outfeed.cutTimer = s.outfeed.cutTimer ∧
    (setGate g s).outfeed.good = s.outfeed.good ∧ (setGate g s).outfeed.reject = s.outfeed.reject ∧
    (setGate g s).cond = s.cond ∧ (setGate g s).pins = s.pins ∧ (setGate g s).pending = s.pending := by
  simp [setGate]

/-- What `moveGate` leaves as it was. -/
@[simp] theorem moveGate_frame (target : GatePos) (s : State) :
    (moveGate target s).loader = s.loader ∧ (moveGate target s).bus = s.bus ∧ (moveGate target s).peers = s.peers ∧
    (moveGate target s).gov = s.gov ∧ (moveGate target s).web = s.web ∧ (moveGate target s).order = s.order ∧
    (moveGate target s).pattern = s.pattern ∧ (moveGate target s).roll = s.roll ∧ (moveGate target s).heat = s.heat ∧
    (moveGate target s).outfeed.piece = s.outfeed.piece ∧ (moveGate target s).outfeed.cutTimer = s.outfeed.cutTimer ∧
    (moveGate target s).outfeed.good = s.outfeed.good ∧ (moveGate target s).outfeed.reject = s.outfeed.reject ∧
    (moveGate target s).cond = s.cond ∧ (moveGate target s).pins = s.pins ∧ (moveGate target s).pending = s.pending := by
  generalize h : moveGate target s = t
  unfold moveGate at h
  (repeat' split at h) <;> subst h <;> simp

/-- What `gateAtDriveSet` leaves as it was. -/
@[simp] theorem gateAtDriveSet_frame (s : State) :
    (gateAtDriveSet s).loader = s.loader ∧ (gateAtDriveSet s).bus = s.bus ∧ (gateAtDriveSet s).peers = s.peers ∧
    (gateAtDriveSet s).gov = s.gov ∧ (gateAtDriveSet s).web = s.web ∧ (gateAtDriveSet s).order = s.order ∧
    (gateAtDriveSet s).pattern = s.pattern ∧ (gateAtDriveSet s).roll = s.roll ∧ (gateAtDriveSet s).heat = s.heat ∧
    (gateAtDriveSet s).outfeed.piece = s.outfeed.piece ∧ (gateAtDriveSet s).outfeed.cutTimer = s.outfeed.cutTimer ∧
    (gateAtDriveSet s).outfeed.good = s.outfeed.good ∧ (gateAtDriveSet s).outfeed.reject = s.outfeed.reject ∧
    (gateAtDriveSet s).cond = s.cond ∧ (gateAtDriveSet s).pins = s.pins ∧ (gateAtDriveSet s).pending = s.pending := by
  generalize h : gateAtDriveSet s = t
  unfold gateAtDriveSet at h
  (repeat' split at h) <;> subst h <;> simp

/-- What `outfeedDriveClear` leaves as it was. -/
@[simp] theorem outfeedDriveClear_frame (s : State) :
    (outfeedDriveClear s).loader = s.loader ∧ (outfeedDriveClear s).bus = s.bus ∧ (outfeedDriveClear s).peers = s.peers ∧
    (outfeedDriveClear s).gov = s.gov ∧ (outfeedDriveClear s).web = s.web ∧ (outfeedDriveClear s).order = s.order ∧
    (outfeedDriveClear s).pattern = s.pattern ∧ (outfeedDriveClear s).roll = s.roll ∧
    (outfeedDriveClear s).heat = s.heat ∧ (outfeedDriveClear s).outfeed.piece = s.outfeed.piece ∧
    (outfeedDriveClear s).outfeed.good = s.outfeed.good ∧ (outfeedDriveClear s).outfeed.reject = s.outfeed.reject ∧
    (outfeedDriveClear s).cond = s.cond ∧ (outfeedDriveClear s).pins = s.pins ∧
    (outfeedDriveClear s).pending = s.pending := by
  generalize h : outfeedDriveClear s = t
  unfold outfeedDriveClear at h
  dsimp only at h
  (repeat' split at h) <;> subst h <;> simp

/-- What `markGateLate` leaves as it was. -/
@[simp] theorem markGateLate_frame (uid : Nat) (s : State) :
    (markGateLate uid s).loader = s.loader ∧ (markGateLate uid s).bus.rx = s.bus.rx ∧
    (markGateLate uid s).bus.latchRoster = s.bus.latchRoster ∧
    (markGateLate uid s).bus.latchTerminal = s.bus.latchTerminal ∧
    (markGateLate uid s).bus.faultCount = s.bus.faultCount ∧ (markGateLate uid s).bus.off = s.bus.off ∧
    (markGateLate uid s).bus.recovery = s.bus.recovery ∧ (markGateLate uid s).bus.duplicate = s.bus.duplicate ∧
    (markGateLate uid s).peers = s.peers ∧ (markGateLate uid s).gov = s.gov ∧
    (markGateLate uid s).web.infeed = s.web.infeed ∧ (markGateLate uid s).web.outfeed = s.web.outfeed ∧
    (markGateLate uid s).web.p0 = s.web.p0 ∧ (markGateLate uid s).web.expected = s.web.expected ∧
    (markGateLate uid s).web.firstSend = s.web.firstSend ∧ (markGateLate uid s).web.window = s.web.window ∧
    (markGateLate uid s).web.closing = s.web.closing ∧ (markGateLate uid s).web.candidate = s.web.candidate ∧
    (markGateLate uid s).web.missCount = s.web.missCount ∧ (markGateLate uid s).web.cancelList = s.web.cancelList ∧
    (markGateLate uid s).web.nextUid = s.web.nextUid ∧ (markGateLate uid s).order = s.order ∧
    (markGateLate uid s).pattern = s.pattern ∧ (markGateLate uid s).roll = s.roll ∧
    (markGateLate uid s).heat = s.heat ∧ (markGateLate uid s).outfeed = s.outfeed ∧
    (markGateLate uid s).cond.checkErrors = s.cond.checkErrors ∧
    (markGateLate uid s).cond.overruns = s.cond.overruns ∧
    (markGateLate uid s).cond.straySenders = s.cond.straySenders ∧
    (markGateLate uid s).cond.strayMarks = s.cond.strayMarks ∧
    (markGateLate uid s).cond.missedMarks = s.cond.missedMarks ∧
    (markGateLate uid s).cond.limitedStrokes = s.cond.limitedStrokes ∧ (markGateLate uid s).pins = s.pins ∧
    (markGateLate uid s).pending = s.pending := by
  simp [markGateLate]

/-- What `panelOutcome` leaves as it was. -/
@[simp] theorem panelOutcome_frame (g : Segment) (good : Bool) (d : Option Decision) (s : State) :
    (panelOutcome g good d s).loader = s.loader ∧ (panelOutcome g good d s).bus.rx = s.bus.rx ∧
    (panelOutcome g good d s).bus.latchRoster = s.bus.latchRoster ∧
    (panelOutcome g good d s).bus.latchTerminal = s.bus.latchTerminal ∧
    (panelOutcome g good d s).bus.faultCount = s.bus.faultCount ∧ (panelOutcome g good d s).bus.off = s.bus.off ∧
    (panelOutcome g good d s).bus.recovery = s.bus.recovery ∧ (panelOutcome g good d s).bus.duplicate = s.bus.duplicate ∧
    (panelOutcome g good d s).peers = s.peers ∧ (panelOutcome g good d s).gov = s.gov ∧
    (panelOutcome g good d s).web = s.web ∧ (panelOutcome g good d s).order = s.order ∧
    (panelOutcome g good d s).pattern = s.pattern ∧ (panelOutcome g good d s).roll = s.roll ∧
    (panelOutcome g good d s).heat = s.heat ∧ (panelOutcome g good d s).outfeed.piece = s.outfeed.piece ∧
    (panelOutcome g good d s).outfeed.cutTimer = s.outfeed.cutTimer ∧
    (panelOutcome g good d s).outfeed.gate = s.outfeed.gate ∧ (panelOutcome g good d s).cond.flags = s.cond.flags ∧
    (panelOutcome g good d s).cond.checkErrors = s.cond.checkErrors ∧
    (panelOutcome g good d s).cond.overruns = s.cond.overruns ∧
    (panelOutcome g good d s).cond.straySenders = s.cond.straySenders ∧
    (panelOutcome g good d s).cond.strayMarks = s.cond.strayMarks ∧
    (panelOutcome g good d s).cond.missedMarks = s.cond.missedMarks ∧
    (panelOutcome g good d s).cond.limitedStrokes = s.cond.limitedStrokes ∧
    (panelOutcome g good d s).cond.wakeDue = s.cond.wakeDue ∧ (panelOutcome g good d s).pins = s.pins ∧
    (panelOutcome g good d s).pending = s.pending := by
  generalize h : panelOutcome g good d s = t
  unfold panelOutcome at h
  (repeat' split at h) <;> subst h <;> simp

/-- What `openPiece` leaves as it was. -/
@[simp] theorem openPiece_frame (c : Content) (edge : Word) (s : State) :
    (openPiece c edge s).loader = s.loader ∧ (openPiece c edge s).bus.rx = s.bus.rx ∧
    (openPiece c edge s).bus.latchRoster = s.bus.latchRoster ∧
    (openPiece c edge s).bus.latchTerminal = s.bus.latchTerminal ∧
    (openPiece c edge s).bus.faultCount = s.bus.faultCount ∧ (openPiece c edge s).bus.off = s.bus.off ∧
    (openPiece c edge s).bus.recovery = s.bus.recovery ∧ (openPiece c edge s).bus.duplicate = s.bus.duplicate ∧
    (openPiece c edge s).peers = s.peers ∧ (openPiece c edge s).gov = s.gov ∧
    (openPiece c edge s).web.infeed = s.web.infeed ∧ (openPiece c edge s).web.outfeed = s.web.outfeed ∧
    (openPiece c edge s).web.p0 = s.web.p0 ∧ (openPiece c edge s).web.expected = s.web.expected ∧
    (openPiece c edge s).web.firstSend = s.web.firstSend ∧ (openPiece c edge s).web.window = s.web.window ∧
    (openPiece c edge s).web.closing = s.web.closing ∧ (openPiece c edge s).web.candidate = s.web.candidate ∧
    (openPiece c edge s).web.missCount = s.web.missCount ∧ (openPiece c edge s).web.cancelList = s.web.cancelList ∧
    (openPiece c edge s).web.nextUid = s.web.nextUid ∧ (openPiece c edge s).order = s.order ∧
    (openPiece c edge s).pattern = s.pattern ∧ (openPiece c edge s).roll = s.roll ∧
    (openPiece c edge s).heat = s.heat ∧ (openPiece c edge s).outfeed.cutTimer = s.outfeed.cutTimer ∧
    (openPiece c edge s).outfeed.good = s.outfeed.good ∧ (openPiece c edge s).outfeed.reject = s.outfeed.reject ∧
    (openPiece c edge s).cond.checkErrors = s.cond.checkErrors ∧
    (openPiece c edge s).cond.overruns = s.cond.overruns ∧
    (openPiece c edge s).cond.straySenders = s.cond.straySenders ∧
    (openPiece c edge s).cond.strayMarks = s.cond.strayMarks ∧
    (openPiece c edge s).cond.missedMarks = s.cond.missedMarks ∧
    (openPiece c edge s).cond.limitedStrokes = s.cond.limitedStrokes ∧ (openPiece c edge s).pins = s.pins ∧
    (openPiece c edge s).pending = s.pending := by
  generalize h : openPiece c edge s = t
  unfold openPiece at h
  dsimp only at h
  (repeat' split at h) <;> subst h <;> simp

/-- What `joinPiece` leaves as it was. -/
@[simp] theorem joinPiece_frame (entering : Content) (s : State) :
    (joinPiece entering s).loader = s.loader ∧ (joinPiece entering s).bus.rx = s.bus.rx ∧
    (joinPiece entering s).bus.latchRoster = s.bus.latchRoster ∧
    (joinPiece entering s).bus.latchTerminal = s.bus.latchTerminal ∧
    (joinPiece entering s).bus.faultCount = s.bus.faultCount ∧ (joinPiece entering s).bus.off = s.bus.off ∧
    (joinPiece entering s).bus.recovery = s.bus.recovery ∧ (joinPiece entering s).bus.duplicate = s.bus.duplicate ∧
    (joinPiece entering s).peers = s.peers ∧ (joinPiece entering s).gov = s.gov ∧
    (joinPiece entering s).web.infeed = s.web.infeed ∧ (joinPiece entering s).web.outfeed = s.web.outfeed ∧
    (joinPiece entering s).web.p0 = s.web.p0 ∧ (joinPiece entering s).web.expected = s.web.expected ∧
    (joinPiece entering s).web.firstSend = s.web.firstSend ∧ (joinPiece entering s).web.window = s.web.window ∧
    (joinPiece entering s).web.closing = s.web.closing ∧ (joinPiece entering s).web.candidate = s.web.candidate ∧
    (joinPiece entering s).web.missCount = s.web.missCount ∧
    (joinPiece entering s).web.cancelList = s.web.cancelList ∧ (joinPiece entering s).web.nextUid = s.web.nextUid ∧
    (joinPiece entering s).order = s.order ∧ (joinPiece entering s).pattern = s.pattern ∧
    (joinPiece entering s).roll = s.roll ∧ (joinPiece entering s).heat = s.heat ∧
    (joinPiece entering s).outfeed.cutTimer = s.outfeed.cutTimer ∧
    (joinPiece entering s).cond.checkErrors = s.cond.checkErrors ∧
    (joinPiece entering s).cond.overruns = s.cond.overruns ∧
    (joinPiece entering s).cond.straySenders = s.cond.straySenders ∧
    (joinPiece entering s).cond.strayMarks = s.cond.strayMarks ∧
    (joinPiece entering s).cond.missedMarks = s.cond.missedMarks ∧
    (joinPiece entering s).cond.limitedStrokes = s.cond.limitedStrokes ∧ (joinPiece entering s).pins = s.pins ∧
    (joinPiece entering s).pending = s.pending := by
  generalize h : joinPiece entering s = t
  unfold joinPiece at h
  dsimp only at h
  (repeat' split at h) <;> subst h <;> simp

/-- What `deliverPiece` leaves as it was. -/
@[simp] theorem deliverPiece_frame (s : State) :
    (deliverPiece s).loader = s.loader ∧ (deliverPiece s).bus.rx = s.bus.rx ∧
    (deliverPiece s).bus.latchRoster = s.bus.latchRoster ∧ (deliverPiece s).bus.latchTerminal = s.bus.latchTerminal ∧
    (deliverPiece s).bus.faultCount = s.bus.faultCount ∧ (deliverPiece s).bus.off = s.bus.off ∧
    (deliverPiece s).bus.recovery = s.bus.recovery ∧ (deliverPiece s).bus.duplicate = s.bus.duplicate ∧
    (deliverPiece s).peers = s.peers ∧ (deliverPiece s).gov = s.gov ∧ (deliverPiece s).web = s.web ∧
    (deliverPiece s).order = s.order ∧ (deliverPiece s).pattern = s.pattern ∧ (deliverPiece s).roll = s.roll ∧
    (deliverPiece s).heat = s.heat ∧ (deliverPiece s).outfeed.piece = s.outfeed.piece ∧
    (deliverPiece s).outfeed.cutTimer = s.outfeed.cutTimer ∧ (deliverPiece s).outfeed.gate = s.outfeed.gate ∧
    (deliverPiece s).cond.flags = s.cond.flags ∧ (deliverPiece s).cond.checkErrors = s.cond.checkErrors ∧
    (deliverPiece s).cond.overruns = s.cond.overruns ∧ (deliverPiece s).cond.straySenders = s.cond.straySenders ∧
    (deliverPiece s).cond.strayMarks = s.cond.strayMarks ∧ (deliverPiece s).cond.missedMarks = s.cond.missedMarks ∧
    (deliverPiece s).cond.limitedStrokes = s.cond.limitedStrokes ∧ (deliverPiece s).cond.wakeDue = s.cond.wakeDue ∧
    (deliverPiece s).pins = s.pins ∧ (deliverPiece s).pending = s.pending := by
  generalize h : deliverPiece s = t
  unfold deliverPiece at h
  (repeat' split at h) <;> subst h <;> simp

/-- What `takeBoundary` leaves as it was. -/
@[simp] theorem takeBoundary_frame (entering : Content) (edge : Word) (s : State) :
    (takeBoundary entering edge s).loader = s.loader ∧ (takeBoundary entering edge s).bus.rx = s.bus.rx ∧
    (takeBoundary entering edge s).bus.latchRoster = s.bus.latchRoster ∧
    (takeBoundary entering edge s).bus.latchTerminal = s.bus.latchTerminal ∧
    (takeBoundary entering edge s).bus.faultCount = s.bus.faultCount ∧
    (takeBoundary entering edge s).bus.off = s.bus.off ∧
    (takeBoundary entering edge s).bus.recovery = s.bus.recovery ∧
    (takeBoundary entering edge s).bus.duplicate = s.bus.duplicate ∧ (takeBoundary entering edge s).peers = s.peers ∧
    (takeBoundary entering edge s).gov = s.gov ∧ (takeBoundary entering edge s).web.infeed = s.web.infeed ∧
    (takeBoundary entering edge s).web.outfeed = s.web.outfeed ∧ (takeBoundary entering edge s).web.p0 = s.web.p0 ∧
    (takeBoundary entering edge s).web.expected = s.web.expected ∧
    (takeBoundary entering edge s).web.firstSend = s.web.firstSend ∧
    (takeBoundary entering edge s).web.window = s.web.window ∧
    (takeBoundary entering edge s).web.closing = s.web.closing ∧
    (takeBoundary entering edge s).web.candidate = s.web.candidate ∧
    (takeBoundary entering edge s).web.missCount = s.web.missCount ∧
    (takeBoundary entering edge s).web.cancelList = s.web.cancelList ∧
    (takeBoundary entering edge s).web.nextUid = s.web.nextUid ∧ (takeBoundary entering edge s).order = s.order ∧
    (takeBoundary entering edge s).pattern = s.pattern ∧ (takeBoundary entering edge s).roll = s.roll ∧
    (takeBoundary entering edge s).heat = s.heat ∧
    (takeBoundary entering edge s).cond.checkErrors = s.cond.checkErrors ∧
    (takeBoundary entering edge s).cond.overruns = s.cond.overruns ∧
    (takeBoundary entering edge s).cond.straySenders = s.cond.straySenders ∧
    (takeBoundary entering edge s).cond.strayMarks = s.cond.strayMarks ∧
    (takeBoundary entering edge s).cond.missedMarks = s.cond.missedMarks ∧
    (takeBoundary entering edge s).cond.limitedStrokes = s.cond.limitedStrokes ∧
    (takeBoundary entering edge s).pins = s.pins ∧ (takeBoundary entering edge s).pending = s.pending := by
  generalize h : takeBoundary entering edge s = t
  unfold takeBoundary at h
  dsimp only at h
  (repeat' split at h) <;> subst h <;> simp

/-- What `retestPiece` leaves as it was. -/
@[simp] theorem retestPiece_frame (s : State) :
    (retestPiece s).loader = s.loader ∧ (retestPiece s).bus.rx = s.bus.rx ∧
    (retestPiece s).bus.latchRoster = s.bus.latchRoster ∧ (retestPiece s).bus.latchTerminal = s.bus.latchTerminal ∧
    (retestPiece s).bus.faultCount = s.bus.faultCount ∧ (retestPiece s).bus.off = s.bus.off ∧
    (retestPiece s).bus.recovery = s.bus.recovery ∧ (retestPiece s).bus.duplicate = s.bus.duplicate ∧
    (retestPiece s).peers = s.peers ∧ (retestPiece s).gov = s.gov ∧ (retestPiece s).web.infeed = s.web.infeed ∧
    (retestPiece s).web.outfeed = s.web.outfeed ∧ (retestPiece s).web.p0 = s.web.p0 ∧
    (retestPiece s).web.expected = s.web.expected ∧ (retestPiece s).web.firstSend = s.web.firstSend ∧
    (retestPiece s).web.window = s.web.window ∧ (retestPiece s).web.closing = s.web.closing ∧
    (retestPiece s).web.candidate = s.web.candidate ∧ (retestPiece s).web.missCount = s.web.missCount ∧
    (retestPiece s).web.cancelList = s.web.cancelList ∧ (retestPiece s).web.nextUid = s.web.nextUid ∧
    (retestPiece s).order = s.order ∧ (retestPiece s).pattern = s.pattern ∧ (retestPiece s).roll = s.roll ∧
    (retestPiece s).heat = s.heat ∧ (retestPiece s).outfeed.cutTimer = s.outfeed.cutTimer ∧
    (retestPiece s).outfeed.good = s.outfeed.good ∧ (retestPiece s).outfeed.reject = s.outfeed.reject ∧
    (retestPiece s).cond.checkErrors = s.cond.checkErrors ∧ (retestPiece s).cond.overruns = s.cond.overruns ∧
    (retestPiece s).cond.straySenders = s.cond.straySenders ∧ (retestPiece s).cond.strayMarks = s.cond.strayMarks ∧
    (retestPiece s).cond.missedMarks = s.cond.missedMarks ∧
    (retestPiece s).cond.limitedStrokes = s.cond.limitedStrokes ∧ (retestPiece s).pins = s.pins ∧
    (retestPiece s).pending = s.pending := by
  generalize h : retestPiece s = t
  unfold retestPiece at h
  dsimp only at h
  (repeat' split at h) <;> subst h <;> simp

/-- What `dropSegOutfeed` leaves as it was. -/
@[simp] theorem dropSegOutfeed_frame (g : Segment) (s : State) :
    (dropSegOutfeed g s).loader = s.loader ∧ (dropSegOutfeed g s).bus.rx = s.bus.rx ∧
    (dropSegOutfeed g s).bus.latchRoster = s.bus.latchRoster ∧
    (dropSegOutfeed g s).bus.latchTerminal = s.bus.latchTerminal ∧
    (dropSegOutfeed g s).bus.faultCount = s.bus.faultCount ∧ (dropSegOutfeed g s).bus.off = s.bus.off ∧
    (dropSegOutfeed g s).bus.recovery = s.bus.recovery ∧ (dropSegOutfeed g s).bus.duplicate = s.bus.duplicate ∧
    (dropSegOutfeed g s).peers = s.peers ∧ (dropSegOutfeed g s).gov = s.gov ∧ (dropSegOutfeed g s).web = s.web ∧
    (dropSegOutfeed g s).order = s.order ∧ (dropSegOutfeed g s).pattern = s.pattern ∧
    (dropSegOutfeed g s).roll = s.roll ∧ (dropSegOutfeed g s).heat = s.heat ∧
    (dropSegOutfeed g s).outfeed.piece = s.outfeed.piece ∧ (dropSegOutfeed g s).outfeed.cutTimer = s.outfeed.cutTimer ∧
    (dropSegOutfeed g s).outfeed.gate = s.outfeed.gate ∧ (dropSegOutfeed g s).cond.flags = s.cond.flags ∧
    (dropSegOutfeed g s).cond.checkErrors = s.cond.checkErrors ∧ (dropSegOutfeed g s).cond.overruns = s.cond.overruns ∧
    (dropSegOutfeed g s).cond.straySenders = s.cond.straySenders ∧
    (dropSegOutfeed g s).cond.strayMarks = s.cond.strayMarks ∧
    (dropSegOutfeed g s).cond.missedMarks = s.cond.missedMarks ∧
    (dropSegOutfeed g s).cond.limitedStrokes = s.cond.limitedStrokes ∧
    (dropSegOutfeed g s).cond.wakeDue = s.cond.wakeDue ∧ (dropSegOutfeed g s).pins = s.pins ∧
    (dropSegOutfeed g s).pending = s.pending := by
  generalize h : dropSegOutfeed g s = t
  unfold dropSegOutfeed at h
  (repeat' split at h) <;> subst h <;> simp

/-- What `setChannel` leaves as it was. -/
@[simp] theorem setChannel_frame (n : Nat) (x : Channel) (s : State) :
    (setChannel n x s).loader = s.loader ∧ (setChannel n x s).bus = s.bus ∧ (setChannel n x s).peers = s.peers ∧
    (setChannel n x s).gov = s.gov ∧ (setChannel n x s).web = s.web ∧ (setChannel n x s).order = s.order ∧
    (setChannel n x s).pattern = s.pattern ∧ (setChannel n x s).roll = s.roll ∧
    (setChannel n x s).heat.recipes = s.heat.recipes ∧ (setChannel n x s).heat.zones = s.heat.zones ∧
    (setChannel n x s).heat.chamber = s.heat.chamber ∧ (setChannel n x s).heat.bandCount = s.heat.bandCount ∧
    (setChannel n x s).heat.parkTimer = s.heat.parkTimer ∧ (setChannel n x s).heat.heatTimer = s.heat.heatTimer ∧
    (setChannel n x s).heat.cells = s.heat.cells ∧ (setChannel n x s).heat.shiftAnchor = s.heat.shiftAnchor ∧
    (setChannel n x s).heat.judgements = s.heat.judgements ∧ (setChannel n x s).outfeed = s.outfeed ∧
    (setChannel n x s).cond = s.cond ∧ (setChannel n x s).pins = s.pins ∧ (setChannel n x s).pending = s.pending := by
  simp [setChannel]

/-- What `setZone` leaves as it was. -/
@[simp] theorem setZone_frame (z : Nat) (x : Zone) (s : State) :
    (setZone z x s).loader = s.loader ∧ (setZone z x s).bus = s.bus ∧ (setZone z x s).peers = s.peers ∧
    (setZone z x s).gov = s.gov ∧ (setZone z x s).web = s.web ∧ (setZone z x s).order = s.order ∧
    (setZone z x s).pattern = s.pattern ∧ (setZone z x s).roll = s.roll ∧
    (setZone z x s).heat.channels = s.heat.channels ∧ (setZone z x s).heat.recipes = s.heat.recipes ∧
    (setZone z x s).heat.chamber = s.heat.chamber ∧ (setZone z x s).heat.bandCount = s.heat.bandCount ∧
    (setZone z x s).heat.parkTimer = s.heat.parkTimer ∧ (setZone z x s).heat.heatTimer = s.heat.heatTimer ∧
    (setZone z x s).heat.cells = s.heat.cells ∧ (setZone z x s).heat.shiftAnchor = s.heat.shiftAnchor ∧
    (setZone z x s).heat.judgements = s.heat.judgements ∧ (setZone z x s).outfeed = s.outfeed ∧
    (setZone z x s).cond = s.cond ∧ (setZone z x s).pins = s.pins ∧ (setZone z x s).pending = s.pending := by
  simp [setZone]

/-- What `declareFault` leaves as it was. -/
@[simp] theorem declareFault_frame (n : Nat) (s : State) :
    (declareFault n s).loader = s.loader ∧ (declareFault n s).bus.rx = s.bus.rx ∧
    (declareFault n s).bus.latchRoster = s.bus.latchRoster ∧ (declareFault n s).bus.latchTerminal = s.bus.latchTerminal ∧
    (declareFault n s).bus.faultCount = s.bus.faultCount ∧ (declareFault n s).bus.off = s.bus.off ∧
    (declareFault n s).bus.recovery = s.bus.recovery ∧ (declareFault n s).bus.duplicate = s.bus.duplicate ∧
    (declareFault n s).peers = s.peers ∧ (declareFault n s).gov = s.gov ∧ (declareFault n s).web = s.web ∧
    (declareFault n s).order = s.order ∧ (declareFault n s).pattern = s.pattern ∧ (declareFault n s).roll = s.roll ∧
    (declareFault n s).heat.recipes = s.heat.recipes ∧ (declareFault n s).heat.chamber = s.heat.chamber ∧
    (declareFault n s).heat.bandCount = s.heat.bandCount ∧ (declareFault n s).heat.parkTimer = s.heat.parkTimer ∧
    (declareFault n s).heat.heatTimer = s.heat.heatTimer ∧ (declareFault n s).heat.cells = s.heat.cells ∧
    (declareFault n s).heat.shiftAnchor = s.heat.shiftAnchor ∧ (declareFault n s).heat.judgements = s.heat.judgements ∧
    (declareFault n s).outfeed = s.outfeed ∧ (declareFault n s).cond.checkErrors = s.cond.checkErrors ∧
    (declareFault n s).cond.overruns = s.cond.overruns ∧ (declareFault n s).cond.straySenders = s.cond.straySenders ∧
    (declareFault n s).cond.strayMarks = s.cond.strayMarks ∧ (declareFault n s).cond.missedMarks = s.cond.missedMarks ∧
    (declareFault n s).cond.limitedStrokes = s.cond.limitedStrokes ∧ (declareFault n s).pins = s.pins ∧
    (declareFault n s).pending = s.pending := by
  generalize h : declareFault n s = t
  unfold declareFault at h
  dsimp only at h
  (repeat' split at h) <;> subst h <;> simp

/-- What `clearFault` leaves as it was. -/
@[simp] theorem clearFault_frame (n : Nat) (s : State) :
    (clearFault n s).loader = s.loader ∧ (clearFault n s).bus = s.bus ∧ (clearFault n s).peers = s.peers ∧
    (clearFault n s).gov = s.gov ∧ (clearFault n s).web = s.web ∧ (clearFault n s).order = s.order ∧
    (clearFault n s).pattern = s.pattern ∧ (clearFault n s).roll = s.roll ∧
    (clearFault n s).heat.recipes = s.heat.recipes ∧ (clearFault n s).heat.zones = s.heat.zones ∧
    (clearFault n s).heat.chamber = s.heat.chamber ∧ (clearFault n s).heat.bandCount = s.heat.bandCount ∧
    (clearFault n s).heat.parkTimer = s.heat.parkTimer ∧ (clearFault n s).heat.heatTimer = s.heat.heatTimer ∧
    (clearFault n s).heat.cells = s.heat.cells ∧ (clearFault n s).heat.shiftAnchor = s.heat.shiftAnchor ∧
    (clearFault n s).heat.judgements = s.heat.judgements ∧ (clearFault n s).outfeed = s.outfeed ∧
    (clearFault n s).cond.link = s.cond.link ∧ (clearFault n s).cond.web = s.cond.web ∧
    (clearFault n s).cond.heat = s.cond.heat ∧ (clearFault n s).cond.roll = s.cond.roll ∧
    (clearFault n s).cond.checkErrors = s.cond.checkErrors ∧ (clearFault n s).cond.overruns = s.cond.overruns ∧
    (clearFault n s).cond.straySenders = s.cond.straySenders ∧ (clearFault n s).cond.strayMarks = s.cond.strayMarks ∧
    (clearFault n s).cond.missedMarks = s.cond.missedMarks ∧
    (clearFault n s).cond.limitedStrokes = s.cond.limitedStrokes ∧ (clearFault n s).cond.wakeDue = s.cond.wakeDue ∧
    (clearFault n s).pins = s.pins ∧ (clearFault n s).pending = s.pending := by
  generalize h : clearFault n s = t
  unfold clearFault at h
  (repeat' split at h) <;> subst h <;> simp

/-- What `takeSample` leaves as it was. -/
@[simp] theorem takeSample_frame (n raw : Nat) (s : State) :
    (takeSample n raw s).loader = s.loader ∧ (takeSample n raw s).bus = s.bus ∧ (takeSample n raw s).peers = s.peers ∧
    (takeSample n raw s).gov = s.gov ∧ (takeSample n raw s).web = s.web ∧ (takeSample n raw s).order = s.order ∧
    (takeSample n raw s).pattern = s.pattern ∧ (takeSample n raw s).roll = s.roll ∧
    (takeSample n raw s).heat.recipes = s.heat.recipes ∧ (takeSample n raw s).heat.zones = s.heat.zones ∧
    (takeSample n raw s).heat.chamber = s.heat.chamber ∧ (takeSample n raw s).heat.bandCount = s.heat.bandCount ∧
    (takeSample n raw s).heat.parkTimer = s.heat.parkTimer ∧ (takeSample n raw s).heat.heatTimer = s.heat.heatTimer ∧
    (takeSample n raw s).heat.cells = s.heat.cells ∧ (takeSample n raw s).heat.shiftAnchor = s.heat.shiftAnchor ∧
    (takeSample n raw s).heat.judgements = s.heat.judgements ∧ (takeSample n raw s).outfeed = s.outfeed ∧
    (takeSample n raw s).cond = s.cond ∧ (takeSample n raw s).pins = s.pins ∧
    (takeSample n raw s).pending = s.pending := by
  generalize h : takeSample n raw s = t
  unfold takeSample at h
  (repeat' split at h) <;> subst h <;> simp

/-- What `takeSamples` leaves as it was. -/
@[simp] theorem takeSamples_frame (samples : List (BitVec 12)) (s : State) :
    (takeSamples samples s).loader = s.loader ∧ (takeSamples samples s).bus = s.bus ∧
    (takeSamples samples s).peers = s.peers ∧ (takeSamples samples s).gov = s.gov ∧ (takeSamples samples s).web = s.web ∧
    (takeSamples samples s).order = s.order ∧ (takeSamples samples s).pattern = s.pattern ∧
    (takeSamples samples s).roll = s.roll ∧ (takeSamples samples s).heat.recipes = s.heat.recipes ∧
    (takeSamples samples s).heat.zones = s.heat.zones ∧ (takeSamples samples s).heat.chamber = s.heat.chamber ∧
    (takeSamples samples s).heat.bandCount = s.heat.bandCount ∧
    (takeSamples samples s).heat.parkTimer = s.heat.parkTimer ∧
    (takeSamples samples s).heat.heatTimer = s.heat.heatTimer ∧ (takeSamples samples s).heat.cells = s.heat.cells ∧
    (takeSamples samples s).heat.shiftAnchor = s.heat.shiftAnchor ∧
    (takeSamples samples s).heat.judgements = s.heat.judgements ∧ (takeSamples samples s).outfeed = s.outfeed ∧
    (takeSamples samples s).cond = s.cond ∧ (takeSamples samples s).pins = s.pins ∧
    (takeSamples samples s).pending = s.pending := by
  unfold takeSamples
  generalize List.range 8 = l
  induction l generalizing s with
  | nil => simp only [List.foldl_nil, and_self]
  | cons a l ih =>
    have h := ih (takeSample a (samples.getD a 0).toNat s)
    simp only [takeSample_frame] at h
    exact h

/-- What `judgeFaults` leaves as it was. -/
@[simp] theorem judgeFaults_frame (s : State) :
    (judgeFaults s).loader = s.loader ∧ (judgeFaults s).bus.rx = s.bus.rx ∧
    (judgeFaults s).bus.latchRoster = s.bus.latchRoster ∧ (judgeFaults s).bus.latchTerminal = s.bus.latchTerminal ∧
    (judgeFaults s).bus.faultCount = s.bus.faultCount ∧ (judgeFaults s).bus.off = s.bus.off ∧
    (judgeFaults s).bus.recovery = s.bus.recovery ∧ (judgeFaults s).bus.duplicate = s.bus.duplicate ∧
    (judgeFaults s).peers = s.peers ∧ (judgeFaults s).gov = s.gov ∧ (judgeFaults s).web = s.web ∧
    (judgeFaults s).order = s.order ∧ (judgeFaults s).pattern = s.pattern ∧ (judgeFaults s).roll = s.roll ∧
    (judgeFaults s).heat.recipes = s.heat.recipes ∧ (judgeFaults s).heat.chamber = s.heat.chamber ∧
    (judgeFaults s).heat.bandCount = s.heat.bandCount ∧ (judgeFaults s).heat.parkTimer = s.heat.parkTimer ∧
    (judgeFaults s).heat.heatTimer = s.heat.heatTimer ∧ (judgeFaults s).heat.cells = s.heat.cells ∧
    (judgeFaults s).heat.shiftAnchor = s.heat.shiftAnchor ∧ (judgeFaults s).heat.judgements = s.heat.judgements ∧
    (judgeFaults s).outfeed = s.outfeed ∧ (judgeFaults s).cond.checkErrors = s.cond.checkErrors ∧
    (judgeFaults s).cond.overruns = s.cond.overruns ∧ (judgeFaults s).cond.straySenders = s.cond.straySenders ∧
    (judgeFaults s).cond.strayMarks = s.cond.strayMarks ∧ (judgeFaults s).cond.missedMarks = s.cond.missedMarks ∧
    (judgeFaults s).cond.limitedStrokes = s.cond.limitedStrokes ∧ (judgeFaults s).pins = s.pins ∧
    (judgeFaults s).pending = s.pending := by
  unfold judgeFaults
  generalize List.range 8 = l
  induction l generalizing s with
  | nil => simp
  | cons a l ih => simp [ih]

/-- What `setChamber` leaves as it was. -/
@[simp] theorem setChamber_frame (c : ChamberState) (s : State) :
    (setChamber c s).loader = s.loader ∧ (setChamber c s).bus = s.bus ∧ (setChamber c s).peers = s.peers ∧
    (setChamber c s).gov = s.gov ∧ (setChamber c s).web = s.web ∧ (setChamber c s).order = s.order ∧
    (setChamber c s).pattern = s.pattern ∧ (setChamber c s).roll = s.roll ∧
    (setChamber c s).heat.channels = s.heat.channels ∧ (setChamber c s).heat.recipes = s.heat.recipes ∧
    (setChamber c s).heat.zones = s.heat.zones ∧ (setChamber c s).heat.heatTimer = s.heat.heatTimer ∧
    (setChamber c s).heat.cells = s.heat.cells ∧ (setChamber c s).heat.shiftAnchor = s.heat.shiftAnchor ∧
    (setChamber c s).heat.judgements = s.heat.judgements ∧ (setChamber c s).outfeed = s.outfeed ∧
    (setChamber c s).cond = s.cond ∧ (setChamber c s).pins = s.pins ∧ (setChamber c s).pending = s.pending := by
  simp [setChamber]

/-- What `parkTest` leaves as it was. -/
@[simp] theorem parkTest_frame (s : State) :
    (parkTest s).loader = s.loader ∧ (parkTest s).bus = s.bus ∧ (parkTest s).peers = s.peers ∧ (parkTest s).gov = s.gov ∧
    (parkTest s).web = s.web ∧ (parkTest s).order = s.order ∧ (parkTest s).pattern = s.pattern ∧
    (parkTest s).roll = s.roll ∧ (parkTest s).heat.channels = s.heat.channels ∧
    (parkTest s).heat.recipes = s.heat.recipes ∧ (parkTest s).heat.zones = s.heat.zones ∧
    (parkTest s).heat.heatTimer = s.heat.heatTimer ∧ (parkTest s).heat.cells = s.heat.cells ∧
    (parkTest s).heat.shiftAnchor = s.heat.shiftAnchor ∧ (parkTest s).heat.judgements = s.heat.judgements ∧
    (parkTest s).outfeed = s.outfeed ∧ (parkTest s).cond = s.cond ∧ (parkTest s).pins = s.pins ∧
    (parkTest s).pending = s.pending := by
  generalize h : parkTest s = t
  unfold parkTest at h
  (repeat' split at h) <;> subst h <;> simp

/-- What `demandTest` leaves as it was. -/
@[simp] theorem demandTest_frame (s : State) :
    (demandTest s).loader = s.loader ∧ (demandTest s).bus = s.bus ∧ (demandTest s).peers = s.peers ∧
    (demandTest s).gov = s.gov ∧ (demandTest s).web = s.web ∧ (demandTest s).order = s.order ∧
    (demandTest s).pattern = s.pattern ∧ (demandTest s).roll = s.roll ∧ (demandTest s).heat.channels = s.heat.channels ∧
    (demandTest s).heat.recipes = s.heat.recipes ∧ (demandTest s).heat.zones = s.heat.zones ∧
    (demandTest s).heat.heatTimer = s.heat.heatTimer ∧ (demandTest s).heat.cells = s.heat.cells ∧
    (demandTest s).heat.shiftAnchor = s.heat.shiftAnchor ∧ (demandTest s).heat.judgements = s.heat.judgements ∧
    (demandTest s).outfeed = s.outfeed ∧ (demandTest s).cond = s.cond ∧ (demandTest s).pins = s.pins ∧
    (demandTest s).pending = s.pending := by
  generalize h : demandTest s = t
  unfold demandTest at h
  (repeat' split at h) <;> subst h <;> simp

/-- What `loadSetpoints` leaves as it was. -/
@[simp] theorem loadSetpoints_frame (s : State) :
    (loadSetpoints s).loader = s.loader ∧ (loadSetpoints s).bus = s.bus ∧ (loadSetpoints s).peers = s.peers ∧
    (loadSetpoints s).gov = s.gov ∧ (loadSetpoints s).web = s.web ∧ (loadSetpoints s).order = s.order ∧
    (loadSetpoints s).pattern = s.pattern ∧ (loadSetpoints s).roll = s.roll ∧
    (loadSetpoints s).heat.channels = s.heat.channels ∧ (loadSetpoints s).heat.recipes = s.heat.recipes ∧
    (loadSetpoints s).heat.chamber = s.heat.chamber ∧ (loadSetpoints s).heat.bandCount = s.heat.bandCount ∧
    (loadSetpoints s).heat.parkTimer = s.heat.parkTimer ∧ (loadSetpoints s).heat.heatTimer = s.heat.heatTimer ∧
    (loadSetpoints s).heat.cells = s.heat.cells ∧ (loadSetpoints s).heat.shiftAnchor = s.heat.shiftAnchor ∧
    (loadSetpoints s).heat.judgements = s.heat.judgements ∧ (loadSetpoints s).outfeed = s.outfeed ∧
    (loadSetpoints s).cond = s.cond ∧ (loadSetpoints s).pins = s.pins ∧ (loadSetpoints s).pending = s.pending := by
  simp [loadSetpoints]

/-- What `speedFloorTest` leaves as it was. -/
@[simp] theorem speedFloorTest_frame (s : State) :
    (speedFloorTest s).loader = s.loader ∧ (speedFloorTest s).bus.rx = s.bus.rx ∧
    (speedFloorTest s).bus.latchRoster = s.bus.latchRoster ∧ (speedFloorTest s).bus.latchTerminal = s.bus.latchTerminal ∧
    (speedFloorTest s).bus.faultCount = s.bus.faultCount ∧ (speedFloorTest s).bus.off = s.bus.off ∧
    (speedFloorTest s).bus.recovery = s.bus.recovery ∧ (speedFloorTest s).bus.duplicate = s.bus.duplicate ∧
    (speedFloorTest s).peers = s.peers ∧ (speedFloorTest s).gov = s.gov ∧ (speedFloorTest s).web = s.web ∧
    (speedFloorTest s).order = s.order ∧ (speedFloorTest s).pattern = s.pattern ∧ (speedFloorTest s).roll = s.roll ∧
    (speedFloorTest s).heat = s.heat ∧ (speedFloorTest s).outfeed = s.outfeed ∧
    (speedFloorTest s).cond.checkErrors = s.cond.checkErrors ∧ (speedFloorTest s).cond.overruns = s.cond.overruns ∧
    (speedFloorTest s).cond.straySenders = s.cond.straySenders ∧ (speedFloorTest s).cond.strayMarks = s.cond.strayMarks ∧
    (speedFloorTest s).cond.missedMarks = s.cond.missedMarks ∧
    (speedFloorTest s).cond.limitedStrokes = s.cond.limitedStrokes ∧ (speedFloorTest s).pins = s.pins ∧
    (speedFloorTest s).pending = s.pending := by
  simp [speedFloorTest]

/-- What `refreshHeat` leaves as it was. -/
@[simp] theorem refreshHeat_frame (s : State) :
    (refreshHeat s).loader = s.loader ∧ (refreshHeat s).bus.rx = s.bus.rx ∧
    (refreshHeat s).bus.latchRoster = s.bus.latchRoster ∧ (refreshHeat s).bus.latchTerminal = s.bus.latchTerminal ∧
    (refreshHeat s).bus.faultCount = s.bus.faultCount ∧ (refreshHeat s).bus.off = s.bus.off ∧
    (refreshHeat s).bus.recovery = s.bus.recovery ∧ (refreshHeat s).bus.duplicate = s.bus.duplicate ∧
    (refreshHeat s).peers = s.peers ∧ (refreshHeat s).gov = s.gov ∧ (refreshHeat s).web = s.web ∧
    (refreshHeat s).order = s.order ∧ (refreshHeat s).pattern = s.pattern ∧ (refreshHeat s).roll = s.roll ∧
    (refreshHeat s).heat.channels = s.heat.channels ∧ (refreshHeat s).heat.recipes = s.heat.recipes ∧
    (refreshHeat s).heat.heatTimer = s.heat.heatTimer ∧ (refreshHeat s).heat.cells = s.heat.cells ∧
    (refreshHeat s).heat.shiftAnchor = s.heat.shiftAnchor ∧ (refreshHeat s).heat.judgements = s.heat.judgements ∧
    (refreshHeat s).outfeed = s.outfeed ∧ (refreshHeat s).cond.checkErrors = s.cond.checkErrors ∧
    (refreshHeat s).cond.overruns = s.cond.overruns ∧ (refreshHeat s).cond.straySenders = s.cond.straySenders ∧
    (refreshHeat s).cond.strayMarks = s.cond.strayMarks ∧ (refreshHeat s).cond.missedMarks = s.cond.missedMarks ∧
    (refreshHeat s).cond.limitedStrokes = s.cond.limitedStrokes ∧ (refreshHeat s).pins = s.pins ∧
    (refreshHeat s).pending = s.pending := by
  generalize h : refreshHeat s = t
  unfold refreshHeat at h
  (repeat' split at h) <;> subst h <;> simp

/-- What `enterReadyHeat` leaves as it was. -/
@[simp] theorem enterReadyHeat_frame (s : State) :
    (enterReadyHeat s).loader = s.loader ∧ (enterReadyHeat s).bus = s.bus ∧ (enterReadyHeat s).peers = s.peers ∧
    (enterReadyHeat s).gov = s.gov ∧ (enterReadyHeat s).web = s.web ∧ (enterReadyHeat s).order = s.order ∧
    (enterReadyHeat s).pattern = s.pattern ∧ (enterReadyHeat s).roll = s.roll ∧
    (enterReadyHeat s).heat.channels = s.heat.channels ∧ (enterReadyHeat s).heat.recipes = s.heat.recipes ∧
    (enterReadyHeat s).heat.zones = s.heat.zones ∧ (enterReadyHeat s).heat.heatTimer = s.heat.heatTimer ∧
    (enterReadyHeat s).heat.cells = s.heat.cells ∧ (enterReadyHeat s).heat.shiftAnchor = s.heat.shiftAnchor ∧
    (enterReadyHeat s).heat.judgements = s.heat.judgements ∧ (enterReadyHeat s).outfeed = s.outfeed ∧
    (enterReadyHeat s).cond = s.cond ∧ (enterReadyHeat s).pins = s.pins ∧ (enterReadyHeat s).pending = s.pending := by
  simp [enterReadyHeat]

/-- What `bandScan` leaves as it was. -/
@[simp] theorem bandScan_frame (s : State) :
    (bandScan s).loader = s.loader ∧ (bandScan s).bus = s.bus ∧ (bandScan s).peers = s.peers ∧ (bandScan s).gov = s.gov ∧
    (bandScan s).web = s.web ∧ (bandScan s).order = s.order ∧ (bandScan s).pattern = s.pattern ∧
    (bandScan s).roll = s.roll ∧ (bandScan s).heat.channels = s.heat.channels ∧
    (bandScan s).heat.recipes = s.heat.recipes ∧ (bandScan s).heat.zones = s.heat.zones ∧
    (bandScan s).heat.heatTimer = s.heat.heatTimer ∧ (bandScan s).heat.cells = s.heat.cells ∧
    (bandScan s).heat.shiftAnchor = s.heat.shiftAnchor ∧ (bandScan s).heat.judgements = s.heat.judgements ∧
    (bandScan s).outfeed = s.outfeed ∧ (bandScan s).cond = s.cond ∧ (bandScan s).pins = s.pins ∧
    (bandScan s).pending = s.pending := by
  generalize h : bandScan s = t
  unfold bandScan at h
  dsimp only at h
  (repeat' split at h) <;> subst h <;> simp

/-- What `warmChamber` leaves as it was. -/
@[simp] theorem warmChamber_frame (s : State) :
    (warmChamber s).loader = s.loader ∧ (warmChamber s).bus = s.bus ∧ (warmChamber s).peers = s.peers ∧
    (warmChamber s).gov = s.gov ∧ (warmChamber s).web = s.web ∧ (warmChamber s).order = s.order ∧
    (warmChamber s).pattern = s.pattern ∧ (warmChamber s).roll = s.roll ∧
    (warmChamber s).heat.channels = s.heat.channels ∧ (warmChamber s).heat.recipes = s.heat.recipes ∧
    (warmChamber s).heat.zones = s.heat.zones ∧ (warmChamber s).heat.heatTimer = s.heat.heatTimer ∧
    (warmChamber s).heat.cells = s.heat.cells ∧ (warmChamber s).heat.shiftAnchor = s.heat.shiftAnchor ∧
    (warmChamber s).heat.judgements = s.heat.judgements ∧ (warmChamber s).outfeed = s.outfeed ∧
    (warmChamber s).cond = s.cond ∧ (warmChamber s).pins = s.pins ∧ (warmChamber s).pending = s.pending := by
  generalize h : warmChamber s = t
  unfold warmChamber at h
  (repeat' split at h) <;> subst h <;> simp

/-- What `closeValves` leaves as it was. -/
@[simp] theorem closeValves_frame (s : State) :
    (closeValves s).loader = s.loader ∧ (closeValves s).bus = s.bus ∧ (closeValves s).peers = s.peers ∧
    (closeValves s).gov = s.gov ∧ (closeValves s).web = s.web ∧ (closeValves s).order = s.order ∧
    (closeValves s).pattern = s.pattern ∧ (closeValves s).roll = s.roll ∧
    (closeValves s).heat.channels = s.heat.channels ∧ (closeValves s).heat.recipes = s.heat.recipes ∧
    (closeValves s).heat.chamber = s.heat.chamber ∧ (closeValves s).heat.bandCount = s.heat.bandCount ∧
    (closeValves s).heat.parkTimer = s.heat.parkTimer ∧ (closeValves s).heat.heatTimer = s.heat.heatTimer ∧
    (closeValves s).heat.cells = s.heat.cells ∧ (closeValves s).heat.shiftAnchor = s.heat.shiftAnchor ∧
    (closeValves s).heat.judgements = s.heat.judgements ∧ (closeValves s).outfeed = s.outfeed ∧
    (closeValves s).cond = s.cond ∧ (closeValves s).pins = s.pins ∧ (closeValves s).pending = s.pending := by
  simp [closeValves]

/-- What `cutZone` leaves as it was. -/
@[simp] theorem cutZone_frame (z : Nat) (s : State) :
    (cutZone z s).loader = s.loader ∧ (cutZone z s).bus.rx = s.bus.rx ∧
    (cutZone z s).bus.latchRoster = s.bus.latchRoster ∧ (cutZone z s).bus.latchTerminal = s.bus.latchTerminal ∧
    (cutZone z s).bus.faultCount = s.bus.faultCount ∧ (cutZone z s).bus.off = s.bus.off ∧
    (cutZone z s).bus.recovery = s.bus.recovery ∧ (cutZone z s).bus.duplicate = s.bus.duplicate ∧
    (cutZone z s).peers = s.peers ∧ (cutZone z s).gov = s.gov ∧ (cutZone z s).web = s.web ∧
    (cutZone z s).order = s.order ∧ (cutZone z s).pattern = s.pattern ∧ (cutZone z s).roll = s.roll ∧
    (cutZone z s).heat.channels = s.heat.channels ∧ (cutZone z s).heat.recipes = s.heat.recipes ∧
    (cutZone z s).heat.chamber = s.heat.chamber ∧ (cutZone z s).heat.bandCount = s.heat.bandCount ∧
    (cutZone z s).heat.parkTimer = s.heat.parkTimer ∧ (cutZone z s).heat.heatTimer = s.heat.heatTimer ∧
    (cutZone z s).heat.cells = s.heat.cells ∧ (cutZone z s).heat.shiftAnchor = s.heat.shiftAnchor ∧
    (cutZone z s).heat.judgements = s.heat.judgements ∧ (cutZone z s).outfeed = s.outfeed ∧
    (cutZone z s).cond.checkErrors = s.cond.checkErrors ∧ (cutZone z s).cond.overruns = s.cond.overruns ∧
    (cutZone z s).cond.straySenders = s.cond.straySenders ∧ (cutZone z s).cond.strayMarks = s.cond.strayMarks ∧
    (cutZone z s).cond.missedMarks = s.cond.missedMarks ∧ (cutZone z s).cond.limitedStrokes = s.cond.limitedStrokes ∧
    (cutZone z s).pins = s.pins ∧ (cutZone z s).pending = s.pending := by
  simp [cutZone]

/-- What `overTempZone` leaves as it was. -/
@[simp] theorem overTempZone_frame (z : Nat) (s : State) :
    (overTempZone z s).loader = s.loader ∧ (overTempZone z s).bus.rx = s.bus.rx ∧
    (overTempZone z s).bus.latchRoster = s.bus.latchRoster ∧ (overTempZone z s).bus.latchTerminal = s.bus.latchTerminal ∧
    (overTempZone z s).bus.faultCount = s.bus.faultCount ∧ (overTempZone z s).bus.off = s.bus.off ∧
    (overTempZone z s).bus.recovery = s.bus.recovery ∧ (overTempZone z s).bus.duplicate = s.bus.duplicate ∧
    (overTempZone z s).peers = s.peers ∧ (overTempZone z s).gov = s.gov ∧ (overTempZone z s).web = s.web ∧
    (overTempZone z s).order = s.order ∧ (overTempZone z s).pattern = s.pattern ∧ (overTempZone z s).roll = s.roll ∧
    (overTempZone z s).heat.channels = s.heat.channels ∧ (overTempZone z s).heat.recipes = s.heat.recipes ∧
    (overTempZone z s).heat.chamber = s.heat.chamber ∧ (overTempZone z s).heat.bandCount = s.heat.bandCount ∧
    (overTempZone z s).heat.parkTimer = s.heat.parkTimer ∧ (overTempZone z s).heat.heatTimer = s.heat.heatTimer ∧
    (overTempZone z s).heat.cells = s.heat.cells ∧ (overTempZone z s).heat.shiftAnchor = s.heat.shiftAnchor ∧
    (overTempZone z s).heat.judgements = s.heat.judgements ∧ (overTempZone z s).outfeed = s.outfeed ∧
    (overTempZone z s).cond.checkErrors = s.cond.checkErrors ∧ (overTempZone z s).cond.overruns = s.cond.overruns ∧
    (overTempZone z s).cond.straySenders = s.cond.straySenders ∧ (overTempZone z s).cond.strayMarks = s.cond.strayMarks ∧
    (overTempZone z s).cond.missedMarks = s.cond.missedMarks ∧
    (overTempZone z s).cond.limitedStrokes = s.cond.limitedStrokes ∧ (overTempZone z s).pins = s.pins ∧
    (overTempZone z s).pending = s.pending := by
  generalize h : overTempZone z s = t
  unfold overTempZone at h
  dsimp only at h
  (repeat' split at h) <;> subst h <;> simp

/-- What `overTempTest` leaves as it was. -/
@[simp] theorem overTempTest_frame (s : State) :
    (overTempTest s).loader = s.loader ∧ (overTempTest s).bus.rx = s.bus.rx ∧
    (overTempTest s).bus.latchRoster = s.bus.latchRoster ∧ (overTempTest s).bus.latchTerminal = s.bus.latchTerminal ∧
    (overTempTest s).bus.faultCount = s.bus.faultCount ∧ (overTempTest s).bus.off = s.bus.off ∧
    (overTempTest s).bus.recovery = s.bus.recovery ∧ (overTempTest s).bus.duplicate = s.bus.duplicate ∧
    (overTempTest s).peers = s.peers ∧ (overTempTest s).gov = s.gov ∧ (overTempTest s).web = s.web ∧
    (overTempTest s).order = s.order ∧ (overTempTest s).pattern = s.pattern ∧ (overTempTest s).roll = s.roll ∧
    (overTempTest s).heat.channels = s.heat.channels ∧ (overTempTest s).heat.recipes = s.heat.recipes ∧
    (overTempTest s).heat.chamber = s.heat.chamber ∧ (overTempTest s).heat.bandCount = s.heat.bandCount ∧
    (overTempTest s).heat.parkTimer = s.heat.parkTimer ∧ (overTempTest s).heat.heatTimer = s.heat.heatTimer ∧
    (overTempTest s).heat.cells = s.heat.cells ∧ (overTempTest s).heat.shiftAnchor = s.heat.shiftAnchor ∧
    (overTempTest s).heat.judgements = s.heat.judgements ∧ (overTempTest s).outfeed = s.outfeed ∧
    (overTempTest s).cond.checkErrors = s.cond.checkErrors ∧ (overTempTest s).cond.overruns = s.cond.overruns ∧
    (overTempTest s).cond.straySenders = s.cond.straySenders ∧ (overTempTest s).cond.strayMarks = s.cond.strayMarks ∧
    (overTempTest s).cond.missedMarks = s.cond.missedMarks ∧
    (overTempTest s).cond.limitedStrokes = s.cond.limitedStrokes ∧ (overTempTest s).pins = s.pins ∧
    (overTempTest s).pending = s.pending := by
  unfold overTempTest
  generalize List.range s.cfg.setter.zones = l
  induction l generalizing s with
  | nil => simp
  | cons a l ih => simp [ih]

/-- What `restoreZone` leaves as it was. -/
@[simp] theorem restoreZone_frame (z : Nat) (s : State) :
    (restoreZone z s).loader = s.loader ∧ (restoreZone z s).bus = s.bus ∧ (restoreZone z s).peers = s.peers ∧
    (restoreZone z s).gov = s.gov ∧ (restoreZone z s).web = s.web ∧ (restoreZone z s).order = s.order ∧
    (restoreZone z s).pattern = s.pattern ∧ (restoreZone z s).roll = s.roll ∧
    (restoreZone z s).heat.channels = s.heat.channels ∧ (restoreZone z s).heat.recipes = s.heat.recipes ∧
    (restoreZone z s).heat.chamber = s.heat.chamber ∧ (restoreZone z s).heat.bandCount = s.heat.bandCount ∧
    (restoreZone z s).heat.parkTimer = s.heat.parkTimer ∧ (restoreZone z s).heat.heatTimer = s.heat.heatTimer ∧
    (restoreZone z s).heat.cells = s.heat.cells ∧ (restoreZone z s).heat.shiftAnchor = s.heat.shiftAnchor ∧
    (restoreZone z s).heat.judgements = s.heat.judgements ∧ (restoreZone z s).outfeed = s.outfeed ∧
    (restoreZone z s).cond = s.cond ∧ (restoreZone z s).pins = s.pins ∧ (restoreZone z s).pending = s.pending := by
  generalize h : restoreZone z s = t
  unfold restoreZone at h
  dsimp only at h
  (repeat' split at h) <;> subst h <;> simp

/-- What `controlZone` leaves as it was. -/
@[simp] theorem controlZone_frame (z : Nat) (s : State) :
    (controlZone z s).loader = s.loader ∧ (controlZone z s).bus = s.bus ∧ (controlZone z s).peers = s.peers ∧
    (controlZone z s).gov = s.gov ∧ (controlZone z s).web = s.web ∧ (controlZone z s).order = s.order ∧
    (controlZone z s).pattern = s.pattern ∧ (controlZone z s).roll = s.roll ∧
    (controlZone z s).heat.channels = s.heat.channels ∧ (controlZone z s).heat.recipes = s.heat.recipes ∧
    (controlZone z s).heat.chamber = s.heat.chamber ∧ (controlZone z s).heat.bandCount = s.heat.bandCount ∧
    (controlZone z s).heat.parkTimer = s.heat.parkTimer ∧ (controlZone z s).heat.heatTimer = s.heat.heatTimer ∧
    (controlZone z s).heat.cells = s.heat.cells ∧ (controlZone z s).heat.shiftAnchor = s.heat.shiftAnchor ∧
    (controlZone z s).heat.judgements = s.heat.judgements ∧ (controlZone z s).outfeed = s.outfeed ∧
    (controlZone z s).cond = s.cond ∧ (controlZone z s).pins = s.pins ∧ (controlZone z s).pending = s.pending := by
  generalize h : controlZone z s = t
  unfold controlZone at h
  dsimp only at h
  (repeat' split at h) <;> subst h <;> simp

/-- What `controlZones` leaves as it was. -/
@[simp] theorem controlZones_frame (s : State) :
    (controlZones s).loader = s.loader ∧ (controlZones s).bus = s.bus ∧ (controlZones s).peers = s.peers ∧
    (controlZones s).gov = s.gov ∧ (controlZones s).web = s.web ∧ (controlZones s).order = s.order ∧
    (controlZones s).pattern = s.pattern ∧ (controlZones s).roll = s.roll ∧
    (controlZones s).heat.channels = s.heat.channels ∧ (controlZones s).heat.recipes = s.heat.recipes ∧
    (controlZones s).heat.chamber = s.heat.chamber ∧ (controlZones s).heat.bandCount = s.heat.bandCount ∧
    (controlZones s).heat.parkTimer = s.heat.parkTimer ∧ (controlZones s).heat.heatTimer = s.heat.heatTimer ∧
    (controlZones s).heat.cells = s.heat.cells ∧ (controlZones s).heat.shiftAnchor = s.heat.shiftAnchor ∧
    (controlZones s).heat.judgements = s.heat.judgements ∧ (controlZones s).outfeed = s.outfeed ∧
    (controlZones s).cond = s.cond ∧ (controlZones s).pins = s.pins ∧ (controlZones s).pending = s.pending := by
  unfold controlZones
  generalize List.range s.cfg.setter.zones = l
  induction l generalizing s with
  | nil => simp
  | cons a l ih => simp [ih]

/-- What `steamTest` leaves as it was. -/
@[simp] theorem steamTest_frame (s : State) :
    (steamTest s).loader = s.loader ∧ (steamTest s).bus.rx = s.bus.rx ∧
    (steamTest s).bus.latchRoster = s.bus.latchRoster ∧ (steamTest s).bus.latchTerminal = s.bus.latchTerminal ∧
    (steamTest s).bus.faultCount = s.bus.faultCount ∧ (steamTest s).bus.off = s.bus.off ∧
    (steamTest s).bus.recovery = s.bus.recovery ∧ (steamTest s).bus.duplicate = s.bus.duplicate ∧
    (steamTest s).peers = s.peers ∧ (steamTest s).gov = s.gov ∧ (steamTest s).web = s.web ∧
    (steamTest s).order = s.order ∧ (steamTest s).pattern = s.pattern ∧ (steamTest s).roll = s.roll ∧
    (steamTest s).heat = s.heat ∧ (steamTest s).outfeed = s.outfeed ∧
    (steamTest s).cond.checkErrors = s.cond.checkErrors ∧ (steamTest s).cond.overruns = s.cond.overruns ∧
    (steamTest s).cond.straySenders = s.cond.straySenders ∧ (steamTest s).cond.strayMarks = s.cond.strayMarks ∧
    (steamTest s).cond.missedMarks = s.cond.missedMarks ∧ (steamTest s).cond.limitedStrokes = s.cond.limitedStrokes ∧
    (steamTest s).pins = s.pins ∧ (steamTest s).pending = s.pending := by
  simp [steamTest]

/-- What `doseTick` leaves as it was. -/
@[simp] theorem doseTick_frame (s : State) :
    (doseTick s).loader = s.loader ∧ (doseTick s).bus = s.bus ∧ (doseTick s).peers = s.peers ∧ (doseTick s).gov = s.gov ∧
    (doseTick s).web = s.web ∧ (doseTick s).order = s.order ∧ (doseTick s).pattern = s.pattern ∧
    (doseTick s).roll = s.roll ∧ (doseTick s).heat.channels = s.heat.channels ∧
    (doseTick s).heat.recipes = s.heat.recipes ∧ (doseTick s).heat.zones = s.heat.zones ∧
    (doseTick s).heat.chamber = s.heat.chamber ∧ (doseTick s).heat.bandCount = s.heat.bandCount ∧
    (doseTick s).heat.parkTimer = s.heat.parkTimer ∧ (doseTick s).heat.heatTimer = s.heat.heatTimer ∧
    (doseTick s).heat.shiftAnchor = s.heat.shiftAnchor ∧ (doseTick s).heat.judgements = s.heat.judgements ∧
    (doseTick s).outfeed = s.outfeed ∧ (doseTick s).cond = s.cond ∧ (doseTick s).pins = s.pins ∧
    (doseTick s).pending = s.pending := by
  simp [doseTick]

/-- What `judgeRef` leaves as it was. -/
@[simp] theorem judgeRef_frame (c : Cell) (r : SegRef) (s : State) :
    (judgeRef c r s).loader = s.loader ∧ (judgeRef c r s).bus = s.bus ∧ (judgeRef c r s).peers = s.peers ∧
    (judgeRef c r s).gov = s.gov ∧ (judgeRef c r s).web = s.web ∧ (judgeRef c r s).order = s.order ∧
    (judgeRef c r s).pattern = s.pattern ∧ (judgeRef c r s).roll = s.roll ∧
    (judgeRef c r s).heat.channels = s.heat.channels ∧ (judgeRef c r s).heat.recipes = s.heat.recipes ∧
    (judgeRef c r s).heat.zones = s.heat.zones ∧ (judgeRef c r s).heat.chamber = s.heat.chamber ∧
    (judgeRef c r s).heat.bandCount = s.heat.bandCount ∧ (judgeRef c r s).heat.parkTimer = s.heat.parkTimer ∧
    (judgeRef c r s).heat.heatTimer = s.heat.heatTimer ∧ (judgeRef c r s).heat.cells = s.heat.cells ∧
    (judgeRef c r s).heat.shiftAnchor = s.heat.shiftAnchor ∧ (judgeRef c r s).outfeed = s.outfeed ∧
    (judgeRef c r s).cond = s.cond ∧ (judgeRef c r s).pins = s.pins ∧ (judgeRef c r s).pending = s.pending := by
  generalize h : judgeRef c r s = t
  unfold judgeRef at h
  (repeat' split at h) <;> subst h <;> simp

/-- What `judgeCell` leaves as it was. -/
@[simp] theorem judgeCell_frame (c : Cell) (s : State) :
    (judgeCell c s).loader = s.loader ∧ (judgeCell c s).bus = s.bus ∧ (judgeCell c s).peers = s.peers ∧
    (judgeCell c s).gov = s.gov ∧ (judgeCell c s).web = s.web ∧ (judgeCell c s).order = s.order ∧
    (judgeCell c s).pattern = s.pattern ∧ (judgeCell c s).roll = s.roll ∧
    (judgeCell c s).heat.channels = s.heat.channels ∧ (judgeCell c s).heat.recipes = s.heat.recipes ∧
    (judgeCell c s).heat.zones = s.heat.zones ∧ (judgeCell c s).heat.chamber = s.heat.chamber ∧
    (judgeCell c s).heat.bandCount = s.heat.bandCount ∧ (judgeCell c s).heat.parkTimer = s.heat.parkTimer ∧
    (judgeCell c s).heat.heatTimer = s.heat.heatTimer ∧ (judgeCell c s).heat.cells = s.heat.cells ∧
    (judgeCell c s).heat.shiftAnchor = s.heat.shiftAnchor ∧ (judgeCell c s).outfeed = s.outfeed ∧
    (judgeCell c s).cond = s.cond ∧ (judgeCell c s).pins = s.pins ∧ (judgeCell c s).pending = s.pending := by
  generalize h : judgeCell c s = t
  unfold judgeCell at h
  (repeat' split at h) <;> subst h <;> simp

/-- What `dropSegHeat` leaves as it was. -/
@[simp] theorem dropSegHeat_frame (uid : Nat) (s : State) :
    (dropSegHeat uid s).loader = s.loader ∧ (dropSegHeat uid s).bus = s.bus ∧ (dropSegHeat uid s).peers = s.peers ∧
    (dropSegHeat uid s).gov = s.gov ∧ (dropSegHeat uid s).web = s.web ∧ (dropSegHeat uid s).order = s.order ∧
    (dropSegHeat uid s).pattern = s.pattern ∧ (dropSegHeat uid s).roll = s.roll ∧
    (dropSegHeat uid s).heat.channels = s.heat.channels ∧ (dropSegHeat uid s).heat.recipes = s.heat.recipes ∧
    (dropSegHeat uid s).heat.zones = s.heat.zones ∧ (dropSegHeat uid s).heat.chamber = s.heat.chamber ∧
    (dropSegHeat uid s).heat.bandCount = s.heat.bandCount ∧ (dropSegHeat uid s).heat.parkTimer = s.heat.parkTimer ∧
    (dropSegHeat uid s).heat.heatTimer = s.heat.heatTimer ∧ (dropSegHeat uid s).heat.cells = s.heat.cells ∧
    (dropSegHeat uid s).heat.shiftAnchor = s.heat.shiftAnchor ∧ (dropSegHeat uid s).outfeed = s.outfeed ∧
    (dropSegHeat uid s).cond = s.cond ∧ (dropSegHeat uid s).pins = s.pins ∧ (dropSegHeat uid s).pending = s.pending := by
  simp [dropSegHeat]

/-- What `removeSeg` leaves as it was. -/
@[simp] theorem removeSeg_frame (uid : Nat) (s : State) :
    (removeSeg uid s).loader = s.loader ∧ (removeSeg uid s).bus.rx = s.bus.rx ∧
    (removeSeg uid s).bus.latchRoster = s.bus.latchRoster ∧ (removeSeg uid s).bus.latchTerminal = s.bus.latchTerminal ∧
    (removeSeg uid s).bus.faultCount = s.bus.faultCount ∧ (removeSeg uid s).bus.off = s.bus.off ∧
    (removeSeg uid s).bus.recovery = s.bus.recovery ∧ (removeSeg uid s).bus.duplicate = s.bus.duplicate ∧
    (removeSeg uid s).peers = s.peers ∧ (removeSeg uid s).gov = s.gov ∧ (removeSeg uid s).web.infeed = s.web.infeed ∧
    (removeSeg uid s).web.outfeed = s.web.outfeed ∧ (removeSeg uid s).web.p0 = s.web.p0 ∧
    (removeSeg uid s).web.expected = s.web.expected ∧ (removeSeg uid s).web.firstSend = s.web.firstSend ∧
    (removeSeg uid s).web.candidate = s.web.candidate ∧ (removeSeg uid s).web.missCount = s.web.missCount ∧
    (removeSeg uid s).web.cancelList = s.web.cancelList ∧ (removeSeg uid s).web.nextUid = s.web.nextUid ∧
    (removeSeg uid s).order = s.order ∧ (removeSeg uid s).pattern.staging = s.pattern.staging ∧
    (removeSeg uid s).pattern.uploadPattern = s.pattern.uploadPattern ∧
    (removeSeg uid s).pattern.stroke = s.pattern.stroke ∧ (removeSeg uid s).pattern.depth = s.pattern.depth ∧
    (removeSeg uid s).pattern.move = s.pattern.move ∧ (removeSeg uid s).pattern.limitCount = s.pattern.limitCount ∧
    (removeSeg uid s).roll = s.roll ∧ (removeSeg uid s).heat.channels = s.heat.channels ∧
    (removeSeg uid s).heat.recipes = s.heat.recipes ∧ (removeSeg uid s).heat.zones = s.heat.zones ∧
    (removeSeg uid s).heat.chamber = s.heat.chamber ∧ (removeSeg uid s).heat.bandCount = s.heat.bandCount ∧
    (removeSeg uid s).heat.parkTimer = s.heat.parkTimer ∧ (removeSeg uid s).heat.heatTimer = s.heat.heatTimer ∧
    (removeSeg uid s).heat.cells = s.heat.cells ∧ (removeSeg uid s).heat.shiftAnchor = s.heat.shiftAnchor ∧
    (removeSeg uid s).outfeed.piece = s.outfeed.piece ∧ (removeSeg uid s).outfeed.cutTimer = s.outfeed.cutTimer ∧
    (removeSeg uid s).outfeed.gate = s.outfeed.gate ∧ (removeSeg uid s).cond.checkErrors = s.cond.checkErrors ∧
    (removeSeg uid s).cond.overruns = s.cond.overruns ∧ (removeSeg uid s).cond.straySenders = s.cond.straySenders ∧
    (removeSeg uid s).cond.strayMarks = s.cond.strayMarks ∧ (removeSeg uid s).cond.missedMarks = s.cond.missedMarks ∧
    (removeSeg uid s).cond.limitedStrokes = s.cond.limitedStrokes ∧ (removeSeg uid s).pins = s.pins ∧
    (removeSeg uid s).pending = s.pending := by
  generalize h : removeSeg uid s = t
  unfold removeSeg at h
  (repeat' split at h) <;> subst h <;> simp

/-- What `removeEach` leaves as it was. -/
@[simp] theorem removeEach_frame (l : List Segment) (s : State) :
    (l.foldl (fun t h => removeSeg h.uid t) s).loader = s.loader ∧ (l.foldl (fun t h => removeSeg h.uid t) s).bus.rx = s.bus.rx ∧
    (l.foldl (fun t h => removeSeg h.uid t) s).bus.latchRoster = s.bus.latchRoster ∧ (l.foldl (fun t h => removeSeg h.uid t) s).bus.latchTerminal = s.bus.latchTerminal ∧
    (l.foldl (fun t h => removeSeg h.uid t) s).bus.faultCount = s.bus.faultCount ∧ (l.foldl (fun t h => removeSeg h.uid t) s).bus.off = s.bus.off ∧
    (l.foldl (fun t h => removeSeg h.uid t) s).bus.recovery = s.bus.recovery ∧ (l.foldl (fun t h => removeSeg h.uid t) s).bus.duplicate = s.bus.duplicate ∧
    (l.foldl (fun t h => removeSeg h.uid t) s).peers = s.peers ∧ (l.foldl (fun t h => removeSeg h.uid t) s).gov = s.gov ∧ (l.foldl (fun t h => removeSeg h.uid t) s).web.infeed = s.web.infeed ∧
    (l.foldl (fun t h => removeSeg h.uid t) s).web.outfeed = s.web.outfeed ∧ (l.foldl (fun t h => removeSeg h.uid t) s).web.p0 = s.web.p0 ∧
    (l.foldl (fun t h => removeSeg h.uid t) s).web.expected = s.web.expected ∧ (l.foldl (fun t h => removeSeg h.uid t) s).web.firstSend = s.web.firstSend ∧
    (l.foldl (fun t h => removeSeg h.uid t) s).web.candidate = s.web.candidate ∧ (l.foldl (fun t h => removeSeg h.uid t) s).web.missCount = s.web.missCount ∧
    (l.foldl (fun t h => removeSeg h.uid t) s).web.cancelList = s.web.cancelList ∧ (l.foldl (fun t h => removeSeg h.uid t) s).web.nextUid = s.web.nextUid ∧
    (l.foldl (fun t h => removeSeg h.uid t) s).order = s.order ∧ (l.foldl (fun t h => removeSeg h.uid t) s).pattern.staging = s.pattern.staging ∧
    (l.foldl (fun t h => removeSeg h.uid t) s).pattern.uploadPattern = s.pattern.uploadPattern ∧
    (l.foldl (fun t h => removeSeg h.uid t) s).pattern.stroke = s.pattern.stroke ∧ (l.foldl (fun t h => removeSeg h.uid t) s).pattern.depth = s.pattern.depth ∧
    (l.foldl (fun t h => removeSeg h.uid t) s).pattern.move = s.pattern.move ∧ (l.foldl (fun t h => removeSeg h.uid t) s).pattern.limitCount = s.pattern.limitCount ∧
    (l.foldl (fun t h => removeSeg h.uid t) s).roll = s.roll ∧ (l.foldl (fun t h => removeSeg h.uid t) s).heat.channels = s.heat.channels ∧
    (l.foldl (fun t h => removeSeg h.uid t) s).heat.recipes = s.heat.recipes ∧ (l.foldl (fun t h => removeSeg h.uid t) s).heat.zones = s.heat.zones ∧
    (l.foldl (fun t h => removeSeg h.uid t) s).heat.chamber = s.heat.chamber ∧ (l.foldl (fun t h => removeSeg h.uid t) s).heat.bandCount = s.heat.bandCount ∧
    (l.foldl (fun t h => removeSeg h.uid t) s).heat.parkTimer = s.heat.parkTimer ∧ (l.foldl (fun t h => removeSeg h.uid t) s).heat.heatTimer = s.heat.heatTimer ∧
    (l.foldl (fun t h => removeSeg h.uid t) s).heat.cells = s.heat.cells ∧ (l.foldl (fun t h => removeSeg h.uid t) s).heat.shiftAnchor = s.heat.shiftAnchor ∧
    (l.foldl (fun t h => removeSeg h.uid t) s).outfeed.piece = s.outfeed.piece ∧ (l.foldl (fun t h => removeSeg h.uid t) s).outfeed.cutTimer = s.outfeed.cutTimer ∧
    (l.foldl (fun t h => removeSeg h.uid t) s).outfeed.gate = s.outfeed.gate ∧ (l.foldl (fun t h => removeSeg h.uid t) s).cond.checkErrors = s.cond.checkErrors ∧
    (l.foldl (fun t h => removeSeg h.uid t) s).cond.overruns = s.cond.overruns ∧ (l.foldl (fun t h => removeSeg h.uid t) s).cond.straySenders = s.cond.straySenders ∧
    (l.foldl (fun t h => removeSeg h.uid t) s).cond.strayMarks = s.cond.strayMarks ∧ (l.foldl (fun t h => removeSeg h.uid t) s).cond.missedMarks = s.cond.missedMarks ∧
    (l.foldl (fun t h => removeSeg h.uid t) s).cond.limitedStrokes = s.cond.limitedStrokes ∧ (l.foldl (fun t h => removeSeg h.uid t) s).pins = s.pins ∧
    (l.foldl (fun t h => removeSeg h.uid t) s).pending = s.pending := by
  induction l generalizing s with
  | nil => simp
  | cons a l ih => simp [ih]

/-- What `placeRule` leaves as it was. -/
@[simp] theorem placeRule_frame (uid : Nat) (s : State) :
    (placeRule uid s).loader = s.loader ∧ (placeRule uid s).bus.rx = s.bus.rx ∧
    (placeRule uid s).bus.latchRoster = s.bus.latchRoster ∧ (placeRule uid s).bus.latchTerminal = s.bus.latchTerminal ∧
    (placeRule uid s).bus.faultCount = s.bus.faultCount ∧ (placeRule uid s).bus.off = s.bus.off ∧
    (placeRule uid s).bus.recovery = s.bus.recovery ∧ (placeRule uid s).bus.duplicate = s.bus.duplicate ∧
    (placeRule uid s).peers = s.peers ∧ (placeRule uid s).gov = s.gov ∧ (placeRule uid s).web.infeed = s.web.infeed ∧
    (placeRule uid s).web.outfeed = s.web.outfeed ∧ (placeRule uid s).web.p0 = s.web.p0 ∧
    (placeRule uid s).web.expected = s.web.expected ∧ (placeRule uid s).web.firstSend = s.web.firstSend ∧
    (placeRule uid s).web.candidate = s.web.candidate ∧ (placeRule uid s).web.missCount = s.web.missCount ∧
    (placeRule uid s).web.cancelList = s.web.cancelList ∧ (placeRule uid s).web.nextUid = s.web.nextUid ∧
    (placeRule uid s).order = s.order ∧ (placeRule uid s).pattern.staging = s.pattern.staging ∧
    (placeRule uid s).pattern.uploadPattern = s.pattern.uploadPattern ∧
    (placeRule uid s).pattern.stroke = s.pattern.stroke ∧ (placeRule uid s).pattern.depth = s.pattern.depth ∧
    (placeRule uid s).pattern.move = s.pattern.move ∧ (placeRule uid s).pattern.limitCount = s.pattern.limitCount ∧
    (placeRule uid s).roll = s.roll ∧ (placeRule uid s).heat.channels = s.heat.channels ∧
    (placeRule uid s).heat.recipes = s.heat.recipes ∧ (placeRule uid s).heat.zones = s.heat.zones ∧
    (placeRule uid s).heat.chamber = s.heat.chamber ∧ (placeRule uid s).heat.bandCount = s.heat.bandCount ∧
    (placeRule uid s).heat.parkTimer = s.heat.parkTimer ∧ (placeRule uid s).heat.heatTimer = s.heat.heatTimer ∧
    (placeRule uid s).heat.cells = s.heat.cells ∧ (placeRule uid s).heat.shiftAnchor = s.heat.shiftAnchor ∧
    (placeRule uid s).outfeed.piece = s.outfeed.piece ∧ (placeRule uid s).outfeed.cutTimer = s.outfeed.cutTimer ∧
    (placeRule uid s).outfeed.gate = s.outfeed.gate ∧ (placeRule uid s).cond.checkErrors = s.cond.checkErrors ∧
    (placeRule uid s).cond.overruns = s.cond.overruns ∧ (placeRule uid s).cond.straySenders = s.cond.straySenders ∧
    (placeRule uid s).cond.strayMarks = s.cond.strayMarks ∧ (placeRule uid s).cond.missedMarks = s.cond.missedMarks ∧
    (placeRule uid s).cond.limitedStrokes = s.cond.limitedStrokes ∧ (placeRule uid s).pins = s.pins ∧
    (placeRule uid s).pending = s.pending := by
  generalize h : placeRule uid s = t
  unfold placeRule at h
  dsimp only at h
  (repeat' split at h) <;> subst h <;> simp

/-- What `appendSeg` leaves as it was. -/
@[simp] theorem appendSeg_frame (g : Segment) (s : State) :
    (appendSeg g s).loader = s.loader ∧ (appendSeg g s).bus = s.bus ∧ (appendSeg g s).peers = s.peers ∧
    (appendSeg g s).gov = s.gov ∧ (appendSeg g s).web.infeed = s.web.infeed ∧
    (appendSeg g s).web.outfeed = s.web.outfeed ∧ (appendSeg g s).web.p0 = s.web.p0 ∧
    (appendSeg g s).web.expected = s.web.expected ∧ (appendSeg g s).web.firstSend = s.web.firstSend ∧
    (appendSeg g s).web.window = s.web.window ∧ (appendSeg g s).web.closing = s.web.closing ∧
    (appendSeg g s).web.candidate = s.web.candidate ∧ (appendSeg g s).web.missCount = s.web.missCount ∧
    (appendSeg g s).web.cancelList = s.web.cancelList ∧ (appendSeg g s).order = s.order ∧
    (appendSeg g s).pattern = s.pattern ∧ (appendSeg g s).roll = s.roll ∧ (appendSeg g s).heat = s.heat ∧
    (appendSeg g s).outfeed = s.outfeed ∧ (appendSeg g s).cond = s.cond ∧ (appendSeg g s).pins = s.pins ∧
    (appendSeg g s).pending = s.pending := by
  simp [appendSeg]

/-- What `placeSegment` leaves as it was. -/
@[simp] theorem placeSegment_frame (g : Segment) (s : State) :
    (placeSegment g s).loader = s.loader ∧ (placeSegment g s).bus.rx = s.bus.rx ∧
    (placeSegment g s).bus.latchRoster = s.bus.latchRoster ∧ (placeSegment g s).bus.latchTerminal = s.bus.latchTerminal ∧
    (placeSegment g s).bus.faultCount = s.bus.faultCount ∧ (placeSegment g s).bus.off = s.bus.off ∧
    (placeSegment g s).bus.recovery = s.bus.recovery ∧ (placeSegment g s).bus.duplicate = s.bus.duplicate ∧
    (placeSegment g s).peers = s.peers ∧ (placeSegment g s).gov = s.gov ∧ (placeSegment g s).web.infeed = s.web.infeed ∧
    (placeSegment g s).web.outfeed = s.web.outfeed ∧ (placeSegment g s).web.p0 = s.web.p0 ∧
    (placeSegment g s).web.expected = s.web.expected ∧ (placeSegment g s).web.firstSend = s.web.firstSend ∧
    (placeSegment g s).web.candidate = s.web.candidate ∧ (placeSegment g s).web.missCount = s.web.missCount ∧
    (placeSegment g s).web.cancelList = s.web.cancelList ∧ (placeSegment g s).order = s.order ∧
    (placeSegment g s).pattern.staging = s.pattern.staging ∧
    (placeSegment g s).pattern.uploadPattern = s.pattern.uploadPattern ∧
    (placeSegment g s).pattern.stroke = s.pattern.stroke ∧ (placeSegment g s).pattern.depth = s.pattern.depth ∧
    (placeSegment g s).pattern.move = s.pattern.move ∧ (placeSegment g s).pattern.limitCount = s.pattern.limitCount ∧
    (placeSegment g s).roll = s.roll ∧ (placeSegment g s).heat.channels = s.heat.channels ∧
    (placeSegment g s).heat.recipes = s.heat.recipes ∧ (placeSegment g s).heat.zones = s.heat.zones ∧
    (placeSegment g s).heat.chamber = s.heat.chamber ∧ (placeSegment g s).heat.bandCount = s.heat.bandCount ∧
    (placeSegment g s).heat.parkTimer = s.heat.parkTimer ∧ (placeSegment g s).heat.heatTimer = s.heat.heatTimer ∧
    (placeSegment g s).heat.cells = s.heat.cells ∧ (placeSegment g s).heat.shiftAnchor = s.heat.shiftAnchor ∧
    (placeSegment g s).outfeed.piece = s.outfeed.piece ∧ (placeSegment g s).outfeed.cutTimer = s.outfeed.cutTimer ∧
    (placeSegment g s).outfeed.gate = s.outfeed.gate ∧ (placeSegment g s).cond.checkErrors = s.cond.checkErrors ∧
    (placeSegment g s).cond.overruns = s.cond.overruns ∧ (placeSegment g s).cond.straySenders = s.cond.straySenders ∧
    (placeSegment g s).cond.strayMarks = s.cond.strayMarks ∧ (placeSegment g s).cond.missedMarks = s.cond.missedMarks ∧
    (placeSegment g s).cond.limitedStrokes = s.cond.limitedStrokes ∧ (placeSegment g s).pins = s.pins ∧
    (placeSegment g s).pending = s.pending := by
  generalize h : placeSegment g s = t
  unfold placeSegment at h
  dsimp only at h
  subst h
  simp

/-- What `latchRegLost` leaves as it was. -/
@[simp] theorem latchRegLost_frame (s : State) :
    (latchRegLost s).loader = s.loader ∧ (latchRegLost s).bus.rx = s.bus.rx ∧
    (latchRegLost s).bus.latchRoster = s.bus.latchRoster ∧ (latchRegLost s).bus.latchTerminal = s.bus.latchTerminal ∧
    (latchRegLost s).bus.faultCount = s.bus.faultCount ∧ (latchRegLost s).bus.off = s.bus.off ∧
    (latchRegLost s).bus.recovery = s.bus.recovery ∧ (latchRegLost s).bus.duplicate = s.bus.duplicate ∧
    (latchRegLost s).peers = s.peers ∧ (latchRegLost s).gov.vOp = s.gov.vOp ∧ (latchRegLost s).gov.vT = s.gov.vT ∧
    (latchRegLost s).gov.vA = s.gov.vA ∧ (latchRegLost s).gov.trips = s.gov.trips ∧
    (latchRegLost s).gov.beforeTrip = s.gov.beforeTrip ∧ (latchRegLost s).gov.tripTimer = s.gov.tripTimer ∧
    (latchRegLost s).gov.driveEnable = s.gov.driveEnable ∧ (latchRegLost s).gov.pulseTimer = s.gov.pulseTimer ∧
    (latchRegLost s).gov.sequence = s.gov.sequence ∧ (latchRegLost s).web = s.web ∧ (latchRegLost s).order = s.order ∧
    (latchRegLost s).pattern = s.pattern ∧ (latchRegLost s).roll = s.roll ∧ (latchRegLost s).heat = s.heat ∧
    (latchRegLost s).outfeed = s.outfeed ∧ (latchRegLost s).cond.checkErrors = s.cond.checkErrors ∧
    (latchRegLost s).cond.overruns = s.cond.overruns ∧ (latchRegLost s).cond.straySenders = s.cond.straySenders ∧
    (latchRegLost s).cond.strayMarks = s.cond.strayMarks ∧ (latchRegLost s).cond.missedMarks = s.cond.missedMarks ∧
    (latchRegLost s).cond.limitedStrokes = s.cond.limitedStrokes ∧ (latchRegLost s).pins = s.pins ∧
    (latchRegLost s).pending = s.pending := by
  simp [latchRegLost]

/-- What `closeWindowMiss` leaves as it was. -/
@[simp] theorem closeWindowMiss_frame (s : State) :
    (closeWindowMiss s).loader = s.loader ∧ (closeWindowMiss s).bus.rx = s.bus.rx ∧
    (closeWindowMiss s).bus.latchRoster = s.bus.latchRoster ∧
    (closeWindowMiss s).bus.latchTerminal = s.bus.latchTerminal ∧ (closeWindowMiss s).bus.faultCount = s.bus.faultCount ∧
    (closeWindowMiss s).bus.off = s.bus.off ∧ (closeWindowMiss s).bus.recovery = s.bus.recovery ∧
    (closeWindowMiss s).bus.duplicate = s.bus.duplicate ∧ (closeWindowMiss s).peers = s.peers ∧
    (closeWindowMiss s).gov.vOp = s.gov.vOp ∧ (closeWindowMiss s).gov.vT = s.gov.vT ∧
    (closeWindowMiss s).gov.vA = s.gov.vA ∧ (closeWindowMiss s).gov.trips = s.gov.trips ∧
    (closeWindowMiss s).gov.beforeTrip = s.gov.beforeTrip ∧ (closeWindowMiss s).gov.tripTimer = s.gov.tripTimer ∧
    (closeWindowMiss s).gov.driveEnable = s.gov.driveEnable ∧ (closeWindowMiss s).gov.pulseTimer = s.gov.pulseTimer ∧
    (closeWindowMiss s).gov.sequence = s.gov.sequence ∧ (closeWindowMiss s).web.infeed = s.web.infeed ∧
    (closeWindowMiss s).web.outfeed = s.web.outfeed ∧ (closeWindowMiss s).web.p0 = s.web.p0 ∧
    (closeWindowMiss s).web.expected = s.web.expected ∧ (closeWindowMiss s).web.firstSend = s.web.firstSend ∧
    (closeWindowMiss s).web.candidate = s.web.candidate ∧ (closeWindowMiss s).web.cancelList = s.web.cancelList ∧
    (closeWindowMiss s).web.nextUid = s.web.nextUid ∧ (closeWindowMiss s).order = s.order ∧
    (closeWindowMiss s).pattern = s.pattern ∧ (closeWindowMiss s).roll = s.roll ∧ (closeWindowMiss s).heat = s.heat ∧
    (closeWindowMiss s).outfeed = s.outfeed ∧ (closeWindowMiss s).cond.checkErrors = s.cond.checkErrors ∧
    (closeWindowMiss s).cond.overruns = s.cond.overruns ∧ (closeWindowMiss s).cond.straySenders = s.cond.straySenders ∧
    (closeWindowMiss s).cond.strayMarks = s.cond.strayMarks ∧
    (closeWindowMiss s).cond.limitedStrokes = s.cond.limitedStrokes ∧ (closeWindowMiss s).pins = s.pins ∧
    (closeWindowMiss s).pending = s.pending := by
  generalize h : closeWindowMiss s = t
  unfold closeWindowMiss at h
  dsimp only at h
  (repeat' split at h) <;> subst h <;> simp

/-- What `openWindow` leaves as it was. -/
@[simp] theorem openWindow_frame (g : Segment) (s : State) :
    (openWindow g s).loader = s.loader ∧ (openWindow g s).bus.rx = s.bus.rx ∧
    (openWindow g s).bus.latchRoster = s.bus.latchRoster ∧ (openWindow g s).bus.latchTerminal = s.bus.latchTerminal ∧
    (openWindow g s).bus.faultCount = s.bus.faultCount ∧ (openWindow g s).bus.off = s.bus.off ∧
    (openWindow g s).bus.recovery = s.bus.recovery ∧ (openWindow g s).bus.duplicate = s.bus.duplicate ∧
    (openWindow g s).peers = s.peers ∧ (openWindow g s).gov.vOp = s.gov.vOp ∧ (openWindow g s).gov.vT = s.gov.vT ∧
    (openWindow g s).gov.vA = s.gov.vA ∧ (openWindow g s).gov.trips = s.gov.trips ∧
    (openWindow g s).gov.beforeTrip = s.gov.beforeTrip ∧ (openWindow g s).gov.tripTimer = s.gov.tripTimer ∧
    (openWindow g s).gov.driveEnable = s.gov.driveEnable ∧ (openWindow g s).gov.pulseTimer = s.gov.pulseTimer ∧
    (openWindow g s).gov.sequence = s.gov.sequence ∧ (openWindow g s).web.infeed = s.web.infeed ∧
    (openWindow g s).web.outfeed = s.web.outfeed ∧ (openWindow g s).web.p0 = s.web.p0 ∧
    (openWindow g s).web.expected = s.web.expected ∧ (openWindow g s).web.firstSend = s.web.firstSend ∧
    (openWindow g s).web.candidate = s.web.candidate ∧ (openWindow g s).web.cancelList = s.web.cancelList ∧
    (openWindow g s).web.nextUid = s.web.nextUid ∧ (openWindow g s).order = s.order ∧
    (openWindow g s).pattern = s.pattern ∧ (openWindow g s).roll = s.roll ∧ (openWindow g s).heat = s.heat ∧
    (openWindow g s).outfeed = s.outfeed ∧ (openWindow g s).cond.checkErrors = s.cond.checkErrors ∧
    (openWindow g s).cond.overruns = s.cond.overruns ∧ (openWindow g s).cond.straySenders = s.cond.straySenders ∧
    (openWindow g s).cond.strayMarks = s.cond.strayMarks ∧ (openWindow g s).cond.limitedStrokes = s.cond.limitedStrokes ∧
    (openWindow g s).pins = s.pins ∧ (openWindow g s).pending = s.pending := by
  simp [openWindow]

/-- What `holdClosing` leaves as it was. -/
@[simp] theorem holdClosing_frame (s : State) :
    (holdClosing s).loader = s.loader ∧ (holdClosing s).bus = s.bus ∧ (holdClosing s).peers = s.peers ∧
    (holdClosing s).gov = s.gov ∧ (holdClosing s).web.infeed = s.web.infeed ∧
    (holdClosing s).web.outfeed = s.web.outfeed ∧ (holdClosing s).web.p0 = s.web.p0 ∧
    (holdClosing s).web.map = s.web.map ∧ (holdClosing s).web.expected = s.web.expected ∧
    (holdClosing s).web.firstSend = s.web.firstSend ∧ (holdClosing s).web.window = s.web.window ∧
    (holdClosing s).web.candidate = s.web.candidate ∧ (holdClosing s).web.missCount = s.web.missCount ∧
    (holdClosing s).web.cancelList = s.web.cancelList ∧ (holdClosing s).web.nextUid = s.web.nextUid ∧
    (holdClosing s).order = s.order ∧ (holdClosing s).pattern = s.pattern ∧ (holdClosing s).roll = s.roll ∧
    (holdClosing s).heat = s.heat ∧ (holdClosing s).outfeed = s.outfeed ∧ (holdClosing s).cond = s.cond ∧
    (holdClosing s).pins = s.pins ∧ (holdClosing s).pending = s.pending := by
  simp [holdClosing]

/-- What `shiftFrom` leaves as it was. -/
@[simp] theorem shiftFrom_frame (uid : Nat) (d : Word) (s : State) :
    (shiftFrom uid d s).loader = s.loader ∧ (shiftFrom uid d s).bus = s.bus ∧ (shiftFrom uid d s).peers = s.peers ∧
    (shiftFrom uid d s).gov = s.gov ∧ (shiftFrom uid d s).web.infeed = s.web.infeed ∧
    (shiftFrom uid d s).web.outfeed = s.web.outfeed ∧ (shiftFrom uid d s).web.p0 = s.web.p0 ∧
    (shiftFrom uid d s).web.expected = s.web.expected ∧ (shiftFrom uid d s).web.firstSend = s.web.firstSend ∧
    (shiftFrom uid d s).web.window = s.web.window ∧ (shiftFrom uid d s).web.closing = s.web.closing ∧
    (shiftFrom uid d s).web.candidate = s.web.candidate ∧ (shiftFrom uid d s).web.missCount = s.web.missCount ∧
    (shiftFrom uid d s).web.cancelList = s.web.cancelList ∧ (shiftFrom uid d s).web.nextUid = s.web.nextUid ∧
    (shiftFrom uid d s).order = s.order ∧ (shiftFrom uid d s).pattern = s.pattern ∧
    (shiftFrom uid d s).roll = s.roll ∧ (shiftFrom uid d s).heat = s.heat ∧ (shiftFrom uid d s).outfeed = s.outfeed ∧
    (shiftFrom uid d s).cond = s.cond ∧ (shiftFrom uid d s).pins = s.pins ∧
    (shiftFrom uid d s).pending = s.pending := by
  simp [shiftFrom]

/-- What `acceptMark` leaves as it was. -/
@[simp] theorem acceptMark_frame (edge : Word) (s : State) :
    (acceptMark edge s).loader = s.loader ∧ (acceptMark edge s).bus.rx = s.bus.rx ∧
    (acceptMark edge s).bus.latchRoster = s.bus.latchRoster ∧
    (acceptMark edge s).bus.latchTerminal = s.bus.latchTerminal ∧ (acceptMark edge s).bus.faultCount = s.bus.faultCount ∧
    (acceptMark edge s).bus.off = s.bus.off ∧ (acceptMark edge s).bus.recovery = s.bus.recovery ∧
    (acceptMark edge s).bus.duplicate = s.bus.duplicate ∧ (acceptMark edge s).peers = s.peers ∧
    (acceptMark edge s).gov = s.gov ∧ (acceptMark edge s).web.infeed = s.web.infeed ∧
    (acceptMark edge s).web.outfeed = s.web.outfeed ∧ (acceptMark edge s).web.p0 = s.web.p0 ∧
    (acceptMark edge s).web.expected = s.web.expected ∧ (acceptMark edge s).web.firstSend = s.web.firstSend ∧
    (acceptMark edge s).web.candidate = s.web.candidate ∧ (acceptMark edge s).web.cancelList = s.web.cancelList ∧
    (acceptMark edge s).web.nextUid = s.web.nextUid ∧ (acceptMark edge s).order = s.order ∧
    (acceptMark edge s).pattern.staging = s.pattern.staging ∧
    (acceptMark edge s).pattern.uploadPattern = s.pattern.uploadPattern ∧
    (acceptMark edge s).pattern.stroke = s.pattern.stroke ∧ (acceptMark edge s).pattern.depth = s.pattern.depth ∧
    (acceptMark edge s).pattern.move = s.pattern.move ∧ (acceptMark edge s).pattern.limitCount = s.pattern.limitCount ∧
    (acceptMark edge s).roll = s.roll ∧ (acceptMark edge s).heat.channels = s.heat.channels ∧
    (acceptMark edge s).heat.recipes = s.heat.recipes ∧ (acceptMark edge s).heat.zones = s.heat.zones ∧
    (acceptMark edge s).heat.chamber = s.heat.chamber ∧ (acceptMark edge s).heat.bandCount = s.heat.bandCount ∧
    (acceptMark edge s).heat.parkTimer = s.heat.parkTimer ∧ (acceptMark edge s).heat.heatTimer = s.heat.heatTimer ∧
    (acceptMark edge s).heat.cells = s.heat.cells ∧ (acceptMark edge s).heat.shiftAnchor = s.heat.shiftAnchor ∧
    (acceptMark edge s).outfeed.piece = s.outfeed.piece ∧ (acceptMark edge s).outfeed.cutTimer = s.outfeed.cutTimer ∧
    (acceptMark edge s).outfeed.gate = s.outfeed.gate ∧ (acceptMark edge s).cond.checkErrors = s.cond.checkErrors ∧
    (acceptMark edge s).cond.overruns = s.cond.overruns ∧ (acceptMark edge s).cond.straySenders = s.cond.straySenders ∧
    (acceptMark edge s).cond.missedMarks = s.cond.missedMarks ∧
    (acceptMark edge s).cond.limitedStrokes = s.cond.limitedStrokes ∧ (acceptMark edge s).pins = s.pins ∧
    (acceptMark edge s).pending = s.pending := by
  generalize h : acceptMark edge s = t
  unfold acceptMark at h
  dsimp only at h
  (repeat' split at h) <;> subst h <;> simp

/-- What `sendHandoff` leaves as it was. -/
@[simp] theorem sendHandoff_frame (g : Segment) (s : State) :
    (sendHandoff g s).loader = s.loader ∧ (sendHandoff g s).bus.rx = s.bus.rx ∧
    (sendHandoff g s).bus.latchRoster = s.bus.latchRoster ∧
    (sendHandoff g s).bus.latchTerminal = s.bus.latchTerminal ∧ (sendHandoff g s).bus.faultCount = s.bus.faultCount ∧
    (sendHandoff g s).bus.off = s.bus.off ∧ (sendHandoff g s).bus.recovery = s.bus.recovery ∧
    (sendHandoff g s).bus.duplicate = s.bus.duplicate ∧ (sendHandoff g s).peers = s.peers ∧
    (sendHandoff g s).gov = s.gov ∧ (sendHandoff g s).web.infeed = s.web.infeed ∧
    (sendHandoff g s).web.outfeed = s.web.outfeed ∧ (sendHandoff g s).web.p0 = s.web.p0 ∧
    (sendHandoff g s).web.expected = s.web.expected ∧ (sendHandoff g s).web.window = s.web.window ∧
    (sendHandoff g s).web.closing = s.web.closing ∧ (sendHandoff g s).web.candidate = s.web.candidate ∧
    (sendHandoff g s).web.missCount = s.web.missCount ∧ (sendHandoff g s).web.cancelList = s.web.cancelList ∧
    (sendHandoff g s).web.nextUid = s.web.nextUid ∧ (sendHandoff g s).order = s.order ∧
    (sendHandoff g s).pattern.slots = s.pattern.slots ∧ (sendHandoff g s).pattern.staging = s.pattern.staging ∧
    (sendHandoff g s).pattern.uploadPattern = s.pattern.uploadPattern ∧
    (sendHandoff g s).pattern.uploadStatus = s.pattern.uploadStatus ∧ (sendHandoff g s).pattern.run = s.pattern.run ∧
    (sendHandoff g s).pattern.stroke = s.pattern.stroke ∧ (sendHandoff g s).pattern.heldFold = s.pattern.heldFold ∧
    (sendHandoff g s).pattern.depth = s.pattern.depth ∧ (sendHandoff g s).pattern.move = s.pattern.move ∧
    (sendHandoff g s).pattern.limitCount = s.pattern.limitCount ∧ (sendHandoff g s).roll = s.roll ∧
    (sendHandoff g s).heat = s.heat ∧ (sendHandoff g s).outfeed = s.outfeed ∧
    (sendHandoff g s).cond.flags = s.cond.flags ∧ (sendHandoff g s).cond.checkErrors = s.cond.checkErrors ∧
    (sendHandoff g s).cond.overruns = s.cond.overruns ∧ (sendHandoff g s).cond.straySenders = s.cond.straySenders ∧
    (sendHandoff g s).cond.strayMarks = s.cond.strayMarks ∧ (sendHandoff g s).cond.missedMarks = s.cond.missedMarks ∧
    (sendHandoff g s).cond.limitedStrokes = s.cond.limitedStrokes ∧ (sendHandoff g s).cond.wakeDue = s.cond.wakeDue ∧
    (sendHandoff g s).pins = s.pins ∧ (sendHandoff g s).pending = s.pending := by
  generalize h : sendHandoff g s = t
  unfold sendHandoff at h
  (repeat' split at h) <;> subst h <;> simp

/-- What `mergeVerdict` leaves as it was. -/
@[simp] theorem mergeVerdict_frame (seg : Half) (panelId : Word) (v : Verdict) (origin : Nat) (s : State) :
    (mergeVerdict seg panelId v origin s).loader = s.loader ∧ (mergeVerdict seg panelId v origin s).bus = s.bus ∧
    (mergeVerdict seg panelId v origin s).peers = s.peers ∧ (mergeVerdict seg panelId v origin s).gov = s.gov ∧
    (mergeVerdict seg panelId v origin s).web.infeed = s.web.infeed ∧
    (mergeVerdict seg panelId v origin s).web.outfeed = s.web.outfeed ∧
    (mergeVerdict seg panelId v origin s).web.p0 = s.web.p0 ∧
    (mergeVerdict seg panelId v origin s).web.expected = s.web.expected ∧
    (mergeVerdict seg panelId v origin s).web.firstSend = s.web.firstSend ∧
    (mergeVerdict seg panelId v origin s).web.window = s.web.window ∧
    (mergeVerdict seg panelId v origin s).web.closing = s.web.closing ∧
    (mergeVerdict seg panelId v origin s).web.candidate = s.web.candidate ∧
    (mergeVerdict seg panelId v origin s).web.missCount = s.web.missCount ∧
    (mergeVerdict seg panelId v origin s).web.cancelList = s.web.cancelList ∧
    (mergeVerdict seg panelId v origin s).web.nextUid = s.web.nextUid ∧
    (mergeVerdict seg panelId v origin s).order = s.order ∧
    (mergeVerdict seg panelId v origin s).pattern = s.pattern ∧ (mergeVerdict seg panelId v origin s).roll = s.roll ∧
    (mergeVerdict seg panelId v origin s).heat = s.heat ∧ (mergeVerdict seg panelId v origin s).outfeed = s.outfeed ∧
    (mergeVerdict seg panelId v origin s).cond = s.cond ∧ (mergeVerdict seg panelId v origin s).pins = s.pins ∧
    (mergeVerdict seg panelId v origin s).pending = s.pending := by
  simp [mergeVerdict]

/-- What `cancelPanel` leaves as it was. -/
@[simp] theorem cancelPanel_frame (id : Word) (s : State) :
    (cancelPanel id s).loader = s.loader ∧ (cancelPanel id s).bus = s.bus ∧ (cancelPanel id s).peers = s.peers ∧
    (cancelPanel id s).gov = s.gov ∧ (cancelPanel id s).web.infeed = s.web.infeed ∧
    (cancelPanel id s).web.outfeed = s.web.outfeed ∧ (cancelPanel id s).web.p0 = s.web.p0 ∧
    (cancelPanel id s).web.expected = s.web.expected ∧ (cancelPanel id s).web.firstSend = s.web.firstSend ∧
    (cancelPanel id s).web.window = s.web.window ∧ (cancelPanel id s).web.closing = s.web.closing ∧
    (cancelPanel id s).web.candidate = s.web.candidate ∧ (cancelPanel id s).web.missCount = s.web.missCount ∧
    (cancelPanel id s).web.nextUid = s.web.nextUid ∧ (cancelPanel id s).order = s.order ∧
    (cancelPanel id s).pattern = s.pattern ∧ (cancelPanel id s).roll = s.roll ∧ (cancelPanel id s).heat = s.heat ∧
    (cancelPanel id s).outfeed = s.outfeed ∧ (cancelPanel id s).cond = s.cond ∧ (cancelPanel id s).pins = s.pins ∧
    (cancelPanel id s).pending = s.pending := by
  simp [cancelPanel]

/-- What `closeEntry` leaves as it was. -/
@[simp] theorem closeEntry_frame (j : Judgement) (g : Segment) (s : State) :
    (closeEntry j g s).loader = s.loader ∧ (closeEntry j g s).bus.rx = s.bus.rx ∧
    (closeEntry j g s).bus.latchRoster = s.bus.latchRoster ∧
    (closeEntry j g s).bus.latchTerminal = s.bus.latchTerminal ∧
    (closeEntry j g s).bus.faultCount = s.bus.faultCount ∧ (closeEntry j g s).bus.off = s.bus.off ∧
    (closeEntry j g s).bus.recovery = s.bus.recovery ∧ (closeEntry j g s).bus.duplicate = s.bus.duplicate ∧
    (closeEntry j g s).peers = s.peers ∧ (closeEntry j g s).gov = s.gov ∧
    (closeEntry j g s).web.infeed = s.web.infeed ∧ (closeEntry j g s).web.outfeed = s.web.outfeed ∧
    (closeEntry j g s).web.p0 = s.web.p0 ∧ (closeEntry j g s).web.expected = s.web.expected ∧
    (closeEntry j g s).web.firstSend = s.web.firstSend ∧ (closeEntry j g s).web.window = s.web.window ∧
    (closeEntry j g s).web.closing = s.web.closing ∧ (closeEntry j g s).web.candidate = s.web.candidate ∧
    (closeEntry j g s).web.missCount = s.web.missCount ∧ (closeEntry j g s).web.cancelList = s.web.cancelList ∧
    (closeEntry j g s).web.nextUid = s.web.nextUid ∧ (closeEntry j g s).order = s.order ∧
    (closeEntry j g s).pattern = s.pattern ∧ (closeEntry j g s).roll = s.roll ∧
    (closeEntry j g s).heat.channels = s.heat.channels ∧ (closeEntry j g s).heat.recipes = s.heat.recipes ∧
    (closeEntry j g s).heat.zones = s.heat.zones ∧ (closeEntry j g s).heat.chamber = s.heat.chamber ∧
    (closeEntry j g s).heat.bandCount = s.heat.bandCount ∧ (closeEntry j g s).heat.parkTimer = s.heat.parkTimer ∧
    (closeEntry j g s).heat.heatTimer = s.heat.heatTimer ∧ (closeEntry j g s).heat.cells = s.heat.cells ∧
    (closeEntry j g s).heat.shiftAnchor = s.heat.shiftAnchor ∧ (closeEntry j g s).outfeed = s.outfeed ∧
    (closeEntry j g s).cond.checkErrors = s.cond.checkErrors ∧ (closeEntry j g s).cond.overruns = s.cond.overruns ∧
    (closeEntry j g s).cond.straySenders = s.cond.straySenders ∧
    (closeEntry j g s).cond.strayMarks = s.cond.strayMarks ∧
    (closeEntry j g s).cond.missedMarks = s.cond.missedMarks ∧
    (closeEntry j g s).cond.limitedStrokes = s.cond.limitedStrokes ∧ (closeEntry j g s).pins = s.pins ∧
    (closeEntry j g s).pending = s.pending := by
  generalize h : closeEntry j g s = t
  unfold closeEntry at h
  dsimp only at h
  (repeat' split at h) <;> subst h <;> simp

/-- What `closeEntries` leaves as it was. -/
@[simp] theorem closeEntries_frame (c : Cell) (edge : Word) (s : State) :
    (closeEntries c edge s).loader = s.loader ∧ (closeEntries c edge s).bus.rx = s.bus.rx ∧
    (closeEntries c edge s).bus.latchRoster = s.bus.latchRoster ∧
    (closeEntries c edge s).bus.latchTerminal = s.bus.latchTerminal ∧
    (closeEntries c edge s).bus.faultCount = s.bus.faultCount ∧ (closeEntries c edge s).bus.off = s.bus.off ∧
    (closeEntries c edge s).bus.recovery = s.bus.recovery ∧ (closeEntries c edge s).bus.duplicate = s.bus.duplicate ∧
    (closeEntries c edge s).peers = s.peers ∧ (closeEntries c edge s).gov = s.gov ∧
    (closeEntries c edge s).web.infeed = s.web.infeed ∧ (closeEntries c edge s).web.outfeed = s.web.outfeed ∧
    (closeEntries c edge s).web.p0 = s.web.p0 ∧ (closeEntries c edge s).web.expected = s.web.expected ∧
    (closeEntries c edge s).web.firstSend = s.web.firstSend ∧ (closeEntries c edge s).web.window = s.web.window ∧
    (closeEntries c edge s).web.closing = s.web.closing ∧ (closeEntries c edge s).web.candidate = s.web.candidate ∧
    (closeEntries c edge s).web.missCount = s.web.missCount ∧
    (closeEntries c edge s).web.cancelList = s.web.cancelList ∧ (closeEntries c edge s).web.nextUid = s.web.nextUid ∧
    (closeEntries c edge s).order = s.order ∧ (closeEntries c edge s).pattern = s.pattern ∧
    (closeEntries c edge s).roll = s.roll ∧ (closeEntries c edge s).heat.channels = s.heat.channels ∧
    (closeEntries c edge s).heat.recipes = s.heat.recipes ∧ (closeEntries c edge s).heat.zones = s.heat.zones ∧
    (closeEntries c edge s).heat.chamber = s.heat.chamber ∧
    (closeEntries c edge s).heat.bandCount = s.heat.bandCount ∧
    (closeEntries c edge s).heat.parkTimer = s.heat.parkTimer ∧
    (closeEntries c edge s).heat.heatTimer = s.heat.heatTimer ∧ (closeEntries c edge s).heat.cells = s.heat.cells ∧
    (closeEntries c edge s).heat.shiftAnchor = s.heat.shiftAnchor ∧ (closeEntries c edge s).outfeed = s.outfeed ∧
    (closeEntries c edge s).cond.checkErrors = s.cond.checkErrors ∧
    (closeEntries c edge s).cond.overruns = s.cond.overruns ∧
    (closeEntries c edge s).cond.straySenders = s.cond.straySenders ∧
    (closeEntries c edge s).cond.strayMarks = s.cond.strayMarks ∧
    (closeEntries c edge s).cond.missedMarks = s.cond.missedMarks ∧
    (closeEntries c edge s).cond.limitedStrokes = s.cond.limitedStrokes ∧ (closeEntries c edge s).pins = s.pins ∧
    (closeEntries c edge s).pending = s.pending := by
  unfold closeEntries
  generalize s.web.map = l
  induction l generalizing s with
  | nil => simp
  | cons a l ih =>
    rw [List.foldl_cons]
    split
    · exact ih s
    · rename_i j _
      split
      · have h := ih (closeEntry j a s)
        simp only [closeEntry_frame] at h
        exact h
      · exact ih s

/-- What `shiftCells` leaves as it was. -/
@[simp] theorem shiftCells_frame (s : State) :
    (shiftCells s).loader = s.loader ∧ (shiftCells s).bus.rx = s.bus.rx ∧
    (shiftCells s).bus.latchRoster = s.bus.latchRoster ∧ (shiftCells s).bus.latchTerminal = s.bus.latchTerminal ∧
    (shiftCells s).bus.faultCount = s.bus.faultCount ∧ (shiftCells s).bus.off = s.bus.off ∧
    (shiftCells s).bus.recovery = s.bus.recovery ∧ (shiftCells s).bus.duplicate = s.bus.duplicate ∧
    (shiftCells s).peers = s.peers ∧ (shiftCells s).gov = s.gov ∧ (shiftCells s).web.infeed = s.web.infeed ∧
    (shiftCells s).web.outfeed = s.web.outfeed ∧ (shiftCells s).web.p0 = s.web.p0 ∧
    (shiftCells s).web.expected = s.web.expected ∧ (shiftCells s).web.firstSend = s.web.firstSend ∧
    (shiftCells s).web.window = s.web.window ∧ (shiftCells s).web.closing = s.web.closing ∧
    (shiftCells s).web.candidate = s.web.candidate ∧ (shiftCells s).web.missCount = s.web.missCount ∧
    (shiftCells s).web.cancelList = s.web.cancelList ∧ (shiftCells s).web.nextUid = s.web.nextUid ∧
    (shiftCells s).order = s.order ∧ (shiftCells s).pattern = s.pattern ∧ (shiftCells s).roll = s.roll ∧
    (shiftCells s).heat.channels = s.heat.channels ∧ (shiftCells s).heat.recipes = s.heat.recipes ∧
    (shiftCells s).heat.zones = s.heat.zones ∧ (shiftCells s).heat.chamber = s.heat.chamber ∧
    (shiftCells s).heat.bandCount = s.heat.bandCount ∧ (shiftCells s).heat.parkTimer = s.heat.parkTimer ∧
    (shiftCells s).heat.heatTimer = s.heat.heatTimer ∧ (shiftCells s).outfeed = s.outfeed ∧
    (shiftCells s).cond.checkErrors = s.cond.checkErrors ∧ (shiftCells s).cond.overruns = s.cond.overruns ∧
    (shiftCells s).cond.straySenders = s.cond.straySenders ∧ (shiftCells s).cond.strayMarks = s.cond.strayMarks ∧
    (shiftCells s).cond.missedMarks = s.cond.missedMarks ∧
    (shiftCells s).cond.limitedStrokes = s.cond.limitedStrokes ∧ (shiftCells s).pins = s.pins ∧
    (shiftCells s).pending = s.pending := by
  generalize h : shiftCells s = t
  unfold shiftCells at h
  (repeat' split at h) <;> subst h <;> simp

/-- What `setWait` leaves as it was. -/
@[simp] theorem setWait_frame (w : OrderWait) (s : State) :
    (setWait w s).loader = s.loader ∧ (setWait w s).bus.rx = s.bus.rx ∧
    (setWait w s).bus.latchRoster = s.bus.latchRoster ∧ (setWait w s).bus.latchTerminal = s.bus.latchTerminal ∧
    (setWait w s).bus.faultCount = s.bus.faultCount ∧ (setWait w s).bus.off = s.bus.off ∧
    (setWait w s).bus.recovery = s.bus.recovery ∧ (setWait w s).bus.duplicate = s.bus.duplicate ∧
    (setWait w s).peers = s.peers ∧ (setWait w s).gov.vOp = s.gov.vOp ∧ (setWait w s).gov.vT = s.gov.vT ∧
    (setWait w s).gov.vA = s.gov.vA ∧ (setWait w s).gov.trips = s.gov.trips ∧
    (setWait w s).gov.beforeTrip = s.gov.beforeTrip ∧ (setWait w s).gov.tripTimer = s.gov.tripTimer ∧
    (setWait w s).gov.driveEnable = s.gov.driveEnable ∧ (setWait w s).gov.pulseTimer = s.gov.pulseTimer ∧
    (setWait w s).gov.sequence = s.gov.sequence ∧ (setWait w s).web = s.web ∧ (setWait w s).order.queue = s.order.queue ∧
    (setWait w s).order.anchor = s.order.anchor ∧ (setWait w s).order.nextSeg = s.order.nextSeg ∧
    (setWait w s).order.newSequence = s.order.newSequence ∧ (setWait w s).order.spliceRequest = s.order.spliceRequest ∧
    (setWait w s).order.fence = s.order.fence ∧ (setWait w s).order.stall = s.order.stall ∧
    (setWait w s).order.refusal = s.order.refusal ∧ (setWait w s).order.birthHeld = s.order.birthHeld ∧
    (setWait w s).order.punches = s.order.punches ∧ (setWait w s).pattern = s.pattern ∧ (setWait w s).roll = s.roll ∧
    (setWait w s).heat = s.heat ∧ (setWait w s).outfeed = s.outfeed ∧
    (setWait w s).cond.checkErrors = s.cond.checkErrors ∧ (setWait w s).cond.overruns = s.cond.overruns ∧
    (setWait w s).cond.straySenders = s.cond.straySenders ∧ (setWait w s).cond.strayMarks = s.cond.strayMarks ∧
    (setWait w s).cond.missedMarks = s.cond.missedMarks ∧ (setWait w s).cond.limitedStrokes = s.cond.limitedStrokes ∧
    (setWait w s).pins = s.pins ∧ (setWait w s).pending = s.pending := by
  simp [setWait]

/-- What `reviewWait` leaves as it was. -/
@[simp] theorem reviewWait_frame (s : State) :
    (reviewWait s).loader = s.loader ∧ (reviewWait s).bus.rx = s.bus.rx ∧
    (reviewWait s).bus.latchRoster = s.bus.latchRoster ∧ (reviewWait s).bus.latchTerminal = s.bus.latchTerminal ∧
    (reviewWait s).bus.faultCount = s.bus.faultCount ∧ (reviewWait s).bus.off = s.bus.off ∧
    (reviewWait s).bus.recovery = s.bus.recovery ∧ (reviewWait s).bus.duplicate = s.bus.duplicate ∧
    (reviewWait s).peers = s.peers ∧ (reviewWait s).gov.vOp = s.gov.vOp ∧ (reviewWait s).gov.vT = s.gov.vT ∧
    (reviewWait s).gov.vA = s.gov.vA ∧ (reviewWait s).gov.trips = s.gov.trips ∧
    (reviewWait s).gov.beforeTrip = s.gov.beforeTrip ∧ (reviewWait s).gov.tripTimer = s.gov.tripTimer ∧
    (reviewWait s).gov.driveEnable = s.gov.driveEnable ∧ (reviewWait s).gov.pulseTimer = s.gov.pulseTimer ∧
    (reviewWait s).gov.sequence = s.gov.sequence ∧ (reviewWait s).web = s.web ∧
    (reviewWait s).order.queue = s.order.queue ∧ (reviewWait s).order.anchor = s.order.anchor ∧
    (reviewWait s).order.nextSeg = s.order.nextSeg ∧ (reviewWait s).order.newSequence = s.order.newSequence ∧
    (reviewWait s).order.spliceRequest = s.order.spliceRequest ∧ (reviewWait s).order.fence = s.order.fence ∧
    (reviewWait s).order.stall = s.order.stall ∧ (reviewWait s).order.refusal = s.order.refusal ∧
    (reviewWait s).order.birthHeld = s.order.birthHeld ∧ (reviewWait s).order.punches = s.order.punches ∧
    (reviewWait s).pattern = s.pattern ∧ (reviewWait s).roll = s.roll ∧ (reviewWait s).heat = s.heat ∧
    (reviewWait s).outfeed = s.outfeed ∧ (reviewWait s).cond.checkErrors = s.cond.checkErrors ∧
    (reviewWait s).cond.overruns = s.cond.overruns ∧ (reviewWait s).cond.straySenders = s.cond.straySenders ∧
    (reviewWait s).cond.strayMarks = s.cond.strayMarks ∧ (reviewWait s).cond.missedMarks = s.cond.missedMarks ∧
    (reviewWait s).cond.limitedStrokes = s.cond.limitedStrokes ∧ (reviewWait s).pins = s.pins ∧
    (reviewWait s).pending = s.pending := by
  generalize h : reviewWait s = t
  unfold reviewWait at h
  (repeat' split at h) <;> subst h <;> simp

/-- What `admitOrder` leaves as it was. -/
@[simp] theorem admitOrder_frame (m : Measured) (s : State) :
    (admitOrder m s).loader = s.loader ∧ (admitOrder m s).bus.rx = s.bus.rx ∧
    (admitOrder m s).bus.latchRoster = s.bus.latchRoster ∧ (admitOrder m s).bus.latchTerminal = s.bus.latchTerminal ∧
    (admitOrder m s).bus.faultCount = s.bus.faultCount ∧ (admitOrder m s).bus.off = s.bus.off ∧
    (admitOrder m s).bus.recovery = s.bus.recovery ∧ (admitOrder m s).bus.duplicate = s.bus.duplicate ∧
    (admitOrder m s).peers = s.peers ∧ (admitOrder m s).gov.vOp = s.gov.vOp ∧ (admitOrder m s).gov.vT = s.gov.vT ∧
    (admitOrder m s).gov.vA = s.gov.vA ∧ (admitOrder m s).gov.trips = s.gov.trips ∧
    (admitOrder m s).gov.beforeTrip = s.gov.beforeTrip ∧ (admitOrder m s).gov.tripTimer = s.gov.tripTimer ∧
    (admitOrder m s).gov.driveEnable = s.gov.driveEnable ∧ (admitOrder m s).gov.pulseTimer = s.gov.pulseTimer ∧
    (admitOrder m s).gov.sequence = s.gov.sequence ∧ (admitOrder m s).web = s.web ∧
    (admitOrder m s).order.anchor = s.order.anchor ∧ (admitOrder m s).order.nextSeg = s.order.nextSeg ∧
    (admitOrder m s).order.newSequence = s.order.newSequence ∧
    (admitOrder m s).order.spliceRequest = s.order.spliceRequest ∧ (admitOrder m s).order.fence = s.order.fence ∧
    (admitOrder m s).order.stall = s.order.stall ∧ (admitOrder m s).order.birthHeld = s.order.birthHeld ∧
    (admitOrder m s).order.punches = s.order.punches ∧ (admitOrder m s).pattern = s.pattern ∧
    (admitOrder m s).roll = s.roll ∧ (admitOrder m s).heat = s.heat ∧ (admitOrder m s).outfeed = s.outfeed ∧
    (admitOrder m s).cond.checkErrors = s.cond.checkErrors ∧ (admitOrder m s).cond.overruns = s.cond.overruns ∧
    (admitOrder m s).cond.straySenders = s.cond.straySenders ∧ (admitOrder m s).cond.strayMarks = s.cond.strayMarks ∧
    (admitOrder m s).cond.missedMarks = s.cond.missedMarks ∧
    (admitOrder m s).cond.limitedStrokes = s.cond.limitedStrokes ∧ (admitOrder m s).pins = s.pins ∧
    (admitOrder m s).pending = s.pending := by
  generalize h : admitOrder m s = t
  unfold admitOrder at h
  (repeat' split at h) <;> subst h <;> simp

/-- What `cancelOrder` leaves as it was. -/
@[simp] theorem cancelOrder_frame (id : Word) (s : State) :
    (cancelOrder id s).loader = s.loader ∧ (cancelOrder id s).bus.rx = s.bus.rx ∧
    (cancelOrder id s).bus.latchRoster = s.bus.latchRoster ∧ (cancelOrder id s).bus.latchTerminal = s.bus.latchTerminal ∧
    (cancelOrder id s).bus.faultCount = s.bus.faultCount ∧ (cancelOrder id s).bus.off = s.bus.off ∧
    (cancelOrder id s).bus.recovery = s.bus.recovery ∧ (cancelOrder id s).bus.duplicate = s.bus.duplicate ∧
    (cancelOrder id s).peers = s.peers ∧ (cancelOrder id s).gov.vOp = s.gov.vOp ∧ (cancelOrder id s).gov.vT = s.gov.vT ∧
    (cancelOrder id s).gov.vA = s.gov.vA ∧ (cancelOrder id s).gov.trips = s.gov.trips ∧
    (cancelOrder id s).gov.beforeTrip = s.gov.beforeTrip ∧ (cancelOrder id s).gov.tripTimer = s.gov.tripTimer ∧
    (cancelOrder id s).gov.driveEnable = s.gov.driveEnable ∧ (cancelOrder id s).gov.pulseTimer = s.gov.pulseTimer ∧
    (cancelOrder id s).gov.sequence = s.gov.sequence ∧ (cancelOrder id s).web = s.web ∧
    (cancelOrder id s).order.anchor = s.order.anchor ∧ (cancelOrder id s).order.nextSeg = s.order.nextSeg ∧
    (cancelOrder id s).order.newSequence = s.order.newSequence ∧
    (cancelOrder id s).order.spliceRequest = s.order.spliceRequest ∧ (cancelOrder id s).order.fence = s.order.fence ∧
    (cancelOrder id s).order.stall = s.order.stall ∧ (cancelOrder id s).order.refusal = s.order.refusal ∧
    (cancelOrder id s).order.birthHeld = s.order.birthHeld ∧ (cancelOrder id s).order.punches = s.order.punches ∧
    (cancelOrder id s).pattern = s.pattern ∧ (cancelOrder id s).roll = s.roll ∧ (cancelOrder id s).heat = s.heat ∧
    (cancelOrder id s).outfeed = s.outfeed ∧ (cancelOrder id s).cond.checkErrors = s.cond.checkErrors ∧
    (cancelOrder id s).cond.overruns = s.cond.overruns ∧ (cancelOrder id s).cond.straySenders = s.cond.straySenders ∧
    (cancelOrder id s).cond.strayMarks = s.cond.strayMarks ∧ (cancelOrder id s).cond.missedMarks = s.cond.missedMarks ∧
    (cancelOrder id s).cond.limitedStrokes = s.cond.limitedStrokes ∧ (cancelOrder id s).pins = s.pins ∧
    (cancelOrder id s).pending = s.pending := by
  generalize h : cancelOrder id s = t
  unfold cancelOrder at h
  (repeat' split at h) <;> subst h <;> simp

/-- What `afterBirth` leaves as it was. -/
@[simp] theorem afterBirth_frame (b : Born) (seg : Half) (arrival : Word) (s : State) :
    (afterBirth b seg arrival s).loader = s.loader ∧ (afterBirth b seg arrival s).bus.rx = s.bus.rx ∧
    (afterBirth b seg arrival s).bus.latchRoster = s.bus.latchRoster ∧
    (afterBirth b seg arrival s).bus.latchTerminal = s.bus.latchTerminal ∧
    (afterBirth b seg arrival s).bus.faultCount = s.bus.faultCount ∧ (afterBirth b seg arrival s).bus.off = s.bus.off ∧
    (afterBirth b seg arrival s).bus.recovery = s.bus.recovery ∧
    (afterBirth b seg arrival s).bus.duplicate = s.bus.duplicate ∧ (afterBirth b seg arrival s).peers = s.peers ∧
    (afterBirth b seg arrival s).gov.vOp = s.gov.vOp ∧ (afterBirth b seg arrival s).gov.vT = s.gov.vT ∧
    (afterBirth b seg arrival s).gov.vA = s.gov.vA ∧ (afterBirth b seg arrival s).gov.trips = s.gov.trips ∧
    (afterBirth b seg arrival s).gov.beforeTrip = s.gov.beforeTrip ∧
    (afterBirth b seg arrival s).gov.tripTimer = s.gov.tripTimer ∧
    (afterBirth b seg arrival s).gov.driveEnable = s.gov.driveEnable ∧
    (afterBirth b seg arrival s).gov.pulseTimer = s.gov.pulseTimer ∧
    (afterBirth b seg arrival s).gov.sequence = s.gov.sequence ∧ (afterBirth b seg arrival s).web = s.web ∧
    (afterBirth b seg arrival s).order.anchor = s.order.anchor ∧
    (afterBirth b seg arrival s).order.nextSeg = s.order.nextSeg ∧
    (afterBirth b seg arrival s).order.newSequence = s.order.newSequence ∧
    (afterBirth b seg arrival s).order.stall = s.order.stall ∧
    (afterBirth b seg arrival s).order.refusal = s.order.refusal ∧
    (afterBirth b seg arrival s).order.birthHeld = s.order.birthHeld ∧ (afterBirth b seg arrival s).pattern = s.pattern ∧
    (afterBirth b seg arrival s).roll.arm1 = s.roll.arm1 ∧ (afterBirth b seg arrival s).roll.arm2 = s.roll.arm2 ∧
    (afterBirth b seg arrival s).roll.spliceState = s.roll.spliceState ∧
    (afterBirth b seg arrival s).roll.spliceArm = s.roll.spliceArm ∧
    (afterBirth b seg arrival s).roll.pasteTimer = s.roll.pasteTimer ∧
    (afterBirth b seg arrival s).roll.pasteOutput = s.roll.pasteOutput ∧
    (afterBirth b seg arrival s).roll.webTimer = s.roll.webTimer ∧
    (afterBirth b seg arrival s).roll.webSeen = s.roll.webSeen ∧
    (afterBirth b seg arrival s).roll.fillBase = s.roll.fillBase ∧ (afterBirth b seg arrival s).roll.vU = s.roll.vU ∧
    (afterBirth b seg arrival s).roll.vOut = s.roll.vOut ∧
    (afterBirth b seg arrival s).roll.exitCommand = s.roll.exitCommand ∧
    (afterBirth b seg arrival s).roll.outHistory = s.roll.outHistory ∧
    (afterBirth b seg arrival s).roll.flatCeiling = s.roll.flatCeiling ∧
    (afterBirth b seg arrival s).roll.statusArm = s.roll.statusArm ∧
    (afterBirth b seg arrival s).roll.statusResult = s.roll.statusResult ∧ (afterBirth b seg arrival s).heat = s.heat ∧
    (afterBirth b seg arrival s).outfeed = s.outfeed ∧
    (afterBirth b seg arrival s).cond.checkErrors = s.cond.checkErrors ∧
    (afterBirth b seg arrival s).cond.overruns = s.cond.overruns ∧
    (afterBirth b seg arrival s).cond.straySenders = s.cond.straySenders ∧
    (afterBirth b seg arrival s).cond.strayMarks = s.cond.strayMarks ∧
    (afterBirth b seg arrival s).cond.missedMarks = s.cond.missedMarks ∧
    (afterBirth b seg arrival s).cond.limitedStrokes = s.cond.limitedStrokes ∧
    (afterBirth b seg arrival s).pins = s.pins ∧ (afterBirth b seg arrival s).pending = s.pending := by
  generalize h : afterBirth b seg arrival s = t
  unfold afterBirth at h
  (repeat' split at h) <;> subst h <;> simp

/-- What `makeBirth` leaves as it was. -/
@[simp] theorem makeBirth_frame (s : State) :
    (makeBirth s).loader = s.loader ∧ (makeBirth s).bus.rx = s.bus.rx ∧
    (makeBirth s).bus.latchRoster = s.bus.latchRoster ∧ (makeBirth s).bus.latchTerminal = s.bus.latchTerminal ∧
    (makeBirth s).bus.faultCount = s.bus.faultCount ∧ (makeBirth s).bus.off = s.bus.off ∧
    (makeBirth s).bus.recovery = s.bus.recovery ∧ (makeBirth s).bus.duplicate = s.bus.duplicate ∧
    (makeBirth s).peers = s.peers ∧ (makeBirth s).gov.vOp = s.gov.vOp ∧ (makeBirth s).gov.vT = s.gov.vT ∧
    (makeBirth s).gov.vA = s.gov.vA ∧ (makeBirth s).gov.trips = s.gov.trips ∧
    (makeBirth s).gov.beforeTrip = s.gov.beforeTrip ∧ (makeBirth s).gov.tripTimer = s.gov.tripTimer ∧
    (makeBirth s).gov.driveEnable = s.gov.driveEnable ∧ (makeBirth s).gov.pulseTimer = s.gov.pulseTimer ∧
    (makeBirth s).gov.sequence = s.gov.sequence ∧ (makeBirth s).web.infeed = s.web.infeed ∧
    (makeBirth s).web.outfeed = s.web.outfeed ∧ (makeBirth s).web.p0 = s.web.p0 ∧
    (makeBirth s).web.expected = s.web.expected ∧ (makeBirth s).web.firstSend = s.web.firstSend ∧
    (makeBirth s).web.candidate = s.web.candidate ∧ (makeBirth s).web.missCount = s.web.missCount ∧
    (makeBirth s).web.cancelList = s.web.cancelList ∧ (makeBirth s).order.refusal = s.order.refusal ∧
    (makeBirth s).pattern.staging = s.pattern.staging ∧ (makeBirth s).pattern.uploadPattern = s.pattern.uploadPattern ∧
    (makeBirth s).pattern.stroke = s.pattern.stroke ∧ (makeBirth s).pattern.depth = s.pattern.depth ∧
    (makeBirth s).pattern.move = s.pattern.move ∧ (makeBirth s).pattern.limitCount = s.pattern.limitCount ∧
    (makeBirth s).roll.arm1 = s.roll.arm1 ∧ (makeBirth s).roll.arm2 = s.roll.arm2 ∧
    (makeBirth s).roll.spliceState = s.roll.spliceState ∧ (makeBirth s).roll.spliceArm = s.roll.spliceArm ∧
    (makeBirth s).roll.pasteTimer = s.roll.pasteTimer ∧ (makeBirth s).roll.pasteOutput = s.roll.pasteOutput ∧
    (makeBirth s).roll.webTimer = s.roll.webTimer ∧ (makeBirth s).roll.webSeen = s.roll.webSeen ∧
    (makeBirth s).roll.fillBase = s.roll.fillBase ∧ (makeBirth s).roll.vU = s.roll.vU ∧
    (makeBirth s).roll.vOut = s.roll.vOut ∧ (makeBirth s).roll.exitCommand = s.roll.exitCommand ∧
    (makeBirth s).roll.outHistory = s.roll.outHistory ∧ (makeBirth s).roll.flatCeiling = s.roll.flatCeiling ∧
    (makeBirth s).roll.statusArm = s.roll.statusArm ∧ (makeBirth s).roll.statusResult = s.roll.statusResult ∧
    (makeBirth s).heat.channels = s.heat.channels ∧ (makeBirth s).heat.recipes = s.heat.recipes ∧
    (makeBirth s).heat.zones = s.heat.zones ∧ (makeBirth s).heat.chamber = s.heat.chamber ∧
    (makeBirth s).heat.bandCount = s.heat.bandCount ∧ (makeBirth s).heat.parkTimer = s.heat.parkTimer ∧
    (makeBirth s).heat.heatTimer = s.heat.heatTimer ∧ (makeBirth s).heat.cells = s.heat.cells ∧
    (makeBirth s).heat.shiftAnchor = s.heat.shiftAnchor ∧ (makeBirth s).outfeed.piece = s.outfeed.piece ∧
    (makeBirth s).outfeed.cutTimer = s.outfeed.cutTimer ∧ (makeBirth s).outfeed.gate = s.outfeed.gate ∧
    (makeBirth s).cond.checkErrors = s.cond.checkErrors ∧ (makeBirth s).cond.overruns = s.cond.overruns ∧
    (makeBirth s).cond.straySenders = s.cond.straySenders ∧ (makeBirth s).cond.strayMarks = s.cond.strayMarks ∧
    (makeBirth s).cond.missedMarks = s.cond.missedMarks ∧ (makeBirth s).cond.limitedStrokes = s.cond.limitedStrokes ∧
    (makeBirth s).pins = s.pins ∧ (makeBirth s).pending = s.pending := by
  generalize h : makeBirth s = t
  unfold makeBirth at h
  dsimp only at h
  (repeat' split at h) <;> subst h <;> simp

/-- What `stallAtStandstill` leaves as it was. -/
@[simp] theorem stallAtStandstill_frame (s : State) :
    (stallAtStandstill s).loader = s.loader ∧ (stallAtStandstill s).bus.rx = s.bus.rx ∧
    (stallAtStandstill s).bus.latchRoster = s.bus.latchRoster ∧
    (stallAtStandstill s).bus.latchTerminal = s.bus.latchTerminal ∧
    (stallAtStandstill s).bus.faultCount = s.bus.faultCount ∧ (stallAtStandstill s).bus.off = s.bus.off ∧
    (stallAtStandstill s).bus.recovery = s.bus.recovery ∧ (stallAtStandstill s).bus.duplicate = s.bus.duplicate ∧
    (stallAtStandstill s).peers = s.peers ∧ (stallAtStandstill s).gov = s.gov ∧ (stallAtStandstill s).web = s.web ∧
    (stallAtStandstill s).order.queue = s.order.queue ∧ (stallAtStandstill s).order.anchor = s.order.anchor ∧
    (stallAtStandstill s).order.nextSeg = s.order.nextSeg ∧
    (stallAtStandstill s).order.newSequence = s.order.newSequence ∧
    (stallAtStandstill s).order.spliceRequest = s.order.spliceRequest ∧
    (stallAtStandstill s).order.fence = s.order.fence ∧ (stallAtStandstill s).order.wait = s.order.wait ∧
    (stallAtStandstill s).order.refusal = s.order.refusal ∧ (stallAtStandstill s).order.birthHeld = s.order.birthHeld ∧
    (stallAtStandstill s).order.punches = s.order.punches ∧ (stallAtStandstill s).pattern = s.pattern ∧
    (stallAtStandstill s).roll = s.roll ∧ (stallAtStandstill s).heat = s.heat ∧
    (stallAtStandstill s).outfeed = s.outfeed ∧ (stallAtStandstill s).cond.checkErrors = s.cond.checkErrors ∧
    (stallAtStandstill s).cond.overruns = s.cond.overruns ∧
    (stallAtStandstill s).cond.straySenders = s.cond.straySenders ∧
    (stallAtStandstill s).cond.strayMarks = s.cond.strayMarks ∧
    (stallAtStandstill s).cond.missedMarks = s.cond.missedMarks ∧
    (stallAtStandstill s).cond.limitedStrokes = s.cond.limitedStrokes ∧ (stallAtStandstill s).pins = s.pins ∧
    (stallAtStandstill s).pending = s.pending := by
  generalize h : stallAtStandstill s = t
  unfold stallAtStandstill at h
  (repeat' split at h) <;> subst h <;> simp

/-- What `holdBirth` leaves as it was. -/
@[simp] theorem holdBirth_frame (s : State) :
    (holdBirth s).loader = s.loader ∧ (holdBirth s).bus.rx = s.bus.rx ∧
    (holdBirth s).bus.latchRoster = s.bus.latchRoster ∧ (holdBirth s).bus.latchTerminal = s.bus.latchTerminal ∧
    (holdBirth s).bus.faultCount = s.bus.faultCount ∧ (holdBirth s).bus.off = s.bus.off ∧
    (holdBirth s).bus.recovery = s.bus.recovery ∧ (holdBirth s).bus.duplicate = s.bus.duplicate ∧
    (holdBirth s).peers = s.peers ∧ (holdBirth s).gov = s.gov ∧ (holdBirth s).web = s.web ∧
    (holdBirth s).order.queue = s.order.queue ∧ (holdBirth s).order.anchor = s.order.anchor ∧
    (holdBirth s).order.nextSeg = s.order.nextSeg ∧ (holdBirth s).order.newSequence = s.order.newSequence ∧
    (holdBirth s).order.spliceRequest = s.order.spliceRequest ∧ (holdBirth s).order.fence = s.order.fence ∧
    (holdBirth s).order.wait = s.order.wait ∧ (holdBirth s).order.refusal = s.order.refusal ∧
    (holdBirth s).order.punches = s.order.punches ∧ (holdBirth s).pattern = s.pattern ∧ (holdBirth s).roll = s.roll ∧
    (holdBirth s).heat = s.heat ∧ (holdBirth s).outfeed = s.outfeed ∧
    (holdBirth s).cond.checkErrors = s.cond.checkErrors ∧ (holdBirth s).cond.overruns = s.cond.overruns ∧
    (holdBirth s).cond.straySenders = s.cond.straySenders ∧ (holdBirth s).cond.strayMarks = s.cond.strayMarks ∧
    (holdBirth s).cond.missedMarks = s.cond.missedMarks ∧ (holdBirth s).cond.limitedStrokes = s.cond.limitedStrokes ∧
    (holdBirth s).pins = s.pins ∧ (holdBirth s).pending = s.pending := by
  simp [holdBirth]

/-- What `endStall` leaves as it was. -/
@[simp] theorem endStall_frame (s : State) :
    (endStall s).loader = s.loader ∧ (endStall s).bus = s.bus ∧ (endStall s).peers = s.peers ∧ (endStall s).gov = s.gov ∧
    (endStall s).web = s.web ∧ (endStall s).order.queue = s.order.queue ∧ (endStall s).order.anchor = s.order.anchor ∧
    (endStall s).order.nextSeg = s.order.nextSeg ∧ (endStall s).order.newSequence = s.order.newSequence ∧
    (endStall s).order.spliceRequest = s.order.spliceRequest ∧ (endStall s).order.fence = s.order.fence ∧
    (endStall s).order.wait = s.order.wait ∧ (endStall s).order.refusal = s.order.refusal ∧
    (endStall s).order.birthHeld = s.order.birthHeld ∧ (endStall s).order.punches = s.order.punches ∧
    (endStall s).pattern = s.pattern ∧ (endStall s).roll = s.roll ∧ (endStall s).heat = s.heat ∧
    (endStall s).outfeed = s.outfeed ∧ (endStall s).cond = s.cond ∧ (endStall s).pins = s.pins ∧
    (endStall s).pending = s.pending := by
  simp [endStall]

/-- What `setArm` leaves as it was. -/
@[simp] theorem setArm_frame (a : ArmName) (x : Arm) (s : State) :
    (setArm a x s).loader = s.loader ∧ (setArm a x s).bus = s.bus ∧ (setArm a x s).peers = s.peers ∧
    (setArm a x s).gov = s.gov ∧ (setArm a x s).web = s.web ∧ (setArm a x s).order = s.order ∧
    (setArm a x s).pattern = s.pattern ∧ (setArm a x s).roll.spliceState = s.roll.spliceState ∧
    (setArm a x s).roll.spliceArm = s.roll.spliceArm ∧ (setArm a x s).roll.spliceMiddle = s.roll.spliceMiddle ∧
    (setArm a x s).roll.pasteTimer = s.roll.pasteTimer ∧ (setArm a x s).roll.pasteOutput = s.roll.pasteOutput ∧
    (setArm a x s).roll.webTimer = s.roll.webTimer ∧ (setArm a x s).roll.webSeen = s.roll.webSeen ∧
    (setArm a x s).roll.fillBase = s.roll.fillBase ∧ (setArm a x s).roll.vU = s.roll.vU ∧
    (setArm a x s).roll.vOut = s.roll.vOut ∧ (setArm a x s).roll.exitCommand = s.roll.exitCommand ∧
    (setArm a x s).roll.outHistory = s.roll.outHistory ∧ (setArm a x s).roll.flatCeiling = s.roll.flatCeiling ∧
    (setArm a x s).roll.statusArm = s.roll.statusArm ∧ (setArm a x s).roll.statusResult = s.roll.statusResult ∧
    (setArm a x s).heat = s.heat ∧ (setArm a x s).outfeed = s.outfeed ∧ (setArm a x s).cond = s.cond ∧
    (setArm a x s).pins = s.pins ∧ (setArm a x s).pending = s.pending := by
  generalize h : setArm a x s = t
  unfold setArm at h
  (repeat' split at h) <;> subst h <;> simp

/-- What `rollConditions` leaves as it was. -/
@[simp] theorem rollConditions_frame (s : State) :
    (rollConditions s).loader = s.loader ∧ (rollConditions s).bus.rx = s.bus.rx ∧
    (rollConditions s).bus.latchRoster = s.bus.latchRoster ∧ (rollConditions s).bus.latchTerminal = s.bus.latchTerminal ∧
    (rollConditions s).bus.faultCount = s.bus.faultCount ∧ (rollConditions s).bus.off = s.bus.off ∧
    (rollConditions s).bus.recovery = s.bus.recovery ∧ (rollConditions s).bus.duplicate = s.bus.duplicate ∧
    (rollConditions s).peers = s.peers ∧ (rollConditions s).gov.vOp = s.gov.vOp ∧ (rollConditions s).gov.vT = s.gov.vT ∧
    (rollConditions s).gov.vA = s.gov.vA ∧ (rollConditions s).gov.trips = s.gov.trips ∧
    (rollConditions s).gov.beforeTrip = s.gov.beforeTrip ∧ (rollConditions s).gov.tripTimer = s.gov.tripTimer ∧
    (rollConditions s).gov.driveEnable = s.gov.driveEnable ∧ (rollConditions s).gov.pulseTimer = s.gov.pulseTimer ∧
    (rollConditions s).gov.sequence = s.gov.sequence ∧ (rollConditions s).web = s.web ∧
    (rollConditions s).order = s.order ∧ (rollConditions s).pattern = s.pattern ∧ (rollConditions s).roll = s.roll ∧
    (rollConditions s).heat = s.heat ∧ (rollConditions s).outfeed = s.outfeed ∧
    (rollConditions s).cond.checkErrors = s.cond.checkErrors ∧ (rollConditions s).cond.overruns = s.cond.overruns ∧
    (rollConditions s).cond.straySenders = s.cond.straySenders ∧ (rollConditions s).cond.strayMarks = s.cond.strayMarks ∧
    (rollConditions s).cond.missedMarks = s.cond.missedMarks ∧
    (rollConditions s).cond.limitedStrokes = s.cond.limitedStrokes ∧ (rollConditions s).pins = s.pins ∧
    (rollConditions s).pending = s.pending := by
  simp [rollConditions]

/-- What `startSplice` leaves as it was. -/
@[simp] theorem startSplice_frame (a : ArmName) (s : State) :
    (startSplice a s).loader = s.loader ∧ (startSplice a s).bus.rx = s.bus.rx ∧
    (startSplice a s).bus.latchRoster = s.bus.latchRoster ∧ (startSplice a s).bus.latchTerminal = s.bus.latchTerminal ∧
    (startSplice a s).bus.faultCount = s.bus.faultCount ∧ (startSplice a s).bus.off = s.bus.off ∧
    (startSplice a s).bus.recovery = s.bus.recovery ∧ (startSplice a s).bus.duplicate = s.bus.duplicate ∧
    (startSplice a s).peers = s.peers ∧ (startSplice a s).gov.vOp = s.gov.vOp ∧ (startSplice a s).gov.vT = s.gov.vT ∧
    (startSplice a s).gov.vA = s.gov.vA ∧ (startSplice a s).gov.trips = s.gov.trips ∧
    (startSplice a s).gov.beforeTrip = s.gov.beforeTrip ∧ (startSplice a s).gov.tripTimer = s.gov.tripTimer ∧
    (startSplice a s).gov.driveEnable = s.gov.driveEnable ∧ (startSplice a s).gov.pulseTimer = s.gov.pulseTimer ∧
    (startSplice a s).gov.sequence = s.gov.sequence ∧ (startSplice a s).web = s.web ∧
    (startSplice a s).order.queue = s.order.queue ∧ (startSplice a s).order.anchor = s.order.anchor ∧
    (startSplice a s).order.nextSeg = s.order.nextSeg ∧ (startSplice a s).order.newSequence = s.order.newSequence ∧
    (startSplice a s).order.wait = s.order.wait ∧ (startSplice a s).order.stall = s.order.stall ∧
    (startSplice a s).order.refusal = s.order.refusal ∧ (startSplice a s).order.birthHeld = s.order.birthHeld ∧
    (startSplice a s).order.punches = s.order.punches ∧ (startSplice a s).pattern = s.pattern ∧
    (startSplice a s).roll.arm1 = s.roll.arm1 ∧ (startSplice a s).roll.arm2 = s.roll.arm2 ∧
    (startSplice a s).roll.pasteTimer = s.roll.pasteTimer ∧ (startSplice a s).roll.pasteOutput = s.roll.pasteOutput ∧
    (startSplice a s).roll.webTimer = s.roll.webTimer ∧ (startSplice a s).roll.webSeen = s.roll.webSeen ∧
    (startSplice a s).roll.fillBase = s.roll.fillBase ∧ (startSplice a s).roll.vU = s.roll.vU ∧
    (startSplice a s).roll.vOut = s.roll.vOut ∧ (startSplice a s).roll.exitCommand = s.roll.exitCommand ∧
    (startSplice a s).roll.outHistory = s.roll.outHistory ∧ (startSplice a s).roll.flatCeiling = s.roll.flatCeiling ∧
    (startSplice a s).roll.statusArm = s.roll.statusArm ∧ (startSplice a s).roll.statusResult = s.roll.statusResult ∧
    (startSplice a s).heat = s.heat ∧ (startSplice a s).outfeed = s.outfeed ∧
    (startSplice a s).cond.checkErrors = s.cond.checkErrors ∧ (startSplice a s).cond.overruns = s.cond.overruns ∧
    (startSplice a s).cond.straySenders = s.cond.straySenders ∧ (startSplice a s).cond.strayMarks = s.cond.strayMarks ∧
    (startSplice a s).cond.missedMarks = s.cond.missedMarks ∧
    (startSplice a s).cond.limitedStrokes = s.cond.limitedStrokes ∧ (startSplice a s).pins = s.pins ∧
    (startSplice a s).pending = s.pending := by
  simp [startSplice]

/-- What `spliceTest` leaves as it was. -/
@[simp] theorem spliceTest_frame (s : State) :
    (spliceTest s).loader = s.loader ∧ (spliceTest s).bus.rx = s.bus.rx ∧
    (spliceTest s).bus.latchRoster = s.bus.latchRoster ∧ (spliceTest s).bus.latchTerminal = s.bus.latchTerminal ∧
    (spliceTest s).bus.faultCount = s.bus.faultCount ∧ (spliceTest s).bus.off = s.bus.off ∧
    (spliceTest s).bus.recovery = s.bus.recovery ∧ (spliceTest s).bus.duplicate = s.bus.duplicate ∧
    (spliceTest s).peers = s.peers ∧ (spliceTest s).gov.vOp = s.gov.vOp ∧ (spliceTest s).gov.vT = s.gov.vT ∧
    (spliceTest s).gov.vA = s.gov.vA ∧ (spliceTest s).gov.trips = s.gov.trips ∧
    (spliceTest s).gov.beforeTrip = s.gov.beforeTrip ∧ (spliceTest s).gov.tripTimer = s.gov.tripTimer ∧
    (spliceTest s).gov.driveEnable = s.gov.driveEnable ∧ (spliceTest s).gov.pulseTimer = s.gov.pulseTimer ∧
    (spliceTest s).gov.sequence = s.gov.sequence ∧ (spliceTest s).web = s.web ∧
    (spliceTest s).order.queue = s.order.queue ∧ (spliceTest s).order.anchor = s.order.anchor ∧
    (spliceTest s).order.nextSeg = s.order.nextSeg ∧ (spliceTest s).order.newSequence = s.order.newSequence ∧
    (spliceTest s).order.wait = s.order.wait ∧ (spliceTest s).order.stall = s.order.stall ∧
    (spliceTest s).order.refusal = s.order.refusal ∧ (spliceTest s).order.birthHeld = s.order.birthHeld ∧
    (spliceTest s).order.punches = s.order.punches ∧ (spliceTest s).pattern = s.pattern ∧
    (spliceTest s).roll.arm1 = s.roll.arm1 ∧ (spliceTest s).roll.arm2 = s.roll.arm2 ∧
    (spliceTest s).roll.pasteTimer = s.roll.pasteTimer ∧ (spliceTest s).roll.pasteOutput = s.roll.pasteOutput ∧
    (spliceTest s).roll.webTimer = s.roll.webTimer ∧ (spliceTest s).roll.webSeen = s.roll.webSeen ∧
    (spliceTest s).roll.fillBase = s.roll.fillBase ∧ (spliceTest s).roll.vU = s.roll.vU ∧
    (spliceTest s).roll.vOut = s.roll.vOut ∧ (spliceTest s).roll.exitCommand = s.roll.exitCommand ∧
    (spliceTest s).roll.outHistory = s.roll.outHistory ∧ (spliceTest s).roll.flatCeiling = s.roll.flatCeiling ∧
    (spliceTest s).roll.statusArm = s.roll.statusArm ∧ (spliceTest s).roll.statusResult = s.roll.statusResult ∧
    (spliceTest s).heat = s.heat ∧ (spliceTest s).outfeed = s.outfeed ∧
    (spliceTest s).cond.checkErrors = s.cond.checkErrors ∧ (spliceTest s).cond.overruns = s.cond.overruns ∧
    (spliceTest s).cond.straySenders = s.cond.straySenders ∧ (spliceTest s).cond.strayMarks = s.cond.strayMarks ∧
    (spliceTest s).cond.missedMarks = s.cond.missedMarks ∧ (spliceTest s).cond.limitedStrokes = s.cond.limitedStrokes ∧
    (spliceTest s).pins = s.pins ∧ (spliceTest s).pending = s.pending := by
  generalize h : spliceTest s = t
  unfold spliceTest at h
  (repeat' split at h) <;> subst h <;> simp

/-- What `returnToRun` leaves as it was. -/
@[simp] theorem returnToRun_frame (s : State) :
    (returnToRun s).loader = s.loader ∧ (returnToRun s).bus.rx = s.bus.rx ∧
    (returnToRun s).bus.latchRoster = s.bus.latchRoster ∧ (returnToRun s).bus.latchTerminal = s.bus.latchTerminal ∧
    (returnToRun s).bus.faultCount = s.bus.faultCount ∧ (returnToRun s).bus.off = s.bus.off ∧
    (returnToRun s).bus.recovery = s.bus.recovery ∧ (returnToRun s).bus.duplicate = s.bus.duplicate ∧
    (returnToRun s).peers = s.peers ∧ (returnToRun s).gov.vOp = s.gov.vOp ∧ (returnToRun s).gov.vT = s.gov.vT ∧
    (returnToRun s).gov.vA = s.gov.vA ∧ (returnToRun s).gov.trips = s.gov.trips ∧
    (returnToRun s).gov.beforeTrip = s.gov.beforeTrip ∧ (returnToRun s).gov.tripTimer = s.gov.tripTimer ∧
    (returnToRun s).gov.driveEnable = s.gov.driveEnable ∧ (returnToRun s).gov.pulseTimer = s.gov.pulseTimer ∧
    (returnToRun s).gov.sequence = s.gov.sequence ∧ (returnToRun s).web = s.web ∧
    (returnToRun s).order.queue = s.order.queue ∧ (returnToRun s).order.anchor = s.order.anchor ∧
    (returnToRun s).order.nextSeg = s.order.nextSeg ∧ (returnToRun s).order.newSequence = s.order.newSequence ∧
    (returnToRun s).order.wait = s.order.wait ∧ (returnToRun s).order.stall = s.order.stall ∧
    (returnToRun s).order.refusal = s.order.refusal ∧ (returnToRun s).order.birthHeld = s.order.birthHeld ∧
    (returnToRun s).order.punches = s.order.punches ∧ (returnToRun s).pattern = s.pattern ∧
    (returnToRun s).roll.arm1 = s.roll.arm1 ∧ (returnToRun s).roll.arm2 = s.roll.arm2 ∧
    (returnToRun s).roll.pasteTimer = s.roll.pasteTimer ∧ (returnToRun s).roll.pasteOutput = s.roll.pasteOutput ∧
    (returnToRun s).roll.webTimer = s.roll.webTimer ∧ (returnToRun s).roll.webSeen = s.roll.webSeen ∧
    (returnToRun s).roll.fillBase = s.roll.fillBase ∧ (returnToRun s).roll.vU = s.roll.vU ∧
    (returnToRun s).roll.vOut = s.roll.vOut ∧ (returnToRun s).roll.exitCommand = s.roll.exitCommand ∧
    (returnToRun s).roll.outHistory = s.roll.outHistory ∧ (returnToRun s).roll.flatCeiling = s.roll.flatCeiling ∧
    (returnToRun s).roll.statusArm = s.roll.statusArm ∧ (returnToRun s).roll.statusResult = s.roll.statusResult ∧
    (returnToRun s).heat = s.heat ∧ (returnToRun s).outfeed = s.outfeed ∧
    (returnToRun s).cond.checkErrors = s.cond.checkErrors ∧ (returnToRun s).cond.overruns = s.cond.overruns ∧
    (returnToRun s).cond.straySenders = s.cond.straySenders ∧ (returnToRun s).cond.strayMarks = s.cond.strayMarks ∧
    (returnToRun s).cond.missedMarks = s.cond.missedMarks ∧ (returnToRun s).cond.limitedStrokes = s.cond.limitedStrokes ∧
    (returnToRun s).pins = s.pins ∧ (returnToRun s).pending = s.pending := by
  simp [returnToRun]

/-- What `abortSplice` leaves as it was. -/
@[simp] theorem abortSplice_frame (s : State) :
    (abortSplice s).loader = s.loader ∧ (abortSplice s).bus.rx = s.bus.rx ∧
    (abortSplice s).bus.latchRoster = s.bus.latchRoster ∧ (abortSplice s).bus.latchTerminal = s.bus.latchTerminal ∧
    (abortSplice s).bus.faultCount = s.bus.faultCount ∧ (abortSplice s).bus.off = s.bus.off ∧
    (abortSplice s).bus.recovery = s.bus.recovery ∧ (abortSplice s).bus.duplicate = s.bus.duplicate ∧
    (abortSplice s).peers = s.peers ∧ (abortSplice s).gov.vOp = s.gov.vOp ∧ (abortSplice s).gov.vT = s.gov.vT ∧
    (abortSplice s).gov.vA = s.gov.vA ∧ (abortSplice s).gov.trips = s.gov.trips ∧
    (abortSplice s).gov.beforeTrip = s.gov.beforeTrip ∧ (abortSplice s).gov.tripTimer = s.gov.tripTimer ∧
    (abortSplice s).gov.driveEnable = s.gov.driveEnable ∧ (abortSplice s).gov.pulseTimer = s.gov.pulseTimer ∧
    (abortSplice s).gov.sequence = s.gov.sequence ∧ (abortSplice s).web = s.web ∧
    (abortSplice s).order.queue = s.order.queue ∧ (abortSplice s).order.anchor = s.order.anchor ∧
    (abortSplice s).order.nextSeg = s.order.nextSeg ∧ (abortSplice s).order.newSequence = s.order.newSequence ∧
    (abortSplice s).order.wait = s.order.wait ∧ (abortSplice s).order.stall = s.order.stall ∧
    (abortSplice s).order.refusal = s.order.refusal ∧ (abortSplice s).order.birthHeld = s.order.birthHeld ∧
    (abortSplice s).order.punches = s.order.punches ∧ (abortSplice s).pattern = s.pattern ∧
    (abortSplice s).roll.arm1 = s.roll.arm1 ∧ (abortSplice s).roll.arm2 = s.roll.arm2 ∧
    (abortSplice s).roll.pasteTimer = s.roll.pasteTimer ∧ (abortSplice s).roll.pasteOutput = s.roll.pasteOutput ∧
    (abortSplice s).roll.webTimer = s.roll.webTimer ∧ (abortSplice s).roll.webSeen = s.roll.webSeen ∧
    (abortSplice s).roll.fillBase = s.roll.fillBase ∧ (abortSplice s).roll.vU = s.roll.vU ∧
    (abortSplice s).roll.vOut = s.roll.vOut ∧ (abortSplice s).roll.exitCommand = s.roll.exitCommand ∧
    (abortSplice s).roll.outHistory = s.roll.outHistory ∧ (abortSplice s).roll.flatCeiling = s.roll.flatCeiling ∧
    (abortSplice s).roll.statusArm = s.roll.statusArm ∧ (abortSplice s).roll.statusResult = s.roll.statusResult ∧
    (abortSplice s).heat = s.heat ∧ (abortSplice s).outfeed = s.outfeed ∧
    (abortSplice s).cond.checkErrors = s.cond.checkErrors ∧ (abortSplice s).cond.overruns = s.cond.overruns ∧
    (abortSplice s).cond.straySenders = s.cond.straySenders ∧ (abortSplice s).cond.strayMarks = s.cond.strayMarks ∧
    (abortSplice s).cond.missedMarks = s.cond.missedMarks ∧ (abortSplice s).cond.limitedStrokes = s.cond.limitedStrokes ∧
    (abortSplice s).pins = s.pins ∧ (abortSplice s).pending = s.pending := by
  simp [abortSplice]

/-- What `resolveSplice` leaves as it was. -/
@[simp] theorem resolveSplice_frame (s : State) :
    (resolveSplice s).loader = s.loader ∧ (resolveSplice s).bus.rx = s.bus.rx ∧
    (resolveSplice s).bus.latchRoster = s.bus.latchRoster ∧ (resolveSplice s).bus.latchTerminal = s.bus.latchTerminal ∧
    (resolveSplice s).bus.faultCount = s.bus.faultCount ∧ (resolveSplice s).bus.off = s.bus.off ∧
    (resolveSplice s).bus.recovery = s.bus.recovery ∧ (resolveSplice s).bus.duplicate = s.bus.duplicate ∧
    (resolveSplice s).peers = s.peers ∧ (resolveSplice s).gov.vOp = s.gov.vOp ∧ (resolveSplice s).gov.vT = s.gov.vT ∧
    (resolveSplice s).gov.vA = s.gov.vA ∧ (resolveSplice s).gov.trips = s.gov.trips ∧
    (resolveSplice s).gov.beforeTrip = s.gov.beforeTrip ∧ (resolveSplice s).gov.tripTimer = s.gov.tripTimer ∧
    (resolveSplice s).gov.driveEnable = s.gov.driveEnable ∧ (resolveSplice s).gov.pulseTimer = s.gov.pulseTimer ∧
    (resolveSplice s).gov.sequence = s.gov.sequence ∧ (resolveSplice s).web = s.web ∧
    (resolveSplice s).order.queue = s.order.queue ∧ (resolveSplice s).order.anchor = s.order.anchor ∧
    (resolveSplice s).order.nextSeg = s.order.nextSeg ∧ (resolveSplice s).order.newSequence = s.order.newSequence ∧
    (resolveSplice s).order.wait = s.order.wait ∧ (resolveSplice s).order.stall = s.order.stall ∧
    (resolveSplice s).order.refusal = s.order.refusal ∧ (resolveSplice s).order.birthHeld = s.order.birthHeld ∧
    (resolveSplice s).order.punches = s.order.punches ∧ (resolveSplice s).pattern = s.pattern ∧
    (resolveSplice s).roll.arm1 = s.roll.arm1 ∧ (resolveSplice s).roll.arm2 = s.roll.arm2 ∧
    (resolveSplice s).roll.pasteTimer = s.roll.pasteTimer ∧ (resolveSplice s).roll.pasteOutput = s.roll.pasteOutput ∧
    (resolveSplice s).roll.webSeen = s.roll.webSeen ∧ (resolveSplice s).roll.fillBase = s.roll.fillBase ∧
    (resolveSplice s).roll.vU = s.roll.vU ∧ (resolveSplice s).roll.vOut = s.roll.vOut ∧
    (resolveSplice s).roll.exitCommand = s.roll.exitCommand ∧ (resolveSplice s).roll.outHistory = s.roll.outHistory ∧
    (resolveSplice s).roll.flatCeiling = s.roll.flatCeiling ∧ (resolveSplice s).roll.statusArm = s.roll.statusArm ∧
    (resolveSplice s).roll.statusResult = s.roll.statusResult ∧ (resolveSplice s).heat = s.heat ∧
    (resolveSplice s).outfeed = s.outfeed ∧ (resolveSplice s).cond.checkErrors = s.cond.checkErrors ∧
    (resolveSplice s).cond.overruns = s.cond.overruns ∧ (resolveSplice s).cond.straySenders = s.cond.straySenders ∧
    (resolveSplice s).cond.strayMarks = s.cond.strayMarks ∧ (resolveSplice s).cond.missedMarks = s.cond.missedMarks ∧
    (resolveSplice s).cond.limitedStrokes = s.cond.limitedStrokes ∧ (resolveSplice s).pins = s.pins ∧
    (resolveSplice s).pending = s.pending := by
  generalize h : resolveSplice s = t
  unfold resolveSplice at h
  (repeat' split at h) <;> subst h <;> simp

/-- What `enterSplice` leaves as it was. -/
@[simp] theorem enterSplice_frame (x : SpliceState) (s : State) :
    (enterSplice x s).loader = s.loader ∧ (enterSplice x s).bus.rx = s.bus.rx ∧
    (enterSplice x s).bus.latchRoster = s.bus.latchRoster ∧ (enterSplice x s).bus.latchTerminal = s.bus.latchTerminal ∧
    (enterSplice x s).bus.faultCount = s.bus.faultCount ∧ (enterSplice x s).bus.off = s.bus.off ∧
    (enterSplice x s).bus.recovery = s.bus.recovery ∧ (enterSplice x s).bus.duplicate = s.bus.duplicate ∧
    (enterSplice x s).peers = s.peers ∧ (enterSplice x s).gov.vOp = s.gov.vOp ∧ (enterSplice x s).gov.vT = s.gov.vT ∧
    (enterSplice x s).gov.vA = s.gov.vA ∧ (enterSplice x s).gov.trips = s.gov.trips ∧
    (enterSplice x s).gov.beforeTrip = s.gov.beforeTrip ∧ (enterSplice x s).gov.tripTimer = s.gov.tripTimer ∧
    (enterSplice x s).gov.driveEnable = s.gov.driveEnable ∧ (enterSplice x s).gov.pulseTimer = s.gov.pulseTimer ∧
    (enterSplice x s).gov.sequence = s.gov.sequence ∧ (enterSplice x s).web = s.web ∧ (enterSplice x s).order = s.order ∧
    (enterSplice x s).pattern = s.pattern ∧ (enterSplice x s).roll.arm1 = s.roll.arm1 ∧
    (enterSplice x s).roll.arm2 = s.roll.arm2 ∧ (enterSplice x s).roll.spliceArm = s.roll.spliceArm ∧
    (enterSplice x s).roll.spliceMiddle = s.roll.spliceMiddle ∧ (enterSplice x s).roll.pasteTimer = s.roll.pasteTimer ∧
    (enterSplice x s).roll.pasteOutput = s.roll.pasteOutput ∧ (enterSplice x s).roll.webTimer = s.roll.webTimer ∧
    (enterSplice x s).roll.webSeen = s.roll.webSeen ∧ (enterSplice x s).roll.fillBase = s.roll.fillBase ∧
    (enterSplice x s).roll.vU = s.roll.vU ∧ (enterSplice x s).roll.vOut = s.roll.vOut ∧
    (enterSplice x s).roll.exitCommand = s.roll.exitCommand ∧ (enterSplice x s).roll.outHistory = s.roll.outHistory ∧
    (enterSplice x s).roll.flatCeiling = s.roll.flatCeiling ∧ (enterSplice x s).roll.statusArm = s.roll.statusArm ∧
    (enterSplice x s).roll.statusResult = s.roll.statusResult ∧ (enterSplice x s).heat = s.heat ∧
    (enterSplice x s).outfeed = s.outfeed ∧ (enterSplice x s).cond.checkErrors = s.cond.checkErrors ∧
    (enterSplice x s).cond.overruns = s.cond.overruns ∧ (enterSplice x s).cond.straySenders = s.cond.straySenders ∧
    (enterSplice x s).cond.strayMarks = s.cond.strayMarks ∧ (enterSplice x s).cond.missedMarks = s.cond.missedMarks ∧
    (enterSplice x s).cond.limitedStrokes = s.cond.limitedStrokes ∧ (enterSplice x s).pins = s.pins ∧
    (enterSplice x s).pending = s.pending := by
  simp [enterSplice]

/-- What `enterPaste` leaves as it was. -/
@[simp] theorem enterPaste_frame (s : State) :
    (enterPaste s).loader = s.loader ∧ (enterPaste s).bus.rx = s.bus.rx ∧
    (enterPaste s).bus.latchRoster = s.bus.latchRoster ∧ (enterPaste s).bus.latchTerminal = s.bus.latchTerminal ∧
    (enterPaste s).bus.faultCount = s.bus.faultCount ∧ (enterPaste s).bus.off = s.bus.off ∧
    (enterPaste s).bus.recovery = s.bus.recovery ∧ (enterPaste s).bus.duplicate = s.bus.duplicate ∧
    (enterPaste s).peers = s.peers ∧ (enterPaste s).gov.vOp = s.gov.vOp ∧ (enterPaste s).gov.vT = s.gov.vT ∧
    (enterPaste s).gov.vA = s.gov.vA ∧ (enterPaste s).gov.trips = s.gov.trips ∧
    (enterPaste s).gov.beforeTrip = s.gov.beforeTrip ∧ (enterPaste s).gov.tripTimer = s.gov.tripTimer ∧
    (enterPaste s).gov.driveEnable = s.gov.driveEnable ∧ (enterPaste s).gov.pulseTimer = s.gov.pulseTimer ∧
    (enterPaste s).gov.sequence = s.gov.sequence ∧ (enterPaste s).web = s.web ∧ (enterPaste s).order = s.order ∧
    (enterPaste s).pattern = s.pattern ∧ (enterPaste s).roll.spliceArm = s.roll.spliceArm ∧
    (enterPaste s).roll.spliceMiddle = s.roll.spliceMiddle ∧ (enterPaste s).roll.webTimer = s.roll.webTimer ∧
    (enterPaste s).roll.webSeen = s.roll.webSeen ∧ (enterPaste s).roll.fillBase = s.roll.fillBase ∧
    (enterPaste s).roll.vU = s.roll.vU ∧ (enterPaste s).roll.vOut = s.roll.vOut ∧
    (enterPaste s).roll.exitCommand = s.roll.exitCommand ∧ (enterPaste s).roll.outHistory = s.roll.outHistory ∧
    (enterPaste s).roll.flatCeiling = s.roll.flatCeiling ∧ (enterPaste s).roll.statusArm = s.roll.statusArm ∧
    (enterPaste s).roll.statusResult = s.roll.statusResult ∧ (enterPaste s).heat = s.heat ∧
    (enterPaste s).outfeed = s.outfeed ∧ (enterPaste s).cond.checkErrors = s.cond.checkErrors ∧
    (enterPaste s).cond.overruns = s.cond.overruns ∧ (enterPaste s).cond.straySenders = s.cond.straySenders ∧
    (enterPaste s).cond.strayMarks = s.cond.strayMarks ∧ (enterPaste s).cond.missedMarks = s.cond.missedMarks ∧
    (enterPaste s).cond.limitedStrokes = s.cond.limitedStrokes ∧ (enterPaste s).pins = s.pins ∧
    (enterPaste s).pending = s.pending := by
  generalize h : enterPaste s = t
  unfold enterPaste at h
  (repeat' split at h) <;> subst h <;> simp

/-- What `activateArm` leaves as it was. -/
@[simp] theorem activateArm_frame (a : ArmName) (s : State) :
    (activateArm a s).loader = s.loader ∧ (activateArm a s).bus.rx = s.bus.rx ∧
    (activateArm a s).bus.latchRoster = s.bus.latchRoster ∧ (activateArm a s).bus.latchTerminal = s.bus.latchTerminal ∧
    (activateArm a s).bus.faultCount = s.bus.faultCount ∧ (activateArm a s).bus.off = s.bus.off ∧
    (activateArm a s).bus.recovery = s.bus.recovery ∧ (activateArm a s).bus.duplicate = s.bus.duplicate ∧
    (activateArm a s).peers = s.peers ∧ (activateArm a s).gov.vOp = s.gov.vOp ∧ (activateArm a s).gov.vT = s.gov.vT ∧
    (activateArm a s).gov.vA = s.gov.vA ∧ (activateArm a s).gov.trips = s.gov.trips ∧
    (activateArm a s).gov.beforeTrip = s.gov.beforeTrip ∧ (activateArm a s).gov.tripTimer = s.gov.tripTimer ∧
    (activateArm a s).gov.driveEnable = s.gov.driveEnable ∧ (activateArm a s).gov.pulseTimer = s.gov.pulseTimer ∧
    (activateArm a s).gov.sequence = s.gov.sequence ∧ (activateArm a s).web = s.web ∧
    (activateArm a s).order.queue = s.order.queue ∧ (activateArm a s).order.anchor = s.order.anchor ∧
    (activateArm a s).order.nextSeg = s.order.nextSeg ∧ (activateArm a s).order.newSequence = s.order.newSequence ∧
    (activateArm a s).order.spliceRequest = s.order.spliceRequest ∧ (activateArm a s).order.stall = s.order.stall ∧
    (activateArm a s).order.refusal = s.order.refusal ∧ (activateArm a s).order.birthHeld = s.order.birthHeld ∧
    (activateArm a s).order.punches = s.order.punches ∧ (activateArm a s).pattern = s.pattern ∧
    (activateArm a s).roll.spliceState = s.roll.spliceState ∧ (activateArm a s).roll.spliceArm = s.roll.spliceArm ∧
    (activateArm a s).roll.spliceMiddle = s.roll.spliceMiddle ∧ (activateArm a s).roll.pasteTimer = s.roll.pasteTimer ∧
    (activateArm a s).roll.pasteOutput = s.roll.pasteOutput ∧ (activateArm a s).roll.webTimer = s.roll.webTimer ∧
    (activateArm a s).roll.webSeen = s.roll.webSeen ∧ (activateArm a s).roll.fillBase = s.roll.fillBase ∧
    (activateArm a s).roll.vOut = s.roll.vOut ∧ (activateArm a s).roll.exitCommand = s.roll.exitCommand ∧
    (activateArm a s).roll.outHistory = s.roll.outHistory ∧ (activateArm a s).roll.flatCeiling = s.roll.flatCeiling ∧
    (activateArm a s).roll.statusArm = s.roll.statusArm ∧ (activateArm a s).roll.statusResult = s.roll.statusResult ∧
    (activateArm a s).heat = s.heat ∧ (activateArm a s).outfeed = s.outfeed ∧
    (activateArm a s).cond.checkErrors = s.cond.checkErrors ∧ (activateArm a s).cond.overruns = s.cond.overruns ∧
    (activateArm a s).cond.straySenders = s.cond.straySenders ∧ (activateArm a s).cond.strayMarks = s.cond.strayMarks ∧
    (activateArm a s).cond.missedMarks = s.cond.missedMarks ∧
    (activateArm a s).cond.limitedStrokes = s.cond.limitedStrokes ∧ (activateArm a s).pins = s.pins ∧
    (activateArm a s).pending = s.pending := by
  simp [activateArm]

/-- What `abortIf` leaves as it was. -/
@[simp] theorem abortIf_frame (cause : Bool) (s : State) :
    (abortIf cause s).loader = s.loader ∧ (abortIf cause s).bus.rx = s.bus.rx ∧
    (abortIf cause s).bus.latchRoster = s.bus.latchRoster ∧ (abortIf cause s).bus.latchTerminal = s.bus.latchTerminal ∧
    (abortIf cause s).bus.faultCount = s.bus.faultCount ∧ (abortIf cause s).bus.off = s.bus.off ∧
    (abortIf cause s).bus.recovery = s.bus.recovery ∧ (abortIf cause s).bus.duplicate = s.bus.duplicate ∧
    (abortIf cause s).peers = s.peers ∧ (abortIf cause s).gov.vOp = s.gov.vOp ∧ (abortIf cause s).gov.vT = s.gov.vT ∧
    (abortIf cause s).gov.vA = s.gov.vA ∧ (abortIf cause s).gov.trips = s.gov.trips ∧
    (abortIf cause s).gov.beforeTrip = s.gov.beforeTrip ∧ (abortIf cause s).gov.tripTimer = s.gov.tripTimer ∧
    (abortIf cause s).gov.driveEnable = s.gov.driveEnable ∧ (abortIf cause s).gov.pulseTimer = s.gov.pulseTimer ∧
    (abortIf cause s).gov.sequence = s.gov.sequence ∧ (abortIf cause s).web = s.web ∧
    (abortIf cause s).order.queue = s.order.queue ∧ (abortIf cause s).order.anchor = s.order.anchor ∧
    (abortIf cause s).order.nextSeg = s.order.nextSeg ∧ (abortIf cause s).order.newSequence = s.order.newSequence ∧
    (abortIf cause s).order.wait = s.order.wait ∧ (abortIf cause s).order.stall = s.order.stall ∧
    (abortIf cause s).order.refusal = s.order.refusal ∧ (abortIf cause s).order.birthHeld = s.order.birthHeld ∧
    (abortIf cause s).order.punches = s.order.punches ∧ (abortIf cause s).pattern = s.pattern ∧
    (abortIf cause s).roll.arm1 = s.roll.arm1 ∧ (abortIf cause s).roll.arm2 = s.roll.arm2 ∧
    (abortIf cause s).roll.pasteTimer = s.roll.pasteTimer ∧ (abortIf cause s).roll.pasteOutput = s.roll.pasteOutput ∧
    (abortIf cause s).roll.webTimer = s.roll.webTimer ∧ (abortIf cause s).roll.webSeen = s.roll.webSeen ∧
    (abortIf cause s).roll.fillBase = s.roll.fillBase ∧ (abortIf cause s).roll.vU = s.roll.vU ∧
    (abortIf cause s).roll.vOut = s.roll.vOut ∧ (abortIf cause s).roll.exitCommand = s.roll.exitCommand ∧
    (abortIf cause s).roll.outHistory = s.roll.outHistory ∧ (abortIf cause s).roll.flatCeiling = s.roll.flatCeiling ∧
    (abortIf cause s).roll.statusArm = s.roll.statusArm ∧ (abortIf cause s).roll.statusResult = s.roll.statusResult ∧
    (abortIf cause s).heat = s.heat ∧ (abortIf cause s).outfeed = s.outfeed ∧
    (abortIf cause s).cond.checkErrors = s.cond.checkErrors ∧ (abortIf cause s).cond.overruns = s.cond.overruns ∧
    (abortIf cause s).cond.straySenders = s.cond.straySenders ∧ (abortIf cause s).cond.strayMarks = s.cond.strayMarks ∧
    (abortIf cause s).cond.missedMarks = s.cond.missedMarks ∧
    (abortIf cause s).cond.limitedStrokes = s.cond.limitedStrokes ∧ (abortIf cause s).pins = s.pins ∧
    (abortIf cause s).pending = s.pending := by
  generalize h : abortIf cause s = t
  unfold abortIf at h
  (repeat' split at h) <;> subst h <;> simp

/-- What `loadArm` leaves as it was. -/
@[simp] theorem loadArm_frame (a : ArmName) (lot : Half) (thickness core circumference : Nat) (s : State) :
    (loadArm a lot thickness core circumference s).loader = s.loader ∧
    (loadArm a lot thickness core circumference s).bus = s.bus ∧
    (loadArm a lot thickness core circumference s).peers = s.peers ∧
    (loadArm a lot thickness core circumference s).gov = s.gov ∧
    (loadArm a lot thickness core circumference s).web = s.web ∧
    (loadArm a lot thickness core circumference s).order = s.order ∧
    (loadArm a lot thickness core circumference s).pattern = s.pattern ∧
    (loadArm a lot thickness core circumference s).roll.spliceState = s.roll.spliceState ∧
    (loadArm a lot thickness core circumference s).roll.spliceArm = s.roll.spliceArm ∧
    (loadArm a lot thickness core circumference s).roll.spliceMiddle = s.roll.spliceMiddle ∧
    (loadArm a lot thickness core circumference s).roll.pasteTimer = s.roll.pasteTimer ∧
    (loadArm a lot thickness core circumference s).roll.pasteOutput = s.roll.pasteOutput ∧
    (loadArm a lot thickness core circumference s).roll.webTimer = s.roll.webTimer ∧
    (loadArm a lot thickness core circumference s).roll.webSeen = s.roll.webSeen ∧
    (loadArm a lot thickness core circumference s).roll.fillBase = s.roll.fillBase ∧
    (loadArm a lot thickness core circumference s).roll.vU = s.roll.vU ∧
    (loadArm a lot thickness core circumference s).roll.vOut = s.roll.vOut ∧
    (loadArm a lot thickness core circumference s).roll.exitCommand = s.roll.exitCommand ∧
    (loadArm a lot thickness core circumference s).roll.outHistory = s.roll.outHistory ∧
    (loadArm a lot thickness core circumference s).roll.flatCeiling = s.roll.flatCeiling ∧
    (loadArm a lot thickness core circumference s).roll.statusArm = s.roll.statusArm ∧
    (loadArm a lot thickness core circumference s).roll.statusResult = s.roll.statusResult ∧
    (loadArm a lot thickness core circumference s).heat = s.heat ∧
    (loadArm a lot thickness core circumference s).outfeed = s.outfeed ∧
    (loadArm a lot thickness core circumference s).cond = s.cond ∧
    (loadArm a lot thickness core circumference s).pins = s.pins ∧
    (loadArm a lot thickness core circumference s).pending = s.pending := by
  simp [loadArm]

/-- What `emptyArm` leaves as it was. -/
@[simp] theorem emptyArm_frame (a : ArmName) (s : State) :
    (emptyArm a s).loader = s.loader ∧ (emptyArm a s).bus.rx = s.bus.rx ∧
    (emptyArm a s).bus.latchRoster = s.bus.latchRoster ∧ (emptyArm a s).bus.latchTerminal = s.bus.latchTerminal ∧
    (emptyArm a s).bus.faultCount = s.bus.faultCount ∧ (emptyArm a s).bus.off = s.bus.off ∧
    (emptyArm a s).bus.recovery = s.bus.recovery ∧ (emptyArm a s).bus.duplicate = s.bus.duplicate ∧
    (emptyArm a s).peers = s.peers ∧ (emptyArm a s).gov.vOp = s.gov.vOp ∧ (emptyArm a s).gov.vT = s.gov.vT ∧
    (emptyArm a s).gov.vA = s.gov.vA ∧ (emptyArm a s).gov.trips = s.gov.trips ∧
    (emptyArm a s).gov.beforeTrip = s.gov.beforeTrip ∧ (emptyArm a s).gov.tripTimer = s.gov.tripTimer ∧
    (emptyArm a s).gov.driveEnable = s.gov.driveEnable ∧ (emptyArm a s).gov.pulseTimer = s.gov.pulseTimer ∧
    (emptyArm a s).gov.sequence = s.gov.sequence ∧ (emptyArm a s).web = s.web ∧
    (emptyArm a s).order.queue = s.order.queue ∧ (emptyArm a s).order.anchor = s.order.anchor ∧
    (emptyArm a s).order.nextSeg = s.order.nextSeg ∧ (emptyArm a s).order.newSequence = s.order.newSequence ∧
    (emptyArm a s).order.wait = s.order.wait ∧ (emptyArm a s).order.stall = s.order.stall ∧
    (emptyArm a s).order.refusal = s.order.refusal ∧ (emptyArm a s).order.birthHeld = s.order.birthHeld ∧
    (emptyArm a s).order.punches = s.order.punches ∧ (emptyArm a s).pattern = s.pattern ∧
    (emptyArm a s).roll.pasteTimer = s.roll.pasteTimer ∧ (emptyArm a s).roll.pasteOutput = s.roll.pasteOutput ∧
    (emptyArm a s).roll.webTimer = s.roll.webTimer ∧ (emptyArm a s).roll.webSeen = s.roll.webSeen ∧
    (emptyArm a s).roll.fillBase = s.roll.fillBase ∧ (emptyArm a s).roll.vU = s.roll.vU ∧
    (emptyArm a s).roll.vOut = s.roll.vOut ∧ (emptyArm a s).roll.exitCommand = s.roll.exitCommand ∧
    (emptyArm a s).roll.outHistory = s.roll.outHistory ∧ (emptyArm a s).roll.flatCeiling = s.roll.flatCeiling ∧
    (emptyArm a s).roll.statusArm = s.roll.statusArm ∧ (emptyArm a s).roll.statusResult = s.roll.statusResult ∧
    (emptyArm a s).heat = s.heat ∧ (emptyArm a s).outfeed = s.outfeed ∧
    (emptyArm a s).cond.checkErrors = s.cond.checkErrors ∧ (emptyArm a s).cond.overruns = s.cond.overruns ∧
    (emptyArm a s).cond.straySenders = s.cond.straySenders ∧ (emptyArm a s).cond.strayMarks = s.cond.strayMarks ∧
    (emptyArm a s).cond.missedMarks = s.cond.missedMarks ∧ (emptyArm a s).cond.limitedStrokes = s.cond.limitedStrokes ∧
    (emptyArm a s).pins = s.pins ∧ (emptyArm a s).pending = s.pending := by
  generalize h : emptyArm a s = t
  unfold emptyArm at h
  dsimp only at h
  (repeat' split at h) <;> subst h <;> simp

/-- What `filterSample` leaves as it was. -/
@[simp] theorem filterSample_frame (a : ArmName) (sample : Nat) (s : State) :
    (filterSample a sample s).loader = s.loader ∧ (filterSample a sample s).bus.rx = s.bus.rx ∧
    (filterSample a sample s).bus.latchRoster = s.bus.latchRoster ∧
    (filterSample a sample s).bus.latchTerminal = s.bus.latchTerminal ∧
    (filterSample a sample s).bus.faultCount = s.bus.faultCount ∧ (filterSample a sample s).bus.off = s.bus.off ∧
    (filterSample a sample s).bus.recovery = s.bus.recovery ∧ (filterSample a sample s).bus.duplicate = s.bus.duplicate ∧
    (filterSample a sample s).peers = s.peers ∧ (filterSample a sample s).gov.vOp = s.gov.vOp ∧
    (filterSample a sample s).gov.vT = s.gov.vT ∧ (filterSample a sample s).gov.vA = s.gov.vA ∧
    (filterSample a sample s).gov.trips = s.gov.trips ∧ (filterSample a sample s).gov.beforeTrip = s.gov.beforeTrip ∧
    (filterSample a sample s).gov.tripTimer = s.gov.tripTimer ∧
    (filterSample a sample s).gov.driveEnable = s.gov.driveEnable ∧
    (filterSample a sample s).gov.pulseTimer = s.gov.pulseTimer ∧
    (filterSample a sample s).gov.sequence = s.gov.sequence ∧ (filterSample a sample s).web = s.web ∧
    (filterSample a sample s).order.queue = s.order.queue ∧ (filterSample a sample s).order.anchor = s.order.anchor ∧
    (filterSample a sample s).order.nextSeg = s.order.nextSeg ∧
    (filterSample a sample s).order.newSequence = s.order.newSequence ∧
    (filterSample a sample s).order.wait = s.order.wait ∧ (filterSample a sample s).order.stall = s.order.stall ∧
    (filterSample a sample s).order.refusal = s.order.refusal ∧
    (filterSample a sample s).order.birthHeld = s.order.birthHeld ∧
    (filterSample a sample s).order.punches = s.order.punches ∧ (filterSample a sample s).pattern = s.pattern ∧
    (filterSample a sample s).roll.pasteTimer = s.roll.pasteTimer ∧
    (filterSample a sample s).roll.pasteOutput = s.roll.pasteOutput ∧
    (filterSample a sample s).roll.webTimer = s.roll.webTimer ∧ (filterSample a sample s).roll.webSeen = s.roll.webSeen ∧
    (filterSample a sample s).roll.fillBase = s.roll.fillBase ∧ (filterSample a sample s).roll.vU = s.roll.vU ∧
    (filterSample a sample s).roll.vOut = s.roll.vOut ∧ (filterSample a sample s).roll.exitCommand = s.roll.exitCommand ∧
    (filterSample a sample s).roll.outHistory = s.roll.outHistory ∧
    (filterSample a sample s).roll.flatCeiling = s.roll.flatCeiling ∧
    (filterSample a sample s).roll.statusArm = s.roll.statusArm ∧
    (filterSample a sample s).roll.statusResult = s.roll.statusResult ∧ (filterSample a sample s).heat = s.heat ∧
    (filterSample a sample s).outfeed = s.outfeed ∧ (filterSample a sample s).cond.checkErrors = s.cond.checkErrors ∧
    (filterSample a sample s).cond.overruns = s.cond.overruns ∧
    (filterSample a sample s).cond.straySenders = s.cond.straySenders ∧
    (filterSample a sample s).cond.strayMarks = s.cond.strayMarks ∧
    (filterSample a sample s).cond.missedMarks = s.cond.missedMarks ∧
    (filterSample a sample s).cond.limitedStrokes = s.cond.limitedStrokes ∧ (filterSample a sample s).pins = s.pins ∧
    (filterSample a sample s).pending = s.pending := by
  generalize h : filterSample a sample s = t
  unfold filterSample at h
  dsimp only at h
  (repeat' split at h) <;> subst h <;> simp

/-- What `takeRevolution` leaves as it was. -/
@[simp] theorem takeRevolution_frame (a : ArmName) (s : State) :
    (takeRevolution a s).loader = s.loader ∧ (takeRevolution a s).bus.rx = s.bus.rx ∧
    (takeRevolution a s).bus.latchRoster = s.bus.latchRoster ∧
    (takeRevolution a s).bus.latchTerminal = s.bus.latchTerminal ∧
    (takeRevolution a s).bus.faultCount = s.bus.faultCount ∧ (takeRevolution a s).bus.off = s.bus.off ∧
    (takeRevolution a s).bus.recovery = s.bus.recovery ∧ (takeRevolution a s).bus.duplicate = s.bus.duplicate ∧
    (takeRevolution a s).peers = s.peers ∧ (takeRevolution a s).gov.vOp = s.gov.vOp ∧
    (takeRevolution a s).gov.vT = s.gov.vT ∧ (takeRevolution a s).gov.vA = s.gov.vA ∧
    (takeRevolution a s).gov.trips = s.gov.trips ∧ (takeRevolution a s).gov.beforeTrip = s.gov.beforeTrip ∧
    (takeRevolution a s).gov.tripTimer = s.gov.tripTimer ∧ (takeRevolution a s).gov.driveEnable = s.gov.driveEnable ∧
    (takeRevolution a s).gov.pulseTimer = s.gov.pulseTimer ∧ (takeRevolution a s).gov.sequence = s.gov.sequence ∧
    (takeRevolution a s).web = s.web ∧ (takeRevolution a s).order.queue = s.order.queue ∧
    (takeRevolution a s).order.anchor = s.order.anchor ∧ (takeRevolution a s).order.nextSeg = s.order.nextSeg ∧
    (takeRevolution a s).order.newSequence = s.order.newSequence ∧ (takeRevolution a s).order.wait = s.order.wait ∧
    (takeRevolution a s).order.stall = s.order.stall ∧ (takeRevolution a s).order.refusal = s.order.refusal ∧
    (takeRevolution a s).order.birthHeld = s.order.birthHeld ∧ (takeRevolution a s).order.punches = s.order.punches ∧
    (takeRevolution a s).pattern = s.pattern ∧ (takeRevolution a s).roll.pasteTimer = s.roll.pasteTimer ∧
    (takeRevolution a s).roll.pasteOutput = s.roll.pasteOutput ∧ (takeRevolution a s).roll.webTimer = s.roll.webTimer ∧
    (takeRevolution a s).roll.webSeen = s.roll.webSeen ∧ (takeRevolution a s).roll.fillBase = s.roll.fillBase ∧
    (takeRevolution a s).roll.vU = s.roll.vU ∧ (takeRevolution a s).roll.vOut = s.roll.vOut ∧
    (takeRevolution a s).roll.exitCommand = s.roll.exitCommand ∧
    (takeRevolution a s).roll.outHistory = s.roll.outHistory ∧
    (takeRevolution a s).roll.flatCeiling = s.roll.flatCeiling ∧ (takeRevolution a s).roll.statusArm = s.roll.statusArm ∧
    (takeRevolution a s).roll.statusResult = s.roll.statusResult ∧ (takeRevolution a s).heat = s.heat ∧
    (takeRevolution a s).outfeed = s.outfeed ∧ (takeRevolution a s).cond.checkErrors = s.cond.checkErrors ∧
    (takeRevolution a s).cond.overruns = s.cond.overruns ∧ (takeRevolution a s).cond.straySenders = s.cond.straySenders ∧
    (takeRevolution a s).cond.strayMarks = s.cond.strayMarks ∧
    (takeRevolution a s).cond.missedMarks = s.cond.missedMarks ∧
    (takeRevolution a s).cond.limitedStrokes = s.cond.limitedStrokes ∧ (takeRevolution a s).pins = s.pins ∧
    (takeRevolution a s).pending = s.pending := by
  generalize h : takeRevolution a s = t
  unfold takeRevolution at h
  dsimp only at h
  (repeat' split at h) <;> subst h <;> simp

/-- What `measureOut` leaves as it was. -/
@[simp] theorem measureOut_frame (s : State) :
    (measureOut s).loader = s.loader ∧ (measureOut s).bus = s.bus ∧ (measureOut s).peers = s.peers ∧
    (measureOut s).gov = s.gov ∧ (measureOut s).web = s.web ∧ (measureOut s).order = s.order ∧
    (measureOut s).pattern = s.pattern ∧ (measureOut s).roll.arm1 = s.roll.arm1 ∧
    (measureOut s).roll.arm2 = s.roll.arm2 ∧ (measureOut s).roll.spliceState = s.roll.spliceState ∧
    (measureOut s).roll.spliceArm = s.roll.spliceArm ∧ (measureOut s).roll.spliceMiddle = s.roll.spliceMiddle ∧
    (measureOut s).roll.pasteTimer = s.roll.pasteTimer ∧ (measureOut s).roll.pasteOutput = s.roll.pasteOutput ∧
    (measureOut s).roll.webTimer = s.roll.webTimer ∧ (measureOut s).roll.webSeen = s.roll.webSeen ∧
    (measureOut s).roll.fillBase = s.roll.fillBase ∧ (measureOut s).roll.vU = s.roll.vU ∧
    (measureOut s).roll.flatCeiling = s.roll.flatCeiling ∧ (measureOut s).roll.statusArm = s.roll.statusArm ∧
    (measureOut s).roll.statusResult = s.roll.statusResult ∧ (measureOut s).heat = s.heat ∧
    (measureOut s).outfeed = s.outfeed ∧ (measureOut s).cond = s.cond ∧ (measureOut s).pins = s.pins ∧
    (measureOut s).pending = s.pending := by
  simp [measureOut]

/-- What `driveUnwind` leaves as it was. -/
@[simp] theorem driveUnwind_frame (s : State) :
    (driveUnwind s).loader = s.loader ∧ (driveUnwind s).bus = s.bus ∧ (driveUnwind s).peers = s.peers ∧
    (driveUnwind s).gov = s.gov ∧ (driveUnwind s).web = s.web ∧ (driveUnwind s).order = s.order ∧
    (driveUnwind s).pattern = s.pattern ∧ (driveUnwind s).roll.arm1 = s.roll.arm1 ∧
    (driveUnwind s).roll.arm2 = s.roll.arm2 ∧ (driveUnwind s).roll.spliceState = s.roll.spliceState ∧
    (driveUnwind s).roll.spliceArm = s.roll.spliceArm ∧ (driveUnwind s).roll.spliceMiddle = s.roll.spliceMiddle ∧
    (driveUnwind s).roll.pasteTimer = s.roll.pasteTimer ∧ (driveUnwind s).roll.pasteOutput = s.roll.pasteOutput ∧
    (driveUnwind s).roll.webTimer = s.roll.webTimer ∧ (driveUnwind s).roll.webSeen = s.roll.webSeen ∧
    (driveUnwind s).roll.fillBase = s.roll.fillBase ∧ (driveUnwind s).roll.vOut = s.roll.vOut ∧
    (driveUnwind s).roll.exitCommand = s.roll.exitCommand ∧ (driveUnwind s).roll.outHistory = s.roll.outHistory ∧
    (driveUnwind s).roll.flatCeiling = s.roll.flatCeiling ∧ (driveUnwind s).roll.statusArm = s.roll.statusArm ∧
    (driveUnwind s).roll.statusResult = s.roll.statusResult ∧ (driveUnwind s).heat = s.heat ∧
    (driveUnwind s).outfeed = s.outfeed ∧ (driveUnwind s).cond = s.cond ∧ (driveUnwind s).pins = s.pins ∧
    (driveUnwind s).pending = s.pending := by
  simp [driveUnwind]

/-- What `pasteTest` leaves as it was. -/
@[simp] theorem pasteTest_frame (s : State) :
    (pasteTest s).loader = s.loader ∧ (pasteTest s).bus.rx = s.bus.rx ∧
    (pasteTest s).bus.latchRoster = s.bus.latchRoster ∧ (pasteTest s).bus.latchTerminal = s.bus.latchTerminal ∧
    (pasteTest s).bus.faultCount = s.bus.faultCount ∧ (pasteTest s).bus.off = s.bus.off ∧
    (pasteTest s).bus.recovery = s.bus.recovery ∧ (pasteTest s).bus.duplicate = s.bus.duplicate ∧
    (pasteTest s).peers = s.peers ∧ (pasteTest s).gov.vOp = s.gov.vOp ∧ (pasteTest s).gov.vT = s.gov.vT ∧
    (pasteTest s).gov.vA = s.gov.vA ∧ (pasteTest s).gov.trips = s.gov.trips ∧
    (pasteTest s).gov.beforeTrip = s.gov.beforeTrip ∧ (pasteTest s).gov.tripTimer = s.gov.tripTimer ∧
    (pasteTest s).gov.driveEnable = s.gov.driveEnable ∧ (pasteTest s).gov.pulseTimer = s.gov.pulseTimer ∧
    (pasteTest s).gov.sequence = s.gov.sequence ∧ (pasteTest s).web = s.web ∧ (pasteTest s).order = s.order ∧
    (pasteTest s).pattern = s.pattern ∧ (pasteTest s).roll.spliceArm = s.roll.spliceArm ∧
    (pasteTest s).roll.spliceMiddle = s.roll.spliceMiddle ∧ (pasteTest s).roll.webTimer = s.roll.webTimer ∧
    (pasteTest s).roll.webSeen = s.roll.webSeen ∧ (pasteTest s).roll.fillBase = s.roll.fillBase ∧
    (pasteTest s).roll.vU = s.roll.vU ∧ (pasteTest s).roll.vOut = s.roll.vOut ∧
    (pasteTest s).roll.exitCommand = s.roll.exitCommand ∧ (pasteTest s).roll.outHistory = s.roll.outHistory ∧
    (pasteTest s).roll.flatCeiling = s.roll.flatCeiling ∧ (pasteTest s).roll.statusArm = s.roll.statusArm ∧
    (pasteTest s).roll.statusResult = s.roll.statusResult ∧ (pasteTest s).heat = s.heat ∧
    (pasteTest s).outfeed = s.outfeed ∧ (pasteTest s).cond.checkErrors = s.cond.checkErrors ∧
    (pasteTest s).cond.overruns = s.cond.overruns ∧ (pasteTest s).cond.straySenders = s.cond.straySenders ∧
    (pasteTest s).cond.strayMarks = s.cond.strayMarks ∧ (pasteTest s).cond.missedMarks = s.cond.missedMarks ∧
    (pasteTest s).cond.limitedStrokes = s.cond.limitedStrokes ∧ (pasteTest s).pins = s.pins ∧
    (pasteTest s).pending = s.pending := by
  generalize h : pasteTest s = t
  unfold pasteTest at h
  (repeat' split at h) <;> subst h <;> simp

/-- What `startNewTest` leaves as it was. -/
@[simp] theorem startNewTest_frame (s : State) :
    (startNewTest s).loader = s.loader ∧ (startNewTest s).bus.rx = s.bus.rx ∧
    (startNewTest s).bus.latchRoster = s.bus.latchRoster ∧ (startNewTest s).bus.latchTerminal = s.bus.latchTerminal ∧
    (startNewTest s).bus.faultCount = s.bus.faultCount ∧ (startNewTest s).bus.off = s.bus.off ∧
    (startNewTest s).bus.recovery = s.bus.recovery ∧ (startNewTest s).bus.duplicate = s.bus.duplicate ∧
    (startNewTest s).peers = s.peers ∧ (startNewTest s).gov.vOp = s.gov.vOp ∧ (startNewTest s).gov.vT = s.gov.vT ∧
    (startNewTest s).gov.vA = s.gov.vA ∧ (startNewTest s).gov.trips = s.gov.trips ∧
    (startNewTest s).gov.beforeTrip = s.gov.beforeTrip ∧ (startNewTest s).gov.tripTimer = s.gov.tripTimer ∧
    (startNewTest s).gov.driveEnable = s.gov.driveEnable ∧ (startNewTest s).gov.pulseTimer = s.gov.pulseTimer ∧
    (startNewTest s).gov.sequence = s.gov.sequence ∧ (startNewTest s).web = s.web ∧ (startNewTest s).order = s.order ∧
    (startNewTest s).pattern = s.pattern ∧ (startNewTest s).roll.arm1 = s.roll.arm1 ∧
    (startNewTest s).roll.arm2 = s.roll.arm2 ∧ (startNewTest s).roll.spliceArm = s.roll.spliceArm ∧
    (startNewTest s).roll.spliceMiddle = s.roll.spliceMiddle ∧ (startNewTest s).roll.pasteTimer = s.roll.pasteTimer ∧
    (startNewTest s).roll.pasteOutput = s.roll.pasteOutput ∧ (startNewTest s).roll.fillBase = s.roll.fillBase ∧
    (startNewTest s).roll.vU = s.roll.vU ∧ (startNewTest s).roll.vOut = s.roll.vOut ∧
    (startNewTest s).roll.exitCommand = s.roll.exitCommand ∧ (startNewTest s).roll.outHistory = s.roll.outHistory ∧
    (startNewTest s).roll.flatCeiling = s.roll.flatCeiling ∧ (startNewTest s).roll.statusArm = s.roll.statusArm ∧
    (startNewTest s).roll.statusResult = s.roll.statusResult ∧ (startNewTest s).heat = s.heat ∧
    (startNewTest s).outfeed = s.outfeed ∧ (startNewTest s).cond.checkErrors = s.cond.checkErrors ∧
    (startNewTest s).cond.overruns = s.cond.overruns ∧ (startNewTest s).cond.straySenders = s.cond.straySenders ∧
    (startNewTest s).cond.strayMarks = s.cond.strayMarks ∧ (startNewTest s).cond.missedMarks = s.cond.missedMarks ∧
    (startNewTest s).cond.limitedStrokes = s.cond.limitedStrokes ∧ (startNewTest s).pins = s.pins ∧
    (startNewTest s).pending = s.pending := by
  generalize h : startNewTest s = t
  unfold startNewTest at h
  dsimp only at h
  (repeat' split at h) <;> subst h <;> simp

/-- What `loadFlatCeiling` leaves as it was. -/
@[simp] theorem loadFlatCeiling_frame (s : State) :
    (loadFlatCeiling s).loader = s.loader ∧ (loadFlatCeiling s).bus = s.bus ∧ (loadFlatCeiling s).peers = s.peers ∧
    (loadFlatCeiling s).gov = s.gov ∧ (loadFlatCeiling s).web = s.web ∧ (loadFlatCeiling s).order = s.order ∧
    (loadFlatCeiling s).pattern = s.pattern ∧ (loadFlatCeiling s).roll.arm1 = s.roll.arm1 ∧
    (loadFlatCeiling s).roll.arm2 = s.roll.arm2 ∧ (loadFlatCeiling s).roll.spliceState = s.roll.spliceState ∧
    (loadFlatCeiling s).roll.spliceArm = s.roll.spliceArm ∧ (loadFlatCeiling s).roll.spliceMiddle = s.roll.spliceMiddle ∧
    (loadFlatCeiling s).roll.pasteTimer = s.roll.pasteTimer ∧ (loadFlatCeiling s).roll.pasteOutput = s.roll.pasteOutput ∧
    (loadFlatCeiling s).roll.webTimer = s.roll.webTimer ∧ (loadFlatCeiling s).roll.webSeen = s.roll.webSeen ∧
    (loadFlatCeiling s).roll.fillBase = s.roll.fillBase ∧ (loadFlatCeiling s).roll.vU = s.roll.vU ∧
    (loadFlatCeiling s).roll.vOut = s.roll.vOut ∧ (loadFlatCeiling s).roll.exitCommand = s.roll.exitCommand ∧
    (loadFlatCeiling s).roll.outHistory = s.roll.outHistory ∧ (loadFlatCeiling s).roll.statusArm = s.roll.statusArm ∧
    (loadFlatCeiling s).roll.statusResult = s.roll.statusResult ∧ (loadFlatCeiling s).heat = s.heat ∧
    (loadFlatCeiling s).outfeed = s.outfeed ∧ (loadFlatCeiling s).cond = s.cond ∧ (loadFlatCeiling s).pins = s.pins ∧
    (loadFlatCeiling s).pending = s.pending := by
  simp [loadFlatCeiling]

/-- What `rampRoll` leaves as it was. -/
@[simp] theorem rampRoll_frame (s : State) :
    (rampRoll s).loader = s.loader ∧ (rampRoll s).bus.rx = s.bus.rx ∧ (rampRoll s).bus.latchRoster = s.bus.latchRoster ∧
    (rampRoll s).bus.latchTerminal = s.bus.latchTerminal ∧ (rampRoll s).bus.faultCount = s.bus.faultCount ∧
    (rampRoll s).bus.off = s.bus.off ∧ (rampRoll s).bus.recovery = s.bus.recovery ∧
    (rampRoll s).bus.duplicate = s.bus.duplicate ∧ (rampRoll s).peers = s.peers ∧ (rampRoll s).gov.vOp = s.gov.vOp ∧
    (rampRoll s).gov.vT = s.gov.vT ∧ (rampRoll s).gov.vA = s.gov.vA ∧ (rampRoll s).gov.trips = s.gov.trips ∧
    (rampRoll s).gov.beforeTrip = s.gov.beforeTrip ∧ (rampRoll s).gov.tripTimer = s.gov.tripTimer ∧
    (rampRoll s).gov.driveEnable = s.gov.driveEnable ∧ (rampRoll s).gov.pulseTimer = s.gov.pulseTimer ∧
    (rampRoll s).gov.sequence = s.gov.sequence ∧ (rampRoll s).web = s.web ∧ (rampRoll s).order = s.order ∧
    (rampRoll s).pattern = s.pattern ∧ (rampRoll s).roll.spliceArm = s.roll.spliceArm ∧
    (rampRoll s).roll.spliceMiddle = s.roll.spliceMiddle ∧ (rampRoll s).roll.fillBase = s.roll.fillBase ∧
    (rampRoll s).roll.flatCeiling = s.roll.flatCeiling ∧ (rampRoll s).roll.statusArm = s.roll.statusArm ∧
    (rampRoll s).roll.statusResult = s.roll.statusResult ∧ (rampRoll s).heat = s.heat ∧
    (rampRoll s).outfeed = s.outfeed ∧ (rampRoll s).cond.checkErrors = s.cond.checkErrors ∧
    (rampRoll s).cond.overruns = s.cond.overruns ∧ (rampRoll s).cond.straySenders = s.cond.straySenders ∧
    (rampRoll s).cond.strayMarks = s.cond.strayMarks ∧ (rampRoll s).cond.missedMarks = s.cond.missedMarks ∧
    (rampRoll s).cond.limitedStrokes = s.cond.limitedStrokes ∧ (rampRoll s).pins = s.pins ∧
    (rampRoll s).pending = s.pending := by
  simp [rampRoll]

/-- What `rollAtActive` leaves as it was. -/
@[simp] theorem rollAtActive_frame (s : State) :
    (rollAtActive s).loader = s.loader ∧ (rollAtActive s).bus.rx = s.bus.rx ∧
    (rollAtActive s).bus.latchRoster = s.bus.latchRoster ∧ (rollAtActive s).bus.latchTerminal = s.bus.latchTerminal ∧
    (rollAtActive s).bus.faultCount = s.bus.faultCount ∧ (rollAtActive s).bus.off = s.bus.off ∧
    (rollAtActive s).bus.recovery = s.bus.recovery ∧ (rollAtActive s).bus.duplicate = s.bus.duplicate ∧
    (rollAtActive s).peers = s.peers ∧ (rollAtActive s).gov.vOp = s.gov.vOp ∧ (rollAtActive s).gov.vT = s.gov.vT ∧
    (rollAtActive s).gov.vA = s.gov.vA ∧ (rollAtActive s).gov.trips = s.gov.trips ∧
    (rollAtActive s).gov.beforeTrip = s.gov.beforeTrip ∧ (rollAtActive s).gov.tripTimer = s.gov.tripTimer ∧
    (rollAtActive s).gov.driveEnable = s.gov.driveEnable ∧ (rollAtActive s).gov.pulseTimer = s.gov.pulseTimer ∧
    (rollAtActive s).gov.sequence = s.gov.sequence ∧ (rollAtActive s).web = s.web ∧
    (rollAtActive s).order.queue = s.order.queue ∧ (rollAtActive s).order.anchor = s.order.anchor ∧
    (rollAtActive s).order.nextSeg = s.order.nextSeg ∧ (rollAtActive s).order.newSequence = s.order.newSequence ∧
    (rollAtActive s).order.wait = s.order.wait ∧ (rollAtActive s).order.stall = s.order.stall ∧
    (rollAtActive s).order.refusal = s.order.refusal ∧ (rollAtActive s).order.birthHeld = s.order.birthHeld ∧
    (rollAtActive s).order.punches = s.order.punches ∧ (rollAtActive s).pattern = s.pattern ∧
    (rollAtActive s).roll.arm1 = s.roll.arm1 ∧ (rollAtActive s).roll.arm2 = s.roll.arm2 ∧
    (rollAtActive s).roll.pasteTimer = s.roll.pasteTimer ∧ (rollAtActive s).roll.pasteOutput = s.roll.pasteOutput ∧
    (rollAtActive s).roll.webTimer = s.roll.webTimer ∧ (rollAtActive s).roll.webSeen = s.roll.webSeen ∧
    (rollAtActive s).roll.fillBase = s.roll.fillBase ∧ (rollAtActive s).roll.vU = s.roll.vU ∧
    (rollAtActive s).roll.vOut = s.roll.vOut ∧ (rollAtActive s).roll.exitCommand = s.roll.exitCommand ∧
    (rollAtActive s).roll.outHistory = s.roll.outHistory ∧ (rollAtActive s).roll.flatCeiling = s.roll.flatCeiling ∧
    (rollAtActive s).roll.statusArm = s.roll.statusArm ∧ (rollAtActive s).roll.statusResult = s.roll.statusResult ∧
    (rollAtActive s).heat = s.heat ∧ (rollAtActive s).outfeed = s.outfeed ∧
    (rollAtActive s).cond.checkErrors = s.cond.checkErrors ∧ (rollAtActive s).cond.overruns = s.cond.overruns ∧
    (rollAtActive s).cond.straySenders = s.cond.straySenders ∧ (rollAtActive s).cond.strayMarks = s.cond.strayMarks ∧
    (rollAtActive s).cond.missedMarks = s.cond.missedMarks ∧
    (rollAtActive s).cond.limitedStrokes = s.cond.limitedStrokes ∧ (rollAtActive s).pins = s.pins ∧
    (rollAtActive s).pending = s.pending := by
  generalize h : rollAtActive s = t
  unfold rollAtActive at h
  dsimp only at h
  (repeat' split at h) <;> subst h <;> simp

/-- What `stopUnwind` leaves as it was. -/
@[simp] theorem stopUnwind_frame (s : State) :
    (stopUnwind s).loader = s.loader ∧ (stopUnwind s).bus = s.bus ∧ (stopUnwind s).peers = s.peers ∧
    (stopUnwind s).gov = s.gov ∧ (stopUnwind s).web = s.web ∧ (stopUnwind s).order = s.order ∧
    (stopUnwind s).pattern = s.pattern ∧ (stopUnwind s).roll.arm1 = s.roll.arm1 ∧
    (stopUnwind s).roll.arm2 = s.roll.arm2 ∧ (stopUnwind s).roll.spliceState = s.roll.spliceState ∧
    (stopUnwind s).roll.spliceArm = s.roll.spliceArm ∧ (stopUnwind s).roll.spliceMiddle = s.roll.spliceMiddle ∧
    (stopUnwind s).roll.pasteTimer = s.roll.pasteTimer ∧ (stopUnwind s).roll.pasteOutput = s.roll.pasteOutput ∧
    (stopUnwind s).roll.webTimer = s.roll.webTimer ∧ (stopUnwind s).roll.webSeen = s.roll.webSeen ∧
    (stopUnwind s).roll.fillBase = s.roll.fillBase ∧ (stopUnwind s).roll.vOut = s.roll.vOut ∧
    (stopUnwind s).roll.outHistory = s.roll.outHistory ∧ (stopUnwind s).roll.flatCeiling = s.roll.flatCeiling ∧
    (stopUnwind s).roll.statusArm = s.roll.statusArm ∧ (stopUnwind s).roll.statusResult = s.roll.statusResult ∧
    (stopUnwind s).heat = s.heat ∧ (stopUnwind s).outfeed = s.outfeed ∧ (stopUnwind s).cond = s.cond ∧
    (stopUnwind s).pins = s.pins ∧ (stopUnwind s).pending = s.pending := by
  simp [stopUnwind]

/-- What `clearDrive` leaves as it was. -/
@[simp] theorem clearDrive_frame (s : State) :
    (clearDrive s).loader = s.loader ∧ (clearDrive s).bus = s.bus ∧ (clearDrive s).peers = s.peers ∧
    (clearDrive s).gov.vOp = s.gov.vOp ∧ (clearDrive s).gov.vT = s.gov.vT ∧ (clearDrive s).gov.vA = s.gov.vA ∧
    (clearDrive s).gov.holds = s.gov.holds ∧ (clearDrive s).gov.trips = s.gov.trips ∧
    (clearDrive s).gov.beforeTrip = s.gov.beforeTrip ∧ (clearDrive s).gov.tripTimer = s.gov.tripTimer ∧
    (clearDrive s).gov.pulseTimer = s.gov.pulseTimer ∧ (clearDrive s).gov.sequence = s.gov.sequence ∧
    (clearDrive s).web = s.web ∧ (clearDrive s).order = s.order ∧ (clearDrive s).pattern.slots = s.pattern.slots ∧
    (clearDrive s).pattern.staging = s.pattern.staging ∧ (clearDrive s).pattern.uploadPattern = s.pattern.uploadPattern ∧
    (clearDrive s).pattern.uploadStatus = s.pattern.uploadStatus ∧ (clearDrive s).pattern.run = s.pattern.run ∧
    (clearDrive s).pattern.stroke = s.pattern.stroke ∧ (clearDrive s).pattern.heldFold = s.pattern.heldFold ∧
    (clearDrive s).pattern.limitCount = s.pattern.limitCount ∧
    (clearDrive s).pattern.pleatedLengths = s.pattern.pleatedLengths ∧ (clearDrive s).roll.arm1 = s.roll.arm1 ∧
    (clearDrive s).roll.arm2 = s.roll.arm2 ∧ (clearDrive s).roll.spliceState = s.roll.spliceState ∧
    (clearDrive s).roll.spliceArm = s.roll.spliceArm ∧ (clearDrive s).roll.spliceMiddle = s.roll.spliceMiddle ∧
    (clearDrive s).roll.pasteTimer = s.roll.pasteTimer ∧ (clearDrive s).roll.pasteOutput = s.roll.pasteOutput ∧
    (clearDrive s).roll.webTimer = s.roll.webTimer ∧ (clearDrive s).roll.webSeen = s.roll.webSeen ∧
    (clearDrive s).roll.fillBase = s.roll.fillBase ∧ (clearDrive s).roll.vOut = s.roll.vOut ∧
    (clearDrive s).roll.outHistory = s.roll.outHistory ∧ (clearDrive s).roll.flatCeiling = s.roll.flatCeiling ∧
    (clearDrive s).roll.statusArm = s.roll.statusArm ∧ (clearDrive s).roll.statusResult = s.roll.statusResult ∧
    (clearDrive s).heat.channels = s.heat.channels ∧ (clearDrive s).heat.recipes = s.heat.recipes ∧
    (clearDrive s).heat.chamber = s.heat.chamber ∧ (clearDrive s).heat.bandCount = s.heat.bandCount ∧
    (clearDrive s).heat.parkTimer = s.heat.parkTimer ∧ (clearDrive s).heat.heatTimer = s.heat.heatTimer ∧
    (clearDrive s).heat.cells = s.heat.cells ∧ (clearDrive s).heat.shiftAnchor = s.heat.shiftAnchor ∧
    (clearDrive s).heat.judgements = s.heat.judgements ∧ (clearDrive s).outfeed.piece = s.outfeed.piece ∧
    (clearDrive s).outfeed.good = s.outfeed.good ∧ (clearDrive s).outfeed.reject = s.outfeed.reject ∧
    (clearDrive s).cond = s.cond ∧ (clearDrive s).pins = s.pins ∧ (clearDrive s).pending = s.pending := by
  simp [clearDrive]

/-- What `setDrive` leaves as it was. -/
@[simp] theorem setDrive_frame (s : State) :
    (setDrive s).loader = s.loader ∧ (setDrive s).bus = s.bus ∧ (setDrive s).peers = s.peers ∧
    (setDrive s).gov.vOp = s.gov.vOp ∧ (setDrive s).gov.vT = s.gov.vT ∧ (setDrive s).gov.vA = s.gov.vA ∧
    (setDrive s).gov.holds = s.gov.holds ∧ (setDrive s).gov.trips = s.gov.trips ∧
    (setDrive s).gov.beforeTrip = s.gov.beforeTrip ∧ (setDrive s).gov.tripTimer = s.gov.tripTimer ∧
    (setDrive s).gov.pulseTimer = s.gov.pulseTimer ∧ (setDrive s).gov.sequence = s.gov.sequence ∧
    (setDrive s).web = s.web ∧ (setDrive s).order = s.order ∧ (setDrive s).pattern.slots = s.pattern.slots ∧
    (setDrive s).pattern.staging = s.pattern.staging ∧ (setDrive s).pattern.uploadPattern = s.pattern.uploadPattern ∧
    (setDrive s).pattern.uploadStatus = s.pattern.uploadStatus ∧ (setDrive s).pattern.run = s.pattern.run ∧
    (setDrive s).pattern.stroke = s.pattern.stroke ∧ (setDrive s).pattern.heldFold = s.pattern.heldFold ∧
    (setDrive s).pattern.depth = s.pattern.depth ∧ (setDrive s).pattern.limitCount = s.pattern.limitCount ∧
    (setDrive s).pattern.pleatedLengths = s.pattern.pleatedLengths ∧ (setDrive s).roll = s.roll ∧
    (setDrive s).heat = s.heat ∧ (setDrive s).outfeed.piece = s.outfeed.piece ∧
    (setDrive s).outfeed.cutTimer = s.outfeed.cutTimer ∧ (setDrive s).outfeed.good = s.outfeed.good ∧
    (setDrive s).outfeed.reject = s.outfeed.reject ∧ (setDrive s).cond = s.cond ∧ (setDrive s).pins = s.pins ∧
    (setDrive s).pending = s.pending := by
  generalize h : setDrive s = t
  unfold setDrive at h
  dsimp only at h
  (repeat' split at h) <;> subst h <;> simp

/-- What `queueTrip` leaves as it was. -/
@[simp] theorem queueTrip_frame (c : TripCause) (s : State) :
    (queueTrip c s).loader = s.loader ∧ (queueTrip c s).bus.rx = s.bus.rx ∧
    (queueTrip c s).bus.latchRoster = s.bus.latchRoster ∧ (queueTrip c s).bus.latchTerminal = s.bus.latchTerminal ∧
    (queueTrip c s).bus.faultCount = s.bus.faultCount ∧ (queueTrip c s).bus.off = s.bus.off ∧
    (queueTrip c s).bus.recovery = s.bus.recovery ∧ (queueTrip c s).bus.duplicate = s.bus.duplicate ∧
    (queueTrip c s).peers = s.peers ∧ (queueTrip c s).gov = s.gov ∧ (queueTrip c s).web = s.web ∧
    (queueTrip c s).order = s.order ∧ (queueTrip c s).pattern = s.pattern ∧ (queueTrip c s).roll = s.roll ∧
    (queueTrip c s).heat = s.heat ∧ (queueTrip c s).outfeed = s.outfeed ∧ (queueTrip c s).cond.flags = s.cond.flags ∧
    (queueTrip c s).cond.checkErrors = s.cond.checkErrors ∧ (queueTrip c s).cond.overruns = s.cond.overruns ∧
    (queueTrip c s).cond.straySenders = s.cond.straySenders ∧ (queueTrip c s).cond.strayMarks = s.cond.strayMarks ∧
    (queueTrip c s).cond.missedMarks = s.cond.missedMarks ∧ (queueTrip c s).cond.limitedStrokes = s.cond.limitedStrokes ∧
    (queueTrip c s).cond.wakeDue = s.cond.wakeDue ∧ (queueTrip c s).pins = s.pins ∧
    (queueTrip c s).pending = s.pending := by
  generalize h : queueTrip c s = t
  unfold queueTrip at h
  (repeat' split at h) <;> subst h <;> simp

/-- What `enterTripped` leaves as it was. -/
@[simp] theorem enterTripped_frame (s : State) :
    (enterTripped s).loader.image = s.loader.image ∧ (enterTripped s).loader.reading = s.loader.reading ∧
    (enterTripped s).loader.scanning = s.loader.scanning ∧
    (enterTripped s).loader.restartCause = s.loader.restartCause ∧
    (enterTripped s).loader.keptRole = s.loader.keptRole ∧ (enterTripped s).loader.faultClass = s.loader.faultClass ∧
    (enterTripped s).bus.rx = s.bus.rx ∧ (enterTripped s).bus.latchRoster = s.bus.latchRoster ∧
    (enterTripped s).bus.latchTerminal = s.bus.latchTerminal ∧ (enterTripped s).bus.faultCount = s.bus.faultCount ∧
    (enterTripped s).bus.off = s.bus.off ∧ (enterTripped s).bus.recovery = s.bus.recovery ∧
    (enterTripped s).bus.duplicate = s.bus.duplicate ∧ (enterTripped s).peers = s.peers ∧
    (enterTripped s).gov.vOp = s.gov.vOp ∧ (enterTripped s).gov.vT = s.gov.vT ∧ (enterTripped s).gov.vA = s.gov.vA ∧
    (enterTripped s).gov.pulseTimer = s.gov.pulseTimer ∧ (enterTripped s).gov.sequence = s.gov.sequence ∧
    (enterTripped s).web.infeed = s.web.infeed ∧ (enterTripped s).web.outfeed = s.web.outfeed ∧
    (enterTripped s).web.p0 = s.web.p0 ∧ (enterTripped s).web.expected = s.web.expected ∧
    (enterTripped s).web.firstSend = s.web.firstSend ∧ (enterTripped s).web.window = s.web.window ∧
    (enterTripped s).web.closing = s.web.closing ∧ (enterTripped s).web.candidate = s.web.candidate ∧
    (enterTripped s).web.missCount = s.web.missCount ∧ (enterTripped s).web.cancelList = s.web.cancelList ∧
    (enterTripped s).web.nextUid = s.web.nextUid ∧ (enterTripped s).order.queue = s.order.queue ∧
    (enterTripped s).order.anchor = s.order.anchor ∧ (enterTripped s).order.nextSeg = s.order.nextSeg ∧
    (enterTripped s).order.newSequence = s.order.newSequence ∧ (enterTripped s).order.wait = s.order.wait ∧
    (enterTripped s).order.stall = s.order.stall ∧ (enterTripped s).order.refusal = s.order.refusal ∧
    (enterTripped s).order.birthHeld = s.order.birthHeld ∧ (enterTripped s).order.punches = s.order.punches ∧
    (enterTripped s).pattern.slots = s.pattern.slots ∧ (enterTripped s).pattern.staging = s.pattern.staging ∧
    (enterTripped s).pattern.uploadPattern = s.pattern.uploadPattern ∧
    (enterTripped s).pattern.uploadStatus = s.pattern.uploadStatus ∧ (enterTripped s).pattern.run = s.pattern.run ∧
    (enterTripped s).pattern.limitCount = s.pattern.limitCount ∧
    (enterTripped s).pattern.pleatedLengths = s.pattern.pleatedLengths ∧ (enterTripped s).roll.arm1 = s.roll.arm1 ∧
    (enterTripped s).roll.arm2 = s.roll.arm2 ∧ (enterTripped s).roll.pasteTimer = s.roll.pasteTimer ∧
    (enterTripped s).roll.pasteOutput = s.roll.pasteOutput ∧ (enterTripped s).roll.webSeen = s.roll.webSeen ∧
    (enterTripped s).roll.fillBase = s.roll.fillBase ∧ (enterTripped s).roll.vOut = s.roll.vOut ∧
    (enterTripped s).roll.outHistory = s.roll.outHistory ∧ (enterTripped s).roll.flatCeiling = s.roll.flatCeiling ∧
    (enterTripped s).roll.statusArm = s.roll.statusArm ∧ (enterTripped s).roll.statusResult = s.roll.statusResult ∧
    (enterTripped s).heat.channels = s.heat.channels ∧ (enterTripped s).heat.recipes = s.heat.recipes ∧
    (enterTripped s).heat.chamber = s.heat.chamber ∧ (enterTripped s).heat.bandCount = s.heat.bandCount ∧
    (enterTripped s).heat.parkTimer = s.heat.parkTimer ∧ (enterTripped s).heat.heatTimer = s.heat.heatTimer ∧
    (enterTripped s).heat.cells = s.heat.cells ∧ (enterTripped s).heat.shiftAnchor = s.heat.shiftAnchor ∧
    (enterTripped s).heat.judgements = s.heat.judgements ∧ (enterTripped s).outfeed.piece = s.outfeed.piece ∧
    (enterTripped s).outfeed.good = s.outfeed.good ∧ (enterTripped s).outfeed.reject = s.outfeed.reject ∧
    (enterTripped s).cond.checkErrors = s.cond.checkErrors ∧ (enterTripped s).cond.overruns = s.cond.overruns ∧
    (enterTripped s).cond.straySenders = s.cond.straySenders ∧ (enterTripped s).cond.strayMarks = s.cond.strayMarks ∧
    (enterTripped s).cond.missedMarks = s.cond.missedMarks ∧
    (enterTripped s).cond.limitedStrokes = s.cond.limitedStrokes ∧ (enterTripped s).pins = s.pins ∧
    (enterTripped s).pending = s.pending := by
  generalize h : enterTripped s = t
  unfold enterTripped at h
  dsimp only at h
  (repeat' split at h) <;> subst h <;> simp

/-- What `addTrip` leaves as it was. -/
@[simp] theorem addTrip_frame (c : TripCause) (s : State) :
    (addTrip c s).loader.image = s.loader.image ∧ (addTrip c s).loader.reading = s.loader.reading ∧
    (addTrip c s).loader.scanning = s.loader.scanning ∧ (addTrip c s).loader.restartCause = s.loader.restartCause ∧
    (addTrip c s).loader.keptRole = s.loader.keptRole ∧ (addTrip c s).loader.faultClass = s.loader.faultClass ∧
    (addTrip c s).bus.rx = s.bus.rx ∧ (addTrip c s).bus.latchRoster = s.bus.latchRoster ∧
    (addTrip c s).bus.latchTerminal = s.bus.latchTerminal ∧ (addTrip c s).bus.faultCount = s.bus.faultCount ∧
    (addTrip c s).bus.off = s.bus.off ∧ (addTrip c s).bus.recovery = s.bus.recovery ∧
    (addTrip c s).bus.duplicate = s.bus.duplicate ∧ (addTrip c s).peers = s.peers ∧
    (addTrip c s).gov.vOp = s.gov.vOp ∧ (addTrip c s).gov.vT = s.gov.vT ∧ (addTrip c s).gov.vA = s.gov.vA ∧
    (addTrip c s).web.infeed = s.web.infeed ∧ (addTrip c s).web.outfeed = s.web.outfeed ∧
    (addTrip c s).web.p0 = s.web.p0 ∧ (addTrip c s).web.expected = s.web.expected ∧
    (addTrip c s).web.firstSend = s.web.firstSend ∧ (addTrip c s).web.window = s.web.window ∧
    (addTrip c s).web.closing = s.web.closing ∧ (addTrip c s).web.candidate = s.web.candidate ∧
    (addTrip c s).web.missCount = s.web.missCount ∧ (addTrip c s).web.cancelList = s.web.cancelList ∧
    (addTrip c s).web.nextUid = s.web.nextUid ∧ (addTrip c s).order.queue = s.order.queue ∧
    (addTrip c s).order.anchor = s.order.anchor ∧ (addTrip c s).order.nextSeg = s.order.nextSeg ∧
    (addTrip c s).order.newSequence = s.order.newSequence ∧ (addTrip c s).order.wait = s.order.wait ∧
    (addTrip c s).order.stall = s.order.stall ∧ (addTrip c s).order.refusal = s.order.refusal ∧
    (addTrip c s).order.birthHeld = s.order.birthHeld ∧ (addTrip c s).order.punches = s.order.punches ∧
    (addTrip c s).pattern.slots = s.pattern.slots ∧ (addTrip c s).pattern.staging = s.pattern.staging ∧
    (addTrip c s).pattern.uploadPattern = s.pattern.uploadPattern ∧
    (addTrip c s).pattern.uploadStatus = s.pattern.uploadStatus ∧ (addTrip c s).pattern.run = s.pattern.run ∧
    (addTrip c s).pattern.limitCount = s.pattern.limitCount ∧
    (addTrip c s).pattern.pleatedLengths = s.pattern.pleatedLengths ∧ (addTrip c s).roll.arm1 = s.roll.arm1 ∧
    (addTrip c s).roll.arm2 = s.roll.arm2 ∧ (addTrip c s).roll.pasteTimer = s.roll.pasteTimer ∧
    (addTrip c s).roll.pasteOutput = s.roll.pasteOutput ∧ (addTrip c s).roll.webSeen = s.roll.webSeen ∧
    (addTrip c s).roll.fillBase = s.roll.fillBase ∧ (addTrip c s).roll.vOut = s.roll.vOut ∧
    (addTrip c s).roll.outHistory = s.roll.outHistory ∧ (addTrip c s).roll.flatCeiling = s.roll.flatCeiling ∧
    (addTrip c s).roll.statusArm = s.roll.statusArm ∧ (addTrip c s).roll.statusResult = s.roll.statusResult ∧
    (addTrip c s).heat.channels = s.heat.channels ∧ (addTrip c s).heat.recipes = s.heat.recipes ∧
    (addTrip c s).heat.chamber = s.heat.chamber ∧ (addTrip c s).heat.bandCount = s.heat.bandCount ∧
    (addTrip c s).heat.parkTimer = s.heat.parkTimer ∧ (addTrip c s).heat.heatTimer = s.heat.heatTimer ∧
    (addTrip c s).heat.cells = s.heat.cells ∧ (addTrip c s).heat.shiftAnchor = s.heat.shiftAnchor ∧
    (addTrip c s).heat.judgements = s.heat.judgements ∧ (addTrip c s).outfeed.piece = s.outfeed.piece ∧
    (addTrip c s).outfeed.good = s.outfeed.good ∧ (addTrip c s).outfeed.reject = s.outfeed.reject ∧
    (addTrip c s).cond.checkErrors = s.cond.checkErrors ∧ (addTrip c s).cond.overruns = s.cond.overruns ∧
    (addTrip c s).cond.straySenders = s.cond.straySenders ∧ (addTrip c s).cond.strayMarks = s.cond.strayMarks ∧
    (addTrip c s).cond.missedMarks = s.cond.missedMarks ∧ (addTrip c s).cond.limitedStrokes = s.cond.limitedStrokes ∧
    (addTrip c s).pins = s.pins ∧ (addTrip c s).pending = s.pending := by
  generalize h : addTrip c s = t
  unfold addTrip at h
  (repeat' split at h) <;> subst h <;> simp

/-- What `takeLatch` leaves as it was. -/
@[simp] theorem takeLatch_frame (s : State) :
    (takeLatch s).loader.image = s.loader.image ∧ (takeLatch s).loader.reading = s.loader.reading ∧
    (takeLatch s).loader.scanning = s.loader.scanning ∧ (takeLatch s).loader.restartCause = s.loader.restartCause ∧
    (takeLatch s).loader.keptRole = s.loader.keptRole ∧ (takeLatch s).loader.faultClass = s.loader.faultClass ∧
    (takeLatch s).bus.rx = s.bus.rx ∧ (takeLatch s).bus.faultCount = s.bus.faultCount ∧
    (takeLatch s).bus.off = s.bus.off ∧ (takeLatch s).bus.recovery = s.bus.recovery ∧
    (takeLatch s).bus.duplicate = s.bus.duplicate ∧ (takeLatch s).peers = s.peers ∧
    (takeLatch s).gov.vOp = s.gov.vOp ∧ (takeLatch s).gov.vT = s.gov.vT ∧ (takeLatch s).gov.vA = s.gov.vA ∧
    (takeLatch s).web.infeed = s.web.infeed ∧ (takeLatch s).web.outfeed = s.web.outfeed ∧
    (takeLatch s).web.p0 = s.web.p0 ∧ (takeLatch s).web.expected = s.web.expected ∧
    (takeLatch s).web.firstSend = s.web.firstSend ∧ (takeLatch s).web.window = s.web.window ∧
    (takeLatch s).web.closing = s.web.closing ∧ (takeLatch s).web.candidate = s.web.candidate ∧
    (takeLatch s).web.missCount = s.web.missCount ∧ (takeLatch s).web.cancelList = s.web.cancelList ∧
    (takeLatch s).web.nextUid = s.web.nextUid ∧ (takeLatch s).order.queue = s.order.queue ∧
    (takeLatch s).order.anchor = s.order.anchor ∧ (takeLatch s).order.nextSeg = s.order.nextSeg ∧
    (takeLatch s).order.newSequence = s.order.newSequence ∧ (takeLatch s).order.wait = s.order.wait ∧
    (takeLatch s).order.stall = s.order.stall ∧ (takeLatch s).order.refusal = s.order.refusal ∧
    (takeLatch s).order.birthHeld = s.order.birthHeld ∧ (takeLatch s).order.punches = s.order.punches ∧
    (takeLatch s).pattern.slots = s.pattern.slots ∧ (takeLatch s).pattern.staging = s.pattern.staging ∧
    (takeLatch s).pattern.uploadPattern = s.pattern.uploadPattern ∧
    (takeLatch s).pattern.uploadStatus = s.pattern.uploadStatus ∧ (takeLatch s).pattern.run = s.pattern.run ∧
    (takeLatch s).pattern.limitCount = s.pattern.limitCount ∧
    (takeLatch s).pattern.pleatedLengths = s.pattern.pleatedLengths ∧ (takeLatch s).roll.arm1 = s.roll.arm1 ∧
    (takeLatch s).roll.arm2 = s.roll.arm2 ∧ (takeLatch s).roll.pasteTimer = s.roll.pasteTimer ∧
    (takeLatch s).roll.pasteOutput = s.roll.pasteOutput ∧ (takeLatch s).roll.webSeen = s.roll.webSeen ∧
    (takeLatch s).roll.fillBase = s.roll.fillBase ∧ (takeLatch s).roll.vOut = s.roll.vOut ∧
    (takeLatch s).roll.outHistory = s.roll.outHistory ∧ (takeLatch s).roll.flatCeiling = s.roll.flatCeiling ∧
    (takeLatch s).roll.statusArm = s.roll.statusArm ∧ (takeLatch s).roll.statusResult = s.roll.statusResult ∧
    (takeLatch s).heat.channels = s.heat.channels ∧ (takeLatch s).heat.recipes = s.heat.recipes ∧
    (takeLatch s).heat.chamber = s.heat.chamber ∧ (takeLatch s).heat.bandCount = s.heat.bandCount ∧
    (takeLatch s).heat.parkTimer = s.heat.parkTimer ∧ (takeLatch s).heat.heatTimer = s.heat.heatTimer ∧
    (takeLatch s).heat.cells = s.heat.cells ∧ (takeLatch s).heat.shiftAnchor = s.heat.shiftAnchor ∧
    (takeLatch s).heat.judgements = s.heat.judgements ∧ (takeLatch s).outfeed.piece = s.outfeed.piece ∧
    (takeLatch s).outfeed.good = s.outfeed.good ∧ (takeLatch s).outfeed.reject = s.outfeed.reject ∧
    (takeLatch s).cond.checkErrors = s.cond.checkErrors ∧ (takeLatch s).cond.overruns = s.cond.overruns ∧
    (takeLatch s).cond.straySenders = s.cond.straySenders ∧ (takeLatch s).cond.strayMarks = s.cond.strayMarks ∧
    (takeLatch s).cond.missedMarks = s.cond.missedMarks ∧ (takeLatch s).cond.limitedStrokes = s.cond.limitedStrokes ∧
    (takeLatch s).pins = s.pins ∧ (takeLatch s).pending = s.pending := by
  generalize h : takeLatch s = t
  unfold takeLatch at h
  dsimp only at h
  (repeat' split at h) <;> subst h <;> simp

/-- What `enterActive` leaves as it was. -/
@[simp] theorem enterActive_frame (s : State) :
    (enterActive s).loader.image = s.loader.image ∧ (enterActive s).loader.reading = s.loader.reading ∧
    (enterActive s).loader.scanning = s.loader.scanning ∧ (enterActive s).loader.restartCause = s.loader.restartCause ∧
    (enterActive s).loader.keptRole = s.loader.keptRole ∧ (enterActive s).loader.faultClass = s.loader.faultClass ∧
    (enterActive s).bus.rx = s.bus.rx ∧ (enterActive s).bus.latchRoster = s.bus.latchRoster ∧
    (enterActive s).bus.latchTerminal = s.bus.latchTerminal ∧ (enterActive s).bus.faultCount = s.bus.faultCount ∧
    (enterActive s).bus.off = s.bus.off ∧ (enterActive s).bus.recovery = s.bus.recovery ∧
    (enterActive s).bus.duplicate = s.bus.duplicate ∧ (enterActive s).peers = s.peers ∧
    (enterActive s).gov.vOp = s.gov.vOp ∧ (enterActive s).gov.vT = s.gov.vT ∧ (enterActive s).gov.vA = s.gov.vA ∧
    (enterActive s).gov.trips = s.gov.trips ∧ (enterActive s).gov.beforeTrip = s.gov.beforeTrip ∧
    (enterActive s).gov.tripTimer = s.gov.tripTimer ∧ (enterActive s).web = s.web ∧
    (enterActive s).order.queue = s.order.queue ∧ (enterActive s).order.anchor = s.order.anchor ∧
    (enterActive s).order.nextSeg = s.order.nextSeg ∧ (enterActive s).order.newSequence = s.order.newSequence ∧
    (enterActive s).order.wait = s.order.wait ∧ (enterActive s).order.stall = s.order.stall ∧
    (enterActive s).order.refusal = s.order.refusal ∧ (enterActive s).order.birthHeld = s.order.birthHeld ∧
    (enterActive s).order.punches = s.order.punches ∧ (enterActive s).pattern.slots = s.pattern.slots ∧
    (enterActive s).pattern.staging = s.pattern.staging ∧
    (enterActive s).pattern.uploadPattern = s.pattern.uploadPattern ∧
    (enterActive s).pattern.uploadStatus = s.pattern.uploadStatus ∧ (enterActive s).pattern.run = s.pattern.run ∧
    (enterActive s).pattern.stroke = s.pattern.stroke ∧ (enterActive s).pattern.heldFold = s.pattern.heldFold ∧
    (enterActive s).pattern.depth = s.pattern.depth ∧ (enterActive s).pattern.limitCount = s.pattern.limitCount ∧
    (enterActive s).pattern.pleatedLengths = s.pattern.pleatedLengths ∧ (enterActive s).roll.arm1 = s.roll.arm1 ∧
    (enterActive s).roll.arm2 = s.roll.arm2 ∧ (enterActive s).roll.pasteTimer = s.roll.pasteTimer ∧
    (enterActive s).roll.pasteOutput = s.roll.pasteOutput ∧ (enterActive s).roll.webTimer = s.roll.webTimer ∧
    (enterActive s).roll.webSeen = s.roll.webSeen ∧ (enterActive s).roll.fillBase = s.roll.fillBase ∧
    (enterActive s).roll.vU = s.roll.vU ∧ (enterActive s).roll.vOut = s.roll.vOut ∧
    (enterActive s).roll.exitCommand = s.roll.exitCommand ∧ (enterActive s).roll.outHistory = s.roll.outHistory ∧
    (enterActive s).roll.flatCeiling = s.roll.flatCeiling ∧ (enterActive s).roll.statusArm = s.roll.statusArm ∧
    (enterActive s).roll.statusResult = s.roll.statusResult ∧ (enterActive s).heat.channels = s.heat.channels ∧
    (enterActive s).heat.recipes = s.heat.recipes ∧ (enterActive s).heat.zones = s.heat.zones ∧
    (enterActive s).heat.heatTimer = s.heat.heatTimer ∧ (enterActive s).heat.cells = s.heat.cells ∧
    (enterActive s).heat.shiftAnchor = s.heat.shiftAnchor ∧ (enterActive s).heat.judgements = s.heat.judgements ∧
    (enterActive s).outfeed.piece = s.outfeed.piece ∧ (enterActive s).outfeed.cutTimer = s.outfeed.cutTimer ∧
    (enterActive s).outfeed.good = s.outfeed.good ∧ (enterActive s).outfeed.reject = s.outfeed.reject ∧
    (enterActive s).cond.checkErrors = s.cond.checkErrors ∧ (enterActive s).cond.overruns = s.cond.overruns ∧
    (enterActive s).cond.straySenders = s.cond.straySenders ∧ (enterActive s).cond.strayMarks = s.cond.strayMarks ∧
    (enterActive s).cond.missedMarks = s.cond.missedMarks ∧ (enterActive s).cond.limitedStrokes = s.cond.limitedStrokes ∧
    (enterActive s).pins = s.pins ∧ (enterActive s).pending = s.pending := by
  generalize h : enterActive s = t
  unfold enterActive at h
  dsimp only at h
  (repeat' split at h) <;> subst h <;> simp

/-- What `enterStandby` leaves as it was. -/
@[simp] theorem enterStandby_frame (s : State) :
    (enterStandby s).loader.image = s.loader.image ∧ (enterStandby s).loader.reading = s.loader.reading ∧
    (enterStandby s).loader.scanning = s.loader.scanning ∧ (enterStandby s).loader.restartCause = s.loader.restartCause ∧
    (enterStandby s).loader.keptRole = s.loader.keptRole ∧ (enterStandby s).loader.faultClass = s.loader.faultClass ∧
    (enterStandby s).loader.joinTimer = s.loader.joinTimer ∧ (enterStandby s).bus.rx = s.bus.rx ∧
    (enterStandby s).bus.latchRoster = s.bus.latchRoster ∧ (enterStandby s).bus.latchTerminal = s.bus.latchTerminal ∧
    (enterStandby s).bus.faultCount = s.bus.faultCount ∧ (enterStandby s).bus.off = s.bus.off ∧
    (enterStandby s).bus.recovery = s.bus.recovery ∧ (enterStandby s).bus.duplicate = s.bus.duplicate ∧
    (enterStandby s).peers = s.peers ∧ (enterStandby s).gov.vOp = s.gov.vOp ∧ (enterStandby s).gov.vT = s.gov.vT ∧
    (enterStandby s).gov.vA = s.gov.vA ∧ (enterStandby s).gov.trips = s.gov.trips ∧
    (enterStandby s).gov.beforeTrip = s.gov.beforeTrip ∧ (enterStandby s).gov.tripTimer = s.gov.tripTimer ∧
    (enterStandby s).gov.driveEnable = s.gov.driveEnable ∧ (enterStandby s).web = s.web ∧
    (enterStandby s).order.queue = s.order.queue ∧ (enterStandby s).order.anchor = s.order.anchor ∧
    (enterStandby s).order.nextSeg = s.order.nextSeg ∧ (enterStandby s).order.newSequence = s.order.newSequence ∧
    (enterStandby s).order.wait = s.order.wait ∧ (enterStandby s).order.stall = s.order.stall ∧
    (enterStandby s).order.refusal = s.order.refusal ∧ (enterStandby s).order.birthHeld = s.order.birthHeld ∧
    (enterStandby s).order.punches = s.order.punches ∧ (enterStandby s).pattern = s.pattern ∧
    (enterStandby s).roll.arm1 = s.roll.arm1 ∧ (enterStandby s).roll.arm2 = s.roll.arm2 ∧
    (enterStandby s).roll.pasteTimer = s.roll.pasteTimer ∧ (enterStandby s).roll.pasteOutput = s.roll.pasteOutput ∧
    (enterStandby s).roll.webSeen = s.roll.webSeen ∧ (enterStandby s).roll.fillBase = s.roll.fillBase ∧
    (enterStandby s).roll.vU = s.roll.vU ∧ (enterStandby s).roll.vOut = s.roll.vOut ∧
    (enterStandby s).roll.exitCommand = s.roll.exitCommand ∧ (enterStandby s).roll.outHistory = s.roll.outHistory ∧
    (enterStandby s).roll.flatCeiling = s.roll.flatCeiling ∧ (enterStandby s).roll.statusArm = s.roll.statusArm ∧
    (enterStandby s).roll.statusResult = s.roll.statusResult ∧ (enterStandby s).heat.channels = s.heat.channels ∧
    (enterStandby s).heat.recipes = s.heat.recipes ∧ (enterStandby s).heat.zones = s.heat.zones ∧
    (enterStandby s).heat.heatTimer = s.heat.heatTimer ∧ (enterStandby s).heat.cells = s.heat.cells ∧
    (enterStandby s).heat.shiftAnchor = s.heat.shiftAnchor ∧ (enterStandby s).heat.judgements = s.heat.judgements ∧
    (enterStandby s).outfeed = s.outfeed ∧ (enterStandby s).cond.checkErrors = s.cond.checkErrors ∧
    (enterStandby s).cond.overruns = s.cond.overruns ∧ (enterStandby s).cond.straySenders = s.cond.straySenders ∧
    (enterStandby s).cond.strayMarks = s.cond.strayMarks ∧ (enterStandby s).cond.missedMarks = s.cond.missedMarks ∧
    (enterStandby s).cond.limitedStrokes = s.cond.limitedStrokes ∧ (enterStandby s).pins = s.pins ∧
    (enterStandby s).pending = s.pending := by
  generalize h : enterStandby s = t
  unfold enterStandby at h
  dsimp only at h
  (repeat' split at h) <;> subst h <;> simp

/-- What `noteBoundary` leaves as it was. -/
@[simp] theorem noteBoundary_frame (point : Word) (s : State) :
    (noteBoundary point s).loader = s.loader ∧ (noteBoundary point s).bus = s.bus ∧
    (noteBoundary point s).peers = s.peers ∧ (noteBoundary point s).gov = s.gov ∧
    (noteBoundary point s).web.infeed = s.web.infeed ∧ (noteBoundary point s).web.outfeed = s.web.outfeed ∧
    (noteBoundary point s).web.p0 = s.web.p0 ∧ (noteBoundary point s).web.expected = s.web.expected ∧
    (noteBoundary point s).web.firstSend = s.web.firstSend ∧ (noteBoundary point s).web.window = s.web.window ∧
    (noteBoundary point s).web.closing = s.web.closing ∧ (noteBoundary point s).web.candidate = s.web.candidate ∧
    (noteBoundary point s).web.missCount = s.web.missCount ∧
    (noteBoundary point s).web.cancelList = s.web.cancelList ∧ (noteBoundary point s).web.nextUid = s.web.nextUid ∧
    (noteBoundary point s).order = s.order ∧ (noteBoundary point s).pattern = s.pattern ∧
    (noteBoundary point s).roll = s.roll ∧ (noteBoundary point s).heat = s.heat ∧
    (noteBoundary point s).outfeed = s.outfeed ∧ (noteBoundary point s).cond = s.cond ∧
    (noteBoundary point s).pins = s.pins ∧ (noteBoundary point s).pending = s.pending := by
  simp [noteBoundary]

/-- What `takeDue` leaves as it was. -/
@[simp] theorem takeDue_frame (d : Due) (s : State) :
    (takeDue d s).loader = s.loader ∧ (takeDue d s).bus.rx = s.bus.rx ∧
    (takeDue d s).bus.latchRoster = s.bus.latchRoster ∧ (takeDue d s).bus.latchTerminal = s.bus.latchTerminal ∧
    (takeDue d s).bus.faultCount = s.bus.faultCount ∧ (takeDue d s).bus.off = s.bus.off ∧
    (takeDue d s).bus.recovery = s.bus.recovery ∧ (takeDue d s).bus.duplicate = s.bus.duplicate ∧
    (takeDue d s).peers = s.peers ∧ (takeDue d s).gov.vOp = s.gov.vOp ∧ (takeDue d s).gov.vT = s.gov.vT ∧
    (takeDue d s).gov.vA = s.gov.vA ∧ (takeDue d s).gov.trips = s.gov.trips ∧
    (takeDue d s).gov.beforeTrip = s.gov.beforeTrip ∧ (takeDue d s).gov.tripTimer = s.gov.tripTimer ∧
    (takeDue d s).gov.driveEnable = s.gov.driveEnable ∧ (takeDue d s).gov.pulseTimer = s.gov.pulseTimer ∧
    (takeDue d s).gov.sequence = s.gov.sequence ∧ (takeDue d s).web.infeed = s.web.infeed ∧
    (takeDue d s).web.outfeed = s.web.outfeed ∧ (takeDue d s).web.p0 = s.web.p0 ∧
    (takeDue d s).web.expected = s.web.expected ∧ (takeDue d s).web.cancelList = s.web.cancelList ∧
    (takeDue d s).order.refusal = s.order.refusal ∧ (takeDue d s).pattern.staging = s.pattern.staging ∧
    (takeDue d s).pattern.uploadPattern = s.pattern.uploadPattern ∧ (takeDue d s).pattern.depth = s.pattern.depth ∧
    (takeDue d s).pattern.limitCount = s.pattern.limitCount ∧ (takeDue d s).roll.arm1 = s.roll.arm1 ∧
    (takeDue d s).roll.arm2 = s.roll.arm2 ∧ (takeDue d s).roll.pasteTimer = s.roll.pasteTimer ∧
    (takeDue d s).roll.pasteOutput = s.roll.pasteOutput ∧ (takeDue d s).roll.webTimer = s.roll.webTimer ∧
    (takeDue d s).roll.webSeen = s.roll.webSeen ∧ (takeDue d s).roll.fillBase = s.roll.fillBase ∧
    (takeDue d s).roll.vU = s.roll.vU ∧ (takeDue d s).roll.vOut = s.roll.vOut ∧
    (takeDue d s).roll.exitCommand = s.roll.exitCommand ∧ (takeDue d s).roll.outHistory = s.roll.outHistory ∧
    (takeDue d s).roll.flatCeiling = s.roll.flatCeiling ∧ (takeDue d s).roll.statusArm = s.roll.statusArm ∧
    (takeDue d s).roll.statusResult = s.roll.statusResult ∧ (takeDue d s).heat.channels = s.heat.channels ∧
    (takeDue d s).heat.recipes = s.heat.recipes ∧ (takeDue d s).heat.zones = s.heat.zones ∧
    (takeDue d s).heat.chamber = s.heat.chamber ∧ (takeDue d s).heat.bandCount = s.heat.bandCount ∧
    (takeDue d s).heat.parkTimer = s.heat.parkTimer ∧ (takeDue d s).heat.heatTimer = s.heat.heatTimer ∧
    (takeDue d s).cond.checkErrors = s.cond.checkErrors ∧ (takeDue d s).cond.overruns = s.cond.overruns ∧
    (takeDue d s).cond.straySenders = s.cond.straySenders ∧ (takeDue d s).cond.limitedStrokes = s.cond.limitedStrokes ∧
    (takeDue d s).pins = s.pins ∧ (takeDue d s).pending = s.pending := by
  generalize h : takeDue d s = t
  unfold takeDue at h
  (repeat' split at h) <;> subst h <;> simp

/-- What `retest` leaves as it was. -/
@[simp] theorem retest_frame (s : State) :
    (retest s).loader = s.loader ∧ (retest s).bus.rx = s.bus.rx ∧ (retest s).bus.latchRoster = s.bus.latchRoster ∧
    (retest s).bus.latchTerminal = s.bus.latchTerminal ∧ (retest s).bus.faultCount = s.bus.faultCount ∧
    (retest s).bus.off = s.bus.off ∧ (retest s).bus.recovery = s.bus.recovery ∧
    (retest s).bus.duplicate = s.bus.duplicate ∧ (retest s).peers = s.peers ∧ (retest s).gov = s.gov ∧
    (retest s).web.infeed = s.web.infeed ∧ (retest s).web.outfeed = s.web.outfeed ∧ (retest s).web.p0 = s.web.p0 ∧
    (retest s).web.expected = s.web.expected ∧ (retest s).web.firstSend = s.web.firstSend ∧
    (retest s).web.window = s.web.window ∧ (retest s).web.closing = s.web.closing ∧
    (retest s).web.candidate = s.web.candidate ∧ (retest s).web.missCount = s.web.missCount ∧
    (retest s).web.cancelList = s.web.cancelList ∧ (retest s).web.nextUid = s.web.nextUid ∧
    (retest s).order = s.order ∧ (retest s).pattern = s.pattern ∧ (retest s).roll = s.roll ∧
    (retest s).heat = s.heat ∧ (retest s).outfeed.cutTimer = s.outfeed.cutTimer ∧
    (retest s).outfeed.good = s.outfeed.good ∧ (retest s).outfeed.reject = s.outfeed.reject ∧
    (retest s).cond.checkErrors = s.cond.checkErrors ∧ (retest s).cond.overruns = s.cond.overruns ∧
    (retest s).cond.straySenders = s.cond.straySenders ∧ (retest s).cond.strayMarks = s.cond.strayMarks ∧
    (retest s).cond.missedMarks = s.cond.missedMarks ∧ (retest s).cond.limitedStrokes = s.cond.limitedStrokes ∧
    (retest s).pins = s.pins ∧ (retest s).pending = s.pending := by
  generalize h : retest s = t
  unfold retest at h
  (repeat' split at h) <;> subst h <;> simp

/-- What `settleLoop` leaves as it was. -/
@[simp] theorem settleLoop_frame (n : Nat) (s : State) :
    (settleLoop n s).loader = s.loader ∧ (settleLoop n s).bus.rx = s.bus.rx ∧
    (settleLoop n s).bus.latchRoster = s.bus.latchRoster ∧ (settleLoop n s).bus.latchTerminal = s.bus.latchTerminal ∧
    (settleLoop n s).bus.faultCount = s.bus.faultCount ∧ (settleLoop n s).bus.off = s.bus.off ∧
    (settleLoop n s).bus.recovery = s.bus.recovery ∧ (settleLoop n s).bus.duplicate = s.bus.duplicate ∧
    (settleLoop n s).peers = s.peers ∧ (settleLoop n s).gov.vOp = s.gov.vOp ∧ (settleLoop n s).gov.vT = s.gov.vT ∧
    (settleLoop n s).gov.vA = s.gov.vA ∧ (settleLoop n s).gov.trips = s.gov.trips ∧
    (settleLoop n s).gov.beforeTrip = s.gov.beforeTrip ∧ (settleLoop n s).gov.tripTimer = s.gov.tripTimer ∧
    (settleLoop n s).gov.driveEnable = s.gov.driveEnable ∧ (settleLoop n s).gov.pulseTimer = s.gov.pulseTimer ∧
    (settleLoop n s).gov.sequence = s.gov.sequence ∧ (settleLoop n s).web.infeed = s.web.infeed ∧
    (settleLoop n s).web.outfeed = s.web.outfeed ∧ (settleLoop n s).web.p0 = s.web.p0 ∧
    (settleLoop n s).web.expected = s.web.expected ∧ (settleLoop n s).web.cancelList = s.web.cancelList ∧
    (settleLoop n s).order.refusal = s.order.refusal ∧ (settleLoop n s).pattern.staging = s.pattern.staging ∧
    (settleLoop n s).pattern.uploadPattern = s.pattern.uploadPattern ∧ (settleLoop n s).pattern.depth = s.pattern.depth ∧
    (settleLoop n s).pattern.limitCount = s.pattern.limitCount ∧ (settleLoop n s).roll.arm1 = s.roll.arm1 ∧
    (settleLoop n s).roll.arm2 = s.roll.arm2 ∧ (settleLoop n s).roll.pasteTimer = s.roll.pasteTimer ∧
    (settleLoop n s).roll.pasteOutput = s.roll.pasteOutput ∧ (settleLoop n s).roll.webTimer = s.roll.webTimer ∧
    (settleLoop n s).roll.webSeen = s.roll.webSeen ∧ (settleLoop n s).roll.fillBase = s.roll.fillBase ∧
    (settleLoop n s).roll.vU = s.roll.vU ∧ (settleLoop n s).roll.vOut = s.roll.vOut ∧
    (settleLoop n s).roll.exitCommand = s.roll.exitCommand ∧ (settleLoop n s).roll.outHistory = s.roll.outHistory ∧
    (settleLoop n s).roll.flatCeiling = s.roll.flatCeiling ∧ (settleLoop n s).roll.statusArm = s.roll.statusArm ∧
    (settleLoop n s).roll.statusResult = s.roll.statusResult ∧ (settleLoop n s).heat.channels = s.heat.channels ∧
    (settleLoop n s).heat.recipes = s.heat.recipes ∧ (settleLoop n s).heat.zones = s.heat.zones ∧
    (settleLoop n s).heat.chamber = s.heat.chamber ∧ (settleLoop n s).heat.bandCount = s.heat.bandCount ∧
    (settleLoop n s).heat.parkTimer = s.heat.parkTimer ∧ (settleLoop n s).heat.heatTimer = s.heat.heatTimer ∧
    (settleLoop n s).cond.checkErrors = s.cond.checkErrors ∧ (settleLoop n s).cond.overruns = s.cond.overruns ∧
    (settleLoop n s).cond.straySenders = s.cond.straySenders ∧
    (settleLoop n s).cond.limitedStrokes = s.cond.limitedStrokes ∧ (settleLoop n s).pins = s.pins ∧
    (settleLoop n s).pending = s.pending := by
  induction n generalizing s with
  | zero => simp [settleLoop]
  | succ n ih =>
    unfold settleLoop
    dsimp only
    split
    · simp
    · rename_i d _
      have h := ih (takeDue d (retest s))
      simpa using h

/-- What `settle` leaves as it was. -/
@[simp] theorem settle_frame (s : State) :
    (settle s).loader = s.loader ∧ (settle s).bus.rx = s.bus.rx ∧ (settle s).bus.latchRoster = s.bus.latchRoster ∧
    (settle s).bus.latchTerminal = s.bus.latchTerminal ∧ (settle s).bus.faultCount = s.bus.faultCount ∧
    (settle s).bus.off = s.bus.off ∧ (settle s).bus.recovery = s.bus.recovery ∧
    (settle s).bus.duplicate = s.bus.duplicate ∧ (settle s).peers = s.peers ∧ (settle s).gov.vOp = s.gov.vOp ∧
    (settle s).gov.vT = s.gov.vT ∧ (settle s).gov.vA = s.gov.vA ∧ (settle s).gov.trips = s.gov.trips ∧
    (settle s).gov.beforeTrip = s.gov.beforeTrip ∧ (settle s).gov.tripTimer = s.gov.tripTimer ∧
    (settle s).gov.driveEnable = s.gov.driveEnable ∧ (settle s).gov.pulseTimer = s.gov.pulseTimer ∧
    (settle s).gov.sequence = s.gov.sequence ∧ (settle s).web.infeed = s.web.infeed ∧
    (settle s).web.outfeed = s.web.outfeed ∧ (settle s).web.p0 = s.web.p0 ∧ (settle s).web.expected = s.web.expected ∧
    (settle s).web.cancelList = s.web.cancelList ∧ (settle s).order.refusal = s.order.refusal ∧
    (settle s).pattern.staging = s.pattern.staging ∧ (settle s).pattern.uploadPattern = s.pattern.uploadPattern ∧
    (settle s).pattern.depth = s.pattern.depth ∧ (settle s).pattern.limitCount = s.pattern.limitCount ∧
    (settle s).roll.arm1 = s.roll.arm1 ∧ (settle s).roll.arm2 = s.roll.arm2 ∧
    (settle s).roll.pasteTimer = s.roll.pasteTimer ∧ (settle s).roll.pasteOutput = s.roll.pasteOutput ∧
    (settle s).roll.webTimer = s.roll.webTimer ∧ (settle s).roll.webSeen = s.roll.webSeen ∧
    (settle s).roll.fillBase = s.roll.fillBase ∧ (settle s).roll.vU = s.roll.vU ∧ (settle s).roll.vOut = s.roll.vOut ∧
    (settle s).roll.exitCommand = s.roll.exitCommand ∧ (settle s).roll.outHistory = s.roll.outHistory ∧
    (settle s).roll.flatCeiling = s.roll.flatCeiling ∧ (settle s).roll.statusArm = s.roll.statusArm ∧
    (settle s).roll.statusResult = s.roll.statusResult ∧ (settle s).heat.channels = s.heat.channels ∧
    (settle s).heat.recipes = s.heat.recipes ∧ (settle s).heat.zones = s.heat.zones ∧
    (settle s).heat.chamber = s.heat.chamber ∧ (settle s).heat.bandCount = s.heat.bandCount ∧
    (settle s).heat.parkTimer = s.heat.parkTimer ∧ (settle s).heat.heatTimer = s.heat.heatTimer ∧
    (settle s).cond.checkErrors = s.cond.checkErrors ∧ (settle s).cond.overruns = s.cond.overruns ∧
    (settle s).cond.straySenders = s.cond.straySenders ∧ (settle s).cond.limitedStrokes = s.cond.limitedStrokes ∧
    (settle s).pins = s.pins ∧ (settle s).pending = s.pending := by
  simp [settle]

/-- What `refresh` leaves as it was. -/
@[simp] theorem refresh_frame (s : State) :
    (refresh s).loader = s.loader ∧ (refresh s).bus.rx = s.bus.rx ∧ (refresh s).bus.latchRoster = s.bus.latchRoster ∧
    (refresh s).bus.latchTerminal = s.bus.latchTerminal ∧ (refresh s).bus.faultCount = s.bus.faultCount ∧
    (refresh s).bus.off = s.bus.off ∧ (refresh s).bus.recovery = s.bus.recovery ∧
    (refresh s).bus.duplicate = s.bus.duplicate ∧ (refresh s).peers = s.peers ∧ (refresh s).gov.vOp = s.gov.vOp ∧
    (refresh s).gov.vA = s.gov.vA ∧ (refresh s).gov.holds = s.gov.holds ∧ (refresh s).gov.trips = s.gov.trips ∧
    (refresh s).gov.beforeTrip = s.gov.beforeTrip ∧ (refresh s).gov.tripTimer = s.gov.tripTimer ∧
    (refresh s).gov.driveEnable = s.gov.driveEnable ∧ (refresh s).gov.pulseTimer = s.gov.pulseTimer ∧
    (refresh s).gov.sequence = s.gov.sequence ∧ (refresh s).web = s.web ∧ (refresh s).order = s.order ∧
    (refresh s).pattern = s.pattern ∧ (refresh s).roll = s.roll ∧ (refresh s).heat.channels = s.heat.channels ∧
    (refresh s).heat.recipes = s.heat.recipes ∧ (refresh s).heat.heatTimer = s.heat.heatTimer ∧
    (refresh s).heat.cells = s.heat.cells ∧ (refresh s).heat.shiftAnchor = s.heat.shiftAnchor ∧
    (refresh s).heat.judgements = s.heat.judgements ∧ (refresh s).outfeed = s.outfeed ∧
    (refresh s).cond.checkErrors = s.cond.checkErrors ∧ (refresh s).cond.overruns = s.cond.overruns ∧
    (refresh s).cond.straySenders = s.cond.straySenders ∧ (refresh s).cond.strayMarks = s.cond.strayMarks ∧
    (refresh s).cond.missedMarks = s.cond.missedMarks ∧ (refresh s).cond.limitedStrokes = s.cond.limitedStrokes ∧
    (refresh s).pins = s.pins ∧ (refresh s).pending = s.pending := by
  simp [refresh]

/-- What `conclude` leaves as it was. -/
@[simp] theorem conclude_frame (s : State) :
    (conclude s).loader.image = s.loader.image ∧ (conclude s).loader.reading = s.loader.reading ∧
    (conclude s).loader.scanning = s.loader.scanning ∧ (conclude s).loader.restartCause = s.loader.restartCause ∧
    (conclude s).loader.keptRole = s.loader.keptRole ∧ (conclude s).loader.faultClass = s.loader.faultClass ∧
    (conclude s).bus.rx = s.bus.rx ∧ (conclude s).bus.latchRoster = s.bus.latchRoster ∧
    (conclude s).bus.latchTerminal = s.bus.latchTerminal ∧ (conclude s).bus.faultCount = s.bus.faultCount ∧
    (conclude s).bus.off = s.bus.off ∧ (conclude s).bus.recovery = s.bus.recovery ∧
    (conclude s).bus.duplicate = s.bus.duplicate ∧ (conclude s).peers = s.peers ∧ (conclude s).gov.vOp = s.gov.vOp ∧
    (conclude s).gov.vA = s.gov.vA ∧ (conclude s).gov.trips = s.gov.trips ∧
    (conclude s).gov.beforeTrip = s.gov.beforeTrip ∧ (conclude s).gov.tripTimer = s.gov.tripTimer ∧
    (conclude s).web.infeed = s.web.infeed ∧ (conclude s).web.outfeed = s.web.outfeed ∧ (conclude s).web.p0 = s.web.p0 ∧
    (conclude s).web.expected = s.web.expected ∧ (conclude s).web.cancelList = s.web.cancelList ∧
    (conclude s).order.refusal = s.order.refusal ∧ (conclude s).pattern.staging = s.pattern.staging ∧
    (conclude s).pattern.uploadPattern = s.pattern.uploadPattern ∧ (conclude s).pattern.depth = s.pattern.depth ∧
    (conclude s).pattern.limitCount = s.pattern.limitCount ∧ (conclude s).roll.arm1 = s.roll.arm1 ∧
    (conclude s).roll.arm2 = s.roll.arm2 ∧ (conclude s).roll.pasteTimer = s.roll.pasteTimer ∧
    (conclude s).roll.pasteOutput = s.roll.pasteOutput ∧ (conclude s).roll.webTimer = s.roll.webTimer ∧
    (conclude s).roll.webSeen = s.roll.webSeen ∧ (conclude s).roll.fillBase = s.roll.fillBase ∧
    (conclude s).roll.vU = s.roll.vU ∧ (conclude s).roll.vOut = s.roll.vOut ∧
    (conclude s).roll.exitCommand = s.roll.exitCommand ∧ (conclude s).roll.outHistory = s.roll.outHistory ∧
    (conclude s).roll.flatCeiling = s.roll.flatCeiling ∧ (conclude s).roll.statusArm = s.roll.statusArm ∧
    (conclude s).roll.statusResult = s.roll.statusResult ∧ (conclude s).heat.channels = s.heat.channels ∧
    (conclude s).heat.recipes = s.heat.recipes ∧ (conclude s).heat.heatTimer = s.heat.heatTimer ∧
    (conclude s).cond.checkErrors = s.cond.checkErrors ∧ (conclude s).cond.overruns = s.cond.overruns ∧
    (conclude s).cond.straySenders = s.cond.straySenders ∧ (conclude s).cond.limitedStrokes = s.cond.limitedStrokes ∧
    (conclude s).pins = s.pins ∧ (conclude s).pending = s.pending := by
  generalize h : conclude s = t
  unfold conclude at h
  dsimp only at h
  (repeat' split at h) <;> subst h <;> simp

/-- What `finish` leaves as it was. -/
@[simp] theorem finish_frame (s : State) :
    (finish s).loader.image = s.loader.image ∧ (finish s).loader.reading = s.loader.reading ∧
    (finish s).loader.scanning = s.loader.scanning ∧ (finish s).loader.restartCause = s.loader.restartCause ∧
    (finish s).loader.keptRole = s.loader.keptRole ∧ (finish s).loader.faultClass = s.loader.faultClass ∧
    (finish s).bus.rx = s.bus.rx ∧ (finish s).bus.latchRoster = s.bus.latchRoster ∧
    (finish s).bus.latchTerminal = s.bus.latchTerminal ∧ (finish s).bus.faultCount = s.bus.faultCount ∧
    (finish s).bus.off = s.bus.off ∧ (finish s).bus.recovery = s.bus.recovery ∧
    (finish s).bus.duplicate = s.bus.duplicate ∧ (finish s).peers = s.peers ∧ (finish s).gov.vOp = s.gov.vOp ∧
    (finish s).gov.vA = s.gov.vA ∧ (finish s).gov.trips = s.gov.trips ∧ (finish s).gov.beforeTrip = s.gov.beforeTrip ∧
    (finish s).gov.tripTimer = s.gov.tripTimer ∧ (finish s).web.infeed = s.web.infeed ∧
    (finish s).web.outfeed = s.web.outfeed ∧ (finish s).web.p0 = s.web.p0 ∧ (finish s).web.expected = s.web.expected ∧
    (finish s).web.cancelList = s.web.cancelList ∧ (finish s).order.refusal = s.order.refusal ∧
    (finish s).pattern.staging = s.pattern.staging ∧ (finish s).pattern.uploadPattern = s.pattern.uploadPattern ∧
    (finish s).pattern.depth = s.pattern.depth ∧ (finish s).pattern.limitCount = s.pattern.limitCount ∧
    (finish s).roll.arm1 = s.roll.arm1 ∧ (finish s).roll.arm2 = s.roll.arm2 ∧
    (finish s).roll.pasteTimer = s.roll.pasteTimer ∧ (finish s).roll.pasteOutput = s.roll.pasteOutput ∧
    (finish s).roll.webTimer = s.roll.webTimer ∧ (finish s).roll.webSeen = s.roll.webSeen ∧
    (finish s).roll.fillBase = s.roll.fillBase ∧ (finish s).roll.vU = s.roll.vU ∧ (finish s).roll.vOut = s.roll.vOut ∧
    (finish s).roll.exitCommand = s.roll.exitCommand ∧ (finish s).roll.outHistory = s.roll.outHistory ∧
    (finish s).roll.flatCeiling = s.roll.flatCeiling ∧ (finish s).roll.statusArm = s.roll.statusArm ∧
    (finish s).roll.statusResult = s.roll.statusResult ∧ (finish s).heat.channels = s.heat.channels ∧
    (finish s).heat.recipes = s.heat.recipes ∧ (finish s).heat.heatTimer = s.heat.heatTimer ∧
    (finish s).cond.checkErrors = s.cond.checkErrors ∧ (finish s).cond.overruns = s.cond.overruns ∧
    (finish s).cond.straySenders = s.cond.straySenders ∧ (finish s).cond.limitedStrokes = s.cond.limitedStrokes ∧
    (finish s).pins = s.pins ∧ (finish s).pending = s.pending := by
  simp [finish]

end Sys2Proof.Machine
end

