-- ==== Sys2Proof/Laws/Figures.lean ====
section
/-! SUPPORT. The end of a command: what making the figures again can change, and when a command ends with that alone. A proof
about a command that neither moves web nor enters ACTIVE cites `conclude_of_quiet` and `refresh_figures` and unfolds
neither. -/

namespace Sys2Proof.Machine
open Sys2Proof

/-- Loading one group record leaves the others (R175). -/
theorem setRecord_other (g : Group) (r : GroupRecord) (s : State) (g' : Group) (h : g' ≠ g) :
    (setRecord g r s).cond.record g' = s.cond.record g' := by
  cases g <;> cases g' <;> simp_all [setRecord, CondUnit.record]

/-- The target speed is current after the figures are made again (R37). -/
theorem refresh_vT (s : State) : (refresh s).gov.vT = (refresh s).targetSpeed := by
  simp [refresh, State.targetSpeed, State.holdKnown, State.compositionValid, State.rosterOthers, State.countRole, State.peer, State.is, State.role, State.cfg, State.mode, State.ownCeiling, State.unwindCeiling, State.rollCeiling, State.lineRatio]
  rfl

/-- The notice of the group HEAT reads the flags and the restart cause alone (R176). -/
theorem noticeBody_heat_congr {s t : State} (hf : t.cond.flags = s.cond.flags) (hl : t.loader = s.loader) :
    noticeBody .heat t = noticeBody .heat s := by simp [noticeBody, hf, hl]

/-- A rising in the group HEAT changes the record of that group, and the transmit queue by its notice at most, built from the flags that are set now (R175 to R177). -/
theorem reportRising_heat (c : Cond) (hc : c.group = .heat) (s : State) :
    { (reportRising c s).cond with heat := s.cond.heat } = s.cond ∧
    ((reportRising c s).bus.tx = s.bus.tx ∨ (reportRising c s).bus.tx =
      insertByClass { kind := .conditionNotice, dest := 0, body := noticeBody .heat s } s.bus.tx) := by
  unfold reportRising
  simp only [hc]
  split
  · split
    · unfold offerNotice
      split <;> simp [setRecord, setTx, CondUnit.record]
      exact Or.inr (by rw [noticeBody_heat_congr] <;> simp)
    · simp [setRecord, CondUnit.record]
    · simp [setRecord, CondUnit.record]
  · simp

/-- SPEED_FLOOR following its cause changes itself, the record of the group HEAT, the wake, and the transmit queue by its notice at most (R154, R173, R175). -/
theorem follow_floor (b : Bool) (u : State) :
    { (follow .speedFloor b u).cond with flags := u.cond.flags, heat := u.cond.heat, wakeDue := u.cond.wakeDue } = u.cond ∧
    (∀ c, c ≠ Cond.speedFloor → (c ∈ (follow .speedFloor b u).cond.flags ↔ c ∈ u.cond.flags)) ∧
    ((follow .speedFloor b u).bus.tx = u.bus.tx ∨
    Cond.speedFloor ∉ u.cond.flags ∧ Cond.speedFloor ∈ (follow .speedFloor b u).cond.flags ∧
      (follow .speedFloor b u).bus.tx = insertByClass
        { kind := .conditionNotice, dest := 0, body := noticeBody .heat (follow .speedFloor b u) } u.bus.tx) := by
  unfold follow
  split
  · unfold raise
    split
    · simp
    · rename_i h
      obtain ⟨h1, h2⟩ := reportRising_heat .speedFloor rfl (setFlags (u.cond.flags ++ [.speedFloor]) u)
      have hf : (reportRising .speedFloor (setFlags (u.cond.flags ++ [.speedFloor]) u)).cond.flags = u.cond.flags ++ [.speedFloor] := by
        simp [setFlags]
      have hl : (reportRising .speedFloor (setFlags (u.cond.flags ++ [.speedFloor]) u)).loader = u.loader := by simp [setFlags]
      simp only [setFlags, State.withCond_cond, State.withCond_bus] at h1 h2
      have hn : Cond.speedFloor ∉ u.cond.flags := by simpa [State.flagged] using h
      generalize hq : reportRising .speedFloor (setFlags (u.cond.flags ++ [.speedFloor]) u) = q at *
      simp only [setFlags] at hq
      rw [hq] at h1 h2
      have e1 : { q.cond with flags := u.cond.flags, heat := u.cond.heat, wakeDue := u.cond.wakeDue } = u.cond := by
        exact congrArg (fun x : CondUnit => { x with flags := u.cond.flags, wakeDue := u.cond.wakeDue }) h1
      dsimp only
      split
      · refine ⟨by simpa using e1, ?_, ?_⟩
        · intro c hc; simp [hf, hc]
        · rcases h2 with h2 | h2
          · left; simpa using h2
          · right; refine ⟨hn, by simp [hf], ?_⟩
            rw [noticeBody_heat_congr (s := u.withCond { u.cond with flags := u.cond.flags ++ [.speedFloor] })
              (by simp [hf]) (by simp [hl])]
            simpa using h2
      · refine ⟨by simpa using e1, ?_, ?_⟩
        · intro c hc; simp [hf, hc]
        · rcases h2 with h2 | h2
          · left; simpa using h2
          · right; refine ⟨hn, by simp [hf], ?_⟩
            rw [noticeBody_heat_congr (s := u.withCond { u.cond with flags := u.cond.flags ++ [.speedFloor] })
              (by simp [hf]) (by simp [hl])]
            simpa using h2
  · simp only [fall, setFlags]
    refine ⟨?_, ?_, ?_⟩
    · simp
    · intro c hc; simp [removeAll, hc]
    · left; simp

/-- The park test changes the chamber state, its count and its timer at most (R133). -/
theorem parkTest_fig (u : State) :
    { (parkTest u).heat with chamber := u.heat.chamber, bandCount := u.heat.bandCount, parkTimer := u.heat.parkTimer, zones := u.heat.zones } = u.heat
    ∧ (parkTest u).heat.zones = u.heat.zones := by
  unfold parkTest setChamber; (repeat' split) <;> simp

/-- The line demand test changes the chamber state, its count and its timer at most (R134). -/
theorem demandTest_fig (u : State) :
    { (demandTest u).heat with chamber := u.heat.chamber, bandCount := u.heat.bandCount, parkTimer := u.heat.parkTimer, zones := u.heat.zones } = u.heat
    ∧ (demandTest u).heat.zones = u.heat.zones := by
  unfold demandTest setChamber; (repeat' split) <;> simp

/-- Making the figures again changes the figures and nothing else (R37, R130, R133, R134, R154). -/
theorem refresh_figures (u : State) : FiguresOnly u (refresh u) := by
  have hv := refresh_vT u
  have key : refresh u = (refreshHeat u).withGov { u.gov with vT := (refreshHeat u).targetSpeed } := by
    simp [refresh]
  by_cases h : (u.is .setter && u.operating) = true
  · have e : refreshHeat u = follow .speedFloor (0 < (loadSetpoints (demandTest (parkTest u))).floorSpeed && (loadSetpoints (demandTest (parkTest u))).gov.vA < (loadSetpoints (demandTest (parkTest u))).floorSpeed) (loadSetpoints (demandTest (parkTest u))) := by
      unfold refreshHeat; rw [if_pos h]; rfl
    generalize hb : (0 < (loadSetpoints (demandTest (parkTest u))).floorSpeed && (loadSetpoints (demandTest (parkTest u))).gov.vA < (loadSetpoints (demandTest (parkTest u))).floorSpeed) = b at e
    have hh : (refreshHeat u).heat = (loadSetpoints (demandTest (parkTest u))).heat := by rw [e]; simp
    obtain ⟨f1, f2, f3⟩ := follow_floor b (loadSetpoints (demandTest (parkTest u)))
    have hc0 : (loadSetpoints (demandTest (parkTest u))).cond = u.cond := by simp
    have hb0 : (loadSetpoints (demandTest (parkTest u))).bus = u.bus := by simp
    rw [hc0] at f1 f2 f3; rw [hb0] at f3
    rw [← e] at f1 f2 f3
    have hs : u.is .setter = true := by simp at h; exact h.1
    have p1 := parkTest_fig u
    have d1 := demandTest_fig (parkTest u)
    refine ⟨?_, ?_, ?_, ?_, ?_, hv, ?_, ?_, ?_, ?_, ?_, ?_, ?_, ?_, ?_, ?_, ?_, ?_⟩ <;> try (simp; done)
    · have hn : noticeBody .heat (refresh u) = noticeBody .heat (refreshHeat u) := by
        rw [key]; exact noticeBody_heat_congr (by simp) (by simp)
      rw [hn, key]; simpa using f3
    · rw [key]; simp only [State.withGov_heat, hh, loadSetpoints, State.withHeat_heat, d1.2, p1.2]
      apply List.ext_getElem <;> simp
    · rw [key]; simpa using f1
    · rw [key]; simpa using f2
    · intro hn; rw [hs] at hn; cases hn
  · have e : refreshHeat u = u := by unfold refreshHeat; rw [if_neg h]
    rw [e] at key
    rw [key] at hv ⊢
    refine ⟨?_, ?_, ?_, ?_, ?_, hv, ?_, ?_, ?_, ?_, ?_, ?_, ?_, ?_, ?_, ?_, ?_, ?_⟩ <;> simp

/-- The join test reads the loader and the peer table alone (R191). -/
theorem joinReady_congr {s t : State} (hl : t.loader = s.loader) (hp : t.peers = s.peers) : t.joinReady = s.joinReady := by
  have hc : t.cfg = s.cfg := by unfold State.cfg; rw [hl]
  have hr : t.role = s.role := by unfold State.role; rw [hl]
  have hi : ∀ r, t.is r = s.is r := by intro r; unfold State.is; rw [hr]
  have ho : t.rosterOthers = s.rosterOthers := by unfold State.rosterOthers; rw [hc]
  have hq : ∀ a, t.peer a = s.peer a := by intro a; unfold State.peer; rw [hp]
  have hk : ∀ r, t.countRole r = s.countRole r := by intro r; unfold State.countRole; simp [hi, ho, hq]
  have hv : t.compositionValid = s.compositionValid := by unfold State.compositionValid; simp [ho, hq, hk]
  unfold State.joinReady State.mode; rw [hl, hv, ho]; simp [hq]

/-- A command that leaves the station where no entry to ACTIVE can fall due ends with the figures made again (R191). -/
theorem conclude_of_steady (u : State) (h : u.steady) : conclude u = refresh u := by
  have f := refresh_figures u
  have hm : (refresh u).mode = u.mode := by unfold State.mode; rw [f.loader]
  have hj : (refresh u).joinReady = u.joinReady := joinReady_congr f.loader f.peers
  have : (refresh u).activeDue = false := by
    rcases h with h | h | ⟨h, h'⟩
    · simp [State.activeDue, hm, h, State.joinReady]
    · simp [State.activeDue, hm, h, State.joinReady]
    · simp [State.activeDue, hm, hj, h, h']
  simp [conclude, this]

/-- As `conclude_of_steady`, with STANDBY where nothing is made again there (R181). -/
theorem conclude_of_quiet (u : State) (h : u.quiet) : conclude u = refresh u := by
  rcases h with h | ⟨h, h', hw⟩
  · exact conclude_of_steady u h
  have f := refresh_figures u
  have hm : (refresh u).mode = u.mode := by unfold State.mode; rw [f.loader]
  have hc := (f.others h').2.1
  have : (refresh u).activeDue = false := by
    simp [State.activeDue, hm, h, State.joinReady, hc, hw]
  simp [conclude, this]

end Sys2Proof.Machine
end

