-- ==== Sys2Proof/Laws/Ops.lean ====
section
/-! SUPPORT. What the shared operations do, one lemma each: sets, the transmit queue, flags and holds, trips, the settling of a
step and its end. The frames of the same operations stand in Laws/Frames.lean. -/

namespace Sys2Proof.Machine
open Sys2Proof

/-! ## Sets kept as lists -/

@[simp] theorem mem_insertNew {α : Type} [DecidableEq α] (x y : α) (l : List α) : y ∈ insertNew x l ↔ y = x ∨ y ∈ l := by
  unfold insertNew; split <;> simp_all [or_comm]

@[simp] theorem mem_removeAll {α : Type} [DecidableEq α] (x y : α) (l : List α) : y ∈ removeAll x l ↔ y ≠ x ∧ y ∈ l := by
  simp [removeAll, and_comm]

/-! ## The transmit queue (R210) -/

@[simp] theorem insertByClass_length (e : TxEntry) (l : List TxEntry) : (insertByClass e l).length = l.length + 1 := by
  induction l with
  | nil => rfl
  | cons x xs ih => unfold insertByClass; split <;> simp [ih]

@[simp] theorem mem_insertByClass (e x : TxEntry) (l : List TxEntry) : x ∈ insertByClass e l ↔ x = e ∨ x ∈ l := by
  induction l with
  | nil => simp [insertByClass]
  | cons y ys ih => unfold insertByClass; split <;> simp [ih, or_left_comm]

/-- Entering a telegram keeps the queue in class order (R210). -/
theorem insertByClass_ordered (e : TxEntry) (l : List TxEntry) (h : l.Pairwise (fun a b => a.kind.cls ≤ b.kind.cls)) :
    (insertByClass e l).Pairwise (fun a b => a.kind.cls ≤ b.kind.cls) := by
  induction l with
  | nil => simp [insertByClass]
  | cons x xs ih =>
    rw [List.pairwise_cons] at h
    unfold insertByClass
    split
    · rename_i hx
      rw [List.pairwise_cons]
      refine ⟨fun y hy => ?_, ih h.2⟩
      rcases (mem_insertByClass e y xs).1 hy with rfl | hy
      · exact hx
      · exact h.1 y hy
    · rename_i hx
      rw [List.pairwise_cons, List.pairwise_cons]
      refine ⟨fun y hy => ?_, h⟩
      rcases List.mem_cons.1 hy with rfl | hy
      · omega
      · have := h.1 y hy; omega

/-- With a free place a telegram enters the queue in its place by class (R210). -/
theorem queueTx_free (e : TxEntry) (s : State) (h : s.bus.tx.length < 8) :
    queueTx e s = setTx (insertByClass e s.bus.tx) s := by
  unfold queueTx; rw [if_pos h]

/-! ## Flags, holds and trips -/

/-- A condition set is set (R172). -/
@[simp] theorem raise_sets (c : Cond) (s : State) : c ∈ (raise c s).cond.flags := by
  unfold raise
  split
  · rename_i h; simpa [State.flagged] using h
  · dsimp only; split <;> simp [setFlags]

/-- A condition set leaves every other flag (R172). -/
theorem raise_others (c d : Cond) (h : d ≠ c) (s : State) : d ∈ (raise c s).cond.flags ↔ d ∈ s.cond.flags := by
  unfold raise
  split
  · exact Iff.rfl
  · dsimp only; split <;> simp [setFlags, h]

/-- A condition cleared is clear, and every other flag is as before (R172). -/
@[simp] theorem mem_fall (c d : Cond) (s : State) : d ∈ (fall c s).cond.flags ↔ d ≠ c ∧ d ∈ s.cond.flags := by
  simp [fall, setFlags]

/-- A level condition stands as its cause does (R173). -/
@[simp] theorem follow_iff (c : Cond) (b : Bool) (s : State) : c ∈ (follow c b s).cond.flags ↔ b = true := by
  cases b <;> simp [follow]

@[simp] theorem mem_setHold (h k : HoldCause) (s : State) : k ∈ (setHold h s).gov.holds ↔ k = h ∨ k ∈ s.gov.holds := by
  simp [setHold]

@[simp] theorem mem_clearHold (h k : HoldCause) (s : State) : k ∈ (clearHold h s).gov.holds ↔ k ≠ h ∧ k ∈ s.gov.holds := by
  simp [clearHold]

/-! ## The settling of a step and its end -/

/-- What the re-test of the open piece and the taking of one thing due keep, the settling of a step keeps (R2). -/
theorem settle_keeps (P : State → Prop) (hr : ∀ s, P s → P (retest s))
    (ht : ∀ s d, P s → s.due = some d → P (takeDue d s)) (s : State) (h : P s) : P (settle s) := by
  unfold settle
  generalize 16384 = n
  induction n generalizing s with
  | zero => exact h
  | succ n ih =>
    unfold settleLoop
    dsimp only
    split
    · exact hr s h
    · rename_i d hd
      exact ih _ (ht _ d (hr s h) hd)

/-- A command ends with its figures made again, or with an entry to ACTIVE and what that brings due (R181, R191). -/
theorem conclude_cases (s : State) :
    conclude s = refresh s ∧ (refresh s).activeDue = false ∨
    conclude s = refresh (settle (enterActive (refresh s))) ∧ (refresh s).activeDue = true := by
  unfold conclude
  dsimp only
  split <;> simp_all

end Sys2Proof.Machine
end

