-- ==== Sys2Proof/Tests/Slice0.lean ====
section
/-! SUPPORT. Tests of the model, and for every statement with hypotheses a theorem that shows states and operands meeting them.
Expected results come from the manual: its worked sequences and rules are named with each test. -/

open Sys2Proof Sys2Proof.Machine

namespace Sys2Proof.Tests

set_option maxRecDepth 100000

/-! ## Stations

Images of the four stations of the manual's line: UNWIND at address 1, PLEAT at 2, SETTER at 3, OUTFEED at 4, terminal 9. -/

def baseImage : Image :=
  { magic := 0x2D40, version := 3, address := 2, roleCode := 1, upstream := 1, downstream := 3, markOptions := 3,
    roster := 0b11110, terminals := 0b1000000000, scale1 := 65536, scale2 := 65536, exit := 9000, approach := 4000,
    sensor := 600, wBefore := 300, wAfter := 300, lineMax := 4000, aUp := 5, aDn := 10, aE := 4,
    scaling := List.replicate 8 { offset := 0, span := 4095 }, reportMask := 0xFFFFFFF }

def pleatImage : Image :=
  { baseImage with
    pleat := { knife := 2500, strokeTime := 80, actuatorRate := 2000, flatMax := 15000, lookAhead := 12000, lateTol := 30,
               filterCode := 1 } }

def unwindImage : Image :=
  { baseImage with
    address := 1, roleCode := 0, upstream := 0, downstream := 2, exit := 20000, approach := 0, sensor := 65535,
    wBefore := 0, wAfter := 0
    unwind := { punch := 1200, fMax := 80000, fillMin := 4000, fillNominal := 28000, fillSplice := 30000, kFill := 2000,
                unwindMax := 12000, aUnwind := 20, reserve := 25000, coreGuard := 5000, leaderLen := 3000,
                spliceLen := 4000, pasteTime := 600, edges := 5 } }

def setterImage : Image :=
  { baseImage with
    address := 3, roleCode := 2, upstream := 2, downstream := 4, exit := 40000, sensor := 1000
    setter := { entry := 13000, chamber := 25000, cell := 500, cells := 50, zones := 2, b1 := 30, tBase := 1000,
                parkSp := 1050, keepSp := 800, band := 20, parkTime := 5000, cutMargin := 100, cutOptions := 0,
                kp := 128, ki := 8, pMin := 100 } }

def outfeedImage : Image :=
  { baseImage with
    address := 4, roleCode := 3, upstream := 3, downstream := 0, exit := 6000, approach := 2500, sensor := 65535,
    wBefore := 0, wAfter := 0, outfeed := { cut := 4000, gateTime := 300, cutTime := 40 } }

theorem test_images_legal :
    pleatImage.legal = true ∧ unwindImage.legal = true ∧ setterImage.legal = true ∧ outfeedImage.legal = true := by decide

/-- The four peers of a running line. -/
def livePeers : List PeerEntry :=
  [{ liveness := .live, role := some .unwind, mode := some .active, ceiling := 3500, interval := 25 },
   { liveness := .live, role := some .pleat, mode := some .active, ceiling := 3400, interval := 25, ratio := some 8192 },
   { liveness := .live, role := some .setter, mode := some .active, ceiling := 3300, interval := 25 },
   { liveness := .live, role := some .outfeed, mode := some .active, ceiling := 3200, interval := 25 }] ++
    List.replicate 11 ({} : PeerEntry)

/-- A station of an image in a mode, alone on its line. -/
def station (i : Image) (m : Mode) : State :=
  { State.reset with
    loader := { mode := m, image := some i, lamp := .dark }
    gov := { driveEnable := m == .active || m == .standby, pulseTimer := some 25, vOp := 3000 }
    heat := { heatTimer := if i.roleCode = 2 then some 200 else none
              zones := if i.roleCode = 2 then [{}, {}] else []
              cells := if i.roleCode = 2 then List.replicate 50 {} else [] } }

/-- A station of an image in ACTIVE on a running line, its figures current. -/
def running (i : Image) : State := refresh ((station i .active).withPeers livePeers)

/-- A station of an image TRIPPED while it ran. -/
def tripped (i : Image) (speed : Nat) : State :=
  (station i .tripped).withGov
    { vA := speed, trips := [.peer], beforeTrip := some .active, pulseTimer := some 25,
      tripTimer := if speed = 0 then none else some 2000, driveEnable := decide (speed ≠ 0) }

/-- The state after a command. -/
def run (c : Instr) (s : State) : State :=
  match exec c s with
  | .next t => t
  | _ => s

/-- A telegram at the front of the receive queue. -/
def receive (k : Kind) (origin : Nat) (body : List Byte) (s : State) : State :=
  s.withBus { s.bus with rx := [{ kind := k, origin := origin, dest := 0, body := body, arrival := 0 }] }

/-- A telegram of a kind in transmission. -/
def sending (k : Kind) (body : List Byte) (s : State) : State :=
  s.withBus { s.bus with tx := [{ kind := k, dest := 0, body := body, inTransmission := true }] }

def panel (uid : Nat) (arrival : Word) (length : Nat) : Segment :=
  { uid := uid, seg := BitVec.ofNat 16 uid, kind := .panel, panelId := some (BitVec.ofNat 32 (100 + uid)), pattern := some 3,
    recipe := 5, lot := some 0x0142, length := length, arrival := arrival }

/-- Puts segments into the web map. -/
def holding (map : List Segment) (position : Nat) (s : State) : State :=
  s.withWeb { s.web with map := map, nextUid := 50, infeed := BitVec.ofNat 48 (position * 65536) }

/-- Pattern 3 of the worked sequences of chapter Pleat Patterns: steps A and B, F = 31,700 for 3 repeats. -/
def workedCopy : PatternCopy :=
  { leadIn := 1500, tail := 800,
    steps := [{ pitch := 250, depth := 200, blade := .right, count := 12 }, { pitch := 400, depth := 300, blade := .left, count := 2 }] }

/-- The running PLEAT with pattern 3 active. -/
def pleating : State :=
  (running pleatImage).withPattern { slots := (List.replicate 32 ({} : PatternSlot)).set 2 { active := some workedCopy, version := 1 } }

/-- A stroke in flight for the panel named 17, with its run open. -/
def stroking (limited : Bool) (count : Nat) : State :=
  (holding [{ panel 17 0 31700 with opened := true, ran := true }] 4000 pleating).withPattern
    { pleating.pattern with
      stroke := some { ref := (panel 17 0 0).ref, pleat := 0, blade := .right, start := 4000, limited := limited, timer := some 160 }
      limitCount := count
      run := some { ref := (panel 17 0 0).ref, panelId := some 117, slot := 3, nextPleat := 1,
                    bound := some { copy := workedCopy, version := 1, repeats := 3 } }
      depth := some 200 }

def roll : Roll := { lot := 0x0142, thickness := 300, core := 3000, circumference := 4210, verified := true, remaining := 22918 }

/-- The running UNWIND with a roll on arm 1. -/
def unwinding : State :=
  refresh ((running unwindImage).withRoll
    { (running unwindImage).roll with arm1 := { state := .active, roll := some roll }, flatCeiling := 12000, fillBase := 28000 })

def order : Order := { panelId := 500, pattern := 3, recipe := 5, lot := 0x0142, flat := 31700 }

/-! ## Commands that cannot exist -/

theorem test_illFormed_read_refused : wellFormed (.configurationReadComplete (some (List.replicate 127 0))) = false := by decide
theorem test_illFormed_long_read_refused :
    wellFormed (.configurationReadComplete (some (List.replicate 129 0))) = false := by decide
theorem test_illFormed_scan_refused : wellFormed (.sensorScanComplete (List.replicate 7 0)) = false := by decide
theorem test_illFormed_long_scan_refused : wellFormed (.sensorScanComplete (List.replicate 9 0)) = false := by decide
theorem test_illFormed_late_refused : wellFormed (.peerEntryLate 0) = false := by decide
theorem test_illFormed_lost_refused : wellFormed (.peerEntryLost 16) = false := by decide
theorem test_illFormed_faults : exec (.peerEntryLost 16) State.reset = .fault .illFormedCommand := rfl

/-! ## The opcode table gives no bits -/

theorem test_no_word_spells_a_command : decodeTableWord 0 0 = none ∧ decodeTableWord 32 0xFFFFFFFF = none := by decide
theorem test_fetch_word_leaves_the_queue : (State.reset.withFetchWord 8 1).pending = [] := by decide

/-! ## Encodings (chapters The Line Bus, Telegram Reference) -/

/-- The two headers worked under R199. -/
theorem test_headers :
    headerNumber { kind := .handoff, origin := 2, dest := 3, body := [] } = 0x2423 ∧
    headerNumber { kind := .linePulse, origin := 3, dest := 0, body := [] } = 0x4630 := by decide

/-- The fragment worked at the end of chapter Telegram Reference: 18 bytes, control byte 0x28, depth and blade 0x80C8. -/
def workedFragment : List Byte :=
  [41, 3, 0x28, 0x05, 0xDC, 0x03, 0x20, 2, 0x00, 0xFA, 0x80, 0xC8, 12, 0x01, 0x90, 0x01, 0x2C, 2]

theorem test_fragment_admitted :
    lengthAdmitted .patternFragment workedFragment = true ∧
    lengthAdmitted .patternFragment (workedFragment ++ [0, 0, 0, 0, 0]) = false := by decide

theorem test_fragment_commits_worked_copy :
    ((run .patternFragment (receive .patternFragment 9 workedFragment (running pleatImage))).slot 3).active = some workedCopy := by
  decide

theorem test_frame_read_back :
    readFrame (frameBits { kind := .speedSet, origin := 9, dest := 0, body := [0x0A, 0x28] }) =
      some { kind := .speedSet, origin := 9, dest := 0, body := [0x0A, 0x28] } := by decide

/-- Seven equal bits are a stuff violation (R198, R204). -/
theorem test_seven_equal_bits_refused : readFrame (List.replicate 40 false) = none := by decide

/-! ## Figures of the worked sequences -/

/-- F, P and strokes of panel 0x00005A21 (R59 and the worked sequences). -/
theorem test_measure_worked : workedCopy.flat 3 = 31700 ∧ workedCopy.pleated 3 = 13700 ∧ workedCopy.strokes 3 = 42 := by decide

/-- L_rem as worked under R104. -/
theorem test_remaining_length : remainingLength 12000 3000 300 = 358098 ∧ remainingLength 4200 3000 300 = 22918 := by decide

/-- The look-ahead at the run start of the worked panel: contribution 1923 and ratio 10650 (R74 to R76). -/
theorem test_pleat_ceiling_worked :
    let s := (stroking false 0).withPattern { (stroking false 0).pattern with
      run := (stroking false 0).pattern.run.map (fun r => { r with nextPleat := 0 }) }
    let at0 := holding [{ panel 17 0 31700 with ran := true }] 2500 s
    at0.patternCeiling = some 1923 ∧ at0.advertisedRatio = 10650 := by decide

/-- The control boundaries of the worked sequence of R137: integrals 423, 436, 433, outputs 477, 646, 373. -/
theorem test_heat_control_worked :
    let z1 := Zone.control { sp := 1300, spEff := 1217, integral := 420, output := 470 } 128 8 1190
    let z2 := Zone.control { z1 with spEff := 1300 } 128 8 1195
    let z3 := Zone.control z2 128 8 1330
    [z1, z2, z3].map Zone.integral = [423, 436, 433] ∧ [z1, z2, z3].map Zone.output = [477, 646, 373] := by decide

/-- The gap of 6 dmm between segments 16 and 17 is closed by extending 16 to 5,986 (R6 and its worked sequence). -/
theorem test_gap_closed : ((panel 16 877000 5980).adjustTo 882986).length = 5986 := by decide

/-- A gap of 25 dmm stays (R6 and its worked sequence). -/
theorem test_wide_gap_stays : (panel 16 877000 5986).adjustTo 883011 = panel 16 877000 5986 := by decide

/-- The mark of panel 17 at 883,611 corrects it to arrival 883,011 (R17 and its worked sequence). -/
theorem test_registration_corrects :
    let s := (holding [{ panel 17 882986 31700 with opened := true }] 883631 pleating)
    let t := acceptMark 883611 (s.withWeb { s.web with window := some (panel 17 0 0).ref, missCount := 1 })
    t.web.map.map Segment.arrival = [883011] ∧ t.web.missCount = 0 := by decide

/-! ## Single steps -/

/-- The window of panel 17 at its closing point, the candidate mark inside it still filtered. -/
def closingWindow (position : Nat) (closing : Bool) : State :=
  let s := holding [{ panel 17 882986 31700 with opened := true }] position pleating
  (s.withWeb { s.web with window := some (panel 17 0 0).ref, candidate := some 883880, closing := closing }).withPins { markHigh := true }

/-- The closing point reached with a candidate inside the window: the closing waits, and the discard of the candidate is the miss, though
the web has travelled back behind the closing point (R16, R19). -/
theorem test_closing_waits_for_candidate :
    ((run (.encoderEdge .encoder1 true) (closingWindow 883885 false)).web.closing = true ∧
      (run (.encoderEdge .encoder1 true) (closingWindow 883885 false)).web.window.isSome = true) ∧
    ((run (.markInput false) (closingWindow 883880 true)).web.window = none ∧
      (run (.markInput false) (closingWindow 883880 true)).web.missCount = 1) := by decide

/-- With cut_margin 40 and SP 1300 a cut zone is restored in CYCLE mode at 1310 and stays cut at 1311 (R140 and its figures). -/
theorem test_cut_zone_restored :
    let image := { setterImage with setter := { setterImage.setter with cutMargin := 40 } }
    let s (temp : Int) := (running image).withHeat { (running image).heat with
      channels := (List.replicate 8 {}).set 1 { value := some temp }, zones := [{}, { sp := 1300, cut := true }] }
    ((run .heatControlBoundary (s 1310)).zone 1).cut = false ∧ ((run .heatControlBoundary (s 1311)).zone 1).cut = true := by decide

/-- A full transmit queue: the new pulse takes the place of the waiting one (worked sequence of R210 to R212). -/
theorem test_pulse_replaces_waiting :
    let e (k : Kind) : TxEntry := { kind := k, dest := 0, body := [] }
    let s := (running pleatImage).withBus { tx := [{ e .handoff with inTransmission := true }, e .linePulse, e .orderMeasure,
      e .orderMeasure, e .orderMeasure, e .orderMeasure, e .conditionNotice, e .conditionNotice] }
    ((run .pulseTimerExpiry s).bus.tx.map TxEntry.kind) = s.bus.tx.map TxEntry.kind ∧
      (run .pulseTimerExpiry s).gov.sequence = 1 := by decide

/-- A HANDOFF displaces the newest waiting telegram of the highest class (worked sequence of R210 to R212). -/
theorem test_handoff_displaces_notice :
    let e (k : Kind) : TxEntry := { kind := k, dest := 0, body := [] }
    let s := (running pleatImage).withBus { tx := [{ e .handoff with inTransmission := true }, e .linePulse, e .orderMeasure,
      e .orderMeasure, e .orderMeasure, e .orderMeasure, e .orderMeasure, e .conditionNotice] }
    ((queueTx (e .handoff) s).bus.tx.map TxEntry.kind) = [.handoff, .handoff, .linePulse, .orderMeasure, .orderMeasure,
      .orderMeasure, .orderMeasure, .orderMeasure] ∧ (queueTx (e .handoff) s).cond.link.notice = .pending := by decide

/-- The ramp adds a_up and stops at the target (R38 and its worked sequence). -/
theorem test_ramp_reaches_target :
    let s := running outfeedImage
    (run (.rampUpdate true true false) (s.withGov { s.gov with vA := 2998 })).gov.vA = 3000 := by decide

/-- In TRIPPED the ramp subtracts a_e, and the last update clears drive enable and stops the trip timer (R38, R44). -/
theorem test_trip_ramp_ends :
    (run (.rampUpdate true true false) (tripped outfeedImage 3)).gov.vA = 0 ∧
    (run (.rampUpdate true true false) (tripped outfeedImage 3)).gov.driveEnable = false := by decide

/-- SPEED SET 6000 is loaded and 6001 is not (R32). -/
theorem test_speed_set_limit :
    (run .speedSet (receive .speedSet 9 [0x17, 0x70] (running outfeedImage))).gov.vOp = 6000 ∧
    (run .speedSet (receive .speedSet 9 [0x17, 0x71] (running outfeedImage))).gov.vOp = 3000 := by decide

/-- A TRIP CLEAR on a line that still moves is ignored, and at standstill returns to ACTIVE (R46 and its worked sequence). -/
theorem test_trip_clear_at_standstill :
    (run .tripClear (receive .tripClear 9 [] (tripped outfeedImage 883))).mode = .tripped ∧
    (run .tripClear (receive .tripClear 9 [] (tripped outfeedImage 0))).mode = .active := by decide

/-- The third limited stroke in a row trips (R70). -/
theorem test_third_limited_stroke_trips :
    TripCause.knifeJam ∈ (run (.currentLimitDetection 1000) (stroking false 2)).gov.trips := by decide

/-- A stray sample of 8,410 is discarded, one of 4,200 accepted, for a verified roll with C = 4,210 (R103). -/
theorem test_revolution_samples :
    let s (position : Nat) := (unwinding.withWeb { unwinding.web with infeed := BitVec.ofNat 48 (position * 65536) }).withRoll
      { unwinding.roll with arm1 := { state := .active, roll := some roll, mark := some 0 } }
    ((run (.revolutionPulse .arm1 true) (s 4200)).roll.arm1.roll.map Roll.circumference) = some 4200 ∧
    ((run (.revolutionPulse .arm1 true) (s 8410)).roll.arm1.roll.map Roll.circumference) = some 4210 := by decide

/-- A HANDOFF begun 14 dmm after its exit point carries that overshoot (R9 and its worked sequence). -/
theorem test_overshoot_stamped :
    let s := (running pleatImage).withWeb { (running pleatImage).web with infeed := BitVec.ofNat 48 (1302014 * 65536) }
    let e : TxEntry := { kind := .handoff, dest := 2, body := handoffBody (panel 17 0 31700) 31700 false false, exitPoint := 1302000 }
    ((run .transmissionBegin (s.withBus { tx := [e] })).bus.tx.map (fun x => fieldAt x.body 20 2)) = [14] := by decide

/-- The frame driven carries the own address, 2, as its origin (R199). -/
theorem test_frame_carries_own_address :
    let s := (running pleatImage).withBus { tx := [{ kind := .trip, dest := 0, body := [1] }] }
    (run .transmissionBegin s).outputs.frame = some (false :: frameBits { kind := .trip, origin := 2, dest := 0, body := [1] }) := by
  decide

/-- A sixteenth sender fault gives BUS_OFF and starts the recovery timer at 500 ms (R203 and its worked sequence). -/
theorem test_sixteenth_fault :
    let s := sending .doseVerdict [] (running pleatImage)
    let t := run .senderFault (s.withBus { s.bus with faultCount := 15 })
    t.bus.off = true ∧ t.bus.recovery = some 500 ∧ HoldCause.busOff ∈ t.gov.holds := by decide

/-- A peer entry becomes LATE at the 51st millisecond and LOST at the 101st, at interval 25 (R29 and its worked sequence). -/
theorem test_peer_ages :
    let s (age : Nat) (l : Liveness) := (running pleatImage).withPeers
      (livePeers.set 2 { liveness := l, role := some .setter, mode := some .active, ceiling := 3300, interval := 25, age := age })
    ((run (.rampUpdate true true false) (s 49 .live)).peer 3).liveness = .live ∧
    ((run (.rampUpdate true true false) (s 50 .live)).peer 3).liveness = .late ∧
    ((run (.rampUpdate true true false) (s 100 .late)).peer 3).liveness = .lost := by decide

/-! ## Witnesses

For every statement with hypotheses, states and operands that meet them. -/

theorem quiet_of_active {s : State} (h : s.mode = .active) : s.quiet := Or.inl (Or.inl h)

/-- A state with one command waiting. -/
def waiting (c : Instr) (s : State) : State := s.withPending [c]

theorem witness_StepRunsFrontCommand :
    (State.reset.withPending [.hold, .release]).pending = .hold :: [.release] ∧ State.reset.pending = [] := by decide

theorem witness_CommandsAnswerWithinBounds :
    (wellFormed (.peerEntryLate 1) = true ∧ wellFormed (.peerEntryLate 15) = true ∧ wellFormed .hold = true) ∧
    (wellFormed (.peerEntryLate 0) = false ∧ wellFormed (.peerEntryLate 16) = false) ∧ ¬ bringsLevel .hold :=
  ⟨by decide, by decide, by simp [bringsLevel]⟩

/-- Running, and ramping down in TRIPPED. -/
theorem witness_SpeedInvariantKept :
    let s := waiting (.rampUpdate true true false) (running outfeedImage)
    let u := waiting (.rampUpdate true true false) (tripped outfeedImage 3)
    (SpeedSafe s ∧ ∃ t, step s = .next t) ∧ SpeedSafe u ∧ ∃ t, step u = .next t :=
  ⟨⟨⟨by decide, by decide, by decide, by decide, by decide, by decide, by decide⟩, _, rfl⟩,
    ⟨by decide, by decide, by decide, by decide, by decide, by decide, by decide⟩, _, rfl⟩

/-- With a stroke in flight in ACTIVE, and at rest in JOINING. -/
theorem witness_MotionInvariantKept :
    let s := waiting .strokeComplete (stroking false 0)
    let u := waiting .pulseTimerExpiry (station pleatImage .joining)
    (SpeedSafe s ∧ MotionSafe s ∧ ∃ t, step s = .next t) ∧ SpeedSafe u ∧ MotionSafe u ∧ ∃ t, step u = .next t :=
  ⟨⟨⟨by decide, by decide, by decide, by decide, by decide, by decide, by decide⟩,
      ⟨by decide, by decide, by decide, by decide, by decide, by decide⟩, _, rfl⟩,
    ⟨by decide, by decide, by decide, by decide, by decide, by decide, by decide⟩,
      ⟨by decide, by decide, by decide, by decide, by decide, by decide⟩, _, rfl⟩

theorem witness_TimerInvariantKept :
    let s := waiting .heatControlBoundary (running setterImage)
    TimerSafe s ∧ ∃ t, step s = .next t :=
  ⟨⟨by decide, by decide, by decide, by decide, by decide, by decide, by decide, by decide, by decide, by decide, by decide,
    by decide⟩, _, rfl⟩

/-- The judgement entry of the panel named 17, its least dose 5. -/
def judging (closed : Bool) : Judgement :=
  { ref := (panel 17 0 0).ref, closed := closed, underFlag := true, overFlag := false, unjudged := false, least := 5,
    greatest := 5, peak := none }

/-- A stroking PLEAT with a full transmit queue; and a SETTER of two zones and 50 cells with a PANEL it judges. -/
theorem witness_CapacityInvariantKept :
    let e (k : Kind) : TxEntry := { kind := k, dest := 0, body := [] }
    let s := waiting .pulseTimerExpiry ((stroking false 0).withBus { tx := [{ e .handoff with inTransmission := true },
      e .linePulse, e .orderMeasure, e .orderMeasure, e .orderMeasure, e .orderMeasure, e .conditionNotice, e .conditionNotice] })
    let h := holding [panel 17 0 13700] 40000 (running setterImage)
    let u := h.withHeat { h.heat with judgements := [judging false] }
    (ImageSafe s ∧ CapacitySafe s ∧ ∃ t, step s = .next t) ∧ HeatTablesFit u ∧ u.heat.zones.length = 2 ∧ u.heat.cells.length = 50 :=
  ⟨⟨⟨fun i h => by cases h; decide, by decide⟩,
    ⟨by decide, by decide, ⟨by decide, by decide, by decide, by decide⟩, by decide, by decide, by decide, by decide, by decide,
      ⟨by decide, by decide, by decide, by decide, by decide, by decide⟩, by decide,
      ⟨by decide, by decide, by decide, by decide⟩, by decide, by decide, by decide,
      ⟨by decide, by decide, by decide, by decide, by decide, by decide, by decide⟩, by decide, by decide⟩, _, rfl⟩,
    ⟨by decide, by decide, by decide, by decide, by decide, by decide, by decide⟩, by decide, by decide⟩

/-- The UNWIND with an order queued and a PANEL of another id held. -/
def ordered : State := (holding [panel 17 0 31700] 100 unwinding).withOrder { queue := [order] }

theorem witness_OrderInvariantKept :
    OrderSafe (waiting .hold ordered) ∧ ∃ t, step (waiting .hold ordered) = .next t :=
  ⟨⟨by decide, by decide, by decide⟩, _, rfl⟩

theorem witness_ImageInvariantKept :
    let s := waiting .pulseTimerExpiry (running pleatImage)
    ImageSafe s ∧ ∃ t, step s = .next t :=
  ⟨⟨fun i h => by cases h; decide, by decide⟩, _, rfl⟩

/-- A verdict taken by a PLEAT that holds its panel. -/
theorem witness_SegmentMarksOnlyGrow :
    let s := receive .doseVerdict 3 [0, 17, 0, 0, 0, 117, 0] (holding [panel 17 0 31700] 100 (running pleatImage))
    s.operating = true ∧ RecordsNamed s ∧ exec .doseVerdict s = .next (run .doseVerdict s) ∧
    panel 17 0 31700 ∈ s.web.map ∧ ∃ h ∈ (run .doseVerdict s).web.map, h.uid = 17 :=
  ⟨by decide, ⟨by decide, by decide⟩, rfl, by decide, by decide⟩

theorem witness_FiguresStayCurrent :
    FiguresCurrent (waiting .strokeComplete (running setterImage)) ∧
      ∃ t, step (waiting .strokeComplete (running setterImage)) = .next t :=
  ⟨⟨by decide, by decide, by decide⟩, _, rfl⟩

/-- A running PLEAT, the units of the three other roles idle. -/
theorem witness_IdleUnitsStayIdle :
    IdleSafe (waiting .pulseTimerExpiry pleating) ∧ ∃ t, step (waiting .pulseTimerExpiry pleating) = .next t :=
  ⟨⟨by decide, by decide, by decide, by decide, by decide⟩, _, rfl⟩

/-- A running line; and a HOLD, a trip, a silent peer and a line of two PLEATs. -/
theorem witness_TargetSpeedLaw :
    let s := waiting .pulseTimerExpiry (running outfeedImage)
    let t := run .pulseTimerExpiry (running outfeedImage)
    let held := run .hold (receive .hold 9 [] (running outfeedImage))
    let stopped := run (.estopInput true) (running outfeedImage)
    let silent := refresh ((running outfeedImage).withPeers (livePeers.set 0 {}))
    let doubled := refresh ((running outfeedImage).withPeers
      (livePeers.set 0 { liveness := .live, role := some .pleat, mode := some .active, ceiling := 3500, interval := 25 }))
    FiguresCurrent s ∧ step s = .next t ∧
    (t.mode = .active ∧ t.holdKnown = false ∧
      (∀ a ∈ t.rosterOthers, ((t.peer a).liveness = .live ∨ (t.peer a).liveness = .late) ∧ (t.peer a).mode = some .active) ∧
      t.compositionValid = true ∧ t.gov.vT = 3000) ∧
    held.holdKnown = true ∧ stopped.mode ≠ .active ∧ (∃ a ∈ silent.rosterOthers, (silent.peer a).liveness = .unknown) ∧
    doubled.compositionValid = false :=
  ⟨⟨by decide, by decide, by decide⟩, rfl, by decide, by decide, by decide, by decide, by decide⟩

theorem witness_RestartCauseLaw :
    let s := receive .restart 9 [] (running outfeedImage)
    (∃ t, exec .powerOnReset s = .next t) ∧ (∃ t, exec .restart s = .next t) ∧
    s.operating = true ∧ s.gov.vA = 0 ∧
    ∃ e rest, s.bus.rx = e :: rest ∧ e.kind = .restart :=
  ⟨⟨_, rfl⟩, ⟨_, rfl⟩, by decide, by decide, _, _, rfl, rfl⟩

/-- The shortest and the longest body, at the highest addresses. -/
theorem witness_FrameRoundTrip :
    (lengthAdmitted .restart [] = true ∧ 15 < 16) ∧
    (let b : List Byte := [41, 3, 0x48, 0, 0, 0, 0, 4] ++ List.replicate 20 1
     lengthAdmitted .patternFragment b = true ∧ b.length ≤ 28) := by decide

theorem witness_BodiesReadBack :
    (pleating.operating = true ∧ pleating.role.isSome = true ∧ pleating.cfg.lineMax ≤ 6000 ∧
      (pleating.is .pleat = true → pleating.advertisedRatio ≤ 20480)) ∧
    (let g := panel 17 0 31700
     4294967295 < 4294967296 ∧ g.recipe ≤ 16 ∧ g.kind = .panel ∧ g.panelId.isSome = true ∧ g.lot.isSome = true ∧
       g.pattern = some 3 ∧ g.setters.getLsbD 0 = false) := by decide

/-- The PLEAT's image as its 128 bytes. -/
def pleatRecord : List Byte :=
  [0x2D, 0x40, 3, 2, 1, 1, 3, 3, 0, 0x1E, 2, 0, 0, 1, 0, 0, 0, 1, 0, 0, 0, 0, 0x23, 0x28, 0, 0, 0x0F, 0xA0,
    0x02, 0x58, 0x01, 0x2C, 0x01, 0x2C, 0x0F, 0xA0, 5, 10, 4] ++ List.replicate 32 0 ++ [0x0F, 0xFF, 0xFF, 0xFF] ++
  [0, 0, 0x09, 0xC4, 0, 80, 0x07, 0xD0, 0x3A, 0x98, 0, 0, 0x2E, 0xE0, 0, 30, 1] ++ List.replicate 34 0

/-- The record with the sum that its check wants. -/
def summed (b : List Byte) : List Byte := b ++ bytesOf 2 (65535 - recordSum (b ++ [0, 0]))

theorem witness_RecordByteChangeCaught :
    let b := summed pleatRecord
    b.length = 128 ∧ (∃ i, checkRecord b = .passes i) ∧ b[0]? ≠ some 0 ∧ b[127]? ≠ some 0 :=
  ⟨by decide, ⟨readImage (summed pleatRecord), by decide⟩, by decide, by decide⟩

theorem witness_MeasureFigures :
    let c : PatternCopy := { leadIn := 20000, tail := 20000, steps := List.replicate 24 { pitch := 1000, depth := 2000, blade := .left, count := 255 } }
    c.leadIn ≤ 20000 ∧ c.tail ≤ 20000 ∧ c.steps.length ≤ 24 ∧ (∀ p ∈ c.steps, p.inRange = true) ∧ 99 ≤ 99 := by decide

/-- The window of panel 17 of the worked sequence: inside at its two ends, outside one past them; one due to open. -/
theorem witness_StrayMarksMoveNothing :
    let s := (holding [panel 17 882986 31700] 883286 pleating)
    let o := s.withWeb { s.web with window := some (panel 17 0 0).ref }
    (o.windowOf 883286).isSome = true ∧ (o.windowOf 883886).isSome = true ∧ o.windowOf 883285 = none ∧
    o.windowOf 883887 = none ∧ s.web.window = none ∧ s.dueWindow = some (.openWindow (panel 17 882986 31700)) := by decide

/-- The OUTFEED with a panel at the cut line. -/
def cutting (joined : Bool) : State :=
  (holding [panel 17 0 13700] 5000 (running outfeedImage)).withOutfeed
    { piece := some { content := .seg (panel 17 0 0).ref, required := .pass, joined := joined, skip := false, decision := none,
                      met := true }
      gate := .resting .pass }

theorem witness_PanelCountsFollowOutcomes :
    (cutting true).bus.tx.length < 8 ∧ (∃ t, exec .powerOnReset (cutting true) = .next t) ∧
    (running outfeedImage).outfeed.piece = none ∧
    (∃ p, (cutting true).outfeed.piece = some p ∧ p.joined = true ∧ (cutting true).contentPanel p.content = some (panel 17 0 13700)) :=
  ⟨by decide, ⟨_, rfl⟩, by decide, ⟨_, rfl, rfl, by decide⟩⟩

theorem witness_SteamLowFollowsScan :
    (List.replicate 8 (99 : BitVec 12)).length = 8 ∧ (running setterImage).operating = true ∧
    (running setterImage).is .setter = true := by decide

/-- Each case of the ramp, and a speed that rises within the safe states. -/
theorem witness_RampLaw :
    let s := running outfeedImage
    (State.reset.operating = false ∧ s.operating = true ∧ (tripped outfeedImage 3).mode = .tripped) ∧
    (s.mode ≠ .tripped ∧ s.gov.vA < s.gov.vT) ∧
    (let d := s.withGov { s.gov with vA := 3001 }
     d.mode ≠ .tripped ∧ d.gov.vT < d.gov.vA) ∧
    (let e := s.withGov { s.gov with vA := 3000 }
     e.mode ≠ .tripped ∧ e.gov.vA = e.gov.vT) ∧
    s.gov.vA < (run (.rampUpdate true true false) s).gov.vA := by decide

theorem witness_PeersAgeAndAreHeard :
    let s (age : Nat) (l : Liveness) := (running pleatImage).withPeers
      (livePeers.set 2 { liveness := l, role := some .setter, mode := some .active, ceiling := 3300, interval := 25, age := age })
    let pulse := receive .linePulse 3 (pulseBody (running setterImage)) (running pleatImage)
    ((s 49 .live).operating = true ∧ (s 49 .live).peers.length = 15 ∧ ((s 49 .live).peer 15).liveness = .unknown) ∧
    ((s 51 .live).peer 3).liveness = .live ∧ 2 * ((s 51 .live).peer 3).interval < ((s 51 .live).peer 3).age ∧
    (((s 101 .late).peer 3).liveness = .late ∧ 4 * ((s 101 .late).peer 3).interval < ((s 101 .late).peer 3).age) ∧
    ((s 101 .lost).peer 3).liveness = .lost ∧
    (∃ e rest, pulse.bus.rx = e :: rest ∧ e.kind = .linePulse ∧ inMask pulse.cfg.roster e.origin = true ∧
      e.origin ≠ pulse.cfg.address ∧ (readPulse e.body).isSome = true) :=
  ⟨by decide, by decide, by decide, by decide, by decide, _, _, rfl, by decide, by decide, by decide, by decide⟩

/-- The pulse timer of a station that runs; JOINING with a peer never heard, and with all heard; TRIPPED and moving. -/
theorem witness_StationTimers :
    let j (l : List PeerEntry) := ((station pleatImage .joining).withPeers l).withLoader
      { (station pleatImage .joining).loader with joinTimer := some 1 }
    let late := List.replicate 15 ({ liveness := .late } : PeerEntry)
    ((running pleatImage).operating = true ∧ (running pleatImage).gov.pulseTimer.isSome = true ∧
      (running pleatImage).bus.tx.length < 8) ∧ (running pleatImage).quiet ∧
    ((j emptyPeers).mode = .joining ∧ (j emptyPeers).joinReady = false ∧ (j emptyPeers).loader.joinTimer.isSome = true ∧
      ∃ a ∈ (j emptyPeers).rosterOthers, ((j emptyPeers).peer a).liveness = .unknown) ∧
    ((j late).joinReady = false ∧ ∀ a ∈ (j late).rosterOthers, ((j late).peer a).liveness ≠ .unknown) ∧
    ((tripped pleatImage 3).mode = .tripped ∧ (tripped pleatImage 3).gov.tripTimer.isSome = true) :=
  ⟨by decide, quiet_of_active rfl, by decide, by decide, by decide⟩

theorem witness_EstopTrips :
    ((running pleatImage).operating = true ∧ (running pleatImage).pins.estop = false ∧ (running pleatImage).mode ≠ .tripped ∧
      (running pleatImage).gov.vA = 0 ∧ (running pleatImage).bus.tx.length < 8) ∧
    ((tripped pleatImage 3).operating = true ∧ (tripped pleatImage 3).pins.estop = false ∧ (tripped pleatImage 3).mode = .tripped) ∧
    ((tripped pleatImage 3).withPins { estop := true }).pins.estop = true ∧ State.reset.operating = false := by decide

theorem witness_TripLatchTrips :
    let l := (running pleatImage).withBus { latchRoster := true, latchTerminal := true }
    (l.operating = true ∧ l.bus.latchRoster = true ∧ l.bus.latchTerminal = true ∧ l.mode ≠ .tripped) ∧
    ((tripped pleatImage 3).withBus { latchRoster := true }).mode = .tripped ∧
    ((running pleatImage).bus.latchRoster = false ∧ (running pleatImage).bus.latchTerminal = false) ∧
    (running pleatImage).steady :=
  ⟨by decide, by decide, by decide, Or.inl rfl⟩

/-- At standstill from ACTIVE and from JOINING; and on a line that moves. -/
theorem witness_TripClearReturns :
    let j := (tripped pleatImage 0).withGov { (tripped pleatImage 0).gov with beforeTrip := some .joining }
    let s := receive .tripClear 9 [] (tripped pleatImage 0)
    (s.operating = true ∧ s.mode = .tripped ∧ s.gov.vA = 0 ∧ s.pins.estop = false ∧ TripCause.dupAddress ∉ s.gov.trips ∧
      s.gov.beforeTrip ≠ some .joining) ∧
    (j.gov.beforeTrip = some .joining ∧ ∃ a ∈ j.rosterOthers, (j.peer a).liveness ≠ .live) ∧
    (0 < (tripped pleatImage 1).gov.vA ∧ (tripped pleatImage 1).operating = true) ∧ (tripped pleatImage 1).steady :=
  ⟨by decide, by decide, by decide, Or.inr (Or.inl rfl)⟩

theorem witness_HoldReleaseAndSpeedSet :
    ((receive .hold 9 [] (running pleatImage)).operating = true ∧ (receive .hold 9 [] (running pleatImage)).quiet) ∧
    (∃ e rest, (receive .hold 9 [] (running pleatImage)).bus.rx = e :: rest ∧ e.kind = .hold) ∧
    (∃ e rest, (receive .release 9 [] (running pleatImage)).bus.rx = e :: rest ∧ e.kind = .release) ∧
    (∃ e rest, (receive .speedSet 9 [0x17, 0x70] (running pleatImage)).bus.rx = e :: rest ∧ e.kind = .speedSet ∧
      fieldAt e.body 0 2 = 6000) :=
  ⟨⟨by decide, quiet_of_active rfl⟩, ⟨_, _, rfl, rfl⟩, ⟨_, _, rfl, rfl⟩, _, _, rfl, rfl, by decide⟩

/-- The UNWIND one dmm above a raw fill of 0, and a PLEAT. -/
theorem witness_EncoderEdgeCounts :
    let low := unwinding.withRoll { unwinding.roll with fillBase := 1 }
    (low.operating = true ∧ low.is .unwind = true ∧ low.rawFill = 1 ∧ (run (.encoderEdge .encoder2 true) low).rawFill = 0) ∧
    (running pleatImage).is .unwind = false ∧ 0 < (run (.encoderEdge .encoder1 true) low).rawFill := by decide

theorem witness_MarkInputAndRegLost :
    let high := (running pleatImage).withPins { markHigh := true }
    let missed := (running pleatImage).withWeb { (running pleatImage).web with missCount := 2 }
    ((running pleatImage).hasMark = true ∧ (running pleatImage).cfg.markActive (running pleatImage).pins.markHigh = false ∧
      (running pleatImage).cfg.markActive true = true) ∧
    (high.cfg.markActive high.pins.markHigh = true ∧ high.cfg.markActive false = false) ∧
    (running unwindImage).hasMark = false ∧
    (missed.operating = true ∧ 2 ≤ missed.web.missCount ∧ HoldCause.regLost ∉ missed.gov.holds) ∧ missed.steady ∧
    (running pleatImage).web.missCount < 2 :=
  ⟨by decide, by decide, by decide, by decide, Or.inl rfl, by decide⟩

/-- From upstream into a map with places and into a full one, out of sequence, and from elsewhere. -/
theorem witness_HandoffReceived :
    let body := handoffBody (panel 17 0 31700) 31700 false false
    let s := receive .handoff 1 body ((running pleatImage).withWeb { (running pleatImage).web with expected := some 5 })
    let full := receive .handoff 1 body (holding (List.replicate 48 {}) 100 (running pleatImage))
    (s.operating = true ∧ s.is .unwind = false ∧ s.web.map.length < 48 ∧ 48 ≤ full.web.map.length) ∧ s.steady ∧
    (∃ e rest, s.bus.rx = e :: rest ∧ e.kind = .handoff ∧ e.origin = s.cfg.upstream ∧
      s.web.expected = some 5 ∧ (5 : Half) ≠ BitVec.ofNat 16 (fieldAt e.body 0 2) ∧ (fieldAt e.body 15 1).testBit 2 = false) ∧
    (∃ e rest, (receive .handoff 9 body (running pleatImage)).bus.rx = e :: rest ∧ e.kind = .handoff ∧
      e.origin ≠ (receive .handoff 9 body (running pleatImage)).cfg.upstream) :=
  ⟨by decide, Or.inl rfl, ⟨_, _, rfl, by decide, by decide, by decide, by decide, by decide⟩,
    _, _, rfl, by decide, by decide⟩

/-- Panel 16 and, 6 dmm behind it, panel 17 with its capture window open. -/
def marked : State :=
  let s := holding [panel 16 877000 5980, { panel 17 882986 31700 with opened := true }] 883900 pleating
  s.withWeb { s.web with window := some (panel 17 0 0).ref }

/-- A map in order, a segment placed behind it, and a mark at either end of a window. -/
theorem witness_MarkCorrection :
    MapOrdered marked.web.map ∧ RecordsNamed marked ∧
    (∀ h ∈ marked.web.map, ((914686 : Word) - h.arrival).toNat + 13700 < 2147483648) ∧
    ((marked.windowOf 883286).isSome = true ∧ (marked.windowOf 883886).isSome = true ∧
      marked.cfg.wBefore + marked.cfg.wAfter < 1000) ∧
    ((882986 : Word) - 300 - 877000).toNat + 31700 < 2147483648 ∧
    ((882986 : Word) + 300 - 877000).toNat + 31700 < 2147483648 :=
  ⟨⟨by decide, by decide⟩, ⟨by decide, by decide⟩, by decide, by decide, by decide, by decide⟩

/-- Overlaps of 21 and 20, a gap of 20 and of 21, and none. -/
theorem witness_PlacementRule :
    let a := panel 16 877000 5980
    RecordsNamed (holding [a] 879000 (running pleatImage)) ∧
    signedDiff a.trail 882959 = 21 ∧ signedDiff a.trail 882960 = 20 ∧ signedDiff a.trail 883000 = -20 ∧
    signedDiff a.trail 883001 = -21 ∧ signedDiff a.trail 882980 = 0 ∧ ({ a with kind := .leader } : Segment).kind ≠ .panel :=
  ⟨⟨by decide, by decide⟩, by decide, by decide, by decide, by decide, by decide, by decide⟩

theorem witness_VerdictAndCancel :
    let v := receive .doseVerdict 3 [0, 17, 0, 0, 0, 117, 0] (holding [panel 17 0 31700] 100 (running pleatImage))
    let c := receive .cancel 9 [0, 0, 0, 117] (holding [panel 17 0 31700] 100 (running pleatImage))
    (v.operating = true ∧ ∃ e rest, v.bus.rx = e :: rest ∧ e.kind = .doseVerdict) ∧ v.steady ∧
    (c.operating = true ∧ ∃ e rest, c.bus.rx = e :: rest ∧ e.kind = .cancel) ∧ RecordsNamed c ∧
    (receive .cancel 9 [0, 0, 1, 244] ordered).is .unwind = true ∧ c.is .unwind = false :=
  ⟨⟨by decide, _, _, rfl, rfl⟩, Or.inl rfl, ⟨by decide, _, _, rfl, rfl⟩, ⟨by decide, by decide⟩, by decide, by decide⟩

/-- No stroke; a stroke with the actuator at the depth wanted, with another wanted, and with a fold held, late; a move to the depth wanted,
to another, and to that of a held fold; a move in TRIPPED and one without a run. -/
theorem witness_StrokeAndMoveEnd :
    let s := stroking false 2
    let other := s.withPattern { s.pattern with depth := some 300 }
    let folded := s.withPattern { s.pattern with heldFold := some 0 }
    let moving := s.withPattern { s.pattern with move := some { target := 200, timer := some 5 }, stroke := none }
    ((running pleatImage).pattern.stroke = none ∧ (running pleatImage).pattern.move = none) ∧ (running pleatImage).quiet ∧
    (s.operating = true ∧ s.pattern.stroke.isSome = true ∧ s.pattern.heldFold = none ∧ s.depthWanted = some 200 ∧
      s.pattern.depth = some 200) ∧
    (other.depthWanted = some 200 ∧ other.pattern.depth ≠ some 200 ∧ other.pattern.move = none ∧ other.knifeDrive = true) ∧
    (∃ r p, folded.pattern.run = some r ∧ folded.pattern.heldFold = some 0 ∧ folded.runPleats[0]? = some p ∧
      folded.pattern.depth = some p.depth ∧ folded.pattern.move = none ∧ folded.knifeDrive = true ∧
      ∃ g, folded.held r.ref.uid = some g ∧
        folded.cfg.pleat.lateTol < ((folded.withWeb { folded.web with infeed := 4031#48 <<< 16 }).position - folded.foldPoint g p).toNat) ∧
    (moving.operating = true ∧ moving.pattern.move = some { target := 200, timer := some 5 } ∧ moving.pattern.heldFold = none ∧
      moving.depthWanted = some 200) ∧ s.quiet ∧
    (let astray := moving.withPattern { moving.pattern with move := some { target := 300, timer := some 5 } }
     astray.depthWanted = some 200 ∧ astray.pattern.stroke = none ∧ astray.knifeDrive = true) ∧
    (let held := moving.withPattern { moving.pattern with heldFold := some 0 }
     (∃ r p, held.pattern.run = some r ∧ held.pattern.heldFold = some 0 ∧ held.runPleats[0]? = some p ∧ p.depth = 200 ∧
       held.pattern.stroke = none ∧ held.knifeDrive = true) ∧ held.steady) ∧
    ((moving.withLoader { moving.loader with mode := .tripped }).knifeDrive = false ∧
      (moving.withPattern { moving.pattern with run := none }).depthWanted = none) :=
  ⟨by decide, quiet_of_active rfl, by decide, by decide, ⟨_, _, rfl, rfl, rfl, by decide, by decide, by decide, _, rfl, by decide⟩,
    by decide, quiet_of_active rfl, by decide, ⟨⟨_, _, rfl, rfl, rfl, by decide, by decide, by decide⟩, Or.inl rfl⟩, by decide⟩

/-- A detection one microsecond short of the filter, and at it; the second and the third limited stroke in a row. -/
theorem witness_KnifeFaultsTrip :
    let us := pleatImage.pleat.currentFilter
    ((running pleatImage).operating = true ∧ (running pleatImage).pattern.stroke = none) ∧ (running pleatImage).steady ∧
    ((stroking false 1).pattern.stroke.isSome = true ∧ (stroking false 1).pattern.limitCount < 2 ∧
      2 ≤ (stroking false 2).pattern.limitCount ∧ (stroking false 1).cfg.pleat.currentFilter ≤ us ∧
      us - 1 < (stroking false 1).cfg.pleat.currentFilter) ∧ RecordsNamed (stroking false 1) ∧
    (3 ≤ (stroking false 3).pattern.limitCount ∧ (stroking false 2).pattern.limitCount < 3) :=
  ⟨by decide, Or.inl rfl, by decide, ⟨by decide, by decide⟩, by decide⟩

/-- The worked panel, 20 dmm longer than its flat length and 21. -/
theorem witness_KnifeRunBinds :
    let fits := holding [panel 17 0 31720] 2500 pleating
    let not := holding [panel 17 0 31721] 2500 pleating
    (fits.pattern.run = none ∧ panel 17 0 31720 ∈ fits.web.map ∧ (fits.slot 3).active = some workedCopy ∧
      workedCopy.recoverRepeats 31720 = some 3) ∧ RecordsNamed fits ∧ RecordsNamed not ∧
    ((not.slot 3).active = some workedCopy ∧ ∀ n ∈ List.range 100, 1 ≤ n →
      workedCopy.flat n + 20 < 31721 ∨ 31721 + 20 < workedCopy.flat n) :=
  ⟨by decide, ⟨by decide, by decide⟩, ⟨by decide, by decide⟩, by decide⟩

/-- A legal order of a pattern held, of one not held, and one out of range. -/
theorem witness_PanelOrderMeasured :
    let s (pattern : Byte) := receive .panelOrder 9 [0, 0, 0x5A, 0x21, pattern, 3, 5, 1, 0x42] pleating
    ((s 3).operating = true ∧ (s 3).is .pleat = true ∧ (s 3).bus.tx.length < 8 ∧ ((s 3).slot 3).active = some workedCopy ∧
      ((s 32).slot 32).active = none) ∧ (s 3).quiet ∧ (s 33).quiet ∧
    (∃ e rest, (s 3).bus.rx = e :: rest ∧ e.kind = .panelOrder ∧ e.body.length = 9 ∧ fieldAt e.body 4 1 = 3) ∧
    (∃ e rest, (s 33).bus.rx = e :: rest ∧ fieldAt e.body 4 1 = 33) :=
  ⟨by decide, quiet_of_active rfl, quiet_of_active rfl, ⟨_, _, rfl, rfl, rfl, by decide⟩, _, _, rfl, by decide⟩

/-- The worked fragment; the same begun and not ended, out of range, out of sequence, and a last one that ends an upload. -/
theorem witness_PatternUploadCommits :
    let s := receive .patternFragment 9 workedFragment pleating
    let steps2 : List Byte := [41, 3, 0x29, 0, 250, 0x80, 200, 12, 1, 144, 1, 44, 2]
    let u : Staging := { firstStaging workedFragment with stepCount := 4, expected := 1 }
    let c := (receive .patternFragment 9 steps2 pleating).withPattern { pleating.pattern with staging := some u }
    (s.operating = true ∧ s.is .pleat = true ∧ s.pattern.slots.length = 32 ∧ s.runBoundTo 3 = false) ∧ s.quiet ∧
    (fieldAt workedFragment 2 1 % 8 = 0 ∧ (fieldAt workedFragment 2 1).testBit 3 = true ∧
      (firstStaging workedFragment).steps.length = (firstStaging workedFragment).stepCount ∧
      (firstStaging workedFragment).pattern = 3 ∧ (firstStaging workedFragment).leadIn ≤ 20000 ∧
      (firstStaging workedFragment).tail ≤ 20000 ∧ ∀ p ∈ (firstStaging workedFragment).steps, p.inRange = true) ∧
    ((fieldAt (workedFragment.set 2 0x20) 2 1).testBit 3 = false ∧ (firstStaging (workedFragment.set 1 33)).pattern = 33 ∧
      (firstStaging (workedFragment.set 7 3)).steps.length ≠ (firstStaging (workedFragment.set 7 3)).stepCount) ∧
    (c.pattern.staging = some u ∧ fieldAt steps2 0 1 = u.tag ∧ fieldAt steps2 1 1 = u.pattern ∧
      fieldAt steps2 2 1 % 8 = u.expected ∧ u.steps.length + (readSteps steps2 3 2).length = u.stepCount ∧
      (∀ p ∈ readSteps steps2 3 2, p.inRange = true) ∧ (∃ p ∈ readSteps (steps2.set 7 0) 3 2, p.inRange = false) ∧
      u.steps.length + (readSteps steps2 3 2).length ≠ ({ u with stepCount := 5 } : Staging).stepCount) ∧
    (stroking false 0).runBoundTo 3 = true :=
  ⟨by decide, quiet_of_active rfl, by decide, by decide, by decide, by decide⟩

/-- A gate that travels, its input as wanted and not; a boundary that is cut, and one skipped because the knife is CUTTING. -/
theorem witness_CutsAndGateMoves :
    let s := (running outfeedImage).withOutfeed { gate := .travelling .pass 1, cutTimer := some 1 }
    let busy := (cutting false).withOutfeed { (cutting false).outfeed with cutTimer := some 1 }
    (s.operating = true ∧ ({ s.pins with gatePass := true } : Pins).gateInput .pass = true ∧
      ({ s.pins with gatePass := false } : Pins).gateInput .pass = false) ∧ s.quiet ∧ s.steady ∧
    (running outfeedImage).outfeed.gate.moving = false ∧
    ((cutting false).gov.driveEnable = true ∧ (cutting false).outfeed.cutTimer = none ∧
      (cutting false).outfeed.gate.moving = false ∧ (cutting false).outfeed.piece.map Piece.skip = some false ∧
      (cutting false).contentPanel (.seg (panel 17 0 0).ref) = some (panel 17 0 13700)) ∧
    busy.outfeed.cutTimer ≠ none :=
  ⟨by decide, quiet_of_active rfl, Or.inl rfl, by decide, by decide, by decide⟩

/-- The worked order with status OK, and with NO_PATTERN; one for each refusal. -/
def measured (status : Byte) (id : Byte) (s : State) : State :=
  receive .orderMeasure 2 [0, 0, 0, id, 3, 3, 5, 1, 0x42, status, 0, 0, 0x7B, 0xD4, 0, 0, 0x35, 0x84, 0, 0, 0, 42, 1] s

theorem witness_OrderMeasured :
    ((measured 0 9 ordered).operating = true ∧ (measured 0 9 ordered).is .unwind = true ∧
      (measured 0 9 ordered).order.queue.length < 32) ∧ (measured 0 9 ordered).steady ∧
    (∃ e rest, (measured 0 9 ordered).bus.rx = e :: rest ∧ e.kind = .orderMeasure ∧ fieldAt e.body 9 1 = 0 ∧
      fieldAt e.body 10 4 = 31700 ∧ fieldAt e.body 14 4 = 13700) ∧
    (∃ e rest, (measured 1 9 ordered).bus.rx = e :: rest ∧ fieldAt e.body 9 1 ≠ 0) ∧
    (∃ g ∈ (measured 0 117 ordered).web.map, g.kind = .panel ∧ g.panelId = some 117) ∧
    ((ordered.withWeb { ordered.web with cancelList := [9] }).web.cancelList = [9] ∧
      32 ≤ (ordered.withOrder { queue := List.replicate 32 order }).order.queue.length) :=
  ⟨by decide, Or.inl rfl, ⟨_, _, rfl, by decide, by decide, by decide, by decide⟩, ⟨_, _, rfl, by decide⟩, by decide, by decide⟩

theorem witness_BirthMade :
    (ordered.order.birthHeld = false ∧ ordered.order.spliceRequest = false ∧ ordered.activeLot = some 0x0142 ∧
      ordered.order.queue.find? (fun x => x.lot == 0x0142) = some order) ∧
    (ordered.withOrder { ordered.order with spliceRequest := true }).order.spliceRequest = true ∧
    (unwinding.activeLot = some 0x0142 ∧ ∀ o ∈ unwinding.order.queue, o.lot ≠ 0x0142) ∧
    (ordered.withOrder { ordered.order with birthHeld := true }).order.birthHeld = true ∧ RecordsNamed ordered :=
  ⟨by decide, by decide, by decide, by decide, ⟨by decide, by decide⟩⟩

/-- A ROLL DATA for an arm that is free, with a flag; for the ACTIVE arm; out of range; for no arm. -/
def described (arm flags : Byte) (thickness : Byte) (s : State) : State :=
  receive .rollData 9 [arm, flags, 0, 0, 0, 0, 1, 0x42, 0, thickness, 0x0B, 0xB8, 0x2E, 0xE0] s

theorem witness_RollDescribed :
    let s := described 2 0 20 unwinding
    let bare := described 2 1 20 ((running unwindImage).withPins { webPresent := true })
    let ready := described 2 2 20 (unwinding.withPins { ready2 := true })
    (s.operating = true ∧ s.is .unwind = true ∧ (s.arm .arm2).state ≠ .active ∧ (s.arm .arm2).state ≠ .expiring ∧
      (s.arm .arm1).state = .active ∧ s.activeArm ≠ none) ∧
    (∃ e rest, s.bus.rx = e :: rest ∧ e.kind = .rollData ∧ (readRollData e.body).arm = some .arm2 ∧
      (readRollData e.body).thickness = 20 ∧ (readRollData e.body).core = 3000 ∧ (readRollData e.body).circumference = 12000 ∧
      (readRollData e.body).threaded = false ∧ (readRollData e.body).spliceNow = false) ∧
    (bare.activeArm = none ∧ bare.roll.spliceState = .run ∧ bare.pins.webPresent = true) ∧
    (ready.mode = .active ∧ ready.activeArm = some .arm1 ∧ ready.roll.spliceState = .run ∧ ready.pins.ready .arm2 = true) ∧
    (∃ e rest, (described 3 0 20 unwinding).bus.rx = e :: rest ∧ (readRollData e.body).arm = none) ∧
    (∃ e rest, (described 2 0 19 unwinding).bus.rx = e :: rest ∧ (readRollData e.body).thickness = 19) :=
  ⟨by decide, ⟨_, _, rfl, rfl, by decide, by decide, by decide, by decide, by decide, by decide⟩, by decide, by decide,
    ⟨_, _, rfl, by decide⟩, _, _, rfl, by decide⟩

/-- The ACTIVE arm's input at its edge, without a mark and with one; the other level, and the other arm. -/
theorem witness_RevolutionMeasures :
    let m := unwinding.withRoll { unwinding.roll with arm1 := { state := .active, roll := some roll, mark := some 0 } }
    (unwinding.operating = true ∧ unwinding.is .unwind = true ∧
      isEdge (unwinding.cfg.unwind.edgeCode .arm1) (unwinding.pins.revolution .arm1) true = true ∧
      (unwinding.arm .arm1).state = .active ∧ (unwinding.arm .arm1).mark = none) ∧
    ((m.arm .arm1).mark = some 0 ∧ (m.arm .arm1).roll = some roll) ∧
    isEdge (unwinding.cfg.unwind.edgeCode .arm1) (unwinding.pins.revolution .arm1) false = false ∧
    (unwinding.arm .arm2).state ≠ .active ∧ (running pleatImage).is .unwind = false := by decide

/-- Each change of an arm; the start test at the reserve and one mm above it; each loss that aborts. -/
theorem witness_ArmInputsTaken :
    let splicing (state : SpliceState) (arm : ArmState) := unwinding.withRoll { unwinding.roll with
      arm2 := { state := arm, roll := some roll }, spliceState := state, spliceArm := some .arm2 }
    let low (length : Nat) := unwinding.withRoll { unwinding.roll with
      arm1 := { state := .active, roll := some { roll with remaining := length } }, arm2 := { state := .ready, roll := some roll } }
    ((low 25000).activeArm = some .arm1 ∧ ((low 25000).arm .arm1).roll.map Roll.remaining = some 25000 ∧
      (low 25000).cfg.unwind.reserve = 25000 ∧ ((low 25000).arm (otherArm .arm1)).state = .ready ∧
      (low 25000).roll.spliceState = .run ∧ (low 25000).mode = .active ∧
      ((low 25001).arm .arm1).roll.map Roll.remaining = some 25001) ∧
    ((splicing .prefill .ready).operating = true ∧ ((splicing .prefill .ready).arm .arm2).state = .ready ∧
      (splicing .prefill .ready).roll.spliceArm = some .arm2 ∧ (splicing .stopOld .loaded).pins.empty .arm2 = false ∧
      ((splicing .stopOld .loaded).arm .arm2).state ≠ .empty ∧ ((splicing .spliceWait .ready).arm .arm1).state = .active) ∧
    let l := unwinding.withRoll { unwinding.roll with arm2 := { state := .loaded, roll := some roll } }
    let r := unwinding.withRoll { unwinding.roll with arm2 := { state := .ready, roll := some roll } }
    (unwinding.operating = true ∧ unwinding.is .unwind = true) ∧ (l.arm .arm2).state = .loaded ∧
    (r.arm .arm2).state = .ready ∧ unwinding.pins.empty .arm1 = false ∧ (unwinding.arm .arm1).state ≠ .empty := by decide

/-- PASTE with a splice arm that is READY, and with one that was emptied; START_NEW waiting for the web. -/
theorem witness_SpliceTimers :
    let p (state : ArmState) := unwinding.withRoll { unwinding.roll with
      arm2 := { state := state, roll := some roll }, spliceState := .paste, spliceArm := some .arm2, pasteTimer := some 1,
      pasteOutput := true }
    let n := unwinding.withRoll { unwinding.roll with spliceState := .startNew, webTimer := some 1, webSeen := false }
    ((p .ready).operating = true ∧ (p .ready).roll.pasteTimer.isSome = true ∧ (p .ready).roll.spliceState = .paste ∧
      (p .ready).roll.spliceArm = some .arm2 ∧ ((p .ready).arm .arm2).state = .ready ∧ (p .ready).mode = .active) ∧
    (p .ready).steady ∧ ((p .empty).arm .arm2).state = .empty ∧
    (State.reset.operating = false ∧ (State.reset.withRoll { pasteTimer := some 1 }).roll.pasteTimer.isSome = true) ∧
    (n.operating = true ∧ n.roll.webTimer.isSome = true ∧ n.roll.spliceState = .startNew ∧ n.roll.webSeen = false) ∧
    (n.withRoll { n.roll with webSeen := true }).roll.webSeen = true ∧ n.steady :=
  ⟨by decide, Or.inl rfl, by decide, by decide, by decide, by decide, Or.inl rfl⟩

/-- The UNWIND in a splice state at a fill and a speed. -/
def spliced (state : SpliceState) (fill vU : Nat) : State :=
  unwinding.withRoll { unwinding.roll with
    spliceState := state, spliceArm := some .arm2, spliceMiddle := some (3, 2000), fillBase := fill, vU := vU }

/-- Each transition of the splice at its limit and one short of it. -/
theorem witness_SpliceTransitions :
    ((spliced .prefill 30000 0).operating = true ∧ (spliced .prefill 30000 0).is .unwind = true ∧
      (spliced .prefill 30000 0).dueExit = none ∧ (spliced .prefill 30000 0).fill = 30000 ∧
      (spliced .prefill 29999 0).fill < unwindImage.unwind.fillSplice) ∧
    (signedDiff 2000 (spliced .spliceWait 30000 8943).position ≤ (ceilDiv (8943 * 8943) (2 * (20 * 1000)) : Nat) ∧
      ¬ signedDiff 2000 (spliced .spliceWait 30000 8942).position ≤ (ceilDiv (8942 * 8942) (2 * (20 * 1000)) : Nat)) ∧
    ((spliced .stopOld 4000 0).fill ≤ unwindImage.unwind.fillMin ∧ unwindImage.unwind.fillMin < (spliced .stopOld 4001 0).fill) ∧
    (unwindImage.unwind.fillNominal ≤ (spliced .recover 28000 0).fill ∧ (spliced .startNew 27999 0).fill < unwindImage.unwind.fillNominal ∧
      (spliced .startNew 27999 0).activeArm ≠ none) ∧
    ((spliced .stopOld 5000 20).roll.vU ≤ unwindImage.unwind.aUnwind ∧ unwindImage.unwind.aUnwind < (spliced .stopOld 5000 21).roll.vU ∧
      (spliced .stopOld 5000 21).mode ≠ .tripped ∧ (spliced .stopOld 5000 21).activeArm = some .arm1 ∧
      (spliced .stopOld 5000 21).pins.estop = false) := by decide

/-- The limits of the bad-sample test, and channels with each fault due and not due. -/
theorem witness_ChannelsScannedAndJudged :
    let ch (c : Channel) := (running setterImage).withHeat { (running setterImage).heat with channels := (List.replicate 8 {}).set 1 c }
    ((List.replicate 8 (17 : BitVec 12)).length = 8 ∧ (running setterImage).operating = true ∧
      (running setterImage).heat.channels.length = 8 ∧ (List.replicate 8 (17 : BitVec 12))[1]? = some 17 ∧
      (running setterImage).usesChannel 1 = true) ∧
    ((16 : BitVec 12).toNat ≤ 16 ∧ 4080 ≤ (4080 : BitVec 12).toNat ∧ ¬ ((17 : BitVec 12).toNat ≤ 16 ∨ 4080 ≤ (4079 : BitVec 12).toNat)) ∧
    (4 ≤ ((ch { bad := 4 }).channel 1).bad ∧ ((ch { bad := 4 }).channel 1).faulted = false) ∧
    (10 ≤ ((ch { good := 10, faulted := true }).channel 1).good ∧ ((ch { good := 10, faulted := true }).channel 1).faulted = true) ∧
    (((ch { bad := 3 }).channel 1).bad < 4 ∧ ((ch { good := 9, faulted := true }).channel 1).good < 10) ∧
    (running setterImage).usesChannel 3 = false ∧ (running setterImage).steady :=
  ⟨by decide, by decide, by decide, by decide, by decide, by decide, Or.inl rfl⟩

theorem witness_ChamberTransitions :
    let h (x : HeatUnit) := (running setterImage).withHeat x
    let warm := h { (running setterImage).heat with chamber := .warming, bandCount := 200 }
    let parking := (h { (running setterImage).heat with chamber := .readyHeat, parkTimer := some 1 }).withGov { vOp := 0 }
    let hot := h { (running setterImage).heat with zones := [{ overCount := setterImage.setter.cutFilter }, {}] }
    (warm.operating = true ∧ warm.heat.chamber = .warming ∧ 200 ≤ warm.heat.bandCount ∧ warm.cfg.setter.parkTime ≠ 0) ∧
    warm.steady ∧ (running setterImage).heat.bandCount < 200 ∧
    (parking.heat.chamber = .readyHeat ∧ parking.heat.parkTimer.isSome = true ∧ parking.lineDemand = false ∧
      parking.is .setter = true) ∧ (running setterImage).heat.parkTimer = none ∧
    (0 < hot.heat.zones.length ∧ (hot.zone 0).cut = false ∧ hot.cfg.setter.cutFilter ≤ (hot.zone 0).overCount) ∧
    (hot.zone 1).overCount < hot.cfg.setter.cutFilter ∧ hot.heat.zones.length ≤ (3 : Fin 4).val :=
  ⟨by decide, Or.inl rfl, by decide, by decide, by decide, by decide, by decide, by decide⟩

/-- A zone with a temperature, each case of its integral, and a zone without one; another role. -/
theorem witness_HeatControlComputes :
    let s := (running setterImage).withHeat { (running setterImage).heat with
      channels := (List.replicate 8 {}).set 1 { value := some 1190 }, zones := [{ output := 1000 }, { output := 470 }] }
    (s.operating = true ∧ s.is .setter = true ∧ s.heat.heatTimer.isSome = true ∧ 1 < s.cfg.setter.zones ∧
      1 < s.heat.zones.length) ∧ s.steady ∧
    (s.zoneTemp 1 = some 1190 ∧ s.mode ≠ .tripped ∧ s.gov.driveEnable = true ∧ (s.zone 1).cut = false ∧
      (s.zone 0).output = 1000) ∧
    s.zoneTemp 0 = none ∧ (running pleatImage).is .setter = false ∧
    (let cut := s.withHeat { s.heat with zones := [{}, { sp := 1120, cut := true }] }
     (cut.zone 1).cut = true ∧ cut.cfg.setter.latchMode = false ∧
       (1190 : Int) ≤ min ((cut.zone 1).sp + cut.cfg.setter.cutMargin) 1750 - 30) :=
  ⟨by decide, Or.inl rfl, by decide, by decide, by decide, by decide⟩

/-- A recipe at the limits of its ranges, and one past them. -/
theorem witness_RecipeLoadedWhole :
    let b : List Byte := [16, 0x06, 0xD6, 0xFE, 0x0C, 0x03, 0xE8, 0x03, 0xE8, 0, 0, 0, 1, 0, 0, 0, 2]
    let s := receive .recipe 9 b (running setterImage)
    (s.operating = true ∧ s.is .setter = true ∧ ∃ e rest, s.bus.rx = e :: rest ∧ e.kind = .recipe) ∧
    (fieldAt b 0 1 = 16 ∧ signed16 (fieldAt b 1 2) = 1750 ∧ signed16 (fieldAt b 3 2) = -500 ∧ 1 ≤ fieldAt b 9 4 ∧
      fieldAt b 9 4 < fieldAt b 13 4) ∧ fieldAt (b.set 0 17) 0 1 = 17 :=
  ⟨⟨by decide, by decide, _, _, rfl, rfl⟩, by decide, by decide⟩

theorem witness_CellsDosedAndShifted :
    let s := (running setterImage).withHeat { (running setterImage).heat with channels := (List.replicate 8 {}).set 1 { value := some 1280 } }
    s.heat.cells[0]? = some ({} : Cell) ∧ s.heat.cells[49]? = some ({} : Cell) ∧
    ((s.zoneTemp (s.cfg.setter.zoneOfCell 0)).isSome ≠ (s.zoneTemp (s.cfg.setter.zoneOfCell 49)).isSome) := by decide

/-- The SETTER at a shift whose leaving cell holds the trail of panel 17, an entry OPEN, CLOSED or none. -/
def judged (entry : List Judgement) (lead : Option SegRef) : State :=
  let s := holding [panel 17 100000 700] 200000 (running setterImage)
  s.withHeat { s.heat with
    cells := List.replicate 49 {} ++ [{ dose := 9, peak := some 1250, lead := lead }]
    judgements := entry
    shiftAnchor := 100000 + 13000 + 25000 + 500
    recipes := (List.replicate 16 none).set 4 (some { setpoints := [1100, 1200, 1300, 0], doseMin := 10, doseMax := 20 }) }

/-- Each case of the leaving cell: its panel referred to and not, its entry none, OPEN and CLOSED; and the verdict it sends. -/
theorem witness_CellsJudged :
    let s := judged [] (some (panel 17 0 0).ref)
    (RecordsNamed s ∧ (s.heat.judgements.map (fun j => j.ref.uid)).Nodup ∧
      ((judged [judging false] none).heat.judgements.map (fun j => j.ref.uid)).Nodup) ∧
    ((∃ c, s.heat.cells.getLast? = some c ∧ c.lead = some (panel 17 0 0).ref) ∧ panel 17 100000 700 ∈ s.web.map ∧
      (panel 17 100000 700).recipe ≠ 0 ∧ (panel 17 100000 700).panelId.isSome = true ∧ s.bus.tx.length < 8 ∧
      s.heat.judgements.find? (fun j => j.ref.uid == 17) = none) ∧
    ((judged [judging false] none).heat.judgements.find? (fun j => j.ref.uid == 17) = some (judging false) ∧
      (judged [judging true] none).heat.judgements.find? (fun j => j.ref.uid == 17) = some (judging true) ∧
      (judging false).closed = false ∧ (judging true).closed = true) ∧
    ((shiftCells s).heat.judgements.map Judgement.closed = [true] ∧ (shiftCells s).bus.tx.map TxEntry.kind = [.doseVerdict, .conditionNotice]) ∧
    (s.held 17).isSome = true :=
  ⟨⟨⟨by decide, by decide⟩, by decide, by decide⟩, ⟨⟨_, rfl, rfl⟩, by decide, by decide, by decide, by decide, by decide⟩, by decide,
    by decide, by decide⟩

/-- A frame that fails, one of the own origin, stray ones, a TRIP, one admitted into a queue with a place and into a full one,
one not admitted; a RESTART in CONFIGURING. -/
theorem witness_FramesReceived :
    let s := running pleatImage
    let f (k : Kind) (origin dest : Nat) (b : List Byte) := readFrame (frameBits { kind := k, origin := origin, dest := dest, body := b })
    (s.operating = true ∧ readFrame [] = none ∧ (f .hold 2 0 []).isSome = true ∧ s.cfg.address = 2) ∧
    ((f .hold 5 0 []).isSome = true ∧ inMask s.cfg.roster 5 = false ∧ inMask s.cfg.terminals 5 = false ∧
      inMask s.cfg.roster 1 = true ∧ Kind.hold.origins = .terminals ∧ inMask s.cfg.terminals 9 = true ∧ Kind.handoff.origins = .stations) ∧
    (f .trip 1 0 [7]).isSome = true ∧ ((f .hold 9 0 []).isSome = true ∧ Kind.hold.takenBy .pleat = true ∧ s.role = some .pleat ∧
      s.bus.rx.length < 6 ∧ Kind.rollData.takenBy .pleat = false) ∧
    (f .restart 9 0 []).isSome = true ∧ (station pleatImage .configuring).mode = .configuring ∧ State.reset.mode = .powerUp := by decide

theorem witness_TransmissionTurns :
    let w := (running pleatImage).withBus { tx := [{ kind := .handoff, dest := 3, body := handoffBody (panel 17 0 31700) 31700 false false }] }
    let s := sending .linePulse (pulseBody (running pleatImage)) (running pleatImage)
    (w.operating = true ∧ w.bus.off = false ∧ w.bus.duplicate = false ∧ (∀ x ∈ w.bus.tx, x.inTransmission = false)) ∧ w.quiet ∧
    (∃ x ∈ s.bus.tx, x.inTransmission = true) ∧ (∃ e, s.bus.tx.find? TxEntry.inTransmission = some e ∧ e.kind ≠ .conditionNotice) ∧
    (∀ g ∈ [Group.link, .web, .heat, .roll], (s.cond.record g).notice ≠ .pending) ∧ s.quiet ∧
    (running pleatImage).bus.tx.find? TxEntry.inTransmission = none ∧ State.reset.operating = false :=
  ⟨by decide, quiet_of_active rfl, by decide, ⟨_, rfl, by decide⟩, by decide, quiet_of_active rfl, by decide, by decide⟩

/-- With a later rising and without. -/
theorem witness_NoticeCompleted :
    let s (later : Bool) := (sending .conditionNotice (noticeBody .web (running pleatImage)) (running pleatImage)).withCond
      { flags := [.markMissed], web := { summary := true, notice := .queued, later := later } }
    ((s true).operating = true ∧ (s true).is .setter = false ∧ (s true).bus.tx.length ≤ 8 ∧
      ((s true).cond.record .web).later = true ∧ ((s false).cond.record .web).later = false) ∧ (s true).quiet ∧
    (∃ e, (s true).bus.tx.find? TxEntry.inTransmission = some e ∧ e.kind = .conditionNotice ∧
      fieldAt e.body 0 1 = Group.web.code) ∧
    ∀ h ∈ [Group.link, .heat, .roll], ((s true).cond.record h).notice ≠ .pending :=
  ⟨by decide, quiet_of_active rfl, ⟨_, rfl, rfl, by decide⟩, by decide⟩

/-- The fifteenth and the sixteenth fault, BUS_OFF as its command, and the recovery. -/
theorem witness_SenderFaultsAndRecovery :
    let f (n : Nat) := (running pleatImage).withBus { tx := [{ kind := .handoff, dest := 3, body := [], inTransmission := true }], faultCount := n }
    let off := (running pleatImage).withBus { off := true, faultCount := 16, recovery := some 1 }
    ((f 14).operating = true ∧ (f 14).bus.sending = true ∧ (f 14).bus.off = false ∧ (f 14).bus.faultCount < 15 ∧
      15 ≤ (f 15).bus.faultCount) ∧ (f 14).steady ∧ (running pleatImage).bus.sending = false ∧
    (16 ≤ (f 16).bus.faultCount ∧ (f 16).bus.off = false ∧ (f 15).bus.faultCount < 16) ∧
    (off.bus.recovery.isSome = true ∧ (running pleatImage).bus.recovery = none) ∧ off.quiet :=
  ⟨by decide, Or.inl rfl, by decide, by decide, by decide, quiet_of_active rfl⟩

/-- A latched condition, DUP_ADDRESS with its latch, a level condition, and ZONE_CUT in both modes, of one zone and of all. -/
theorem witness_ConditionAcknowledged :
    let s (code z : Byte) := receive .conditionAck 9 [code, z] (running pleatImage)
    let latch := running { setterImage with setter := { setterImage.setter with cutOptions := 1 } }
    ((s 9 0).operating = true ∧ latchedOfCode 9 = some .regLost ∧ latchedOfCode 6 = some .dupAddress ∧ latchedOfCode 18 = none ∧
      latchedOfCode 28 = none) ∧ (s 9 0).quiet ∧
    (∃ e rest, (s 9 0).bus.rx = e :: rest ∧ e.kind = .conditionAck ∧ fieldAt e.body 0 1 = 9) ∧
    (∃ e rest, (s 6 0).bus.rx = e :: rest ∧ fieldAt e.body 0 1 = 6) ∧
    ((receive .conditionAck 9 [6, 0] ((running pleatImage).withBus { duplicate := true })).withBus { duplicate := true }).bus.duplicate = true ∧
    (∃ e rest, (receive .conditionAck 9 [16, 255] (running setterImage)).bus.rx = e :: rest ∧ fieldAt e.body 0 1 = 16 ∧
      fieldAt e.body 1 1 = 255) ∧
    (latch.cfg.setter.latchMode = true ∧ (running setterImage).cfg.setter.latchMode = false ∧ 1 < latch.cfg.setter.zones) ∧
    (running setterImage).steady :=
  ⟨by decide, quiet_of_active rfl, ⟨_, _, rfl, rfl, by decide⟩, ⟨_, _, rfl, by decide⟩, by decide,
    ⟨_, _, rfl, by decide, by decide⟩, by decide, Or.inl rfl⟩

/-- STANDBY on a line at standstill and on one that moves, WAKE in STANDBY and elsewhere. -/
theorem witness_StandbyAndWake :
    let b := receive .standby 9 [] (running setterImage)
    let moving := b.withGov { b.gov with vA := 1 }
    let w := receive .wake 9 [] (station setterImage .standby)
    (b.operating = true ∧ b.mode = .active ∧ b.gov.vA = 0 ∧ b.cond.wakeDue = false ∧ (run .standby b).mode = .standby) ∧
    (∃ e rest, b.bus.rx = e :: rest ∧ e.kind = .standby) ∧ 0 < moving.gov.vA ∧ moving.steady ∧
    (w.operating = true ∧ w.mode = .standby ∧ w.is .setter = true ∧ w.heat.chamber = .cold) ∧
    (∃ e rest, w.bus.rx = e :: rest ∧ e.kind = .wake) ∧ (receive .wake 9 [] (running setterImage)).mode ≠ .standby :=
  ⟨by decide, ⟨_, _, rfl, rfl⟩, by decide, Or.inl rfl, by decide, ⟨_, _, rfl, rfl⟩, by decide⟩

theorem witness_RestartBegins :
    let s := receive .restart 9 [] (running outfeedImage)
    let moving := s.withGov { s.gov with vA := 1 }
    (s.operating = true ∧ s.gov.vA = 0 ∧ ∃ e rest, s.bus.rx = e :: rest ∧ e.kind = .restart) ∧
    0 < moving.gov.vA ∧ moving.quiet ∧ State.reset.operating = false :=
  ⟨⟨by decide, by decide, _, _, rfl, rfl⟩, by decide, quiet_of_active rfl, by decide⟩

/-- The release in POWER_UP and elsewhere; a read that passes, one that fails and one not answered; the lamp at its first and
its last phase. -/
theorem witness_StartOfTheStation :
    let c := (station pleatImage .configuring).withLoader { (station pleatImage .configuring).loader with reading := true }
    let f (n : Nat) := State.reset.withLoader { mode := .configFault, lamp := .flashing n, faultClass := some 4 }
    (State.reset.mode = .powerUp ∧ c.mode ≠ .powerUp ∧ c.mode = .configuring ∧ c.loader.reading = true) ∧
    ((summed pleatRecord).length = 128 ∧ ((summed pleatRecord).set 127 0).length = 128) ∧
    (∃ i, checkRecord (summed pleatRecord) = .passes i) ∧ checkRecord ((summed pleatRecord).set 127 0) = .fails 2 ∧
    ((f 0).mode = .configFault ∧ (f 0).loader.lamp = .flashing 0 ∧ (f 8).loader.lamp = .flashing 8 ∧ (f 8).loader.faultClass = some 4 ∧
      8 ≤ 2 * 4 ∧ State.reset.mode ≠ .configFault) :=
  ⟨by decide, by decide, ⟨readImage (summed pleatRecord), by decide⟩, by decide, by decide⟩

theorem witness_FirstScanStartsTheLine :
    let c := (station pleatImage .configuring).withLoader { (station pleatImage .configuring).loader with scanning := true }
    let e := c.withPins { estop := true }
    ((List.replicate 8 (1000 : BitVec 12)).length = 8 ∧ c.mode = .configuring ∧ c.loader.scanning = true ∧ c.pins.estop = false ∧
      e.pins.estop = true) ∧
    (State.reset.operating = false ∧ State.reset.mode ≠ .configuring) := by decide

/-- The four stations at their first scan, and the sensor's fill at the ends of its range. -/
theorem witness_FirstScanStartValues :
    let c (i : Image) := (station i .configuring).withLoader
      { (station i .configuring).loader with scanning := true, keptRole := some .pleat }
    (∀ i ∈ [pleatImage, unwindImage, setterImage, outfeedImage],
      (c i).mode = .configuring ∧ (c i).loader.scanning = true ∧ (c i).loader.image = some i ∧ i.legal = true ∧
        (c i).heat.channels = List.replicate 8 {} ∧ ((c i).is .unwind = true → 0 < i.unwind.punch) ∧
        ((c i).is .outfeed = true → 0 < i.approach + i.outfeed.cut)) ∧
    ((c pleatImage).loader.keptRole = (c pleatImage).role ∧ (c setterImage).loader.keptRole ≠ (c setterImage).role) ∧
    (List.replicate 8 (17 : BitVec 12))[0]? = some 17 ∧ (List.replicate 8 (4080 : BitVec 12))[0]? = some 4080 := by decide

theorem witness_DriveEnableGatesOutputs : State.reset.gov.driveEnable = false := by decide

end Sys2Proof.Tests
end

