-- ==== Sys2Proof/Proofs/Kept.lean ====
section
/-! PROOFS. Two relations between a state and a later one, and what each primitive update of the state does under them. `Keeps`
says that an operation respects the capacities and the records of the map; `Settles` adds that it only takes from the order
queue and clears no latched condition and no latched hold. Both are preorders, so what an operation keeps is read off the
operations it calls (basis of O7 and O10). -/

namespace Sys2Proof.Machine
open Sys2Proof

/-! ## Marks of a record (R4, R20, R22) -/

theorem MarksKept.refl (g : Segment) : MarksKept g g := by constructor <;> simp

theorem MarksKept.trans {a b c : Segment} (h : MarksKept a b) (k : MarksKept b c) : MarksKept a c where
  seg := k.seg.trans h.seg
  kind := k.kind.trans h.kind
  panelId := k.panelId.trans h.panelId
  pattern := k.pattern.trans h.pattern
  recipe := k.recipe.trans h.recipe
  lot := k.lot.trans h.lot
  newSeq := k.newSeq.trans h.newSeq
  causes := fun x hx => k.causes x (h.causes x hx)
  setters := fun x hx => k.setters x (h.setters x hx)
  pleated := fun hx => k.pleated (h.pleated hx)
  regPleat := fun hx => k.regPleat (h.regPleat hx)
  handed := fun hx => k.handed (h.handed hx)

/-- `h` is the record `g` at a later moment: the same name, and everything `g` keeps. -/
structure SameRecord (g h : Segment) : Prop where
  uid : h.uid = g.uid
  marks : MarksKept g h

theorem SameRecord.refl (g : Segment) : SameRecord g g := ⟨rfl, .refl g⟩

theorem SameRecord.trans {a b c : Segment} (h : SameRecord a b) (k : SameRecord b c) : SameRecord a c :=
  ⟨k.uid.trans h.uid, h.marks.trans k.marks⟩

/-! ## The records of the map -/

/-- Every record of the later map is one of the earlier map at a later moment, or was made in between under a fresh name. -/
structure RecordsKept (s t : State) : Prop where
  next_le : s.web.nextUid ≤ t.web.nextUid
  from_held : ∀ h ∈ t.web.map, (∃ g ∈ s.web.map, SameRecord g h) ∨ s.web.nextUid ≤ h.uid
  named : RecordsNamed s → RecordsNamed t

theorem RecordsKept.trans {s t u : State} (h : RecordsKept s t) (k : RecordsKept t u) : RecordsKept s u where
  next_le := h.next_le.trans k.next_le
  from_held := by
    intro x hx
    rcases k.from_held x hx with ⟨y, hy, hyx⟩ | hn
    · rcases h.from_held y hy with ⟨z, hz, hzy⟩ | hn
      · exact .inl ⟨z, hz, hzy.trans hyx⟩
      · exact .inr (hyx.uid ▸ hn)
    · exact .inr (h.next_le.trans hn)
  named := fun hs => k.named (h.named hs)

theorem RecordsKept.of_eq {s t : State} (map : t.web.map = s.web.map) (next : t.web.nextUid = s.web.nextUid) :
    RecordsKept s t where
  next_le := next.ge
  from_held := fun h hh => .inl ⟨h, map ▸ hh, .refl h⟩
  named := fun hs => ⟨by rw [map]; exact hs.once, by rw [map, next]; exact hs.fresh⟩

/-- A record held before and after, under its one name, has kept its marks. -/
theorem RecordsKept.marks {s t : State} (k : RecordsKept s t) (hs : RecordsNamed s) {g h : Segment} (hg : g ∈ s.web.map)
    (hh : h ∈ t.web.map) (hu : h.uid = g.uid) : MarksKept g h := by
  rcases k.from_held h hh with ⟨g', hg', hm⟩ | hn
  · have : g' = g := List.inj_on_of_nodup_map hs.once hg' hg (hm.uid.symm.trans hu)
    exact this ▸ hm.marks
  · have := hs.fresh g hg
    omega

/-! ## Capacities unit by unit -/

/-- One entry of the judgement list for each judged segment, which the map holds (R147). -/
structure JudgementsFit (map : List Segment) (l : List Judgement) : Prop where
  once : (l.map (fun j => j.ref.uid)).Nodup
  held : ∀ j ∈ l, ∃ g ∈ map, g.uid = j.ref.uid

theorem JudgementsFit.length_le {map : List Segment} {l : List Judgement} (h : JudgementsFit map l) :
    l.length ≤ map.length := by
  have hsub : l.map (fun j => j.ref.uid) ⊆ map.map Segment.uid := by
    intro u hu
    obtain ⟨j, hj, rfl⟩ := List.mem_map.1 hu
    obtain ⟨g, hg, he⟩ := h.held j hj
    exact List.mem_map.2 ⟨g, hg, he⟩
  simpa using (h.once.subperm hsub).length_le

theorem CapacitySafe.judgements {s : State} (h : CapacitySafe s) : JudgementsFit s.web.map s.heat.judgements :=
  ⟨h.heat.judged_once, h.heat.judged_held⟩

/-- The capacities of the pattern unit (R49, R54, R70). -/
structure PatternFits (u : PatternUnit) : Prop where
  limit_le : u.limitCount ≤ 2
  slots : u.slots.length = 32
  steps : StepsFit u

/-- The capacities of the bus unit (R202, R209 to R211). -/
structure BusFits (b : Bus) : Prop where
  rx_le : b.rx.length ≤ 6
  tx : TxSafe b.tx
  fault_le : b.faultCount ≤ 16

/-- The capacities of the sensor channels and the recipe table (R126, R127). -/
structure HeatFits (x : HeatUnit) : Prop where
  recipes : x.recipes.length = 16
  channels : x.channels.length = 8
  samples_le : ∀ c ∈ x.channels, c.bad ≤ 4 ∧ c.good ≤ 10

/-- The capacities of the peer table (R29). -/
structure PeersFit (l : List PeerEntry) : Prop where
  length : l.length = 15
  ages_le : ∀ e ∈ l, e.age ≤ 65535

theorem CapacitySafe.patternFits {s : State} (h : CapacitySafe s) : PatternFits s.pattern := ⟨h.limit_le, h.slots, h.steps⟩
theorem CapacitySafe.busFits {s : State} (h : CapacitySafe s) : BusFits s.bus := ⟨h.rx_le, h.tx, h.fault_le⟩
theorem CapacitySafe.heatFits {s : State} (h : CapacitySafe s) : HeatFits s.heat := ⟨h.recipes, h.channels, h.samples_le⟩
theorem CapacitySafe.peersFit {s : State} (h : CapacitySafe s) : PeersFit s.peers := ⟨h.peers, h.ages_le⟩

/-! ## What an operation keeps -/

/-- The image in force, when there is one, is one the record check passes (R184). -/
def ImageLegal (s : State) : Prop := ∀ i, s.loader.image = some i → i.legal = true

/-- The capacities of a state whose tables are those of the operating modes, whatever its mode: when the station leaves CONFIGURING
the tables are made before the mode is set. -/
abbrev Working (s : State) : Prop := CapacitySafe (s.withLoader { s.loader with mode := .joining })

/-- In an operating mode the tables are those of the operating modes. -/
theorem working_iff {s : State} (h : s.operating = true) : Working s ↔ CapacitySafe s := by
  have ho : (s.withLoader { s.loader with mode := .joining }).operating = s.operating := h.symm
  constructor <;> intro hc
  · exact { hc with heat := { hc.heat with zones := ho ▸ hc.heat.zones, cells := ho ▸ hc.heat.cells } }
  · exact { hc with heat := { hc.heat with zones := ho.symm ▸ hc.heat.zones, cells := ho.symm ▸ hc.heat.cells } }

/-- An operation of the operating modes that respects the capacities and the records of the map. -/
structure Keeps (s t : State) : Prop where
  image : t.loader.image = s.loader.image
  operating : s.operating = true → t.operating = true
  records : RecordsKept s t
  capacity : ImageLegal s → Working s → Working t

/-- The conditions that what falls due may clear: they follow figures of the orders, the rolls and the speed (R93, R105,
R154). -/
def Cond.followsFigures (c : Cond) : Bool :=
  match c with
  | .noOrders | .lotMismatch | .rollLow | .rollOut | .speedFloor => true
  | _ => false

/-- The hold causes that what falls due may clear (R93, R105). -/
def HoldCause.followsFigures (h : HoldCause) : Bool :=
  match h with
  | .noOrders | .lotWait | .rollOut => true
  | _ => false

/-- An operation that moreover only takes orders from the queue, and clears no condition and no hold but those that follow
figures. -/
structure Settles (s t : State) : Prop extends Keeps s t where
  queue : ∀ o ∈ t.order.queue, o ∈ s.order.queue
  flags : ∀ c ∈ s.cond.flags, c.followsFigures = false → c ∈ t.cond.flags
  holds : ∀ h ∈ s.gov.holds, h.followsFigures = false → h ∈ t.gov.holds

theorem Keeps.refl (s : State) : Keeps s s := ⟨rfl, id, .of_eq rfl rfl, fun _ h => h⟩

theorem Keeps.trans {s t u : State} (h : Keeps s t) (k : Keeps t u) : Keeps s u :=
  ⟨k.image.trans h.image, fun o => k.operating (h.operating o), h.records.trans k.records,
    fun i c => k.capacity (fun x hx => i x (h.image ▸ hx)) (h.capacity i c)⟩

theorem Settles.refl (s : State) : Settles s s := ⟨.refl s, fun _ h => h, fun _ h _ => h, fun _ h _ => h⟩

theorem Settles.trans {s t u : State} (h : Settles s t) (k : Settles t u) : Settles s u :=
  ⟨h.toKeeps.trans k.toKeeps, fun o ho => h.queue o (k.queue o ho), fun c hc hf => k.flags c (h.flags c hc hf) hf,
    fun c hc hf => k.holds c (h.holds c hc hf) hf⟩

/-- A choice between two operations settles when each does. -/
theorem Settles.ite {s t u : State} {p : Prop} [Decidable p] (ht : p → Settles s t) (hu : ¬ p → Settles s u) :
    Settles s (if p then t else u) := by
  split
  · exact ht ‹_›
  · exact hu ‹_›

theorem Keeps.ite {s t u : State} {p : Prop} [Decidable p] (ht : p → Keeps s t) (hu : ¬ p → Keeps s u) :
    Keeps s (if p then t else u) := by
  split
  · exact ht ‹_›
  · exact hu ‹_›

/-- A fold of operations that settle settles. -/
theorem Settles.foldl {α : Type} (f : State → α → State) (h : ∀ s a, Settles s (f s a)) (l : List α) (s : State) :
    Settles s (l.foldl f s) := by
  induction l generalizing s with
  | nil => exact .refl s
  | cons a l ih => exact (h s a).trans (ih (f s a))

theorem Keeps.foldl {α : Type} (f : State → α → State) (h : ∀ s a, Keeps s (f s a)) (l : List α) (s : State) :
    Keeps s (l.foldl f s) := by
  induction l generalizing s with
  | nil => exact .refl s
  | cons a l ih => exact (h s a).trans (ih (f s a))

/-! ## The primitive updates -/

section
variable (s : State)

theorem Keeps.gov (x : Gov) : Keeps s (s.withGov x) :=
  ⟨rfl, id, .of_eq rfl rfl, fun _ h => { h with heat := { h.heat with } }⟩

theorem Settles.govHolds (x : Gov) (holds : ∀ h ∈ s.gov.holds, h.followsFigures = false → h ∈ x.holds) :
    Settles s (s.withGov x) := ⟨.gov s x, fun _ h => h, fun _ h _ => h, holds⟩

/-- An update of the governor that leaves the holds. -/
theorem Settles.gov {vOp vT vA trips beforeTrip tripTimer driveEnable pulseTimer sequence} :
    Settles s (s.withGov ⟨vOp, vT, vA, s.gov.holds, trips, beforeTrip, tripTimer, driveEnable, pulseTimer, sequence⟩) :=
  .govHolds s _ (fun _ h _ => h)

theorem Settles.roll (x : RollUnit) : Settles s (s.withRoll x) :=
  ⟨⟨rfl, id, .of_eq rfl rfl, fun _ h => { h with heat := { h.heat with } }⟩, fun _ h => h, fun _ h _ => h, fun _ h _ => h⟩

theorem Settles.outfeed (x : OutfeedUnit) : Settles s (s.withOutfeed x) :=
  ⟨⟨rfl, id, .of_eq rfl rfl, fun _ h => { h with heat := { h.heat with } }⟩, fun _ h => h, fun _ h _ => h, fun _ h _ => h⟩

theorem Settles.pins (x : Pins) : Settles s (s.withPins x) :=
  ⟨⟨rfl, id, .of_eq rfl rfl, fun _ h => { h with heat := { h.heat with } }⟩, fun _ h => h, fun _ h _ => h, fun _ h _ => h⟩

theorem Settles.loader (x : Loader) (image : x.image = s.loader.image)
    (mode : operatingMode s.loader.mode = true → operatingMode x.mode = true) : Settles s (s.withLoader x) := by
  refine ⟨⟨image, mode, .of_eq rfl rfl, fun _ h => { h with heat := { h.heat with zones := ?_, cells := ?_ } }⟩,
    fun _ h => h, fun _ h _ => h, fun _ h _ => h⟩
  · simpa [State.is, State.role, State.cfg, State.operating, State.mode, image] using h.heat.zones
  · simpa [State.is, State.role, State.cfg, State.operating, State.mode, image] using h.heat.cells

theorem Keeps.cond (x : CondUnit) (counters : CountersFit s.cond → CountersFit x) : Keeps s (s.withCond x) :=
  ⟨rfl, id, .of_eq rfl rfl, fun _ h => { h with heat := { h.heat with }, counters := counters h.counters }⟩

theorem Settles.condFlags (x : CondUnit) (counters : CountersFit s.cond → CountersFit x)
    (flags : ∀ c ∈ s.cond.flags, c.followsFigures = false → c ∈ x.flags) :
    Settles s (s.withCond x) := ⟨.cond s x counters, fun _ h => h, flags, fun _ h _ => h⟩

/-- An update of the condition unit that leaves the flags and the counters. -/
theorem Settles.cond {link web heat roll wakeDue} :
    Settles s (s.withCond ⟨s.cond.flags, link, web, heat, roll, s.cond.checkErrors, s.cond.overruns, s.cond.straySenders,
      s.cond.strayMarks, s.cond.missedMarks, s.cond.limitedStrokes, wakeDue⟩) :=
  .condFlags s _ (fun h => h) (fun _ h _ => h)

/-- An update of the counters. -/
theorem Settles.counters {checkErrors overruns straySenders strayMarks missedMarks limitedStrokes}
    (fits : CountersFit s.cond → CountersFit ⟨s.cond.flags, s.cond.link, s.cond.web, s.cond.heat, s.cond.roll, checkErrors,
      overruns, straySenders, strayMarks, missedMarks, limitedStrokes, s.cond.wakeDue⟩) :
    Settles s (s.withCond ⟨s.cond.flags, s.cond.link, s.cond.web, s.cond.heat, s.cond.roll, checkErrors,
      overruns, straySenders, strayMarks, missedMarks, limitedStrokes, s.cond.wakeDue⟩) :=
  .condFlags s _ fits (fun _ h _ => h)

theorem Settles.bus (x : Bus) (fits : BusFits s.bus → BusFits x) : Settles s (s.withBus x) :=
  ⟨⟨rfl, id, .of_eq rfl rfl, fun _ h => { h with
      heat := { h.heat with }, rx_le := (fits h.busFits).rx_le, tx := (fits h.busFits).tx,
      fault_le := (fits h.busFits).fault_le }⟩, fun _ h => h, fun _ h _ => h, fun _ h _ => h⟩

theorem Keeps.peers (x : List PeerEntry) (fits : PeersFit s.peers → PeersFit x) : Keeps s (s.withPeers x) :=
  ⟨rfl, id, .of_eq rfl rfl, fun _ h => { h with
      heat := { h.heat with }, peers := (fits h.peersFit).length, ages_le := (fits h.peersFit).ages_le }⟩

theorem Keeps.order (x : OrderUnit) (fits : s.order.queue.length ≤ 32 → x.queue.length ≤ 32) : Keeps s (s.withOrder x) :=
  ⟨rfl, id, .of_eq rfl rfl, fun _ h => { h with heat := { h.heat with }, orders_le := fits h.orders_le }⟩

theorem Settles.orderQueue (x : OrderUnit) (queue : x.queue.Sublist s.order.queue) : Settles s (s.withOrder x) :=
  ⟨.order s x (fun h => queue.length_le.trans h), fun _ h => queue.subset h, fun _ h _ => h, fun _ h _ => h⟩

/-- An update of the order unit that leaves the queue. -/
theorem Settles.order {anchor nextSeg newSequence spliceRequest fence wait stall refusal birthHeld punches} :
    Settles s (s.withOrder ⟨s.order.queue, anchor, nextSeg, newSequence, spliceRequest, fence, wait, stall, refusal,
      birthHeld, punches⟩) :=
  .orderQueue s _ (.refl _)

theorem Settles.pattern (x : PatternUnit) (fits : PatternFits s.pattern → PatternFits x) : Settles s (s.withPattern x) :=
  ⟨⟨rfl, id, .of_eq rfl rfl, fun _ h => { h with
      heat := { h.heat with }, limit_le := (fits h.patternFits).limit_le, slots := (fits h.patternFits).slots,
      steps := (fits h.patternFits).steps }⟩, fun _ h => h, fun _ h _ => h, fun _ h _ => h⟩

theorem Settles.heat (x : HeatUnit) (fits : HeatFits s.heat → HeatFits x)
    (zones : x.zones.length = s.heat.zones.length) (cells : x.cells.length = s.heat.cells.length)
    (judgements : JudgementsFit s.web.map s.heat.judgements → JudgementsFit s.web.map x.judgements) :
    Settles s (s.withHeat x) := by
  refine ⟨⟨rfl, id, .of_eq rfl rfl, fun _ h => { h with
      recipes := (fits h.heatFits).recipes, channels := (fits h.heatFits).channels,
      samples_le := (fits h.heatFits).samples_le, heat := ?_ }⟩, fun _ h => h, fun _ h _ => h, fun _ h _ => h⟩
  have hj := judgements h.judgements
  exact { zones := zones.trans h.heat.zones, zones_le := zones.trans_le h.heat.zones_le,
          cells := cells.trans h.heat.cells, cells_le := cells.trans_le h.heat.cells_le,
          judged_once := hj.once, judged_held := hj.held, judged_le := hj.length_le }

/-- An update of the web tracker by the map it leaves. -/
theorem Settles.web (x : Web) (records : RecordsKept s (s.withWeb x)) (map_le : s.web.map.length ≤ 48 → x.map.length ≤ 48)
    (cancel_le : s.web.cancelList.length ≤ 4 → x.cancelList.length ≤ 4)
    (miss_le : s.web.missCount ≤ 2 → x.missCount ≤ 2)
    (held : JudgementsFit s.web.map s.heat.judgements → JudgementsFit x.map s.heat.judgements) :
    Settles s (s.withWeb x) :=
  ⟨⟨rfl, id, records, fun _ h => { h with
      map_le := map_le h.map_le, cancel_le := cancel_le h.cancel_le, miss_le := miss_le h.miss_le,
      heat := { h.heat with
        judged_held := (held h.judgements).held, judged_le := (held h.judgements).length_le } }⟩,
    fun _ h => h, fun _ h _ => h, fun _ h _ => h⟩

/-- An update of the web tracker that leaves the map and the cancel list. -/
theorem Settles.webMiss {infeed outfeed p0 expected firstSend window closing candidate missCount}
    (miss_le : s.web.missCount ≤ 2 → missCount ≤ 2) :
    Settles s (s.withWeb ⟨infeed, outfeed, p0, s.web.map, expected, firstSend, window, closing, candidate, missCount,
      s.web.cancelList, s.web.nextUid⟩) :=
  .web s _ (.of_eq rfl rfl) (fun h => h) (fun h => h) miss_le (fun h => h)

/-- An update of the web tracker that leaves the map, the cancel list and the misses. -/
theorem Settles.webFields {infeed outfeed p0 expected firstSend window closing candidate} :
    Settles s (s.withWeb ⟨infeed, outfeed, p0, s.web.map, expected, firstSend, window, closing, candidate, s.web.missCount,
      s.web.cancelList, s.web.nextUid⟩) :=
  .webMiss s (fun h => h)

/-- Records that stand for those of another map, one for one, in its order. -/
theorem sameRecords_uids {l m : List Segment} (h : List.Forall₂ SameRecord l m) :
    m.map Segment.uid = l.map Segment.uid := by
  induction h with
  | nil => rfl
  | cons hr _ ih => simp [hr.uid, ih]

/-- An update of the web tracker that changes its records one by one. -/
theorem Settles.webRecords (x : Web) (map : List.Forall₂ SameRecord s.web.map x.map) (next : x.nextUid = s.web.nextUid)
    (cancel_le : s.web.cancelList.length ≤ 4 → x.cancelList.length ≤ 4)
    (miss_le : s.web.missCount ≤ 2 → x.missCount ≤ 2) : Settles s (s.withWeb x) := by
  have hu := sameRecords_uids map
  have hmem : ∀ u, (∃ g ∈ s.web.map, g.uid = u) → ∃ g ∈ x.map, g.uid = u := by
    intro u
    have hx : u ∈ s.web.map.map Segment.uid → u ∈ x.map.map Segment.uid := by rw [hu]; exact id
    simpa using hx
  refine .web s x ⟨next.ge, fun h hh => .inl ?_, fun hs => ⟨?_, ?_⟩⟩ (fun h => map.length_eq ▸ h) cancel_le miss_le
    (fun h => ⟨h.once, fun j hj => hmem _ (h.held j hj)⟩)
  · obtain ⟨i, hi, rfl⟩ := List.getElem_of_mem hh
    have hi' : i < s.web.map.length := by rw [map.length_eq]; exact hi
    exact ⟨s.web.map[i], List.getElem_mem hi', map.get hi' hi⟩
  · exact (show x.map.map Segment.uid = _ from hu) ▸ hs.once
  · intro g hg
    have : g.uid ∈ s.web.map.map Segment.uid := hu ▸ List.mem_map_of_mem hg
    obtain ⟨g', hg', he⟩ := List.mem_map.1 this
    have := hs.fresh g' hg'
    simp only [State.withWeb_web, next]
    omega

/-- An update of the web tracker that changes each record by one function. -/
theorem Settles.webMap (x : Web) (f : Segment → Segment) (map : x.map = s.web.map.map f) (hf : ∀ g, SameRecord g (f g))
    (next : x.nextUid = s.web.nextUid) (cancel_le : s.web.cancelList.length ≤ 4 → x.cancelList.length ≤ 4)
    (miss_le : s.web.missCount ≤ 2 → x.missCount ≤ 2) : Settles s (s.withWeb x) := by
  refine .webRecords s x ?_ next cancel_le miss_le
  rw [map, List.forall₂_map_right_iff]
  exact List.forall₂_same.2 (fun g _ => hf g)

end

end Sys2Proof.Machine
end

