-- ==== Sys2Proof/Proofs/KeptFlags.lean ====
section
/-! PROOFS. What the shared operations of Machine/Flags.lean and Machine/Ops.lean keep: the transmit queue, the notices, the
conditions, the holds and the pulse. -/

namespace Sys2Proof.Machine
open Sys2Proof

/-! ## The transmit queue (R210, R211) -/

/-- A queue from which telegrams have been taken stays sound. -/
theorem TxSafe.sublist {l m : List TxEntry} (h : TxSafe l) (hm : m.Sublist l) : TxSafe m where
  length_le := hm.length_le.trans h.length_le
  ordered := h.ordered.sublist hm
  sending_le := (hm.filter _).length_le.trans h.sending_le
  pulses_le := (hm.filter _).length_le.trans h.pulses_le

theorem insertByClass_perm (e : TxEntry) (l : List TxEntry) : (insertByClass e l).Perm (e :: l) := by
  induction l with
  | nil => exact .refl _
  | cons x xs ih =>
    unfold insertByClass
    split
    · exact (ih.cons x).trans (.swap e x xs)
    · exact .refl _

/-- A waiting telegram enters a queue with a free place; a pulse only where none waits. -/
theorem TxSafe.insert {l : List TxEntry} (h : TxSafe l) (e : TxEntry) (free : l.length < 8) (waits : e.inTransmission = false)
    (pulse : e.kind = .linePulse → l.filter TxEntry.waitingPulse = []) : TxSafe (insertByClass e l) where
  length_le := by rw [insertByClass_length]; omega
  ordered := insertByClass_ordered e l h.ordered
  sending_le := by
    rw [((insertByClass_perm e l).filter _).length_eq, List.filter_cons_of_neg (by simp [waits])]
    exact h.sending_le
  pulses_le := by
    rw [((insertByClass_perm e l).filter _).length_eq]
    by_cases hp : e.kind = .linePulse
    · rw [List.filter_cons, pulse hp]; split <;> simp
    · rw [List.filter_cons_of_neg (by simp [TxEntry.waitingPulse, hp])]
      exact h.pulses_le

/-- The first waiting telegram of a list, taken out of it (R210). -/
theorem takeWaiting_eq_some {l r : List TxEntry} {d : TxEntry} (h : takeWaiting l = some (d, r)) :
    d.inTransmission = false ∧ ∃ pre post, l = pre ++ d :: post ∧ r = pre ++ post := by
  induction l generalizing r with
  | nil => simp [takeWaiting] at h
  | cons x xs ih =>
    unfold takeWaiting at h
    split at h
    · cases hq : takeWaiting xs with
      | none => simp [hq] at h
      | some p =>
        obtain ⟨d', r'⟩ := p
        simp only [hq, Option.map_some, Option.some.injEq, Prod.mk.injEq] at h
        obtain ⟨rfl, rfl⟩ := h
        obtain ⟨hd, pre, post, rfl, rfl⟩ := ih hq
        exact ⟨hd, x :: pre, post, rfl, rfl⟩
    · simp only [Option.some.injEq, Prod.mk.injEq] at h
      obtain ⟨rfl, rfl⟩ := h
      exact ⟨by simp_all, [], xs, rfl, rfl⟩

/-- The telegram displaced is one of the queue, and the rest is the queue without it (R210). -/
theorem displaced_sublist {l r : List TxEntry} {d : TxEntry} (h : takeWaiting l.reverse = some (d, r)) :
    r.reverse.Sublist l ∧ l.length = r.reverse.length + 1 := by
  obtain ⟨-, pre, post, hl, rfl⟩ := takeWaiting_eq_some h
  have hl' : l = post.reverse ++ d :: pre.reverse := by
    rw [← List.reverse_reverse l, hl]; simp
  rw [hl', List.reverse_append]
  refine ⟨?_, by simp; omega⟩
  exact (List.Sublist.refl _).append (List.sublist_cons_self _ _)

/-- Loads of a sound transmit queue. -/
theorem Settles.tx (s : State) (l : List TxEntry) (fits : TxSafe s.bus.tx → TxSafe l) : Settles s (setTx l s) :=
  .bus s _ (fun h => ⟨h.rx_le, fits h.tx, h.fault_le⟩)

theorem setRecord_settles (g : Group) (r : GroupRecord) (s : State) : Settles s (setRecord g r s) := by
  unfold setRecord
  cases g <;> exact .cond s

theorem noticeRemoved_settles (e : TxEntry) (s : State) : Settles s (noticeRemoved e s) :=
  .ite (fun _ => setRecord_settles ..) (fun _ => .refl s)

/-- Queueing a telegram that waits; a pulse only where none waits (R210, R211). -/
theorem queueTx_settles (e : TxEntry) (s : State) (waits : e.inTransmission = false)
    (pulse : e.kind = .linePulse → s.bus.tx.filter TxEntry.waitingPulse = []) : Settles s (queueTx e s) := by
  unfold queueTx
  split
  · exact .tx s _ (fun h => h.insert e ‹_› waits pulse)
  · split
    · exact .refl s
    · rename_i d rest hd
      obtain ⟨hsub, hlen⟩ := displaced_sublist hd
      refine .ite (fun _ => ?_) (fun _ => .refl s)
      refine Settles.trans (.tx s _ (fun h => (h.sublist hsub).insert e ?_ waits fun hp => ?_)) (noticeRemoved_settles d _)
      · have := h.length_le; omega
      · exact List.sublist_nil.1 (pulse hp ▸ hsub.filter _)

theorem queueTx_settles_of_ne (e : TxEntry) (s : State) (waits : e.inTransmission = false)
    (kind : e.kind ≠ .linePulse) : Settles s (queueTx e s) :=
  queueTx_settles e s waits (fun h => absurd h kind)

/-! ## Notices (R175 to R178) -/

theorem offerNotice_settles (g : Group) (s : State) : Settles s (offerNotice g s) :=
  .ite
    (fun h => (Settles.tx s _ (fun hx => hx.insert _ h rfl (by simp))).trans (setRecord_settles ..))
    (fun _ => setRecord_settles ..)

theorem offerPending_settles (s : State) : Settles s (offerPending s) := by
  unfold offerPending
  split
  · exact offerNotice_settles ..
  · exact .refl s

theorem noticeCompleted_settles (g : Group) (s : State) : Settles s (noticeCompleted g s) :=
  .ite (fun _ => (setRecord_settles ..).trans (offerNotice_settles ..)) (fun _ => setRecord_settles ..)

theorem reportRising_settles (c : Cond) (s : State) : Settles s (reportRising c s) := by
  unfold reportRising
  refine .ite (fun _ => ?_) (fun _ => .refl s)
  dsimp only
  split
  · exact (setRecord_settles ..).trans (offerNotice_settles ..)
  · exact setRecord_settles ..
  · exact setRecord_settles ..

/-! ## Conditions and holds (R33, R172 to R174) -/

theorem setFlags_keeps (l : List Cond) (s : State) : Keeps s (setFlags l s) := .cond s _ (fun h => h)

theorem raise_settles (c : Cond) (s : State) : Settles s (raise c s) := by
  unfold raise
  refine .ite (fun _ => .refl s) (fun _ => ?_)
  have h : Settles s (reportRising c (setFlags (s.cond.flags ++ [c]) s)) :=
    Settles.trans (.condFlags s _ (by exact fun h => h) (by exact fun d hd _ => List.mem_append_left _ hd)) (reportRising_settles ..)
  exact .ite (fun _ => h.trans (.cond _)) (fun _ => h)

theorem fall_keeps (c : Cond) (s : State) : Keeps s (fall c s) := setFlags_keeps ..

theorem fall_settles (c : Cond) (s : State) (hc : c.followsFigures = true) : Settles s (fall c s) :=
  .condFlags s _ (fun h => h) (fun d hd hf => (mem_removeAll ..).2 ⟨by rintro rfl; simp [hc] at hf, hd⟩)

theorem follow_keeps (c : Cond) (b : Bool) (s : State) : Keeps s (follow c b s) :=
  .ite (fun _ => (raise_settles c s).toKeeps) (fun _ => fall_keeps c s)

theorem follow_settles (c : Cond) (b : Bool) (s : State) (hc : c.followsFigures = true) : Settles s (follow c b s) :=
  .ite (fun _ => raise_settles c s) (fun _ => fall_settles c s hc)

theorem reassert_keeps (c : Cond) (s : State) : Keeps s (reassert c s) :=
  (setFlags_keeps ..).trans (reportRising_settles ..).toKeeps

theorem setHold_settles (h : HoldCause) (s : State) : Settles s (setHold h s) :=
  .govHolds s _ (fun _ hk _ => (mem_insertNew ..).2 (.inr hk))

theorem clearHold_keeps (h : HoldCause) (s : State) : Keeps s (clearHold h s) := .gov s _

theorem followHold_settles (h : HoldCause) (b : Bool) (s : State) (hh : h.followsFigures = true) :
    Settles s (followHold h b s) :=
  .ite (fun _ => setHold_settles h s)
    (fun _ => .govHolds s _ (fun k hk hf => (mem_removeAll ..).2 ⟨by rintro rfl; simp [hh] at hf, hk⟩))

/-! ## The LINE PULSE (R25, R26, R211) -/

/-- The newer of two pulses takes the place of the older. -/
theorem TxSafe.replacePulse {l : List TxEntry} (h : TxSafe l) (e : TxEntry) (kind : e.kind = .linePulse)
    (waits : e.inTransmission = false) : TxSafe (l.map (fun x => if x.waitingPulse then e else x)) := by
  have hw : e.waitingPulse = true := by simp [TxEntry.waitingPulse, kind, waits]
  have hkind : ∀ x : TxEntry, (if x.waitingPulse then e else x).kind = x.kind := by
    intro x; split
    · simp_all [TxEntry.waitingPulse]
    · rfl
  have hsent : TxEntry.inTransmission ∘ (fun x : TxEntry => if x.waitingPulse then e else x) = TxEntry.inTransmission := by
    funext x
    simp only [Function.comp]
    split
    · simp_all [TxEntry.waitingPulse]
    · rfl
  have hwait : TxEntry.waitingPulse ∘ (fun x : TxEntry => if x.waitingPulse then e else x) = TxEntry.waitingPulse := by
    funext x
    simp only [Function.comp]
    split <;> simp_all
  constructor
  · simpa using h.length_le
  · rw [List.pairwise_map]
    simpa only [hkind] using h.ordered
  · rw [List.filter_map, List.length_map, hsent]; exact h.sending_le
  · rw [List.filter_map, List.length_map, hwait]; exact h.pulses_le

theorem queuePulse_settles (s : State) : Settles s (queuePulse s) := by
  let e : TxEntry := { kind := .linePulse, dest := 0, body := pulseBody s }
  have queued : Settles s (if s.bus.tx.any TxEntry.waitingPulse then
      setTx (s.bus.tx.map (fun x => if x.waitingPulse then e else x)) s else queueTx e s) := by
    refine .ite (fun _ => .tx s _ (fun h => h.replacePulse e rfl rfl)) (fun hn => ?_)
    exact queueTx_settles e s rfl (fun _ => List.filter_eq_nil_iff.2 (by simpa using hn))
  exact queued.trans (.gov _)

theorem startPulseTimer_settles (s : State) : Settles s (startPulseTimer s) := .gov s

theorem pulseForMode_settles (s : State) : Settles s (pulseForMode s) :=
  (queuePulse_settles s).trans (startPulseTimer_settles _)

/-- A change between operating modes (R197). -/
theorem setMode_settles (m : Mode) (s : State) (hm : operatingMode m = true) : Settles s (setMode m s) :=
  .loader s _ rfl (fun _ => hm)

/-! ## The records of the map (R4, R22) -/

theorem updateSeg_settles (uid : Nat) (f : Segment → Segment) (s : State) (hf : ∀ g, SameRecord g (f g)) :
    Settles s (updateSeg uid f s) := by
  refine .webMap s _ (fun g => if g.uid == uid then f g else g) rfl (fun g => ?_) rfl (fun h => h) (fun h => h)
  split
  · exact hf g
  · exact .refl g

/-- Marking a record keeps it the record it was. -/
theorem mark_same (c : RejectCause) (g : Segment) : SameRecord g (g.mark c) :=
  ⟨rfl, by constructor <;> simp +contextual [Segment.mark]⟩

theorem markSeg_settles (uid : Nat) (c : RejectCause) (s : State) : Settles s (markSeg uid c s) :=
  updateSeg_settles uid _ s (mark_same c)

end Sys2Proof.Machine
end

