-- ==== Sys2Proof/Proofs/KeptKnifeOutfeed.lean ====
section
/-! PROOFS. What the operations of Machine/Knife.lean and Machine/Outfeed.lean keep. -/

namespace Sys2Proof.Machine
open Sys2Proof

/-! ## Pattern copies (R49) -/

/-- The copies of a slot hold at most 24 steps (R49). -/
structure SlotFits (x : PatternSlot) : Prop where
  active : ∀ c ∈ x.active, c.steps.length ≤ 24
  pending : ∀ c ∈ x.pending, c.steps.length ≤ 24

/-- What a run has bound holds at most 24 steps (R61). -/
def RunFits (r : Option KnifeRun) : Prop := ∀ x ∈ r, ∀ b ∈ x.bound, b.copy.steps.length ≤ 24

theorem slotFits_empty : SlotFits {} := by constructor <;> simp

theorem PatternFits.slot {s : State} (h : PatternFits s.pattern) (n : Nat) : SlotFits (s.slot n) := by
  unfold State.slot
  split
  · by_cases hn : n - 1 < s.pattern.slots.length
    · have hmem := List.getElem_mem hn
      rw [List.getD_eq_getElem _ _ hn]
      exact ⟨h.steps.active _ hmem, h.steps.pending _ hmem⟩
    · rw [List.getD_eq_default _ _ (Nat.le_of_not_lt hn)]
      exact slotFits_empty
  · exact slotFits_empty

theorem SlotFits.activate {x : PatternSlot} {c : PatternCopy} (h : c.steps.length ≤ 24) : SlotFits (x.activate c) := by
  constructor <;> simp [PatternSlot.activate, h]

/-- An update of the pattern unit that leaves the pattern table and the upload. -/
theorem Settles.knifeRun (s : State) {uploadPattern uploadStatus run stroke heldFold depth move pleatedLengths}
    (fits : RunFits s.pattern.run → RunFits run) :
    Settles s (s.withPattern ⟨s.pattern.slots, s.pattern.staging, uploadPattern, uploadStatus, run, stroke, heldFold, depth,
      move, s.pattern.limitCount, pleatedLengths⟩) :=
  .pattern s _ (fun h => ⟨h.limit_le, h.slots, { h.steps with bound := fits h.steps.bound }⟩)

/-- An update of the pattern unit that leaves the run too. -/
theorem Settles.knife (s : State) {uploadPattern uploadStatus stroke heldFold depth move pleatedLengths} :
    Settles s (s.withPattern ⟨s.pattern.slots, s.pattern.staging, uploadPattern, uploadStatus, s.pattern.run, stroke,
      heldFold, depth, move, s.pattern.limitCount, pleatedLengths⟩) :=
  .knifeRun s (fun h => h)

theorem setSlot_settles (n : Nat) (x : PatternSlot) (s : State) (hx : PatternFits s.pattern → SlotFits x) :
    Settles s (setSlot n x s) := by
  refine .pattern s _ (fun h => ⟨h.limit_le, by simpa using h.slots, ?_⟩)
  refine { h.steps with active := fun y hy => ?_, pending := fun y hy => ?_ } <;>
    rcases List.mem_or_eq_of_mem_set hy with hm | rfl
  · exact h.steps.active y hm
  · exact (hx h).active
  · exact h.steps.pending y hm
  · exact (hx h).pending

theorem promote_settles (n : Nat) (s : State) : Settles s (promote n s) := by
  unfold promote
  split
  · exact .refl s
  · rename_i c hc
    have h : Settles s (setSlot n ((s.slot n).activate c) s) :=
      setSlot_settles _ _ s (fun hp => SlotFits.activate ((hp.slot n).pending c hc))
    exact .ite (fun _ => h.trans (.knife _)) (fun _ => h)

/-! ## The knife (R61 to R71) -/

theorem misfold_settles (uid : Nat) (s : State) : Settles s (misfold uid s) :=
  (markSeg_settles ..).trans (raise_settles ..)

theorem startMove_settles (s : State) : Settles s (startMove s) := by
  unfold startMove
  split
  · exact .refl s
  · exact .ite (fun _ => .knife s) (fun _ => .refl s)

theorem abandonMove_settles (s : State) : Settles s (abandonMove s) :=
  .ite (fun _ => .knife s) (fun _ => .refl s)

theorem beginStroke_settles (k : Nat) (late : Bool) (s : State) : Settles s (beginStroke k late s) := by
  unfold beginStroke
  split
  · dsimp only
    split
    · exact .ite (fun _ => Settles.trans (.knife s) (misfold_settles ..)) (fun _ => .knife s)
    · exact .knife s
  · exact .refl s

theorem afterKnife_settles (s : State) : Settles s (afterKnife s) := by
  unfold afterKnife
  split
  · exact .ite (fun _ => Settles.trans (.knife s) (beginStroke_settles ..)) (fun _ => startMove_settles s)
  · exact startMove_settles s

theorem idleKnife_settles (s : State) : Settles s (idleKnife s) := .knife s

theorem dropHeldFold_settles (s : State) : Settles s (dropHeldFold s) := by
  unfold dropHeldFold
  split
  · exact Settles.trans (.knife s) (misfold_settles ..)
  · exact .refl s

theorem endRun_settles (s : State) : Settles s (endRun s) := by
  unfold endRun
  split
  · exact .refl s
  · exact (dropHeldFold_settles s).trans
      (Settles.trans (.knifeRun _ (by exact fun _ => by simp [RunFits])) (promote_settles ..))

/-- What a run binds is a copy of the pattern table (R61). -/
theorem PatternFits.bindFor {s : State} (h : PatternFits s.pattern) (g : Segment) {b : Bound} (hb : s.bindFor g = some b) :
    b.copy.steps.length ≤ 24 := by
  unfold State.bindFor at hb
  dsimp only at hb
  split at hb
  · cases hb
  · rename_i c hc
    obtain ⟨n, -, rfl⟩ := Option.map_eq_some_iff.1 hb
    exact (h.slot _).active c hc

/-- What the events of R2 note in a record leaves what it keeps. -/
theorem ran_same (g : Segment) : SameRecord g { g with ran := true } := ⟨rfl, by constructor <;> simp⟩

theorem startRun_settles (g : Segment) (s : State) : Settles s (startRun g s) := by
  unfold startRun
  dsimp only
  generalize ht : updateSeg g.uid (fun x => { x with ran := true }) (endRun s) = t
  have h : Settles s t := ht ▸ (endRun_settles s).trans (updateSeg_settles _ _ _ ran_same)
  split
  · rename_i b hb
    refine h.trans (Settles.trans ?_ (startMove_settles _))
    refine .pattern t _ (fun hp => ⟨hp.limit_le, hp.slots, { hp.steps with bound := fun r hr c hc => ?_ }⟩)
    simp only [Option.mem_def, Option.some.injEq] at hr
    subst hr
    exact hp.bindFor g hc
  · rename_i hb
    refine h.trans (Settles.trans (.knifeRun t (fun _ => ?_)) (markSeg_settles ..))
    simp [RunFits, hb]

theorem takeFold_settles (s : State) : Settles s (takeFold s) := by
  unfold takeFold
  split
  · exact .refl s
  · rename_i r hr
    have h : Settles s (s.withPattern { s.pattern with run := some { r with nextPleat := r.nextPleat + 1 } }) := by
      refine .knifeRun s (fun hf x hx b hb => ?_)
      simp only [Option.mem_def, Option.some.injEq] at hx
      subst hx
      exact hf r hr b hb
    refine .ite (fun _ => h.trans (misfold_settles ..)) (fun _ => ?_)
    refine .ite (fun _ => h.trans (beginStroke_settles ..)) (fun _ => ?_)
    exact .ite (fun _ => h.trans (Settles.trans (.knife _) (startMove_settles _))) (fun _ => h.trans (misfold_settles ..))

theorem tripKnife_settles (s : State) : Settles s (tripKnife s) := by
  refine Settles.trans ?_ (dropHeldFold_settles _)
  split
  · exact (idleKnife_settles s).trans (markSeg_settles ..)
  · exact .refl s

theorem dropSegKnife_settles (uid : Nat) (s : State) : Settles s (dropSegKnife uid s) := by
  refine Settles.trans ?_ (.knife _)
  split
  · exact .ite (fun _ => endRun_settles s) (fun _ => .refl s)
  · exact .refl s

/-! ## The outfeed (R157 to R170) -/

theorem setPiece_settles (p : Option Piece) (s : State) : Settles s (setPiece p s) := .outfeed s _
theorem setGate_settles (g : Gate) (s : State) : Settles s (setGate g s) := .outfeed s _

theorem moveGate_settles (target : GatePos) (s : State) : Settles s (moveGate target s) :=
  .ite (fun _ => .refl s) (fun _ => setGate_settles ..)

theorem gateAtDriveSet_settles (s : State) : Settles s (gateAtDriveSet s) := by
  refine Settles.trans ?_ (moveGate_settles ..)
  split
  · exact .ite (fun _ => .refl s) (fun _ => setGate_settles ..)
  · exact .refl s
  · exact .refl s

theorem outfeedDriveClear_settles (s : State) : Settles s (outfeedDriveClear s) :=
  .ite (fun _ => Settles.trans (.outfeed s _) (setGate_settles ..)) (fun _ => .outfeed s _)

theorem markGateLate_settles (uid : Nat) (s : State) : Settles s (markGateLate uid s) :=
  (markSeg_settles ..).trans (raise_settles ..)

theorem panelOutcome_settles (g : Segment) (good : Bool) (d : Option Decision) (s : State) :
    Settles s (panelOutcome g good d s) := Settles.trans (.outfeed s _) (queueTx_settles_of_ne _ _ (by rfl) (by exact nofun))

theorem openPiece_settles (c : Content) (edge : Word) (s : State) : Settles s (openPiece c edge s) := by
  unfold openPiece
  dsimp only
  refine .ite (fun _ => setPiece_settles ..) (fun _ => .ite (fun _ => ?_) (fun _ => ?_))
  · split
    · exact .ite
        (fun _ => (setPiece_settles ..).trans ((moveGate_settles ..).trans (markGateLate_settles ..)))
        (fun _ => (setPiece_settles ..).trans ((moveGate_settles ..).trans (markSeg_settles ..)))
    · exact (setPiece_settles ..).trans (moveGate_settles ..)
  · exact (setPiece_settles ..).trans (moveGate_settles ..)

/-- Marks of the two panels at a skipped boundary, and the outcome of the leaving one, settle (R164, R166). -/
theorem joinPiece_settles (entering : Content) (s : State) : Settles s (joinPiece entering s) := by
  unfold joinPiece
  extract_lets passes leaving t u v piece
  clear_value leaving
  have ht : Settles s t := by
    unfold t
    split
    · exact .ite (fun _ => markGateLate_settles ..) (fun _ => .ite (fun _ => .refl s) (fun _ => markSeg_settles ..))
    · exact .refl s
  have hu : Settles t u := by
    unfold u
    split
    · exact .ite (fun _ => markGateLate_settles ..) (fun _ => markSeg_settles ..)
    · exact .refl _
  have hv : Settles u v := by
    unfold v
    split
    · exact panelOutcome_settles ..
    · exact .refl _
  exact ht.trans (hu.trans (hv.trans ((setPiece_settles ..).trans (moveGate_settles ..))))

theorem deliverPiece_settles (s : State) : Settles s (deliverPiece s) := by
  unfold deliverPiece
  split
  · exact .refl s
  · split
    · exact .refl s
    · exact panelOutcome_settles ..

theorem takeBoundary_settles (entering : Content) (edge : Word) (s : State) : Settles s (takeBoundary entering edge s) :=
  .ite (fun _ => (deliverPiece_settles s).trans (Settles.trans (.outfeed _ _) (openPiece_settles ..)))
    (fun _ => joinPiece_settles ..)

theorem retestPiece_settles (s : State) : Settles s (retestPiece s) := by
  unfold retestPiece
  split
  · exact .refl s
  · refine .ite (fun _ => .refl s) (fun _ => .ite (fun _ => (setPiece_settles ..).trans (moveGate_settles ..)) (fun _ => ?_))
    split
    · exact .refl s
    · exact .ite (fun _ => markGateLate_settles ..) (fun _ => (setPiece_settles ..).trans (moveGate_settles ..))

theorem dropSegOutfeed_settles (g : Segment) (s : State) : Settles s (dropSegOutfeed g s) := by
  unfold dropSegOutfeed
  split
  · exact .refl s
  · exact .ite (fun _ => panelOutcome_settles ..) (fun _ => .refl s)

end Sys2Proof.Machine
end

