-- ==== Sys2Proof/Proofs/KeptHeat.lean ====
section
/-! PROOFS. What the operations of Machine/Heat.lean keep. -/

namespace Sys2Proof.Machine
open Sys2Proof

/-- An update of the heat-set unit that leaves the channels, the recipes and the judgement list, and the number of zones and
cells. -/
theorem Settles.heatTables (s : State) {zones chamber bandCount parkTimer heatTimer cells shiftAnchor}
    (hz : zones.length = s.heat.zones.length) (hc : cells.length = s.heat.cells.length) :
    Settles s (s.withHeat ⟨s.heat.channels, s.heat.recipes, zones, chamber, bandCount, parkTimer, heatTimer, cells,
      shiftAnchor, s.heat.judgements⟩) :=
  .heat s _ (fun h => ⟨h.recipes, h.channels, h.samples_le⟩) hz hc (fun h => h)

/-- An update of the heat-set unit that leaves the zones and cells too. -/
theorem Settles.heatFields (s : State) {chamber bandCount parkTimer heatTimer shiftAnchor} :
    Settles s (s.withHeat ⟨s.heat.channels, s.heat.recipes, s.heat.zones, chamber, bandCount, parkTimer, heatTimer,
      s.heat.cells, shiftAnchor, s.heat.judgements⟩) :=
  .heatTables s rfl rfl

/-! ## Samples and faults (R125, R126) -/

/-- The counts of a channel lie in their ranges (R126). -/
def Channel.Fits (x : Channel) : Prop := x.bad ≤ 4 ∧ x.good ≤ 10

theorem HeatFits.channel {s : State} (h : HeatFits s.heat) (n : Nat) : (s.channel n).Fits := by
  unfold State.channel
  by_cases hn : n < s.heat.channels.length
  · rw [List.getD_eq_getElem _ _ hn]; exact h.samples_le _ (List.getElem_mem hn)
  · rw [List.getD_eq_default _ _ (Nat.le_of_not_lt hn)]; simp [Channel.Fits]

theorem setChannel_settles (n : Nat) (x : Channel) (s : State) (hx : HeatFits s.heat → x.Fits) :
    Settles s (setChannel n x s) := by
  refine .heat s _ (fun h => ⟨h.recipes, by simpa using h.channels, fun c hc => ?_⟩) rfl rfl id
  rcases List.mem_or_eq_of_mem_set hc with hm | rfl
  · exact h.samples_le c hm
  · exact hx h

/-- A channel's counts stay in range at a sample: they saturate (R126). -/
theorem Channel.Fits.sample {c : Channel} (h : c.Fits) (x : Scaling) (raw : Nat) : (c.sample x raw).Fits := by
  have ⟨hb, hg⟩ := h
  unfold Channel.sample
  split
  · exact ⟨Nat.min_le_left .., Nat.zero_le _⟩
  · refine ⟨Nat.zero_le _, ?_⟩
    dsimp only
    split
    · exact Nat.min_le_left ..
    · exact hg

theorem setZone_settles (z : Nat) (x : Zone) (s : State) : Settles s (setZone z x s) := .heatTables s (by simp) rfl

theorem setFaulted_settles (n : Nat) (b : Bool) (s : State) :
    Settles s (setChannel n { s.channel n with faulted := b } s) := setChannel_settles n _ s (fun h => h.channel n)

theorem declareFault_settles (n : Nat) (s : State) : Settles s (declareFault n s) := by
  unfold declareFault
  refine .ite (fun _ => ?_) (fun _ => .refl s)
  extract_lets c t
  have h : Settles s t := (setFaulted_settles n true s).trans (raise_settles ..)
  exact .ite (fun _ => h.trans (setZone_settles ..)) (fun _ => h)

theorem clearFault_keeps (n : Nat) (s : State) : Keeps s (clearFault n s) :=
  .ite (fun _ => (setFaulted_settles n false s).toKeeps.trans (fall_keeps ..)) (fun _ => .refl s)

theorem takeSample_settles (n raw : Nat) (s : State) : Settles s (takeSample n raw s) :=
  .ite (fun _ => setChannel_settles _ _ _ (fun h => (h.channel n).sample _ _)) (fun _ => .refl s)

theorem takeSamples_settles (samples : List (BitVec 12)) (s : State) : Settles s (takeSamples samples s) :=
  .foldl _ (fun t n => takeSample_settles n _ t) _ s

theorem judgeFaults_keeps (s : State) : Keeps s (judgeFaults s) :=
  .foldl _ (fun t n => (declareFault_settles n t).toKeeps.trans (clearFault_keeps n _)) _ s

/-! ## Chamber and setpoints (R130 to R134) -/

theorem setChamber_settles (c : ChamberState) (s : State) : Settles s (setChamber c s) := .heatFields s

theorem parkTest_settles (s : State) : Settles s (parkTest s) :=
  .ite
    (fun _ => .ite
      (fun _ => .ite (fun _ => .refl s) (fun _ => .ite (fun _ => setChamber_settles ..) (fun _ => .heatFields s)))
      (fun _ => .heatFields s))
    (fun _ => .refl s)

theorem demandTest_settles (s : State) : Settles s (demandTest s) :=
  .ite (fun _ => setChamber_settles ..) (fun _ => .refl s)

theorem loadSetpoints_settles (s : State) : Settles s (loadSetpoints s) := .heatTables s (by simp) rfl

theorem refreshHeat_settles (s : State) : Settles s (refreshHeat s) :=
  .ite
    (fun _ => (parkTest_settles s).trans ((demandTest_settles _).trans
      ((loadSetpoints_settles _).trans (follow_settles .speedFloor _ _ rfl))))
    (fun _ => .refl s)

theorem enterReadyHeat_settles (s : State) : Settles s (enterReadyHeat s) :=
  (setChamber_settles ..).trans (parkTest_settles _)

theorem bandScan_settles (s : State) : Settles s (bandScan s) :=
  .ite
    (fun _ => .ite
      (fun _ => .ite (fun _ => Settles.trans (.heatFields s) (enterReadyHeat_settles _)) (fun _ => .heatFields s))
      (fun _ => .heatFields s))
    (fun _ => .refl s)

theorem warmChamber_settles (s : State) : Settles s (warmChamber s) :=
  .ite (fun _ => setChamber_settles ..) (fun _ => .refl s)

/-! ## Valves, control and cuts (R136 to R142) -/

theorem closeValves_settles (s : State) : Settles s (closeValves s) := .heatTables s (by simp) rfl

theorem cutZone_settles (z : Nat) (s : State) : Settles s (cutZone z s) := (setZone_settles ..).trans (raise_settles ..)

theorem overTempZone_settles (z : Nat) (s : State) : Settles s (overTempZone z s) :=
  .ite
    (fun _ => .ite (fun _ => (setZone_settles ..).trans (cutZone_settles ..)) (fun _ => setZone_settles ..))
    (fun _ => setZone_settles ..)

theorem overTempTest_settles (s : State) : Settles s (overTempTest s) :=
  .foldl _ (fun t z => overTempZone_settles z t) _ s

theorem restoreZone_settles (z : Nat) (s : State) : Settles s (restoreZone z s) := by
  unfold restoreZone
  dsimp only
  split
  · exact .ite (fun _ => setZone_settles ..) (fun _ => .refl s)
  · exact .refl s

theorem controlZone_settles (z : Nat) (s : State) : Settles s (controlZone z s) := by
  unfold controlZone
  extract_lets x t u
  have hu : Settles s u := (setZone_settles ..).trans (restoreZone_settles z _)
  split
  · exact hu.trans (setZone_settles ..)
  · exact .ite (fun _ => hu.trans (setZone_settles ..)) (fun _ => hu.trans (setZone_settles ..))

theorem controlZones_settles (s : State) : Settles s (controlZones s) :=
  .foldl _ (fun t z => controlZone_settles z t) _ s

theorem steamTest_keeps (s : State) : Keeps s (steamTest s) := follow_keeps ..

/-! ## Dose and judging (R144 to R151) -/

theorem doseTick_settles (s : State) : Settles s (doseTick s) := .heatTables s rfl (by simp)

/-- An update of the judgement list alone. -/
theorem Settles.judgements (s : State) (l : List Judgement)
    (fits : JudgementsFit s.web.map s.heat.judgements → JudgementsFit s.web.map l) :
    Settles s (s.withHeat { s.heat with judgements := l }) := .heat s _ (fun h => ⟨h.recipes, h.channels, h.samples_le⟩) rfl rfl fits

/-- Entries brought up to date one by one keep the segments they name. -/
theorem JudgementsFit.map {m : List Segment} {l : List Judgement} (h : JudgementsFit m l) (f : Judgement → Judgement)
    (hf : ∀ j, (f j).ref = j.ref) : JudgementsFit m (l.map f) where
  once := by simpa [Function.comp_def, hf] using h.once
  held := by
    intro j hj
    obtain ⟨i, hi, rfl⟩ := List.mem_map.1 hj
    simpa [hf] using h.held i hi

theorem JudgementsFit.filter {m : List Segment} {l : List Judgement} (h : JudgementsFit m l) (p : Judgement → Bool) :
    JudgementsFit m (l.filter p) where
  once := h.once.sublist (List.filter_sublist.map _)
  held := fun j hj => h.held j (List.mem_of_mem_filter hj)

/-- A held record has the name it is looked up by. -/
theorem held_eq_some {s : State} {uid : Nat} {g : Segment} (h : s.held uid = some g) : g ∈ s.web.map ∧ g.uid = uid := by
  refine ⟨List.mem_of_find?_eq_some h, ?_⟩
  simpa using List.find?_some h

theorem judgeRef_settles (c : Cell) (r : SegRef) (s : State) : Settles s (judgeRef c r s) := by
  unfold judgeRef
  split
  · exact .refl s
  · rename_i g hg
    obtain ⟨hgm, hgu⟩ := held_eq_some hg
    refine .ite (fun _ => .refl s) (fun _ => ?_)
    dsimp only
    split
    · refine .ite (fun _ => .refl s) (fun _ => .judgements s _ (fun h => h.map _ ?_))
      intro j; split <;> rfl
    · rename_i hnone
      refine .judgements s _ (fun h => ⟨?_, ?_⟩)
      · rw [List.map_append, List.nodup_append]
        refine ⟨h.once, by simp, ?_⟩
        intro a ha b hb
        obtain ⟨j, hj, rfl⟩ := List.mem_map.1 ha
        have := List.find?_eq_none.1 hnone j hj
        simp only [Judgement.judge, Segment.ref, List.map_cons, List.map_nil, List.mem_singleton] at hb
        simpa [hb] using this
      · intro j hj
        rcases List.mem_append.1 hj with hj | hj
        · exact h.held j hj
        · rw [List.mem_singleton.1 hj]
          exact ⟨g, hgm, rfl⟩

theorem judgeCell_settles (c : Cell) (s : State) : Settles s (judgeCell c s) := by
  unfold judgeCell
  dsimp only
  have ht : Settles s (match c.lead with | some r => judgeRef c r s | none => s) := by
    split
    · exact judgeRef_settles ..
    · exact .refl s
  split
  · exact .ite (fun _ => ht) (fun _ => ht.trans (judgeRef_settles ..))
  · exact ht

theorem dropSegHeat_settles (uid : Nat) (s : State) : Settles s (dropSegHeat uid s) := .judgements s _ (·.filter _)

end Sys2Proof.Machine
end

