-- ==== Sys2Proof/Proofs/KeptWeb.lean ====
section
/-! PROOFS. What the operations of Machine/Web.lean do to the map, and what they keep. -/

namespace Sys2Proof.Machine
open Sys2Proof

/-! ## The map after each operation -/

@[simp] theorem updateSeg_map (uid : Nat) (f : Segment → Segment) (s : State) :
    (updateSeg uid f s).web.map = s.web.map.map (fun g => if g.uid == uid then f g else g) := rfl

theorem held_eq_none {s : State} {uid : Nat} (h : s.held uid = none) : ∀ g ∈ s.web.map, g.uid ≠ uid := by
  simpa [State.held] using h

/-- A change of one record is not seen in the rest of the map. -/
theorem filter_updateSeg {uid : Nat} {f : Segment → Segment} (hf : ∀ g, (f g).uid = g.uid) (l : List Segment) :
    (l.map (fun g => if g.uid == uid then f g else g)).filter (fun x => x.uid ≠ uid) = l.filter (fun x => x.uid ≠ uid) := by
  induction l with
  | nil => rfl
  | cons g l ih =>
    by_cases hg : g.uid = uid
    · simpa [hg, hf] using ih
    · simpa [hg] using ih

theorem misfold_map_others (uid : Nat) (s : State) :
    (misfold uid s).web.map.filter (fun x => x.uid ≠ uid) = s.web.map.filter (fun x => x.uid ≠ uid) := by
  simp only [misfold, raise_frame, markSeg, updateSeg_map]
  exact filter_updateSeg (f := Segment.mark .mispleat) (fun _ => rfl) _

/-- The end of a run marks no record but the run's own (R62). -/
theorem endRun_map_others (r : KnifeRun) (s : State) (h : s.pattern.run = some r) :
    (endRun s).web.map.filter (fun x => x.uid ≠ r.ref.uid) = s.web.map.filter (fun x => x.uid ≠ r.ref.uid) := by
  have hd : (dropHeldFold s).web.map.filter (fun x => x.uid ≠ r.ref.uid) = s.web.map.filter (fun x => x.uid ≠ r.ref.uid) := by
    unfold dropHeldFold
    split
    · rename_i r' _ hr
      obtain rfl : r = r' := by simpa [h] using hr
      exact misfold_map_others ..
    · rfl
  simpa [endRun, h] using hd

/-- A removal takes the records of its name out of the map and leaves the others as they are (R6, R10). -/
@[simp] theorem removeSeg_map (uid : Nat) (s : State) :
    (removeSeg uid s).web.map = s.web.map.filter (fun x => x.uid ≠ uid) := by
  unfold removeSeg
  split
  · rename_i hn
    exact (List.filter_eq_self.2 (by simpa using held_eq_none hn)).symm
  · rename_i g _
    simp only [dropSegKnife, State.withPattern_web, State.withWeb_web]
    split
    · split
      · rename_i r hr hu
        subst hu
        rw [endRun_map_others r _ hr]
        simp
      · simp
    · simp

/-- Removals one after another leave the records whose names are not among those removed. -/
theorem removeEach_map (l : List Segment) (s : State) :
    (l.foldl (fun t h => removeSeg h.uid t) s).web.map = s.web.map.filter (fun x => x.uid ∉ l.map Segment.uid) := by
  induction l generalizing s with
  | nil => simp
  | cons g l ih =>
    rw [List.foldl_cons, ih, removeSeg_map, List.filter_filter]
    refine List.filter_congr fun x _ => ?_
    rw [Bool.eq_iff_iff]
    simp [and_comm]

/-! ## Removal and placement (R6, R10, R13) -/

theorem removeSeg_settles (uid : Nat) (s : State) : Settles s (removeSeg uid s) := by
  unfold removeSeg
  split
  · exact .refl s
  · rename_i g hg
    have hj : ∀ j ∈ (dropSegKnife uid (dropSegHeat uid (dropSegOutfeed g s))).heat.judgements, j.ref.uid ≠ uid := by
      simp [dropSegHeat]
    refine ((dropSegOutfeed_settles g s).trans ((dropSegHeat_settles uid _).trans (dropSegKnife_settles uid _))).trans ?_
    generalize dropSegKnife uid (dropSegHeat uid (dropSegOutfeed g s)) = t at hj ⊢
    refine .web t _ ⟨Nat.le_refl _, fun h hh => .inl ⟨h, List.mem_of_mem_filter hh, .refl h⟩, fun ht => ⟨?_, ?_⟩⟩
      (fun h => (List.length_filter_le ..).trans h) id id (fun h => ⟨h.once, fun j hjm => ?_⟩)
    · exact ht.once.sublist (List.filter_sublist.map _)
    · exact fun x hx => ht.fresh x (List.mem_of_mem_filter hx)
    · obtain ⟨x, hx, hu⟩ := h.held j hjm
      exact ⟨x, List.mem_filter.2 ⟨hx, by simpa [hu] using hj j hjm⟩, hu⟩

theorem removeEach_settles (l : List Segment) (s : State) : Settles s (l.foldl (fun t h => removeSeg h.uid t) s) :=
  .foldl _ (fun t h => removeSeg_settles h.uid t) l s

theorem adjustTo_same (lead : Word) (g : Segment) : SameRecord g (g.adjustTo lead) := by
  have joined : ∀ n, SameRecord g { g with length := n } := fun n => ⟨rfl, by constructor <;> simp⟩
  unfold Segment.adjustTo
  dsimp only
  split
  · split
    · exact (joined _).trans (mark_same ..)
    · exact joined _
  · split
    · exact joined _
    · exact .refl g

theorem placeRule_settles (uid : Nat) (s : State) : Settles s (placeRule uid s) := by
  unfold placeRule
  split
  · exact .refl s
  · dsimp only
    split
    · exact removeEach_settles ..
    · exact (removeEach_settles ..).trans (updateSeg_settles _ _ _ (adjustTo_same _))

theorem appendSeg_records (g : Segment) (s : State) : RecordsKept s (appendSeg g s) := by
  refine ⟨Nat.le_succ _, fun h hh => ?_, fun hs => ⟨?_, fun x hx => ?_⟩⟩
  · rcases List.mem_append.1 hh with hh | hh
    · exact .inl ⟨h, hh, .refl h⟩
    · exact .inr (by simp_all)
  · simp only [appendSeg, State.withWeb_web, List.map_append, List.map_cons, List.map_nil]
    refine List.nodup_append.2 ⟨hs.once, List.nodup_singleton _, fun a ha b hb => ?_⟩
    obtain ⟨x, hx, rfl⟩ := List.mem_map.1 ha
    have := hs.fresh x hx
    rw [List.mem_singleton.1 hb]
    omega
  · rcases List.mem_append.1 hx with hx | hx
    · exact (hs.fresh x hx).trans (Nat.lt_succ_self _)
    · simp_all [appendSeg]

theorem appendSeg_settles (g : Segment) (s : State) (room : s.web.map.length < 48) : Settles s (appendSeg g s) := by
  refine .web s _ (appendSeg_records g s) (fun _ => by simpa using room) id id (fun h => ⟨h.once, fun j hj => ?_⟩)
  obtain ⟨x, hx, hu⟩ := h.held j hj
  exact ⟨x, List.mem_append_left _ hx, hu⟩

theorem placeSegment_settles (g : Segment) (s : State) (room : s.web.map.length < 48) : Settles s (placeSegment g s) := by
  unfold placeSegment
  refine (removeEach_settles ..).trans ((appendSeg_settles _ _ ?_).trans (placeRule_settles ..))
  rw [removeEach_map]
  exact (List.length_filter_le ..).trans_lt room

/-! ## Registration (R15 to R19) -/

/-- A count that saturates at 65535 lies within it (R180). -/
theorem saturate_le (n m : Nat) : saturate n m ≤ n := Nat.min_le_left ..

theorem latchRegLost_settles (s : State) : Settles s (latchRegLost s) := (raise_settles ..).trans (setHold_settles ..)

theorem closeWindowMiss_settles (s : State) : Settles s (closeWindowMiss s) := by
  unfold closeWindowMiss
  split
  · exact .refl s
  · extract_lets w a x b c
    have ha : Settles s a := .webMiss s (fun _ => Nat.min_le_left ..)
    have hb : Settles a b := .counters a (fun ⟨h1, h2, h3, h4, _, h6⟩ => ⟨h1, h2, h3, h4, saturate_le .., h6⟩)
    have hc : Settles b c :=
      Settles.trans (.ite (fun _ => markSeg_settles ..) (fun _ => .refl b)) (raise_settles .markMissed _)
    have h := ha.trans (hb.trans hc)
    exact .ite (fun _ => h.trans (latchRegLost_settles _)) (fun _ => h)

theorem openWindow_settles (g : Segment) (s : State) : Settles s (openWindow g s) :=
  (closeWindowMiss_settles s).trans
    ((updateSeg_settles _ (fun x => { x with opened := true }) _ (fun _ => ⟨rfl, by constructor <;> simp⟩)).trans
      (.webFields _))

theorem holdClosing_settles (s : State) : Settles s (holdClosing s) := .webFields s

/-- Moving records keeps what they keep. -/
theorem moved_same (a : Word) (g : Segment) : SameRecord g { g with arrival := a } := ⟨rfl, by constructor <;> simp⟩

theorem shiftFrom_settles (uid : Nat) (d : Word) (s : State) : Settles s (shiftFrom uid d s) := by
  refine .webRecords s _ ?_ rfl (fun h => h) (fun h => h)
  dsimp only
  conv => arg 2; rw [← List.takeWhile_append_dropWhile (p := fun g => decide (g.uid ≠ uid)) (l := s.web.map)]
  refine List.rel_append (List.forall₂_same.2 fun g _ => .refl g) ?_
  rw [List.forall₂_map_right_iff]
  exact List.forall₂_same.2 (fun g _ => moved_same _ g)

theorem acceptMark_settles (edge : Word) (s : State) : Settles s (acceptMark edge s) := by
  unfold acceptMark
  split
  · exact .counters s (fun ⟨h1, h2, h3, _, h5, h6⟩ => ⟨h1, h2, h3, saturate_le .., h5, h6⟩)
  · extract_lets a w b
    have hb : Settles s b := (shiftFrom_settles ..).trans (.webMiss _ (fun _ => Nat.zero_le _))
    refine hb.trans (Settles.trans (.ite (fun _ => updateSeg_settles _ _ _ ?_) (fun _ => .refl b)) (placeRule_settles ..))
    exact fun g => ⟨rfl, by constructor <;> simp⟩

/-! ## Handoffs and merging (R8, R9, R20, R21) -/

theorem sendHandoff_settles (g : Segment) (s : State) : Settles s (sendHandoff g s) := by
  unfold sendHandoff
  refine .ite (fun _ => updateSeg_settles _ _ _ (fun g => ⟨rfl, by constructor <;> simp⟩)) (fun _ => ?_)
  extract_lets body t u w v
  have ht : Settles s t := queueTx_settles_of_ne _ _ (by rfl) (by exact nofun)
  have hu : Settles t u := updateSeg_settles _ _ _ (fun g => ⟨rfl, by constructor <;> simp +contextual⟩)
  have hv : Settles u v := .webFields u
  exact ht.trans (hu.trans (hv.trans (.knife v)))

/-- A verdict merged into a record takes nothing from it (R20, R22). -/
theorem merge_same (v : Verdict) (origin : Nat) (g : Segment) : SameRecord g (g.merge v origin) := by
  cases v with
  | set =>
    refine ⟨rfl, ?_⟩
    constructor <;> simp +contextual [Segment.merge, inMask]
  | underDose => exact mark_same ..
  | overDose => exact mark_same ..
  | underOver => exact (mark_same .underSet g).trans (mark_same ..)
  | notJudged => exact .refl g

theorem mergeVerdict_settles (seg : Half) (panelId : Word) (v : Verdict) (origin : Nat) (s : State) :
    Settles s (mergeVerdict seg panelId v origin s) := by
  refine .webMap s _ _ rfl (fun g => ?_) rfl (fun h => h) (fun h => h)
  split
  · exact merge_same ..
  · exact .refl g

/-- The cancel list holds the 4 newest ids (R21). -/
theorem enterCancel_length_le (id : Word) (l : List Word) : (enterCancel id l).length ≤ 4 := by
  simp only [enterCancel, List.length_drop]
  omega

theorem cancelPanel_settles (id : Word) (s : State) : Settles s (cancelPanel id s) := by
  refine .webMap s _ _ rfl (fun g => ?_) rfl (fun _ => enterCancel_length_le ..) (fun h => h)
  split
  · exact mark_same ..
  · exact .refl g

/-! ## The cell shift (R145, R149, R150) -/

theorem closeEntry_settles (j : Judgement) (g : Segment) (s : State) : Settles s (closeEntry j g s) := by
  unfold closeEntry
  extract_lets v a b c d
  have ha : Settles s a := queueTx_settles_of_ne _ _ (by rfl) (by exact nofun)
  have hb : Settles a b := .ite (fun _ => raise_settles ..) (fun _ => .refl a)
  have hc : Settles b c := .ite (fun _ => raise_settles ..) (fun _ => .refl b)
  have hd : Settles c d := mergeVerdict_settles ..
  refine ha.trans (hb.trans (hc.trans (hd.trans (.judgements d _ (fun h => h.map _ ?_)))))
  intro j; split <;> rfl

theorem closeEntries_settles (c : Cell) (edge : Word) (s : State) : Settles s (closeEntries c edge s) := by
  refine .foldl _ (fun t g => ?_) _ s
  split
  · exact .refl t
  · exact .ite (fun _ => closeEntry_settles ..) (fun _ => .refl t)

/-- A legal SETTER record has cells, so the cell line of an operating SETTER is not empty (R145, R185). -/
theorem cells_pos {s : State} (h : Working s) (hi : ImageLegal s) (hs : s.is .setter = true) :
    0 < s.heat.cells.length := by
  have hlen : s.heat.cells.length = s.cfg.setter.cells := h.heat.cells.trans (if_pos ⟨rfl, hs⟩)
  cases him : s.loader.image with
  | none => simp [State.is, State.role, him] at hs
  | some i =>
    have hl := hi i him
    have hr : roleOfCode i.roleCode = some .setter := by simpa [State.is, State.role, him] using hs
    simp only [Image.legal, hr, Bool.and_eq_true, roleFieldsOk, within, decide_eq_true_eq] at hl
    rw [hlen]
    simp only [State.cfg, him, Option.getD_some]
    omega

theorem shiftCells_settles (s : State) (hs : s.is .setter = true) : Settles s (shiftCells s) := by
  unfold shiftCells
  extract_lets a anchor edge t
  have ht : Settles s t := by
    unfold t
    split
    · exact (judgeCell_settles ..).trans (closeEntries_settles ..)
    · exact .refl s
  have hst : t.is .setter = true := by simpa [State.is, State.role, ht.image] using hs
  refine ht.trans ⟨⟨rfl, id, .of_eq rfl rfl, fun hi h => { h with heat := { h.heat with cells := ?_, cells_le := ?_ } }⟩,
    fun _ h => h, fun _ h _ => h, fun _ h _ => h⟩
  all_goals
    have hpos := cells_pos h hi hst
    have hlen : (t.newCell edge :: t.heat.cells.dropLast).length = t.heat.cells.length := by
      simp only [List.length_cons, List.length_dropLast]; omega
  · exact hlen.trans h.heat.cells
  · exact hlen.trans_le h.heat.cells_le

end Sys2Proof.Machine
end

