-- ==== Sys2Proof/Proofs/KeptOrdersRolls.lean ====
section
/-! PROOFS. What the operations of Machine/Orders.lean and Machine/Rolls.lean keep. -/

namespace Sys2Proof.Machine
open Sys2Proof

/-! ## The order unit (R78 to R93) -/

theorem setWait_settles (w : OrderWait) (s : State) : Settles s (setWait w s) :=
  Settles.trans (.order s) ((followHold_settles .noOrders _ _ rfl).trans ((followHold_settles .lotWait _ _ rfl).trans
    ((follow_settles .noOrders _ _ rfl).trans (follow_settles .lotMismatch _ _ rfl))))

theorem reviewWait_settles (s : State) : Settles s (reviewWait s) := by
  unfold reviewWait
  refine .ite (fun _ => .refl s) (fun _ => .ite (fun _ => setWait_settles ..) (fun _ => ?_))
  split
  · exact .refl s
  · exact .ite (fun _ => setWait_settles ..) (fun _ => setWait_settles ..)

/-- An order is admitted into a queue with a free place (R80). -/
theorem refusalOf_eq_none {s : State} {m : Measured} (h : s.refusalOf m = none) :
    m.inRange = true ∧ (∀ o ∈ s.order.queue, o.panelId ≠ m.panelId) ∧ s.order.queue.length < 32 := by
  unfold State.refusalOf at h
  repeat' split at h
  all_goals simp_all

theorem admitOrder_keeps (m : Measured) (s : State) : Keeps s (admitOrder m s) := by
  unfold admitOrder
  split
  · exact (Settles.trans (.order s) (raise_settles ..)).toKeeps
  · rename_i h
    obtain ⟨-, -, hlen⟩ := refusalOf_eq_none h
    exact Keeps.trans (.order s _ (fun _ => by simpa using hlen)) (reviewWait_settles _).toKeeps

theorem cancelOrder_settles (id : Word) (s : State) : Settles s (cancelOrder id s) :=
  .ite (fun _ => Settles.trans (.orderQueue s _ List.filter_sublist) (reviewWait_settles _)) (fun _ => .refl s)

theorem afterBirth_settles (b : Born) (seg : Half) (arrival : Word) (s : State) : Settles s (afterBirth b seg arrival s) := by
  cases b with
  | splice => exact Settles.trans (.order s) (.roll _ _)
  | panel o => exact Settles.trans (.orderQueue s _ List.filter_sublist) (setWait_settles ..)
  | leader => exact setWait_settles ..

theorem makeBirth_settles (s : State) (room : s.web.map.length < 48) : Settles s (makeBirth s) := by
  unfold makeBirth
  extract_lets delayed arrival b g uid t u o v
  have hu : Settles t u := .ite (fun _ => placeRule_settles ..) (fun _ => .refl t)
  exact (appendSeg_settles g s room).trans (hu.trans (Settles.trans (.order u) (afterBirth_settles ..)))

theorem stallAtStandstill_settles (s : State) : Settles s (stallAtStandstill s) :=
  .ite (fun _ => Settles.trans (.order s) (raise_settles ..)) (fun _ => .refl s)

theorem holdBirth_settles (s : State) : Settles s (holdBirth s) :=
  Settles.trans (.order s) (stallAtStandstill_settles _)

theorem endStall_settles (s : State) : Settles s (endStall s) := .order s

/-! ## The roll unit (R96 to R122) -/

theorem setArm_settles (a : ArmName) (x : Arm) (s : State) : Settles s (setArm a x s) := .roll s _

theorem rollConditions_settles (s : State) : Settles s (rollConditions s) :=
  (follow_settles .rollLow _ s rfl).trans ((follow_settles .rollOut _ _ rfl).trans (followHold_settles .rollOut _ _ rfl))

theorem startSplice_settles (a : ArmName) (s : State) : Settles s (startSplice a s) :=
  Settles.trans (.roll s _) (Settles.trans (.order _) (rollConditions_settles _))

theorem spliceTest_settles (s : State) : Settles s (spliceTest s) := by
  unfold spliceTest
  split
  · exact .refl s
  · exact .ite (fun _ => startSplice_settles ..) (fun _ => .refl s)

theorem returnToRun_settles (s : State) : Settles s (returnToRun s) :=
  Settles.trans (.roll s _) (Settles.trans (.order _) ((rollConditions_settles _).trans (spliceTest_settles _)))

theorem abortSplice_settles (s : State) : Settles s (abortSplice s) := (raise_settles ..).trans (returnToRun_settles _)

theorem resolveSplice_settles (s : State) : Settles s (resolveSplice s) :=
  .ite (fun _ => returnToRun_settles s) (fun _ => .ite (fun _ => .roll s _) (fun _ => .refl s))

theorem enterSplice_settles (x : SpliceState) (s : State) : Settles s (enterSplice x s) :=
  Settles.trans (.roll s _) (rollConditions_settles _)

theorem enterPaste_settles (s : State) : Settles s (enterPaste s) := by
  unfold enterPaste
  refine Settles.trans ?_ (Settles.trans (.roll _ _) (enterSplice_settles ..))
  split
  · exact setArm_settles ..
  · exact .refl s

theorem activateArm_settles (a : ArmName) (s : State) : Settles s (activateArm a s) :=
  (setArm_settles ..).trans (Settles.trans (.roll _ _) (Settles.trans (.order _)
    ((reviewWait_settles _).trans (rollConditions_settles _))))

theorem abortIf_settles (cause : Bool) (s : State) : Settles s (abortIf cause s) :=
  .ite (fun _ => abortSplice_settles s) (fun _ => .refl s)

theorem loadArm_settles (a : ArmName) (lot : Half) (thickness core circumference : Nat) (s : State) :
    Settles s (loadArm a lot thickness core circumference s) := setArm_settles ..

theorem emptyArm_settles (a : ArmName) (s : State) : Settles s (emptyArm a s) :=
  .ite (fun _ => .refl s) (fun _ => (setArm_settles ..).trans ((rollConditions_settles _).trans (abortIf_settles ..)))

theorem filterSample_settles (a : ArmName) (sample : Nat) (s : State) : Settles s (filterSample a sample s) := by
  unfold filterSample
  dsimp only
  split
  · exact .refl s
  · exact .ite (fun _ => (setArm_settles ..).trans ((spliceTest_settles _).trans (rollConditions_settles _)))
      (fun _ => setArm_settles ..)

theorem takeRevolution_settles (a : ArmName) (s : State) : Settles s (takeRevolution a s) := by
  unfold takeRevolution
  refine .ite (fun _ => .refl s) (fun _ => ?_)
  dsimp only
  split
  · exact setArm_settles ..
  · exact .ite (fun _ => setArm_settles ..) (fun _ => (setArm_settles ..).trans (filterSample_settles ..))

theorem measureOut_settles (s : State) : Settles s (measureOut s) := .roll s _
theorem driveUnwind_settles (s : State) : Settles s (driveUnwind s) := .roll s _
theorem loadFlatCeiling_settles (s : State) : Settles s (loadFlatCeiling s) := .roll s _
theorem stopUnwind_settles (s : State) : Settles s (stopUnwind s) := .roll s _

theorem pasteTest_settles (s : State) : Settles s (pasteTest s) :=
  .ite (fun _ => enterPaste_settles s) (fun _ => .refl s)

theorem startNewTest_settles (s : State) : Settles s (startNewTest s) := by
  unfold startNewTest
  refine .ite (fun _ => ?_) (fun _ => .refl s)
  extract_lets x t
  have ht : Settles s t := .ite (fun _ => .roll s _) (fun _ => .refl s)
  exact .ite (fun _ => ht.trans (enterSplice_settles ..)) (fun _ => ht)

theorem rampRoll_settles (s : State) : Settles s (rampRoll s) :=
  (measureOut_settles s).trans ((driveUnwind_settles _).trans ((pasteTest_settles _).trans (startNewTest_settles _)))

theorem rollAtActive_settles (s : State) : Settles s (rollAtActive s) := by
  unfold rollAtActive
  refine .ite (fun _ => .ite (fun _ => ?_) (fun _ => spliceTest_settles s)) (fun _ => .refl s)
  exact .ite (fun _ => (enterSplice_settles ..).trans (returnToRun_settles _)) (fun _ => enterSplice_settles ..)

end Sys2Proof.Machine
end

