-- ==== Sys2Proof/Proofs/KeptModes.lean ====
section
/-! PROOFS. What the operations of Machine/Modes.lean keep: drive enable, trips, mode entries, what falls due, and the end of a
command. -/

namespace Sys2Proof.Machine
open Sys2Proof

/-! ## Drive enable and trips (R40 to R44) -/

theorem clearDrive_settles (s : State) : Settles s (clearDrive s) :=
  Settles.trans (.gov s) ((stopUnwind_settles _).trans ((abandonMove_settles _).trans
    ((outfeedDriveClear_settles _).trans (closeValves_settles _))))

theorem setDrive_settles (s : State) : Settles s (setDrive s) := by
  unfold setDrive
  extract_lets g t
  have ht : Settles s t := Settles.trans (.gov s) (startMove_settles _)
  exact .ite (fun _ => ht.trans (gateAtDriveSet_settles _)) (fun _ => ht)

theorem queueTrip_settles (c : TripCause) (s : State) : Settles s (queueTrip c s) :=
  .ite (fun _ => .refl s) (fun _ => queueTx_settles_of_ne _ _ (by rfl) (by exact nofun))

theorem enterTripped_settles (s : State) : Settles s (enterTripped s) := by
  unfold enterTripped
  extract_lets g a l b w c d
  have ha : Settles s a := Settles.trans (.gov s) (setMode_settles .tripped _ rfl)
  have hb : Settles a b := .loader a _ rfl (fun h => h)
  have hc : Settles b c := .cond b
  have hd : Settles c d := (tripKnife_settles c).trans ((closeValves_settles _).trans (resolveSplice_settles _))
  have h := ha.trans (hb.trans (hc.trans hd))
  exact .ite (fun _ => h.trans (Settles.trans (.gov d) (clearDrive_settles _))) (fun _ => h)

theorem addTrip_settles (c : TripCause) (s : State) : Settles s (addTrip c s) := by
  unfold addTrip
  split
  iterate 3
    exact Settles.trans (.gov s) ((queueTrip_settles ..).trans ((enterTripped_settles _).trans (pulseForMode_settles _)))
  · exact .ite (fun _ => .refl s) (fun _ => Settles.trans (.gov s) (queueTrip_settles ..))
  all_goals exact .refl s

theorem takeLatch_settles (s : State) : Settles s (takeLatch s) := by
  unfold takeLatch
  refine .ite (fun _ => ?_) (fun _ => .refl s)
  extract_lets p q g b t
  have ht : Settles s t := Settles.trans (.gov s) (.bus _ _ (fun h => ⟨h.rx_le, h.tx, h.fault_le⟩))
  exact .ite (fun _ => ht) (fun _ => ht.trans ((enterTripped_settles _).trans (pulseForMode_settles _)))

/-! ## Entries to ACTIVE and STANDBY (R191 to R193) -/

theorem enterActive_settles (s : State) : Settles s (enterActive s) := by
  unfold enterActive
  extract_lets l a w b c
  have ha : Settles s a :=
    (Settles.loader s { s.loader with joinTimer := none } rfl (fun h => h)).trans (setMode_settles .active _ rfl)
  have hb : Settles a b := .cond a
  have hc : Settles b c := .ite (fun _ => startMove_settles _) (fun _ => setDrive_settles _)
  exact ha.trans (hb.trans (hc.trans ((pulseForMode_settles _).trans ((warmChamber_settles _).trans (rollAtActive_settles _)))))

theorem enterStandby_settles (s : State) : Settles s (enterStandby s) :=
  (setMode_settles .standby s rfl).trans ((pulseForMode_settles _).trans
    (Settles.trans (.ite (fun _ => setChamber_settles ..) (fun _ => .refl _)) (resolveSplice_settles _)))

/-! ## What falls due (R2) -/

theorem noteBoundary_settles (point : Word) (s : State) : Settles s (noteBoundary point s) :=
  .webMap s _ _ rfl (fun _ => ⟨rfl, by constructor <;> simp⟩) rfl (fun h => h) (fun h => h)

theorem retest_settles (s : State) : Settles s (retest s) :=
  .ite (fun _ => retestPiece_settles s) (fun _ => .refl s)

/-- The part of the station to which what falls due belongs. -/
inductive DuePart where
  | window | knife | cells | cut | exit | unwind
  deriving DecidableEq

def Due.part (d : Due) : DuePart :=
  match d with
  | .openWindow _ | .acceptMark _ | .holdClosing | .closeWindow => .window
  | .fold | .endRun | .startRun _ => .knife
  | .shift => .cells
  | .boundary _ _ _ => .cut
  | .handoff _ | .trailExit _ => .exit
  | .prefillDone | .stopOld | .stopOldLow | .recovered | .birth | .holdBirth | .endStall => .unwind

theorem dueMark_part {s : State} {d : Due} (h : s.dueMark = some d) : d.part = .window := by
  unfold State.dueMark at h
  repeat' split at h
  all_goals cases h
  rfl

theorem dueClosing_part {s : State} {d : Due} (h : s.dueClosing = some d) : d.part = .window := by
  unfold State.dueClosing at h
  repeat' split at h
  all_goals cases h
  all_goals rfl

theorem dueWindow_part {s : State} {d : Due} (h : s.dueWindow = some d) : d.part = .window := by
  unfold State.dueWindow at h
  split at h
  · split at h
    · cases h; rfl
    · split at h
      · rename_i e he; cases h; exact dueMark_part he
      · exact dueClosing_part h
  · cases h

theorem dueKnife_part {s : State} {d : Due} (h : s.dueKnife = some d) : d.part = .knife := by
  have start : ∀ {p : Segment → Bool}, (s.web.map.find? p).map Due.startRun = some d → d.part = .knife := by
    intro p hp
    obtain ⟨g, -, rfl⟩ := Option.map_eq_some_iff.1 hp
    rfl
  unfold State.dueKnife at h
  dsimp only at h
  split at h
  · exact start h
  · split at h
    · cases h; rfl
    · split at h
      · split at h
        · cases h; rfl
        · split at h
          · cases h; rfl
          · exact start h
      · split at h
        · cases h; rfl
        · exact start h

theorem dueShift_part {s : State} {d : Due} (h : s.dueShift = some d) : d.part = .cells := by
  unfold State.dueShift at h
  split at h <;> cases h
  rfl

theorem dueBoundary_part {s : State} {d : Due} (h : s.dueBoundary = some d) : d.part = .cut := by
  unfold State.dueBoundary at h
  split at h <;> cases h
  rfl

theorem dueExit_part {s : State} {d : Due} (h : s.dueExit = some d) : d.part = .exit := by
  unfold State.dueExit at h
  split at h
  · cases h; rfl
  · obtain ⟨g, -, rfl⟩ := Option.map_eq_some_iff.1 h
    rfl

/-- Knife, cell and cut events fall due in the role they belong to. -/
theorem dueRole_part {s : State} {d : Due} (h : s.dueRole = some d) :
    s.is .pleat = true ∧ d.part = .knife ∨ s.is .setter = true ∧ d.part = .cells ∨ s.is .outfeed = true ∧ d.part = .cut := by
  unfold State.dueRole at h
  split at h
  · exact .inl ⟨by simp_all [State.is], dueKnife_part h⟩
  · exact .inr (.inl ⟨by simp_all [State.is], dueShift_part h⟩)
  · exact .inr (.inr ⟨by simp_all [State.is], dueBoundary_part h⟩)
  · cases h
  · cases h

/-- What is due is due to one part of the station, in an operating mode (R2). -/
theorem due_cases {s : State} {d : Due} (h : s.due = some d) :
    s.operating = true ∧ (s.dueWindow = some d ∨ s.dueRole = some d ∨ s.dueExit = some d ∨
      s.is .unwind = true ∧ s.dueUnwind = some d) := by
  unfold State.due at h
  split at h
  · refine ⟨‹_›, ?_⟩
    split at h
    · cases h; exact .inl ‹_›
    · split at h
      · cases h; exact .inr (.inl ‹_›)
      · split at h
        · cases h; exact .inr (.inr (.inl ‹_›))
        · split at h
          · exact .inr (.inr (.inr ⟨‹_›, h⟩))
          · cases h
  · cases h

/-- A shift falls due in a SETTER alone (R145). -/
theorem is_setter_of_due_shift {s : State} (h : s.due = some .shift) : s.is .setter = true := by
  rcases (due_cases h).2 with h | h | h | ⟨-, h⟩
  · cases dueWindow_part h
  · rcases dueRole_part h with ⟨_, h⟩ | ⟨hs, _⟩ | ⟨_, h⟩
    · cases h
    · exact hs
    · cases h
  · cases dueExit_part h
  · unfold State.dueUnwind at h
    repeat' split at h
    all_goals cases h

/-- A birth falls due in the UNWIND alone, with room in the map (R83). -/
theorem due_birth {s : State} (h : s.due = some .birth) : s.is .unwind = true ∧ s.web.map.length < 48 := by
  rcases (due_cases h).2 with h | h | h | ⟨hu, h⟩
  · cases dueWindow_part h
  · rcases dueRole_part h with ⟨_, h⟩ | ⟨_, h⟩ | ⟨_, h⟩ <;> cases h
  · cases dueExit_part h
  · refine ⟨hu, ?_⟩
    have hb : s.birthBlocked = false := by
      unfold State.dueUnwind at h
      repeat' split at h
      all_goals simp_all
    by_contra hfull
    simp [State.birthBlocked, State.mapCount, Nat.not_lt.1 hfull] at hb

theorem takeDue_settles {s : State} {d : Due} (h : s.due = some d) : Settles s (takeDue d s) := by
  cases d with
  | openWindow g => exact openWindow_settles g s
  | acceptMark e => exact Settles.trans (.webFields s) (acceptMark_settles e _)
  | holdClosing => exact holdClosing_settles s
  | closeWindow => exact closeWindowMiss_settles s
  | fold => exact takeFold_settles s
  | endRun => exact endRun_settles s
  | startRun g => exact startRun_settles g s
  | shift => exact shiftCells_settles s (is_setter_of_due_shift h)
  | boundary _ _ point => exact (noteBoundary_settles point s).trans (takeBoundary_settles ..)
  | handoff g => exact sendHandoff_settles g s
  | trailExit g => exact removeSeg_settles g.uid s
  | prefillDone => exact enterSplice_settles .spliceWait s
  | stopOld => exact enterSplice_settles .stopOld s
  | stopOldLow => exact abortSplice_settles s
  | recovered => exact returnToRun_settles s
  | birth => exact makeBirth_settles s (due_birth h).2
  | holdBirth => exact holdBirth_settles s
  | endStall => exact endStall_settles s

theorem settle_settles (s : State) : Settles s (settle s) :=
  settle_keeps (Settles s) (fun t h => h.trans (retest_settles t)) (fun _ _ h hd => h.trans (takeDue_settles hd)) s (.refl s)

/-! ## The end of a command (R37, R181, R191) -/

theorem refresh_settles (s : State) : Settles s (refresh s) := (refreshHeat_settles s).trans (.gov _)

theorem conclude_settles (s : State) : Settles s (conclude s) := by
  rcases conclude_cases s with ⟨h, -⟩ | ⟨h, -⟩ <;> rw [h]
  · exact refresh_settles s
  · exact (refresh_settles s).trans ((enterActive_settles _).trans ((settle_settles _).trans (refresh_settles _)))

theorem finish_settles (s : State) : Settles s (finish s) := (settle_settles s).trans (conclude_settles _)

/-- A command ends with the target speed current (R37). -/
theorem conclude_vT (s : State) : (conclude s).gov.vT = (conclude s).targetSpeed := by
  rcases conclude_cases s with ⟨h, -⟩ | ⟨h, -⟩ <;> rw [h] <;> exact refresh_vT _

end Sys2Proof.Machine
end

