-- ==== Sys2Proof/Proofs/KeptCommands.lean ====
section
/-! PROOFS. What the commands themselves keep, file by file of Machine/. -/

namespace Sys2Proof.Machine
open Sys2Proof

/-! ## Arms (R99 to R121) -/

theorem revolve_settles (a : ArmName) (active : Bool) (s : State) : Settles s (revolve a active s) :=
  .ite (fun _ => Settles.trans (.pins s _) (takeRevolution_settles ..)) (fun _ => .pins s _)

theorem armBecomesReady_settles (a : ArmName) (s : State) : Settles s (armBecomesReady a s) :=
  (setArm_settles ..).trans ((spliceTest_settles _).trans (rollConditions_settles _))

theorem armLosesReady_settles (a : ArmName) (s : State) : Settles s (armLosesReady a s) :=
  (setArm_settles ..).trans ((rollConditions_settles _).trans (abortIf_settles ..))

theorem changeReady_settles (a : ArmName) (active : Bool) (s : State) : Settles s (changeReady a active s) := by
  unfold changeReady
  extract_lets t
  have ht : Settles s t := .pins s _
  refine .ite (fun _ => ?_) (fun _ => ht)
  split
  · exact ht.trans (armBecomesReady_settles ..)
  · exact ht.trans (armLosesReady_settles ..)
  · exact ht

theorem changeEmpty_settles (a : ArmName) (active : Bool) (s : State) : Settles s (changeEmpty a active s) :=
  .ite (fun _ => Settles.trans (.pins s _) (emptyArm_settles ..)) (fun _ => .pins s _)

theorem stopPaste_settles (s : State) : Settles s (stopPaste s) := .roll s _

theorem bringIn_settles (s : State) : Settles s (bringIn s) := by
  unfold bringIn
  split
  · split
    · exact activateArm_settles ..
    · exact activateArm_settles ..
    all_goals exact .refl s
  · exact .refl s

theorem beginNewRoll_settles (s : State) : Settles s (beginNewRoll s) := by
  unfold beginNewRoll
  extract_lets r t
  have ht : Settles s t := Settles.trans (.roll s _) ((enterSplice_settles ..).trans (bringIn_settles _))
  exact .ite (fun _ => ht.trans (.roll t _)) (fun _ => ht)

theorem pasteDone_settles (s : State) : Settles s (pasteDone s) :=
  .ite (fun _ => (stopPaste_settles s).trans (beginNewRoll_settles _)) (fun _ => stopPaste_settles s)

theorem webPresentExpiry_settles (s : State) : Settles s (webPresentExpiry s) :=
  .ite (fun _ => .ite (fun _ => Settles.trans (.roll s _) (addTrip_settles ..)) (fun _ => .roll s _)) (fun _ => .refl s)

/-! ## Field lines (R1, R15, R64 to R70, R158, R161) -/

theorem countEdge_settles (encoder : EncoderName) (forward : Bool) (s : State) : Settles s (countEdge encoder forward s) := by
  cases encoder with
  | encoder1 => exact .webFields s
  | encoder2 => exact .ite (fun _ => .webFields s) (fun _ => .refl s)

theorem countAndTest_settles (encoder : EncoderName) (forward : Bool) (s : State) :
    Settles s (countAndTest encoder forward s) :=
  .ite (fun _ => (countEdge_settles ..).trans (addTrip_settles ..)) (fun _ => countEdge_settles ..)

theorem regLostTest_settles (s : State) : Settles s (regLostTest s) :=
  .ite (fun _ => latchRegLost_settles s) (fun _ => .refl s)

theorem takeMark_settles (high : Bool) (s : State) : Settles s (takeMark high s) := by
  unfold takeMark
  extract_lets p t
  have ht : Settles s t := .pins s _
  refine .ite (fun _ => ?_) (fun _ => ht)
  split
  · exact ht.trans (.webFields t)
  · exact ht.trans (.webFields t)
  · exact ht

/-- The count of limited strokes is set to a value in its range (R64, R70). -/
theorem setLimit_settles (n : Nat) (hn : n ≤ 2) (s : State) :
    Settles s (s.withPattern { s.pattern with limitCount := n }) :=
  .pattern s _ (fun h => ⟨hn, h.slots, { h.steps with }⟩)

theorem strokeDone_settles (s : State) : Settles s (strokeDone s) := by
  unfold strokeDone
  split
  · exact .refl s
  · exact (idleKnife_settles s).trans
      (Settles.trans (.ite (fun _ => .refl _) (fun _ => setLimit_settles 0 (by omega) _)) (afterKnife_settles _))

theorem strokeStalled_settles (s : State) : Settles s (strokeStalled s) := by
  unfold strokeStalled
  split
  · exact .refl s
  · exact (idleKnife_settles s).trans ((markSeg_settles ..).trans ((afterKnife_settles _).trans (addTrip_settles ..)))

theorem moveDone_settles (s : State) : Settles s (moveDone s) := by
  unfold moveDone
  split
  · exact .refl s
  · exact Settles.trans (.knife s) (afterKnife_settles _)

theorem jamTest_settles (s : State) : Settles s (jamTest s) :=
  .ite (fun _ => (setLimit_settles 0 (by omega) s).trans (addTrip_settles ..)) (fun _ => .refl s)

theorem offerNotice_withPattern (g : Group) (p : PatternUnit) (s : State) :
    offerNotice g (s.withPattern p) = (offerNotice g s).withPattern p := by
  unfold offerNotice
  rw [apply_ite (State.withPattern · p)]
  cases g <;> rfl

/-- A condition rises alike whatever the pattern unit holds. -/
theorem raise_withPattern (c : Cond) (p : PatternUnit) (s : State) :
    raise c (s.withPattern p) = (raise c s).withPattern p := by
  have report : ∀ t : State, reportRising c (t.withPattern p) = (reportRising c t).withPattern p := by
    intro t
    have record : ∀ r, setRecord c.group r (t.withPattern p) = (setRecord c.group r t).withPattern p := by
      intro r; cases c.group <;> rfl
    unfold reportRising
    rw [apply_ite (State.withPattern · p)]
    refine ite_congr rfl (fun _ => ?_) (fun _ => rfl)
    simp only [State.withPattern_cond, record]
    cases (t.cond.record c.group).notice with
    | none => exact offerNotice_withPattern ..
    | pending => rfl
    | queued => rfl
  unfold raise
  rw [apply_ite (State.withPattern · p)]
  refine ite_congr rfl (fun _ => rfl) (fun _ => ?_)
  have flags : setFlags (s.cond.flags ++ [c]) (s.withPattern p) = (setFlags (s.cond.flags ++ [c]) s).withPattern p := rfl
  simp only [State.withPattern_cond, flags, report]
  rw [apply_ite (State.withPattern · p)]
  rfl

/-- The count of limited strokes passes its range for the moment between its increment and the test of R70, which sets it to 0
with the trip. -/
theorem limitAndTest_settles (n : Nat) (s : State) :
    Settles s (jamTest (raise .knifeLimit (s.withPattern { s.pattern with limitCount := n }))) := by
  have hp : (raise .knifeLimit s).pattern = s.pattern := by simp
  rw [raise_withPattern, ← hp]
  refine (raise_settles .knifeLimit s).trans ?_
  exact .ite (fun _ => (setLimit_settles 0 (by omega) _).trans (addTrip_settles ..))
    (fun h => setLimit_settles n (Nat.not_lt.1 h) _)

theorem limitStroke_settles (microseconds : Nat) (s : State) : Settles s (limitStroke microseconds s) := by
  unfold limitStroke
  split
  · exact .refl s
  · rename_i k hk
    refine .ite (fun _ => .refl s) (fun _ => ?_)
    have noted : Settles s (markSeg k.ref.uid .knifeLimited
        (s.withPattern { s.pattern with stroke := some { k with limited := true } })) :=
      Settles.trans (.knife s) (markSeg_settles ..)
    refine noted.trans (Settles.trans (.counters _ ?_) (limitAndTest_settles (s.pattern.limitCount + 1) _))
    exact fun ⟨h1, h2, h3, h4, h5, _⟩ => ⟨h1, h2, h3, h4, h5, saturate_le ..⟩

theorem cutDone_settles (s : State) : Settles s (cutDone s) := .outfeed s _

theorem gateDone_settles (s : State) : Settles s (gateDone s) := by
  unfold gateDone
  split
  · exact .ite (fun _ => setGate_settles ..) (fun _ => (setGate_settles ..).trans (raise_settles ..))
  all_goals exact .refl s

/-! ## The ramp, the peers and the timers (R25, R29, R30, R38, R41, R44, R190) -/

theorem samplePins_settles (w p d : Bool) (s : State) : Settles s (samplePins w p d s) := .pins s _

theorem tickTimers_settles (s : State) : Settles s (tickTimers s) := by
  unfold tickTimers
  extract_lets l a b' b g c p d r e h f
  have ha : Settles s a := .loader s _ rfl (fun h => h)
  have hb : Settles a b := .bus a _ (fun h => ⟨h.rx_le, h.tx, h.fault_le⟩)
  have hc : Settles b c := .gov b
  have hd : Settles c d := .knife c
  have he : Settles d e := .roll d _
  have hf : Settles e f := .heatTables e rfl rfl
  exact ha.trans (hb.trans (hc.trans (hd.trans (he.trans (hf.trans (.outfeed f _))))))

theorem followPeerLate_keeps (s : State) : Keeps s (followPeerLate s) := follow_keeps ..

/-- An entry's age saturates as it advances (R29). -/
theorem aged_age_le (e : PeerEntry) (h : e.age ≤ 65535) : e.aged.age ≤ 65535 := by
  have judged : ∀ x : PeerEntry, x.judged.age = x.age := by
    intro x; unfold PeerEntry.judged; repeat' split
    all_goals rfl
  unfold PeerEntry.aged
  split
  · exact h
  · rw [judged]; exact saturate_le ..

theorem agePeers_keeps (s : State) : Keeps s (agePeers s) := by
  unfold agePeers
  extract_lets t
  have ht : Keeps s t := by
    refine Keeps.trans (.peers s _ (fun h => ⟨by simpa using h.length, fun e he => ?_⟩)) (followPeerLate_keeps _)
    obtain ⟨x, hx, rfl⟩ := List.mem_map.1 he
    exact aged_age_le x (h.ages_le x hx)
  exact .ite (fun _ => ht.trans (raise_settles ..).toKeeps) (fun _ => ht)

theorem setPeer_keeps (address : Nat) (e : PeerEntry) (s : State) (he : PeersFit s.peers → e.age ≤ 65535) :
    Keeps s (setPeer address e s) := by
  refine .peers s _ (fun h => ⟨by simpa using h.length, fun x hx => ?_⟩)
  rcases List.mem_or_eq_of_mem_set hx with hm | rfl
  · exact h.ages_le x hm
  · exact he h

theorem PeersFit.peer {s : State} (h : PeersFit s.peers) (address : Nat) : (s.peer address).age ≤ 65535 := by
  unfold State.peer
  by_cases hn : address - 1 < s.peers.length
  · rw [List.getD_eq_getElem _ _ hn]; exact h.ages_le _ (List.getElem_mem hn)
  · rw [List.getD_eq_default _ _ (Nat.le_of_not_lt hn)]; exact Nat.zero_le _

theorem setLiveness_keeps (address : Nat) (l : Liveness) (s : State) :
    Keeps s (setPeer address { s.peer address with liveness := l } s) := setPeer_keeps _ _ s (fun h => h.peer address)

theorem lateTest_keeps (address : Nat) (s : State) : Keeps s (lateTest address s) :=
  .ite (fun _ => (setLiveness_keeps address .late s).trans (followPeerLate_keeps _)) (fun _ => .refl s)

theorem lostTest_keeps (address : Nat) (s : State) : Keeps s (lostTest address s) :=
  .ite
    (fun _ => (setLiveness_keeps address .lost s).trans ((followPeerLate_keeps _).trans (raise_settles ..).toKeeps))
    (fun _ => .refl s)

theorem rampGov_settles (s : State) : Settles s (rampGov s) :=
  .ite (fun _ => Settles.trans (.gov s) (Settles.trans (.gov _) (clearDrive_settles _))) (fun _ => .gov s)

theorem rampUnwind_settles (s : State) : Settles s (rampUnwind s) :=
  .ite (fun _ => (rampRoll_settles s).trans ((loadFlatCeiling_settles _).trans (stallAtStandstill_settles _)))
    (fun _ => .refl s)

theorem rampStep_keeps (s : State) : Keeps s (rampStep s) :=
  (rampGov_settles s).toKeeps.trans ((agePeers_keeps _).trans (rampUnwind_settles _).toKeeps)

theorem pulseExpiry_settles (s : State) : Settles s (pulseExpiry s) :=
  .ite (fun _ => pulseForMode_settles s) (fun _ => .refl s)

theorem joinExpiry_settles (s : State) : Settles s (joinExpiry s) :=
  .ite
    (fun _ => .ite (fun _ => (raise_settles .peerLost s).trans (.loader _ _ rfl (fun h => h)))
      (fun _ => .loader s _ rfl (fun h => h)))
    (fun _ => .refl s)

theorem tripExpiry_settles (s : State) : Settles s (tripExpiry s) :=
  .ite (fun _ => Settles.trans (.gov s) (clearDrive_settles _)) (fun _ => .refl s)

theorem setEstop_settles (active : Bool) (s : State) : Settles s (setEstop active s) :=
  .ite (fun _ => Settles.trans (.pins s _) (addTrip_settles ..)) (fun _ => .pins s _)

/-! ## The bus unit (R200 to R213) -/

theorem countCheckError_settles (s : State) : Settles s (countCheckError s) :=
  .counters s (fun ⟨_, h2, h3, h4, h5, h6⟩ => ⟨saturate_le .., h2, h3, h4, h5, h6⟩)

theorem hearDuplicate_settles (s : State) : Settles s (hearDuplicate s) :=
  .ite (fun _ => .refl s)
    (fun _ => Settles.trans (.bus s _ (by exact fun h => ⟨h.rx_le, h.tx, h.fault_le⟩)) ((raise_settles ..).trans (addTrip_settles ..)))

theorem countStray_settles (s : State) : Settles s (countStray s) :=
  Settles.trans (.counters s (by exact fun ⟨h1, h2, _, h4, h5, h6⟩ => ⟨h1, h2, saturate_le .., h4, h5, h6⟩)) (raise_settles ..)

theorem latchTrip_settles (origin : Nat) (s : State) : Settles s (latchTrip origin s) :=
  .bus s _ (fun h => ⟨h.rx_le, h.tx, h.fault_le⟩)

theorem deliver_settles (t : Telegram) (s : State) : Settles s (deliver t s) :=
  .ite (fun hlt => .bus s _ (fun h => ⟨by simpa using hlt, h.tx, h.fault_le⟩))
    (fun _ => Settles.trans (.counters s (by exact fun ⟨h1, _, h3, h4, h5, h6⟩ => ⟨h1, saturate_le .., h3, h4, h5, h6⟩)) (raise_settles ..))

theorem receiveTelegram_settles (t : Telegram) (s : State) : Settles s (receiveTelegram t s) :=
  .ite (fun _ => hearDuplicate_settles s) (fun _ => .ite (fun _ => countStray_settles s) (fun _ =>
    .ite (fun _ => latchTrip_settles ..) (fun _ => .ite (fun _ => deliver_settles ..) (fun _ => .refl s))))

theorem receiveFrame_settles (bits : List Bool) (s : State) : Settles s (receiveFrame bits s) := by
  unfold receiveFrame
  split
  · exact countCheckError_settles s
  · exact receiveTelegram_settles ..

/-- The head of a queue with nothing in transmission is begun in its place (R200). -/
theorem TxSafe.begin {e : TxEntry} {rest : List TxEntry} (h : TxSafe (e :: rest)) (address : Nat) (exit : Word)
    (idle : ∀ x ∈ e :: rest, x.inTransmission = false) : TxSafe (e.begun address exit :: rest) where
  length_le := h.length_le
  ordered := by
    have := h.ordered
    rw [List.pairwise_cons] at this ⊢
    exact this
  sending_le := by
    have : rest.filter TxEntry.inTransmission = [] := by
      simpa using fun x (hx : x ∈ rest) => idle x (List.mem_cons_of_mem _ hx)
    rw [List.filter_cons, this]
    split <;> simp
  pulses_le := by
    have hw : (e.begun address exit).waitingPulse = false := by simp [TxEntry.waitingPulse, TxEntry.begun]
    rw [List.filter_cons_of_neg (by simp [hw])]
    exact ((List.sublist_cons_self e rest).filter _).length_le.trans h.pulses_le

theorem beginTransmission_settles (s : State) : Settles s (beginTransmission s) := by
  refine .ite (fun hc => ?_) (fun _ => .refl s)
  split
  · exact .refl s
  · rename_i e rest heq
    refine .tx s _ (fun h => TxSafe.begin (heq ▸ h) _ _ fun x hx => ?_)
    simp only [Bus.sending, Bool.and_eq_true, Bool.not_eq_true', List.any_eq_false] at hc
    simpa using hc.2 x (heq ▸ hx)

theorem dropSent_settles (s : State) : Settles s (dropSent s) := .tx s _ (·.sublist List.filter_sublist)

theorem noteSent_settles (e : TxEntry) (s : State) : Settles s (noteSent e s) :=
  .ite (fun _ => noticeCompleted_settles ..) (fun _ => .refl s)

theorem completeTransmission_settles (s : State) : Settles s (completeTransmission s) := by
  unfold completeTransmission
  split
  · exact .refl s
  · exact (dropSent_settles s).trans (Settles.trans (.bus _ _ (by exact fun h => ⟨h.rx_le, h.tx, Nat.zero_le _⟩))
      ((noteSent_settles ..).trans (offerPending_settles _)))

/-- A merge of waiting pulses takes telegrams of the queue, in the places of their kinds (R211). -/
theorem mergePulses_spec (l : List TxEntry) :
    (∀ x ∈ mergePulses l, x ∈ l) ∧ ((mergePulses l).map TxEntry.kind).Sublist (l.map TxEntry.kind) ∧
      ((mergePulses l).filter TxEntry.waitingPulse).length ≤ 1 := by
  induction l with
  | nil => simp [mergePulses]
  | cons x xs ih =>
    unfold mergePulses
    split
    · rename_i hx
      split
      · rename_i newest hn
        have hmem := List.mem_of_getLast? hn
        obtain ⟨hin, hw⟩ := List.mem_filter.1 hmem
        have hk : newest.kind = x.kind := by simp_all [TxEntry.waitingPulse]
        refine ⟨fun y hy => ?_, ?_, ?_⟩
        · rcases List.mem_cons.1 hy with rfl | hy
          · exact .tail _ hin
          · exact .tail _ (List.mem_of_mem_filter hy)
        · simpa [hk] using List.filter_sublist.map TxEntry.kind
        · have hnone : (xs.filter (fun e => !e.waitingPulse)).filter TxEntry.waitingPulse = [] := by
            simp
          simp [hw, hnone]
      · rename_i hn
        have hnone : xs.filter TxEntry.waitingPulse = [] := by simpa using hn
        exact ⟨fun y hy => hy, .refl _, by simp [hx, hnone]⟩
    · rename_i hx
      obtain ⟨hmem, hsub, hlen⟩ := ih
      refine ⟨fun y hy => ?_, ?_, ?_⟩
      · rcases List.mem_cons.1 hy with rfl | hy
        · exact .head _
        · exact .tail _ (hmem y hy)
      · simpa using hsub
      · rwa [List.filter_cons_of_neg hx]

/-- With every telegram waiting again and the pulses merged, the queue stays sound (R200, R211). -/
theorem TxSafe.waitAgain {l : List TxEntry} (h : TxSafe l) :
    TxSafe (mergePulses (l.map (fun e => { e with inTransmission := false }))) := by
  obtain ⟨hmem, hsub, hlen⟩ := mergePulses_spec (l.map (fun e => { e with inTransmission := false }))
  have hkinds : (l.map (fun e : TxEntry => { e with inTransmission := false })).map TxEntry.kind = l.map TxEntry.kind := by
    simp [Function.comp_def]
  rw [hkinds] at hsub
  constructor
  · have := hsub.length_le
    simp only [List.length_map] at this
    exact this.trans h.length_le
  · have := (List.pairwise_map (f := TxEntry.kind) (R := fun a b => a.cls ≤ b.cls)).2 h.ordered
    exact (List.pairwise_map (f := TxEntry.kind) (R := fun a b => a.cls ≤ b.cls)).1 (this.sublist hsub)
  · have : (mergePulses (l.map (fun e => { e with inTransmission := false }))).filter TxEntry.inTransmission = [] := by
      refine List.filter_eq_nil_iff.2 fun x hx => ?_
      obtain ⟨y, -, rfl⟩ := List.mem_map.1 (hmem x hx)
      simp
    simp [this]
  · exact hlen

theorem makeWaiting_settles (s : State) : Settles s (makeWaiting s) := .tx s _ (·.waitAgain)

theorem busOffTest_settles (s : State) : Settles s (busOffTest s) :=
  .ite
    (fun _ => Settles.trans (.bus s _ (by exact fun h => ⟨h.rx_le, h.tx, h.fault_le⟩)) ((raise_settles ..).trans (setHold_settles ..)))
    (fun _ => .refl s)

theorem faultSender_settles (s : State) : Settles s (faultSender s) :=
  .ite
    (fun _ => (makeWaiting_settles s).trans (Settles.trans (.bus _ _ (by exact fun h => ⟨h.rx_le, h.tx, saturate_le ..⟩))
      ((raise_settles ..).trans (busOffTest_settles _))))
    (fun _ => .refl s)

theorem recoverBus_keeps (s : State) : Keeps s (recoverBus s) :=
  .ite
    (fun _ => (Settles.bus s _ (by exact fun h => ⟨h.rx_le, h.tx, Nat.zero_le _⟩)).toKeeps.trans
      ((fall_keeps ..).trans (clearHold_keeps ..)))
    (fun _ => .refl s)

/-! ## Telegrams of every role (R11 to R14, R20, R21, R28, R32, R34, R46, R179, R192, R193) -/

/-- Taking the oldest entry frees its place (R209). -/
theorem takeEntry_eq_some {k : Kind} {s t : State} {e : RxEntry} (h : takeEntry k s = some (e, t)) :
    ∃ rest, s.bus.rx = e :: rest ∧ e.kind = k ∧ t = s.freed rest := by
  unfold takeEntry at h
  split at h
  · cases h
  · rename_i x rest hx
    split at h
    · rename_i hk
      cases h
      exact ⟨rest, hx, hk, rfl⟩
    · cases h

theorem freed_settles {s : State} {e : RxEntry} {rest : List RxEntry} (h : s.bus.rx = e :: rest) : Settles s (s.freed rest) :=
  .bus s _ (fun hb => ⟨by have := hb.rx_le; rw [h] at this; simp at this; simpa using by omega, hb.tx, hb.fault_le⟩)

theorem takeAs_keeps (k : Kind) (f : RxEntry → State → State) (s : State) (hf : ∀ e t, Keeps t (f e t)) :
    Keeps s (takeAs k f s) := by
  unfold takeAs
  split
  · rename_i e t h
    obtain ⟨rest, hrx, -, rfl⟩ := takeEntry_eq_some h
    exact (freed_settles hrx).toKeeps.trans (hf e _)
  · exact .refl s

theorem enterJoining_settles (s : State) : Settles s (enterJoining s) :=
  (setMode_settles .joining s rfl).trans ((pulseForMode_settles _).trans (.loader _ _ rfl (fun h => h)))

theorem leaveTrip_settles (s : State) : Settles s (leaveTrip s) :=
  .ite (fun _ => Settles.trans (.gov s) (enterJoining_settles _)) (fun _ => Settles.trans (.gov s) (enterActive_settles _))

theorem takeTripClear_settles (e : RxEntry) (s : State) : Settles s (takeTripClear e s) :=
  .ite (fun _ => leaveTrip_settles s) (fun _ => .refl s)

theorem takeSpeedSet_settles (e : RxEntry) (s : State) : Settles s (takeSpeedSet e s) :=
  .ite (fun _ => .gov s) (fun _ => .refl s)

theorem takeLinePulse_keeps (e : RxEntry) (s : State) : Keeps s (takeLinePulse e s) := by
  refine .ite (fun _ => ?_) (fun _ => .refl s)
  split
  · rename_i p hp
    refine (setPeer_keeps _ p s (fun _ => ?_)).trans (followPeerLate_keeps _)
    unfold readPulse at hp
    split at hp
    · obtain ⟨r, -, rfl⟩ := Option.map_eq_some_iff.1 hp
      exact Nat.zero_le _
    · cases hp
  · exact .refl s

theorem checkSequence_settles (seg : Half) (newSeq : Bool) (s : State) : Settles s (checkSequence seg newSeq s) :=
  .ite (fun _ => Settles.trans (.webFields s) (raise_settles ..)) (fun _ => .webFields s)

theorem admitHandoff_settles (e : RxEntry) (s : State) : Settles s (admitHandoff e s) :=
  .ite (fun _ => (raise_settles ..).trans (setHold_settles ..))
    (fun h => placeSegment_settles _ s (by simpa [State.mapCount] using h))

theorem takeHandoff_settles (e : RxEntry) (s : State) : Settles s (takeHandoff e s) :=
  .ite (fun _ => (checkSequence_settles ..).trans (admitHandoff_settles ..)) (fun _ => .refl s)

theorem takeCancel_settles (e : RxEntry) (s : State) : Settles s (takeCancel e s) :=
  .ite (fun _ => (cancelPanel_settles ..).trans (cancelOrder_settles ..)) (fun _ => cancelPanel_settles ..)

theorem ackZone_keeps (z : Nat) (s : State) : Keeps s (ackZone z s) := by
  unfold ackZone
  extract_lets x t
  have ht : Keeps s t := .ite (fun _ => (setZone_settles ..).toKeeps) (fun _ => .refl s)
  exact .ite (fun _ => .ite (fun _ => ht.trans (reassert_keeps ..)) (fun _ => ht.trans (fall_keeps ..))) (fun _ => ht)

theorem ackLatched_keeps (c : Cond) (s : State) : Keeps s (ackLatched c s) := by
  unfold ackLatched
  split
  · exact (Settles.webMiss s (fun _ => Nat.zero_le _)).toKeeps.trans
      ((fall_keeps ..).trans (clearHold_keeps ..))
  · exact (fall_keeps ..).trans (clearHold_keeps ..)
  · exact .ite (fun _ => reassert_keeps ..) (fun _ => fall_keeps ..)
  all_goals exact fall_keeps ..

theorem takeConditionAck_keeps (e : RxEntry) (s : State) : Keeps s (takeConditionAck e s) := by
  refine .ite (fun _ => .ite (fun _ => .foldl _ (fun t z => ackZone_keeps z t) _ s) (fun _ => .refl s)) (fun _ => ?_)
  split
  · exact ackLatched_keeps ..
  · exact .refl s

theorem takeStandby_settles (e : RxEntry) (s : State) : Settles s (takeStandby e s) :=
  .ite (fun _ => enterStandby_settles s) (fun _ => .refl s)

theorem takeWake_settles (e : RxEntry) (s : State) : Settles s (takeWake e s) :=
  .ite (fun _ => enterActive_settles s) (fun _ => .refl s)

end Sys2Proof.Machine
end

