-- ==== Sys2Proof/Proofs/KeptRoleCommands.lean ====
section
/-! PROOFS. What the telegrams of one role and the scan keep, and from that what every command keeps that is carried out in an
operating mode and does not leave it. -/

namespace Sys2Proof.Machine
open Sys2Proof

/-! ## Telegrams of one role (R52 to R60, R79, R97 to R99, R127) -/

theorem takeOrderMeasure_keeps (e : RxEntry) (s : State) : Keeps s (takeOrderMeasure e s) :=
  .ite (fun _ => admitOrder_keeps ..) (fun _ => .refl s)

theorem takePanelOrder_settles (e : RxEntry) (s : State) : Settles s (takePanelOrder e s) :=
  .ite (fun _ => queueTx_settles_of_ne _ _ (by rfl) (by exact nofun)) (fun _ => .refl s)

/-- An upload that a fragment leaves in the staging buffer holds and announces at most 24 steps (R54, R55). -/
def StagingFits (u : Staging) : Prop := u.steps.length ≤ 24 ∧ u.stepCount ≤ 24

theorem setUpload_settles (n : Option Nat) (status : UploadStatus) (s : State) : Settles s (setUpload n status s) := .knife s

theorem setStaging_settles (u : Option Staging) (s : State) (hu : PatternFits s.pattern → ∀ x ∈ u, StagingFits x) :
    Settles s (setStaging u s) := .pattern s _ (fun h => ⟨h.limit_le, h.slots, { h.steps with staging := hu h }⟩)

theorem dropUpload_settles (n : Option Nat) (status : UploadStatus) (s : State) : Settles s (dropUpload n status s) :=
  (setStaging_settles none s (by simp)).trans (setUpload_settles ..)

/-- A commit loads a copy of the steps staged (R56). -/
theorem commitUpload_settles (u : Staging) (s : State) (hu : PatternFits s.pattern → u.steps.length ≤ 24) :
    Settles s (commitUpload u s) := by
  have slots : ∀ x, (PatternFits s.pattern → SlotFits x) → PatternFits s.pattern →
      ∀ y ∈ s.pattern.slots.set (u.pattern - 1) x, SlotFits y := by
    intro x hx h y hy
    rcases List.mem_or_eq_of_mem_set hy with hm | rfl
    · exact ⟨h.steps.active y hm, h.steps.pending y hm⟩
    · exact hx h
  have load : ∀ x status, (PatternFits s.pattern → SlotFits x) →
      Settles s (setUpload (some u.pattern) status (setSlot u.pattern x (setStaging none s))) := by
    intro x status hx
    change Settles s (s.withPattern { s.pattern with
      staging := none, slots := s.pattern.slots.set (u.pattern - 1) x, uploadPattern := some u.pattern,
      uploadStatus := status })
    refine .pattern s _ (fun h => ⟨h.limit_le, by simpa using h.slots, ?_⟩)
    exact { h.steps with
      active := fun y hy => (slots x hx h y hy).active, pending := fun y hy => (slots x hx h y hy).pending,
      staging := by simp }
  unfold commitUpload
  refine .ite (fun _ => load _ _ fun h => ⟨(h.slot u.pattern).active, ?_⟩) (fun _ => load _ _ fun h => SlotFits.activate (hu h))
  rintro c ⟨⟩
  exact hu h

theorem commitCheck_settles (u : Staging) (s : State) (hu : PatternFits s.pattern → u.stepCount ≤ 24) :
    Settles s (commitCheck u s) :=
  .ite (fun h => commitUpload_settles u s (fun hp => h ▸ hu hp)) (fun _ => dropUpload_settles ..)

theorem stageUpload_settles (u : Staging) (last : Bool) (s : State) (hu : PatternFits s.pattern → StagingFits u) :
    Settles s (stageUpload u last s) := by
  refine .ite (fun _ => commitCheck_settles u s (fun h => (hu h).2)) (fun _ => setStaging_settles _ s (fun h x hx => ?_))
  obtain rfl : u = x := by simpa using hx
  exact hu h

@[simp] theorem readSteps_length (body : List Byte) (offset k : Nat) : (readSteps body offset k).length = k := by
  induction k generalizing offset with
  | zero => rfl
  | succ k ih => simp [readSteps, ih]

theorem beginUpload_settles (body : List Byte) (s : State) : Settles s (beginUpload body s) := by
  unfold beginUpload
  extract_lets u t
  have ht : Settles s t := by
    unfold t
    split <;> exact dropUpload_settles ..
  refine .ite (fun h => ht.trans (stageUpload_settles _ _ _ fun _ => ⟨?_, ?_⟩)) (fun _ => ht.trans (dropUpload_settles ..))
  · have : stepsHeld body < 8 := Nat.mod_lt _ (by omega)
    simp only [u, firstStaging, readSteps_length]
    omega
  · simp only [Staging.headerOk, Bool.and_eq_true, decide_eq_true_eq] at h
    exact h.1.2

theorem continueUpload_settles (body : List Byte) (s : State) : Settles s (continueUpload body s) := by
  unfold continueUpload
  split
  · exact dropUpload_settles ..
  · rename_i u hu
    refine .ite (fun hf => ?_) (fun _ => dropUpload_settles ..)
    extract_lets steps
    refine .ite (fun _ => stageUpload_settles _ _ _ fun h => ?_) (fun _ => dropUpload_settles ..)
    have hcount := (h.steps.staging u hu).2
    simp only [Staging.follows, Bool.and_eq_true, decide_eq_true_eq] at hf
    refine ⟨?_, hcount⟩
    simp only [steps, List.length_append, readSteps_length]
    exact hf.2.trans hcount

theorem takePatternFragment_settles (e : RxEntry) (s : State) : Settles s (takePatternFragment e s) :=
  .ite (fun _ => .ite (fun _ => beginUpload_settles ..) (fun _ => continueUpload_settles ..)) (fun _ => .refl s)

theorem takeRecipe_settles (e : RxEntry) (s : State) : Settles s (takeRecipe e s) :=
  .ite (fun _ => .heat s _ (fun h => ⟨by simpa using h.recipes, h.channels, h.samples_le⟩) rfl rfl (fun h => h)) (fun _ => .refl s)

theorem setRollStatus_settles (arm : Nat) (r : RollResult) (s : State) : Settles s (setRollStatus arm r s) := by
  unfold setRollStatus
  cases r with
  | badField | busy | notTaken => exact Settles.trans (.roll s _) (raise_settles ..)
  | none | threaded | splice | loaded => exact .roll s _

theorem loadPlain_settles (a : ArmName) (d : RollData) (s : State) : Settles s (loadPlain a d s) :=
  (loadArm_settles ..).trans ((spliceTest_settles _).trans ((rollConditions_settles _).trans (abortIf_settles ..)))

theorem loadRoll_settles (a : ArmName) (d : RollData) (s : State) : Settles s (loadRoll a d s) := by
  have plain : ∀ r, Settles s (setRollStatus (armNumber a) r (loadPlain a d s)) := fun r =>
    (loadPlain_settles ..).trans (setRollStatus_settles ..)
  have loaded := loadArm_settles a d.lot d.thickness d.core d.circumference s
  exact .ite
    (fun _ => .ite (fun _ => loaded.trans ((activateArm_settles ..).trans (setRollStatus_settles ..))) (fun _ => plain _))
    (fun _ => .ite
      (fun _ => .ite (fun _ => loaded.trans ((startSplice_settles ..).trans (setRollStatus_settles ..))) (fun _ => plain _))
      (fun _ => plain _))

theorem describeRoll_settles (d : RollData) (s : State) : Settles s (describeRoll d s) := by
  unfold describeRoll
  split
  · exact setRollStatus_settles ..
  · exact .ite (fun _ => setRollStatus_settles ..)
      (fun _ => .ite (fun _ => setRollStatus_settles ..) (fun _ => loadRoll_settles ..))

theorem takeRollData_settles (e : RxEntry) (s : State) : Settles s (takeRollData e s) :=
  .ite (fun _ => describeRoll_settles ..) (fun _ => .refl s)

/-! ## The scan (R107, R124 to R142) -/

theorem compareFill_settles (s : State) : Settles s (compareFill s) := by
  unfold compareFill
  split
  · exact .refl s
  · refine .ite (fun _ => ?_) (fun _ => .refl s)
    extract_lets r t
    have ht : Settles s t := Settles.trans (.roll s _) (raise_settles ..)
    exact .ite (fun _ => ht.trans (addTrip_settles ..)) (fun _ => ht)

theorem scanTests_keeps (s : State) : Keeps s (scanTests s) := by
  unfold scanTests
  extract_lets t
  refine (judgeFaults_keeps s).trans ?_
  split
  · exact (doseTick_settles _).toKeeps.trans ((overTempTest_settles _).toKeeps.trans
      ((bandScan_settles _).toKeeps.trans (steamTest_keeps _)))
  · exact (compareFill_settles _).toKeeps
  all_goals exact .refl _

theorem readyHeatTest_settles (s : State) : Settles s (readyHeatTest s) :=
  .ite (fun _ => enterReadyHeat_settles s) (fun _ => .refl s)

theorem cutTest_settles (z : Nat) (s : State) : Settles s (cutTest z s) :=
  .ite (fun _ => cutZone_settles z s) (fun _ => .refl s)

theorem heatBoundary_settles (s : State) : Settles s (heatBoundary s) :=
  .ite (fun _ => (controlZones_settles s).trans (.heatFields _)) (fun _ => .refl s)

theorem parkExpiry_settles (s : State) : Settles s (parkExpiry s) :=
  .ite (fun _ => setChamber_settles ..) (fun _ => .refl s)

/-! ## Every command of the operating modes -/

theorem operate_keeps {f : State → State} {s t : State} (hf : Keeps s (f s)) (h : operate f s = .next t) : Keeps s t := by
  cases h
  exact .ite (fun _ => hf.trans (conclude_settles _).toKeeps) (fun _ => .refl s)

theorem operateWeb_keeps {f : State → State} {s t : State} (hf : Keeps s (f s)) (h : operateWeb f s = .next t) : Keeps s t := by
  cases h
  exact .ite (fun _ => hf.trans (finish_settles _).toKeeps) (fun _ => .refl s)

/-- A command that brings the level of an input: it is noted in every mode and acted on in the operating modes. -/
theorem level_keeps {s u v t : State} (hu : Keeps s u) (hv : Keeps s v)
    (h : (.next (if s.operating then finish u else v) : Answer) = .next t) : Keeps s t := by
  cases h
  exact .ite (fun _ => hu.trans (finish_settles _).toKeeps) (fun _ => hv)

theorem pins_keeps (s : State) (x : Pins) : Keeps s (s.withPins x) := (Settles.pins s x).toKeeps

/-- The commands that end the operating modes: the power-on reset and the RESTART (R183, R195). -/
def endsOperation (c : Instr) : Bool :=
  match c with
  | .powerOnReset | .restart => true
  | _ => false

/-- Every other command of the operating modes respects the capacities and the records of the map. -/
theorem exec_keeps {c : Instr} {s t : State} (hc : endsOperation c = false) (ho : s.operating = true)
    (h : exec c s = .next t) : Keeps s t := by
  have mode : s.mode ≠ .powerUp ∧ s.mode ≠ .configuring ∧ s.mode ≠ .configFault := by
    refine ⟨?_, ?_, ?_⟩ <;> intro hm <;> simp [State.operating, hm, operatingMode] at ho
  cases c with
  | powerOnReset => cases hc
  | restart => cases hc
  | powerOnResetRelease =>
    cases h
    rw [if_neg mode.1]
    exact .refl s
  | configurationReadComplete answer =>
    replace h : execConfigurationReadComplete answer s = .next t := h
    simp only [execConfigurationReadComplete, mode.2.1, false_and, if_false] at h
    split at h <;> cases h
    exact .refl s
  | sensorScanComplete samples =>
    replace h : execSensorScanComplete samples s = .next t := h
    simp only [execSensorScanComplete, mode.2.1, false_and, if_false, ho, if_true] at h
    split at h
    · obtain rfl := Host.Outcome.next.inj h
      exact (takeSamples_settles ..).toKeeps.trans ((scanTests_keeps _).trans (finish_settles _).toKeeps)
    · cases h
  | sensorFault channel => exact operate_keeps (declareFault_settles ..).toKeeps h
  | sensorFaultClear channel => exact operate_keeps (clearFault_keeps ..) h
  | readyHeatEntry => exact operate_keeps (readyHeatTest_settles s).toKeeps h
  | zoneCut zone => exact operate_keeps (cutTest_settles ..).toKeeps h
  | heatControlBoundary => exact operate_keeps (heatBoundary_settles s).toKeeps h
  | parkTimerExpiry => exact operate_keeps (parkExpiry_settles s).toKeeps h
  | rampUpdate w p d =>
    cases h
    have ht := ((samplePins_settles w p d s).trans (tickTimers_settles _)).toKeeps
    exact .ite (fun _ => ht.trans ((rampStep_keeps _).trans (finish_settles _).toKeeps)) (fun _ => ht)
  | peerEntryLate address =>
    replace h : execPeerEntryLate address s = .next t := h
    unfold execPeerEntryLate at h
    split at h
    · exact operateWeb_keeps (lateTest_keeps ..) h
    · cases h
  | peerEntryLost address =>
    replace h : execPeerEntryLost address s = .next t := h
    unfold execPeerEntryLost at h
    split at h
    · exact operateWeb_keeps (lostTest_keeps ..) h
    · cases h
  | pulseTimerExpiry => exact operate_keeps (pulseExpiry_settles s).toKeeps h
  | joinTimerExpiry => exact operate_keeps (joinExpiry_settles s).toKeeps h
  | tripTimerExpiry => exact operate_keeps (tripExpiry_settles s).toKeeps h
  | estopInput active => exact level_keeps (setEstop_settles ..).toKeeps (pins_keeps ..) h
  | encoderEdge encoder forward => exact operateWeb_keeps (countAndTest_settles ..).toKeeps h
  | regLost => exact operate_keeps (regLostTest_settles s).toKeeps h
  | markInput high => exact level_keeps (takeMark_settles ..).toKeeps (pins_keeps ..) h
  | strokeComplete => exact operate_keeps (strokeDone_settles s).toKeeps h
  | stallTimerExpiry => exact operateWeb_keeps (strokeStalled_settles s).toKeeps h
  | moveTimerExpiry => exact operate_keeps (moveDone_settles s).toKeeps h
  | currentLimitDetection microseconds => exact operateWeb_keeps (limitStroke_settles ..).toKeeps h
  | knifeJam => exact operateWeb_keeps (jamTest_settles s).toKeeps h
  | cutTimerExpiry => exact operate_keeps (cutDone_settles s).toKeeps h
  | gateTimerExpiry p d => exact (pins_keeps s _).trans (operate_keeps (gateDone_settles _).toKeeps h)
  | revolutionPulse arm active => exact level_keeps (revolve_settles ..).toKeeps (pins_keeps ..) h
  | armReadyChange arm active => exact level_keeps (changeReady_settles ..).toKeeps (pins_keeps ..) h
  | armEmpty arm active => exact level_keeps (changeEmpty_settles ..).toKeeps (pins_keeps ..) h
  | pasteTimerExpiry =>
    cases h
    exact .ite
      (fun _ => .ite (fun _ => (pasteDone_settles s).toKeeps.trans (finish_settles _).toKeeps)
        (fun _ => (stopPaste_settles s).toKeeps))
      (fun _ => .refl s)
  | webPresentTimerExpiry => exact operateWeb_keeps (webPresentExpiry_settles s).toKeeps h
  | frameReceived bits =>
    have hf : execFrameReceived bits s = .next (finish (receiveFrame bits s)) := by
      unfold execFrameReceived
      split <;> simp_all
    cases hf.symm.trans h
    exact (receiveFrame_settles ..).toKeeps.trans (finish_settles _).toKeeps
  | tripLatchTaken => exact operateWeb_keeps (takeLatch_settles s).toKeeps h
  | transmissionBegin => exact operate_keeps (beginTransmission_settles s).toKeeps h
  | transmissionComplete =>
    cases h
    exact .ite (fun _ => (completeTransmission_settles s).toKeeps.trans (conclude_settles _).toKeeps)
      (fun _ => (dropSent_settles s).toKeeps)
  | arbitrationLost =>
    cases h
    exact .ite (fun _ => (makeWaiting_settles s).toKeeps.trans (conclude_settles _).toKeeps)
      (fun _ => (dropSent_settles s).toKeeps)
  | senderFault =>
    cases h
    exact .ite (fun _ => (faultSender_settles s).toKeeps.trans (conclude_settles _).toKeeps)
      (fun _ => (dropSent_settles s).toKeeps)
  | busOff => exact operate_keeps (busOffTest_settles s).toKeeps h
  | recoveryTimerExpiry => exact operate_keeps (recoverBus_keeps s) h
  | tripClear => exact operateWeb_keeps (takeAs_keeps _ _ _ fun e t => (takeTripClear_settles e t).toKeeps) h
  | hold => exact operate_keeps (takeAs_keeps _ _ _ fun _ t => (setHold_settles _ t).toKeeps) h
  | release => exact operate_keeps (takeAs_keeps _ _ _ fun _ t => clearHold_keeps _ t) h
  | handoff => exact operateWeb_keeps (takeAs_keeps _ _ _ fun e t => (takeHandoff_settles e t).toKeeps) h
  | speedSet => exact operate_keeps (takeAs_keeps _ _ _ fun e t => (takeSpeedSet_settles e t).toKeeps) h
  | linePulse => exact operateWeb_keeps (takeAs_keeps _ _ _ takeLinePulse_keeps) h
  | doseVerdict => exact operateWeb_keeps (takeAs_keeps _ _ _ fun _ _ => (mergeVerdict_settles ..).toKeeps) h
  | orderMeasure => exact operate_keeps (takeAs_keeps _ _ _ takeOrderMeasure_keeps) h
  | cancel => exact operateWeb_keeps (takeAs_keeps _ _ _ fun e t => (takeCancel_settles e t).toKeeps) h
  | conditionAck => exact operate_keeps (takeAs_keeps _ _ _ takeConditionAck_keeps) h
  | panelOrder => exact operate_keeps (takeAs_keeps _ _ _ fun e t => (takePanelOrder_settles e t).toKeeps) h
  | patternFragment => exact operate_keeps (takeAs_keeps _ _ _ fun e t => (takePatternFragment_settles e t).toKeeps) h
  | recipe => exact operate_keeps (takeAs_keeps _ _ _ fun e t => (takeRecipe_settles e t).toKeeps) h
  | rollData => exact operateWeb_keeps (takeAs_keeps _ _ _ fun e t => (takeRollData_settles e t).toKeeps) h
  | standby => exact operateWeb_keeps (takeAs_keeps _ _ _ fun e t => (takeStandby_settles e t).toKeeps) h
  | wake => exact operateWeb_keeps (takeAs_keeps _ _ _ fun e t => (takeWake_settles e t).toKeeps) h
  | faultLampFlash =>
    cases h
    rw [if_neg mode.2.2]
    exact .refl s

end Sys2Proof.Machine
end

