-- ==== Sys2Proof/Proofs/MarksOnlyGrow.lean ====
section
/-! PROOFS. O10: no command takes a mark off a held segment. -/

namespace Sys2Proof.Machine
open Sys2Proof

/-! ## The RESTART and the marks (O10) -/

/-- A RESTART is taken at standstill, is passed over while the line moves, and is nothing without its telegram (R195). -/
theorem execRestart_cases {s t : State} (ho : s.operating = true) (h : execRestart s = .next t) :
    (∃ e rest, s.bus.rx = e :: rest ∧ e.kind = .restart ∧
      (s.gov.vA = 0 ∧ t = takeRestart (s.freed rest) ∨ s.gov.vA ≠ 0 ∧ t = conclude (s.freed rest))) ∨ t = s := by
  obtain rfl := Host.Outcome.next.inj h
  rw [if_pos ho]
  split
  · rename_i e u hu
    obtain ⟨rest, hrx, hk, rfl⟩ := takeEntry_eq_some hu
    refine .inl ⟨e, rest, hrx, hk, ?_⟩
    by_cases hv : s.gov.vA = 0
    · exact .inl ⟨hv, if_pos hv⟩
    · exact .inr ⟨hv, if_neg hv⟩
  · exact .inr rfl

/-- A map without records keeps every promise about records. -/
theorem marksKept_of_map_nil {s t : State} (h : t.web.map = []) :
    RecordsNamed t ∧ ∀ g ∈ s.web.map, ∀ x ∈ t.web.map, x.uid = g.uid → MarksKept g x :=
  ⟨⟨by simp [h], by simp [h]⟩, by simp [h]⟩

theorem Keeps.marksKept {s t : State} (k : Keeps s t) (hs : RecordsNamed s) :
    RecordsNamed t ∧ ∀ g ∈ s.web.map, ∀ x ∈ t.web.map, x.uid = g.uid → MarksKept g x :=
  ⟨k.records.named hs, fun _ hg _ hx hu => k.records.marks hs hg hx hu⟩

/-- Settles O10: an operation renames no record and takes no mark off one (`exec_keeps`); the starts leave no record. -/
theorem segmentMarksOnlyGrow : Obligations.SegmentMarksOnlyGrow := by
  intro c s t ho hs h
  cases hc : endsOperation c with
  | false => exact (exec_keeps hc ho h).marksKept hs
  | true =>
    cases c with
    | powerOnReset =>
      cases h
      exact marksKept_of_map_nil rfl
    | restart =>
      rcases execRestart_cases ho h with ⟨e, rest, hrx, -, ⟨-, rfl⟩ | ⟨-, rfl⟩⟩ | rfl
      · exact marksKept_of_map_nil rfl
      · exact ((freed_settles hrx).toKeeps.trans (conclude_settles _).toKeeps).marksKept hs
      · exact (Keeps.refl _).marksKept hs
    | _ => cases hc

end Sys2Proof.Machine
end

