-- ==== Sys2Proof/Proofs/CapacityKept.lean ====
section
/-! PROOFS. O7: the capacities, under every command in every mode. -/

namespace Sys2Proof.Machine
open Sys2Proof

/-! ## Capacities outside the operating modes (O7) -/

/-- Outside the operating modes the tables of the SETTER are empty. -/
theorem CapacitySafe.idle {s : State} (h : CapacitySafe s) (ho : s.operating = false) :
    s.heat.zones.length = 0 ∧ s.heat.cells.length = 0 :=
  ⟨h.heat.zones.trans (if_neg (by simp [ho])), h.heat.cells.trans (if_neg (by simp [ho]))⟩

/-- A change of the loader between modes that do not operate leaves every capacity (R184, R188). -/
theorem CapacitySafe.loader {s : State} (h : CapacitySafe s) (x : Loader) (ho : s.operating = false)
    (hx : operatingMode x.mode = false) : CapacitySafe (s.withLoader x) := by
  obtain ⟨hz, hc⟩ := h.idle ho
  have hx' : (s.withLoader x).operating = false := hx
  exact { h with heat := { h.heat with
    zones := hz.trans (if_neg (by simp [hx'])).symm, cells := hc.trans (if_neg (by simp [hx'])).symm } }

theorem CapacitySafe.withTx {s : State} (h : CapacitySafe s) (l : List TxEntry) (hl : TxSafe l) :
    CapacitySafe (s.withBus { s.bus with tx := l }) := { h with tx := hl, heat := { h.heat with } }

theorem txSafe_nil : TxSafe [] := by constructor <;> simp

/-- Empty channels have no counts (R126). -/
theorem emptyChannels_fit : ∀ c ∈ List.replicate 8 ({} : Channel), c.Fits := by
  intro c hc
  rw [List.eq_of_mem_replicate hc]
  simp [Channel.Fits]

theorem emptyPeers_fit : PeersFit emptyPeers :=
  ⟨rfl, fun e he => by rw [List.eq_of_mem_replicate he]; exact Nat.zero_le _⟩

theorem countersFit_zero : CountersFit {} := by simp [CountersFit]

/-- What a RESTART leaves is within capacity (R195). -/
theorem takeRestart_capacity {s : State} (h : CapacitySafe s) : CapacitySafe (takeRestart s) where
  map_le := Nat.zero_le _
  rx_le := Nat.zero_le _
  tx := h.tx.sublist List.filter_sublist
  orders_le := Nat.zero_le _
  cancel_le := Nat.zero_le _
  miss_le := Nat.zero_le _
  limit_le := Nat.zero_le _
  fault_le := Nat.zero_le _
  counters := countersFit_zero
  slots := h.slots
  steps := { active := h.steps.active, pending := h.steps.pending, staging := nofun, bound := nofun }
  recipes := h.recipes
  channels := rfl
  samples_le := emptyChannels_fit
  heat := { zones := rfl, zones_le := Nat.zero_le _, cells := rfl, cells_le := Nat.zero_le _, judged_once := List.nodup_nil,
            judged_held := nofun, judged_le := Nat.zero_le _ }
  peers := emptyPeers_fit.length
  ages_le := emptyPeers_fit.ages_le

theorem reset_capacity (pins : Pins) (pending : List Instr) :
    CapacitySafe ((State.reset.withPins pins).withPending pending) where
  map_le := Nat.zero_le _
  rx_le := Nat.zero_le _
  tx := txSafe_nil
  orders_le := Nat.zero_le _
  cancel_le := Nat.zero_le _
  miss_le := Nat.zero_le _
  limit_le := Nat.zero_le _
  fault_le := Nat.zero_le _
  counters := countersFit_zero
  slots := rfl
  steps := by
    have hx : ∀ x ∈ List.replicate 32 ({} : PatternSlot), SlotFits x := fun x hx => by
      rw [List.eq_of_mem_replicate hx]; exact slotFits_empty
    exact { active := fun x h => (hx x h).active, pending := fun x h => (hx x h).pending, staging := nofun, bound := nofun }
  recipes := rfl
  channels := rfl
  samples_le := emptyChannels_fit
  heat := { zones := rfl, zones_le := Nat.zero_le _, cells := rfl, cells_le := Nat.zero_le _, judged_once := List.nodup_nil,
            judged_held := nofun, judged_le := Nat.zero_le _ }
  peers := emptyPeers_fit.length
  ages_le := emptyPeers_fit.ages_le

/-! ## The start (O7) -/

/-- A legal SETTER record has 1 to 4 zones and 1 to 64 cells (R185). -/
theorem legal_setter {s : State} (hi : ImageLegal s) (hs : s.is .setter = true) :
    s.cfg.setter.zones ≤ 4 ∧ s.cfg.setter.cells ≤ 64 ∧ 1 ≤ s.cfg.setter.cells := by
  cases him : s.loader.image with
  | none => simp [State.is, State.role, him] at hs
  | some i =>
    have hl := hi i him
    have hr : roleOfCode i.roleCode = some .setter := by simpa [State.is, State.role, him] using hs
    simp only [Image.legal, hr, Bool.and_eq_true, roleFieldsOk, within, decide_eq_true_eq] at hl
    simp only [State.cfg, him, Option.getD_some]
    omega

theorem SlotFits.atRestart {x : PatternSlot} (h : SlotFits x) : SlotFits x.atRestart := by
  unfold PatternSlot.atRestart
  split
  · exact SlotFits.activate (h.pending _ ‹_›)
  · exact h

/-- The pattern unit at a start holds the kept tables or empty ones (R77, R189). -/
theorem startPattern_fits {s : State} (h : PatternFits s.pattern) : PatternFits (startPattern s).pattern := by
  have ofSlots : ∀ l : List PatternSlot, l.length = 32 → (∀ x ∈ l, SlotFits x) → PatternFits { slots := l } := by
    intro l hl hx
    exact ⟨Nat.zero_le _, hl, { active := fun x h => (hx x h).active, pending := fun x h => (hx x h).pending,
                                staging := nofun, bound := nofun }⟩
  unfold startPattern
  rw [State.withPattern_pattern]
  split
  · refine ofSlots _ (by simpa using h.slots) (fun x hx => ?_)
    obtain ⟨y, hy, rfl⟩ := List.mem_map.1 hx
    exact SlotFits.atRestart ⟨h.steps.active y hy, h.steps.pending y hy⟩
  · exact ofSlots _ rfl (fun x hx => by rw [List.eq_of_mem_replicate hx]; exact slotFits_empty)

theorem table_length {α : Type} (p : Prop) [Decidable p] (n : Nat) (x : α) :
    (if p then List.replicate n x else []).length = if p then n else 0 := by split <;> simp

/-- The tables of a SETTER are as its record says in a state that is taken to operate. -/
theorem working_table (b : State) (n : SetterArea → Nat) :
    (if (b.withLoader { b.loader with mode := .joining }).operating = true ∧
        (b.withLoader { b.loader with mode := .joining }).is .setter = true
      then n (b.withLoader { b.loader with mode := .joining }).cfg.setter else 0) =
    if b.is .setter = true then n b.cfg.setter else 0 :=
  if_congr (and_iff_right rfl) rfl rfl

/-- The heat-set unit of a start, with the units that start empty, is within capacity (R48, R156, R171, R182, R213). -/
theorem startHeat_working {s : State} (hi : ImageLegal s) (hp : PatternFits s.pattern) (hh : HeatFits s.heat)
    (map_le : s.web.map.length ≤ 48) (cancel : s.web.cancelList = []) (miss : s.web.missCount = 0)
    (queue : s.order.queue = []) :
    Working (((((startHeat s).withGov {}).withPeers emptyPeers).withBus {}).withOutfeed {} |>.withCond {}) := by
  generalize hb : (((((startHeat s).withGov {}).withPeers emptyPeers).withBus {}).withOutfeed {} |>.withCond {}) = b
  have hloader : b.loader = s.loader := by subst hb; simp [startHeat]
  have hheat : b.heat = (startHeat s).heat := by subst hb; simp
  have hpat : b.pattern = s.pattern := by subst hb; simp [startHeat]
  have hweb : b.web = s.web := by subst hb; simp [startHeat]
  have horder : b.order = s.order := by subst hb; simp [startHeat]
  have hzones : b.heat.zones.length = if b.is .setter = true then b.cfg.setter.zones else 0 := by
    simp [hheat, startHeat, table_length, State.is, State.role, State.cfg, hloader]
  have hcells : b.heat.cells.length = if b.is .setter = true then b.cfg.setter.cells else 0 := by
    simp [hheat, startHeat, table_length, State.is, State.role, State.cfg, hloader]
  have hib : ImageLegal b := by simpa [ImageLegal, hloader] using hi
  have hrec : b.heat.recipes.length = 16 := by
    rw [hheat]
    change (if s.keeps then s.heat.recipes else List.replicate 16 none).length = 16
    split
    · exact hh.recipes
    · rfl
  have hpb : PatternFits b.pattern := hpat ▸ hp
  have hch : b.heat.channels = s.heat.channels := by rw [hheat]; rfl
  have hjudged : b.heat.judgements = [] := by rw [hheat]; rfl
  exact {
    map_le := hweb ▸ map_le
    rx_le := by subst hb; exact Nat.zero_le _
    tx := by subst hb; exact txSafe_nil
    orders_le := by simp [horder, queue]
    cancel_le := by simp [hweb, cancel]
    miss_le := by simp [hweb, miss]
    limit_le := hpb.limit_le
    fault_le := by subst hb; exact Nat.zero_le _
    counters := by subst hb; exact countersFit_zero
    slots := hpb.slots
    steps := hpb.steps
    recipes := hrec
    channels := hch ▸ hh.channels
    samples_le := hch ▸ hh.samples_le
    heat := {
      zones := hzones.trans (working_table b (·.zones)).symm
      zones_le := by rw [State.withLoader_heat, hzones]; split <;> [exact (legal_setter hib ‹_›).1; omega]
      cells := hcells.trans (working_table b (·.cells)).symm
      cells_le := by rw [State.withLoader_heat, hcells]; split <;> [exact (legal_setter hib ‹_›).2.1; omega]
      judged_once := by simp [hjudged]
      judged_held := by simp [hjudged]
      judged_le := by simp [hjudged] }
    peers := by subst hb; exact emptyPeers_fit.length
    ages_le := by subst hb; exact emptyPeers_fit.ages_le }

/-- The units at their start values are within capacity, with the tables of the operating modes. -/
theorem startUnits_working {s : State} (hi : ImageLegal s) (hp : PatternFits s.pattern) (hh : HeatFits s.heat) :
    Working (startUnits s) := by
  generalize hu : startRoll (startPattern (startOrder (startWeb s))) = u
  have hloader : u.loader = s.loader := by subst hu; simp [startRoll, startPattern, startOrder, startWeb]
  have hheat : u.heat = s.heat := by subst hu; simp [startRoll, startPattern, startOrder, startWeb]
  have hpat : PatternFits u.pattern := by
    have := startPattern_fits (s := startOrder (startWeb s)) (by simpa [startOrder, startWeb] using hp)
    subst hu
    simpa [startRoll] using this
  have hiu : ImageLegal u := by simpa [ImageLegal, hloader] using hi
  have hw := startHeat_working hiu hpat (hheat ▸ hh) (by subst hu; simp [startRoll, startPattern, startOrder, startWeb])
    (by subst hu; rfl) (by subst hu; rfl) (by subst hu; rfl)
  unfold startUnits
  rw [hu]
  extract_lets a b
  have hib : ImageLegal b := by simpa [ImageLegal, b, a, startHeat] using hiu
  have h := (Settles.ite (s := b) (p := b.is .unwind = true)
    (fun _ => (rollConditions_settles b).trans (loadFlatCeiling_settles _)) (fun _ => .refl b))
  exact h.capacity hib hw

/-- The end of CONFIGURING is within capacity (R184, R190). -/
theorem leaveConfiguring_capacity {s : State} (hi : ImageLegal s) (hp : PatternFits s.pattern) (hh : HeatFits s.heat) :
    CapacitySafe (leaveConfiguring s) := by
  unfold leaveConfiguring
  extract_lets l a b
  have hiu : ImageLegal (startUnits a) := by
    have : (startUnits a).loader.image = s.loader.image := by
      unfold startUnits
      extract_lets c d
      split <;> simp [d, c, startHeat, startRoll, startPattern, startOrder, startWeb, a, l, loadFlatCeiling]
    exact fun i h => hi i (this ▸ h)
  have hb : Settles (startUnits a) b := enterJoining_settles _
  have hw : Settles b (finish (if b.pins.estop then addTrip .estopInput b else b)) :=
    Settles.trans (.ite (fun _ => addTrip_settles ..) (fun _ => .refl b)) (finish_settles _)
  have ho : b.operating = true := by simp [b, enterJoining, State.operating, State.mode, setMode, operatingMode]
  have hcap := (hb.trans hw).capacity hiu (startUnits_working (s := a) hi hp hh)
  exact (working_iff (hw.operating ho)).1 hcap

/-! ## Every command in the other modes (O7) -/

/-- A frame is heard outside the operating modes for a RESTART alone (R194). -/
theorem execFrameReceived_idle {s t : State} {bits : List Bool} (ho : s.operating = false)
    (h : execFrameReceived bits s = .next t) : t = s ∨ t = takeRestart s := by
  have listen : listenForRestart bits s = s ∨ listenForRestart bits s = takeRestart s := by
    unfold listenForRestart
    split
    · split
      · exact .inr rfl
      · exact .inl rfl
    · exact .inl rfl
  unfold execFrameReceived at h
  split at h
  · exact .inl (Host.Outcome.next.inj h).symm
  · rw [← Host.Outcome.next.inj h]; exact listen
  · rw [← Host.Outcome.next.inj h]; exact listen
  all_goals simp_all [State.operating, operatingMode]

/-- A record read ends with the record in force or with CONFIG_FAULT, and is nothing where none is in progress (R184,
R188). -/
theorem execConfigurationReadComplete_capacity {s t : State} {answer : Option (List Byte)} (h : CapacitySafe s)
    (ho : s.operating = false) (ht : execConfigurationReadComplete answer s = .next t) : CapacitySafe t := by
  unfold execConfigurationReadComplete at ht
  split at ht
  · obtain rfl := Host.Outcome.next.inj ht
    split
    · rename_i hm
      unfold takeRecord
      split
      · have h1 := h.withTx [] txSafe_nil
        exact CapacitySafe.loader (s := s.withBus { s.bus with tx := [] }) h1 _ ho rfl
      · rename_i i _
        have h1 := h.loader { s.loader with image := some i, reading := false, scanning := true, faultClass := none } ho ho
        exact { h1 with channels := rfl, samples_le := emptyChannels_fit, heat := { h1.heat with } }
    · exact h
  · cases ht

/-- A scan keeps the counts of the channels in their ranges (R126). -/
theorem takeSamples_fits {samples : List (BitVec 12)} {s : State} (h : HeatFits s.heat) :
    HeatFits (takeSamples samples s).heat := by
  unfold takeSamples
  generalize List.range 8 = l
  induction l generalizing s with
  | nil => exact h
  | cons n l ih =>
    refine ih (s := takeSample n _ s) ?_
    unfold takeSample
    split
    · refine ⟨h.recipes, by simpa [setChannel] using h.channels, fun c hc => ?_⟩
      rcases List.mem_or_eq_of_mem_set hc with hm | rfl
      · exact h.samples_le c hm
      · exact (h.channel n).sample ..
    · exact h

theorem execSensorScanComplete_capacity {s t : State} {samples : List (BitVec 12)} (hi : ImageLegal s) (h : CapacitySafe s)
    (ho : s.operating = false) (ht : execSensorScanComplete samples s = .next t) : CapacitySafe t := by
  unfold execSensorScanComplete at ht
  split at ht
  · obtain rfl := Host.Outcome.next.inj ht
    split
    · rename_i hm
      exact leaveConfiguring_capacity (by simpa [ImageLegal] using hi) (by simpa using h.patternFits) (takeSamples_fits h.heatFits)
    · simpa [ho] using h
  · cases ht

theorem operate_idle {f : State → State} {s t : State} (ho : s.operating = false) (h : operate f s = .next t) : t = s :=
  (Host.Outcome.next.inj h).symm.trans (if_neg (by simp [ho]))

theorem operateWeb_idle {f : State → State} {s t : State} (ho : s.operating = false) (h : operateWeb f s = .next t) :
    t = s :=
  (Host.Outcome.next.inj h).symm.trans (if_neg (by simp [ho]))

/-- What the pins and the timers hold counts for no capacity. -/
theorem CapacitySafe.withPins {s : State} (h : CapacitySafe s) (x : Pins) : CapacitySafe (s.withPins x) :=
  { h with heat := { h.heat with } }

theorem CapacitySafe.tickTimers {s : State} (h : CapacitySafe s) (ho : s.operating = false) :
    CapacitySafe (tickTimers s) := by
  unfold Machine.tickTimers
  extract_lets _ a _ b _ c _ d _ e _ f
  have ha : CapacitySafe a := h.loader _ ho ho
  have hb : CapacitySafe b := { ha with heat := { ha.heat with } }
  have hc : CapacitySafe c := { hb with heat := { hb.heat with } }
  have hd : CapacitySafe d := { hc with heat := { hc.heat with }, steps := { hc.steps with } }
  have he : CapacitySafe e := { hd with heat := { hd.heat with } }
  have hf : CapacitySafe f := { he with heat := { he.heat with } }
  exact { hf with heat := { hf.heat with } }

/-- A command of the timers and levels that the operating modes alone act on leaves the level it brings (log entry 6). -/
theorem level_idle {f : State → State} {x : Pins} {s t : State} (hs : CapacitySafe s) (ho : s.operating = false)
    (h : (.next (if s.operating then finish (f s) else s.withPins x) : Answer) = .next t) : CapacitySafe t := by
  obtain rfl := Host.Outcome.next.inj h
  rw [if_neg (by simp [ho])]
  exact hs.withPins x

/-- The telegram in transmission leaves the queue when its frame ends (R195). -/
theorem sent_idle {f : State → State} {s t : State} (hs : CapacitySafe s) (ho : s.operating = false)
    (h : (.next (if s.operating then conclude (f s) else dropSent s) : Answer) = .next t) : CapacitySafe t := by
  obtain rfl := Host.Outcome.next.inj h
  rw [if_neg (by simp [ho])]
  exact hs.withTx _ (hs.tx.sublist List.filter_sublist)

/-- Every command outside the operating modes keeps the capacities. -/
theorem exec_idle_capacity {c : Instr} {s t : State} (hi : ImageLegal s) (hs : CapacitySafe s) (ho : s.operating = false)
    (h : exec c s = .next t) : CapacitySafe t := by
  cases c with
  | powerOnReset =>
    cases h
    exact reset_capacity ..
  | powerOnResetRelease =>
    obtain rfl := Host.Outcome.next.inj h
    split
    · exact CapacitySafe.loader (s := setMode .configuring s) (hs.loader _ ho rfl) _ rfl rfl
    · exact hs
  | configurationReadComplete answer => exact execConfigurationReadComplete_capacity hs ho h
  | sensorScanComplete samples => exact execSensorScanComplete_capacity hi hs ho h
  | rampUpdate w p d =>
    obtain rfl := Host.Outcome.next.inj h
    have hm : (tickTimers (samplePins w p d s)).operating = false := ho
    rw [if_neg (by simp [hm])]
    exact (hs.withPins _).tickTimers ho
  | peerEntryLate address =>
    replace h : execPeerEntryLate address s = .next t := h
    unfold execPeerEntryLate at h
    split at h
    · exact operateWeb_idle ho h ▸ hs
    · cases h
  | peerEntryLost address =>
    replace h : execPeerEntryLost address s = .next t := h
    unfold execPeerEntryLost at h
    split at h
    · exact operateWeb_idle ho h ▸ hs
    · cases h
  | estopInput active => exact level_idle hs ho h
  | markInput high => exact level_idle hs ho h
  | revolutionPulse arm active => exact level_idle hs ho h
  | armReadyChange arm active => exact level_idle hs ho h
  | armEmpty arm active => exact level_idle hs ho h
  | gateTimerExpiry p d =>
    have hw := hs.withPins { s.pins with gatePass := p, gateDivert := d }
    exact operate_idle (s := s.withPins { s.pins with gatePass := p, gateDivert := d }) ho h ▸ hw
  | pasteTimerExpiry =>
    obtain rfl := Host.Outcome.next.inj h
    split
    · rw [if_neg (by simp [ho])]
      exact { hs with heat := { hs.heat with } }
    · exact hs
  | frameReceived bits =>
    rcases execFrameReceived_idle ho h with rfl | rfl
    · exact hs
    · exact takeRestart_capacity hs
  | transmissionComplete => exact sent_idle hs ho h
  | arbitrationLost => exact sent_idle hs ho h
  | senderFault => exact sent_idle hs ho h
  | faultLampFlash =>
    obtain rfl := Host.Outcome.next.inj h
    unfold flashLamp
    split
    · split
      · exact hs.loader _ ho ho
      · exact hs
    · exact hs
  | restart =>
    obtain rfl := Host.Outcome.next.inj h
    rw [if_neg (by simp [ho])]
    exact hs
  | sensorFault | sensorFaultClear | readyHeatEntry | zoneCut | heatControlBoundary | parkTimerExpiry | pulseTimerExpiry
  | joinTimerExpiry | tripTimerExpiry | regLost | strokeComplete | moveTimerExpiry | cutTimerExpiry | transmissionBegin
  | busOff | recoveryTimerExpiry | hold | release | speedSet | orderMeasure | conditionAck | panelOrder | patternFragment
  | recipe => exact operate_idle ho h ▸ hs
  | encoderEdge | stallTimerExpiry | currentLimitDetection | knifeJam | webPresentTimerExpiry | tripLatchTaken | tripClear
  | handoff | linePulse | doseVerdict | cancel | rollData | standby | wake => exact operateWeb_idle ho h ▸ hs

/-- Every command of the operating modes keeps the capacities. -/
theorem exec_operating_capacity {c : Instr} {s t : State} (hi : ImageLegal s) (hs : CapacitySafe s) (ho : s.operating = true)
    (h : exec c s = .next t) : CapacitySafe t := by
  have kept (k : Keeps s t) : CapacitySafe t := (working_iff (k.operating ho)).1 (k.capacity hi ((working_iff ho).2 hs))
  cases hc : endsOperation c with
  | false => exact kept (exec_keeps hc ho h)
  | true =>
    cases c with
    | powerOnReset =>
      cases h
      exact reset_capacity ..
    | restart =>
      rcases execRestart_cases ho h with ⟨e, rest, hrx, -, ⟨-, rfl⟩ | ⟨-, rfl⟩⟩ | rfl
      · have k := (freed_settles hrx).toKeeps
        exact takeRestart_capacity ((working_iff (k.operating ho)).1 (k.capacity hi ((working_iff ho).2 hs)))
      · exact kept ((freed_settles hrx).toKeeps.trans (conclude_settles _).toKeeps)
      · exact hs
    | _ => cases hc

/-- Settles O7: the operating modes go through what each operation keeps (`exec_keeps`), the others are few commands. -/
theorem capacityInvariantKept : Obligations.CapacityInvariantKept := by
  intro s t himage hs h
  unfold step at h
  split at h
  · obtain rfl := Host.Outcome.next.inj h
    exact hs
  · rename_i c rest _
    have hi : ImageLegal (s.withPending rest) := himage.legal
    have hp : CapacitySafe (s.withPending rest) := { hs with heat := { hs.heat with } }
    cases ho : (s.withPending rest).operating with
    | true => exact exec_operating_capacity hi hp ho h
    | false => exact exec_idle_capacity hi hp ho h

end Sys2Proof.Machine
end

