-- ==== Sys2Proof/Proofs/StartsAndEdges.lean ====
section
/-! PROOFS. The front of the receive queue, the hold on the target speed and the trip, and with them the RESTART (O57), the
stray mark (O19), the encoder edge (O29) and the mark input with REG_LOST (O30). -/

namespace Sys2Proof.Machine
open Sys2Proof

/-! ## The front of the receive queue -/

/-- A telegram at the front of the receive queue is taken by its own command (R209). -/
theorem takeEntry_front {s : State} {e : RxEntry} {rest : List RxEntry} (h : s.bus.rx = e :: rest) :
    takeEntry e.kind s = some (e, s.freed rest) := by
  simp [takeEntry, h, State.freed]

theorem takeAs_front {s : State} {e : RxEntry} {rest : List RxEntry} {k : Kind} (f : RxEntry → State → State)
    (h : s.bus.rx = e :: rest) (hk : e.kind = k) : takeAs k f s = f e (s.freed rest) := by
  subst hk
  simp [takeAs, takeEntry_front h]

/-! ## The RESTART (O57) -/

theorem execRestart_front {s : State} {e : RxEntry} {rest : List RxEntry} (ho : s.operating = true)
    (hrx : s.bus.rx = e :: rest) (hk : e.kind = .restart) :
    exec .restart s = .next (if s.gov.vA = 0 then takeRestart (s.freed rest) else conclude (s.freed rest)) := by
  have ht := takeEntry_front hrx
  rw [hk] at ht
  change execRestart s = _
  unfold execRestart
  rw [if_pos ho, ht]
  rfl

/-- Settles O57, from the record a taken RESTART leaves (`takeRestart`) and the end of a command that only frees a place. -/
theorem restartBegins : Obligations.RestartBegins := by
  refine ⟨fun s e rest ho hrx hk => ⟨fun hv => ?_, fun hv => ?_⟩, fun s ho => ?_⟩
  · refine ⟨_, execRestart_front ho hrx hk, ?_⟩
    rw [if_pos hv]
    have hf : (s.freed rest).operating = true := ho
    refine ⟨rfl, rfl, if_pos hf, rfl, rfl, rfl, rfl, rfl, rfl, rfl, rfl, rfl, rfl, rfl, rfl, rfl, rfl⟩
  · refine ⟨_, execRestart_front ho hrx hk, ?_⟩
    rw [if_neg (by omega)]
    refine ⟨by simp [State.freed], fun hq => ?_⟩
    rw [conclude_of_quiet (s.freed rest) hq]
    exact refresh_figures _
  · change execRestart s = _
    simp [execRestart, ho]

/-! ## The stray mark (O19) -/

/-- A removal opens no window (R6, R16). -/
theorem removeSeg_window_none (uid : Nat) {s : State} (h : s.web.window = none) : (removeSeg uid s).web.window = none := by
  unfold removeSeg
  split
  · exact h
  · simp [h]

/-- The placement rule opens no window (R5, R16, R17). -/
theorem placeRule_window_none (uid : Nat) {s : State} (h : s.web.window = none) : (placeRule uid s).web.window = none := by
  have removed (l : List Segment) : (l.foldl (fun t a => removeSeg a.uid t) s).web.window = none := by
    induction l generalizing s with
    | nil => exact h
    | cons a l ih => exact ih (removeSeg_window_none a.uid h)
  unfold placeRule
  split
  · exact h
  · dsimp only
    split
    · exact removed _
    · exact removed _

/-- The first mark in a window closes it (R17). -/
theorem acceptMark_window {s : State} {edge : Word} {g : Segment} (h : s.windowOf edge = some g) :
    (acceptMark edge s).web.window = none := by
  unfold acceptMark
  rw [h]
  refine placeRule_window_none _ ?_
  split <;> simp

theorem windowOf_closed {s : State} (edge : Word) (h : s.web.window = none) : s.windowOf edge = none := by
  simp [State.windowOf, h]

/-- The window that is due to open is a PANEL's (R16). -/
theorem kind_of_openWindow_due {s : State} {g : Segment} (h : s.dueWindow = some (.openWindow g)) : g.kind = .panel := by
  unfold State.dueWindow at h
  split at h
  · split at h
    · rename_i g' hg
      obtain rfl : g' = g := by simpa using h
      have := List.find?_some hg
      simp only [Bool.and_eq_true, beq_iff_eq] at this
      exact this.1.1
    · split at h
      · rename_i d hd
        obtain rfl : d = .openWindow g := by simpa using h
        unfold State.dueMark at hd
        split at hd
        · split at hd <;> cases hd
        · cases hd
      · unfold State.dueClosing at h
        split at h
        · cases h
        · split at h
          · split at h
            · split at h <;> cases h
            · cases h
          · cases h
  · cases h

/-- Settles O19: a mark is taken to no segment unless a window holds it, and taking it closes the window. -/
theorem strayMarksMoveNothing : Obligations.StrayMarksMoveNothing := by
  refine ⟨fun s edge h => ?_, fun s edge edge' g h => windowOf_closed _ (acceptMark_window h),
    fun s edge h => windowOf_closed edge h, fun s g h => kind_of_openWindow_due h⟩
  unfold acceptMark
  rw [h]
  simp [saturate, Nat.min_comm]

/-! ## The encoder edge (O29) -/

theorem enterTripped_mode (s : State) : (enterTripped s).mode = .tripped := by
  unfold enterTripped
  dsimp only
  split <;> simp [State.mode, setMode]

theorem enterTripped_trips (s : State) : (enterTripped s).gov.trips = s.gov.trips := by
  unfold enterTripped
  dsimp only
  split <;> simp [setMode]

/-- A trip in the operating modes is recorded and leaves the station TRIPPED (R41). -/
theorem addTrip_trips (c : TripCause) {s : State} (ho : s.operating = true) :
    c ∈ (addTrip c s).gov.trips ∧ (addTrip c s).mode = .tripped := by
  have entered (t : State) (h : c ∈ t.gov.trips) : c ∈ (pulseForMode (enterTripped (queueTrip c t))).gov.trips ∧
      (pulseForMode (enterTripped (queueTrip c t))).mode = .tripped := by
    have hm := enterTripped_mode (queueTrip c t)
    rw [State.mode] at hm
    exact ⟨by simpa [enterTripped_trips] using h, by simpa [State.mode] using hm⟩
  unfold addTrip
  cases hm : s.mode with
  | joining | active | standby => exact entered _ (by simp)
  | tripped =>
    dsimp only
    split
    · exact ⟨‹_›, hm⟩
    · exact ⟨by simp, by simpa [State.mode] using hm⟩
  | powerUp | configuring | configFault => simp [State.operating, hm, operatingMode] at ho

/-- A command that ends in TRIPPED stays there: no entry to ACTIVE can fall due (R191). -/
theorem finish_tripped {s : State} (h : s.mode = .tripped) : (finish s).mode = .tripped := by
  have hm : (settle s).mode = s.mode := by simp [State.mode]
  unfold finish
  rw [conclude_of_steady _ (.inr (.inl (hm.trans h)))]
  exact (congrArg Loader.mode (refresh_figures _).loader).trans (hm.trans h)

/-- What an edge counts: the raw fill's fall from above 0 to 0 or below trips, and nothing else does (R1, R108). -/
theorem countAndTest_finish {s : State} (encoder : EncoderName) (forward : Bool) (ho : s.operating = true) :
    (s.is .unwind = true → 0 < s.rawFill → (finish (countAndTest encoder forward s)).rawFill ≤ 0 →
      TripCause.accumEmpty ∈ (finish (countAndTest encoder forward s)).gov.trips ∧
      (finish (countAndTest encoder forward s)).mode = .tripped) ∧
    (s.is .unwind = false ∨ s.rawFill ≤ 0 ∨ 0 < (finish (countAndTest encoder forward s)).rawFill →
      (finish (countAndTest encoder forward s)).gov.trips = s.gov.trips) := by
  have hc : (countEdge encoder forward s).operating = true ∧ (countEdge encoder forward s).gov = s.gov := by
    unfold countEdge
    split
    · exact ⟨ho, rfl⟩
    · split <;> exact ⟨ho, rfl⟩
  have hraw : (finish (countAndTest encoder forward s)).rawFill = (countEdge encoder forward s).rawFill := by
    unfold countAndTest
    dsimp only
    split <;> simp [State.rawFill, State.position, State.outCount]
  rw [hraw]
  refine ⟨fun hu h0 h1 => ?_, fun h => ?_⟩
  · have ht : countAndTest encoder forward s = addTrip .accumEmpty (countEdge encoder forward s) := by
      simp [countAndTest, hu, h0, h1]
    obtain ⟨htrip, hmode⟩ := addTrip_trips .accumEmpty hc.1
    rw [ht]
    exact ⟨by simpa using htrip, finish_tripped hmode⟩
  · have ht : countAndTest encoder forward s = countEdge encoder forward s := by
      unfold countAndTest
      refine if_neg ?_
      rcases h with h | h | h
      · simp [h]
      · simp [Int.not_lt.2 h]
      · simp [Int.not_le.2 h]
    rw [ht]
    simp [hc.2]

/-- The trip leaves the counters and the applied speed as the edge left them (R41). -/
theorem countAndTest_counters (encoder : EncoderName) (forward : Bool) (s : State) :
    (countAndTest encoder forward s).web.infeed = (countEdge encoder forward s).web.infeed ∧
    (countAndTest encoder forward s).web.outfeed = (countEdge encoder forward s).web.outfeed ∧
    (countAndTest encoder forward s).web.p0 = (countEdge encoder forward s).web.p0 ∧
    (countAndTest encoder forward s).gov.vA = (countEdge encoder forward s).gov.vA := by
  unfold countAndTest
  dsimp only
  split <;> simp

theorem countEdge_encoder1 (forward : Bool) (s : State) : countEdge .encoder1 forward s =
    s.withWeb { s.web with infeed := stepCounter s.web.infeed s.cfg.scale1 forward } := rfl

theorem countEdge_encoder2 (forward : Bool) (s : State) : countEdge .encoder2 forward s =
    if s.is .unwind then s.withWeb { s.web with outfeed := stepCounter s.web.outfeed s.cfg.scale2 forward } else s := rfl

theorem stepCounter_eq (c : Counter) (n : Nat) (forward : Bool) :
    stepCounter c n forward = if forward then c + BitVec.ofNat 48 n else c - BitVec.ofNat 48 n := rfl

/-- Settles O29: the end of the command leaves the counters, the base of the fill and the trips. -/
theorem encoderEdgeCounts : Obligations.EncoderEdgeCounts := by
  intro s forward ho
  have edge (encoder : EncoderName) :
      exec (.encoderEdge encoder forward) s = .next (finish (countAndTest encoder forward s)) :=
    congrArg _ (if_pos ho)
  obtain ⟨trips1, none1⟩ := countAndTest_finish .encoder1 forward ho
  obtain ⟨trips2, none2⟩ := countAndTest_finish .encoder2 forward ho
  have counters1 := countAndTest_counters .encoder1 forward s
  have counters2 := countAndTest_counters .encoder2 forward s
  refine ⟨⟨_, edge .encoder1, ?_, ?_, ?_, ?_, trips1, none1⟩, ⟨_, edge .encoder2, ?_, ?_, ?_, ?_, trips2, none2⟩⟩ <;>
    cases hu : s.is .unwind <;> simp [counters1, counters2, countEdge_encoder1, countEdge_encoder2, stepCounter_eq, hu]

/-! ## The mark input and REG_LOST (O30) -/

/-- While a hold is known the target speed is 0 (R33, R37). -/
theorem conclude_vT_of_hold {s : State} {h : HoldCause} (hh : h ∈ (conclude s).gov.holds) : (conclude s).gov.vT = 0 := by
  have hk : (conclude s).holdKnown = true := by
    simp only [State.holdKnown, Bool.or_eq_true, Bool.not_eq_true', List.isEmpty_eq_false_iff]
    exact .inl (List.ne_nil_of_mem hh)
  rw [conclude_vT]
  simp [State.targetSpeed, hk]

theorem is_congr {s t : State} (h : t.loader = s.loader) (r : Role) : t.is r = s.is r := by
  simp [State.is, State.role, h]

theorem steady_congr {s t : State} (hl : t.loader = s.loader) (hp : t.peers = s.peers) (h : s.steady) : t.steady := by
  have hm : t.mode = s.mode := congrArg Loader.mode hl
  unfold State.steady
  rwa [hm, joinReady_congr hl hp]

theorem quiet_congr {s t : State} (hl : t.loader = s.loader) (hp : t.peers = s.peers)
    (hw : t.cond.wakeDue = s.cond.wakeDue) (h : s.quiet) : t.quiet := by
  rcases h with h | ⟨hm, hs, h⟩
  · exact .inl (steady_congr hl hp h)
  · exact .inr ⟨(congrArg Loader.mode hl).trans hm, (is_congr hl _).trans hs, hw.trans h⟩

/-- The end of a command that leaves loader, peers and the wake as they were (R181, R191). -/
theorem conclude_figures {s u : State} (hl : u.loader = s.loader) (hp : u.peers = s.peers)
    (hw : u.cond.wakeDue = s.cond.wakeDue) (h : s.quiet) : FiguresOnly u (conclude u) := by
  rw [conclude_of_quiet u (quiet_congr hl hp hw h)]
  exact refresh_figures u

/-- Where no entry to ACTIVE can fall due a command ends with what was due and the figures (R2, R191). -/
theorem finish_of_steady {s : State} (h : s.steady) : finish s = refresh (settle s) :=
  conclude_of_steady _ (steady_congr (by simp) (by simp) h)

theorem takeMark_rises {s : State} {high : Bool} (hr : s.hasMark = true)
    (h0 : s.cfg.markActive s.pins.markHigh = false) (h1 : s.cfg.markActive high = true) :
    takeMark high s = (s.withPins { s.pins with markHigh := high }).withWeb { s.web with candidate := some s.position } := by
  unfold takeMark
  rw [if_pos hr, h0, h1]
  rfl

theorem takeMark_falls {s : State} {high : Bool} (hr : s.hasMark = true)
    (h0 : s.cfg.markActive s.pins.markHigh = true) (h1 : s.cfg.markActive high = false) :
    takeMark high s = (s.withPins { s.pins with markHigh := high }).withWeb { s.web with candidate := none } := by
  unfold takeMark
  rw [if_pos hr, h0, h1]
  rfl

theorem takeMark_unread {s : State} {high : Bool} (h : s.hasMark = false ∨ high = s.pins.markHigh) :
    takeMark high s = s.withPins { s.pins with markHigh := high } := by
  unfold takeMark
  rcases h with h | rfl
  · simp [h]
  · cases s.cfg.markActive s.pins.markHigh <;> simp

/-- Making the figures again leaves the own holds (R33). -/
theorem FiguresOnly.holds {u t : State} (h : FiguresOnly u t) : t.gov.holds = u.gov.holds := by rw [← h.gov]

/-- Settles O30: the mark input is read by `takeMark`, and REG_LOST stands with its hold, which gives target speed 0. -/
theorem markInputAndRegLost : Obligations.MarkInputAndRegLost := by
  refine ⟨fun s high ho hs => ?_, fun s ho hs => ⟨fun hm hn => ?_, fun h => ?_⟩⟩
  · have hu : (takeMark high s).loader = s.loader ∧ (takeMark high s).peers = s.peers ∧
        (takeMark high s).pins = { s.pins with markHigh := high } := by
      unfold takeMark
      dsimp only
      split
      · split <;> simp
      · simp
    obtain ⟨hl, hp, hpins⟩ := hu
    have hfig : FiguresOnly (settle (takeMark high s)) (finish (takeMark high s)) := by
      rw [finish_of_steady (steady_congr hl hp hs)]
      exact refresh_figures _
    refine ⟨_, congrArg Host.Outcome.next (if_pos ho), hfig.pins.trans (by simpa using hpins), fun hr h0 h1 => ?_, fun hr h0 h1 => ?_,
      fun h => ?_⟩
    · exact takeMark_rises hr h0 h1 ▸ hfig
    · exact takeMark_falls hr h0 h1 ▸ hfig
    · exact takeMark_unread h ▸ hfig
  · have ht : regLostTest s = latchRegLost s := if_pos ⟨hm, hn⟩
    have hst : (latchRegLost s).steady := steady_congr (by simp) (by simp) hs
    have hfig : FiguresOnly (latchRegLost s) (conclude (latchRegLost s)) := by
      rw [conclude_of_steady _ hst]
      exact refresh_figures _
    have hhold : HoldCause.regLost ∈ (conclude (latchRegLost s)).gov.holds := by
      rw [hfig.holds]
      simp [latchRegLost]
    refine ⟨conclude (latchRegLost s), ?_, hhold, (hfig.flags _ (by decide)).2 (by simp [latchRegLost]),
      hfig.web.trans (by simp), conclude_vT_of_hold hhold⟩
    rw [← ht]
    exact congrArg Host.Outcome.next (if_pos ho)
  · have ht : regLostTest s = s := if_neg (by rintro ⟨h2, hn⟩; rcases h with h | h; exacts [by omega, hn h])
    refine ⟨_, congrArg Host.Outcome.next (if_pos ho), ?_⟩
    rw [ht, conclude_of_steady s hs]
    exact refresh_figures s

end Sys2Proof.Machine
end

