-- ==== Sys2Proof/Proofs/BytesAndBits.lean ====
section
/-! PROOFS. Numbers as bytes and codes as bits: what a field of a body reads of what was written there (R216). -/

namespace Sys2Proof.Machine
open Sys2Proof

/-! ## Numbers as bytes -/

theorem numberOf_append (a b : List Byte) : numberOf (a ++ b) = numberOf a * 256 ^ b.length + numberOf b := by
  have shifted (l : List Byte) (n : Nat) : l.foldl (fun acc x => acc * 256 + x.toNat) n = n * 256 ^ l.length + numberOf l := by
    induction l generalizing n with
    | nil => simp [numberOf]
    | cons x l ih =>
      simp only [numberOf, List.foldl_cons, List.length_cons]
      rw [ih, ih (0 * 256 + x.toNat)]
      ring
  rw [numberOf, List.foldl_append, shifted]
  rfl

theorem numberOf_lt (l : List Byte) : numberOf l < 256 ^ l.length := by
  induction l using List.reverseRecOn with
  | nil => simp [numberOf]
  | append_singleton l x ih =>
    have hx : numberOf [x] < 256 := by simpa [numberOf] using x.isLt
    rw [numberOf_append, List.length_append, pow_add]
    simp only [List.length_singleton, pow_one]
    nlinarith

@[simp] theorem bytesOf_length (n v : Nat) : (bytesOf n v).length = n := by
  induction n generalizing v with
  | zero => rfl
  | succ n ih => simp [bytesOf, ih]

/-- A number written in `n` bytes is read back modulo what they hold. -/
theorem numberOf_bytesOf (n v : Nat) : numberOf (bytesOf n v) = v % 256 ^ n := by
  induction n generalizing v with
  | zero => simp [bytesOf, numberOf, Nat.mod_one]
  | succ n ih =>
    rw [bytesOf, numberOf_append, ih]
    have hb : numberOf [BitVec.ofNat 8 v] = v % 256 := by simp [numberOf]
    rw [hb, List.length_singleton, pow_one, pow_succ, Nat.mul_comm (256 ^ n), Nat.mod_mul]
    ring

theorem fieldAt_lt (l : List Byte) (offset size : Nat) : fieldAt l offset size < 256 ^ size :=
  (numberOf_lt _).trans_le (Nat.pow_le_pow_right (by omega) (List.length_take_le ..))

/-- A field that lies past the first part is read from the second. -/
theorem fieldAt_append_right (a b : List Byte) (offset size : Nat) (h : a.length ≤ offset) :
    fieldAt (a ++ b) offset size = fieldAt b (offset - a.length) size := by
  simp [fieldAt, List.drop_append, List.drop_eq_nil_of_le h]

/-- A field that lies within the first part is read from it. -/
theorem fieldAt_append_left (a b : List Byte) (offset size : Nat) (h : offset + size ≤ a.length) :
    fieldAt (a ++ b) offset size = fieldAt a offset size := by
  rw [fieldAt, fieldAt, List.drop_append, List.take_append_of_le_length (by simp; omega)]

/-- The field written first is read back. -/
theorem fieldAt_bytesOf (n v : Nat) (b : List Byte) : fieldAt (bytesOf n v ++ b) 0 n = v % 256 ^ n := by
  rw [fieldAt_append_left _ _ _ _ (by simp), fieldAt, List.drop_zero, List.take_of_length_le (by simp), numberOf_bytesOf]

/-! ## Codes as bits -/

theorem testBit_bitsOf (l : List Nat) (i : Nat) : (bitsOf l).testBit i = decide (i ∈ l) := by
  have folded (l : List Nat) (n : Nat) :
      (l.foldl (fun acc c => acc ||| (1 <<< c)) n).testBit i = (n.testBit i || decide (i ∈ l)) := by
    induction l generalizing n with
    | nil => simp
    | cons c l ih =>
      rw [List.foldl_cons, ih, Nat.testBit_or, Nat.one_shiftLeft, Nat.testBit_two_pow]
      simp [Bool.or_assoc, eq_comm]
  simpa [bitsOf] using folded l 0

theorem bitsOf_lt {l : List Nat} {n : Nat} (h : ∀ c ∈ l, c < n) : bitsOf l < 2 ^ n := by
  refine Nat.lt_pow_two_of_testBit _ fun i hi => ?_
  rw [testBit_bitsOf]
  simp only [decide_eq_false_iff_not]
  exact fun hm => absurd (h i hm) (by omega)

end Sys2Proof.Machine
end

