-- ==== Sys2Proof/Proofs/TelegramsOfTheWeb.lean ====
section
/-! PROOFS. What a HANDOFF, a DOSE VERDICT and a CANCEL do to the map (O31, O33). -/

namespace Sys2Proof.Machine
open Sys2Proof

/-- A telegram acted on in the operating modes is taken off the queue, acted on, and what falls due follows (R2, R209). -/
theorem operateWeb_takeAs {s : State} {e : RxEntry} {rest : List RxEntry} {k : Kind} (f : RxEntry → State → State)
    (ho : s.operating = true) (hrx : s.bus.rx = e :: rest) (hk : e.kind = k) :
    operateWeb (takeAs k f) s = .next (finish (f e (s.freed rest))) := by
  rw [operateWeb, if_pos ho, takeAs_front f hrx hk]

/-! ## HANDOFF (O31) -/

theorem handoffSegment_seg (s : State) (e : RxEntry) : (s.handoffSegment e).seg = BitVec.ofNat 16 (fieldAt e.body 0 2) := by
  unfold State.handoffSegment
  dsimp only
  split <;> rfl

theorem handoffSegment_newSeq (s : State) (e : RxEntry) : (s.handoffSegment e).newSeq = (fieldAt e.body 15 1).testBit 2 := by
  unfold State.handoffSegment
  dsimp only
  split <;> rfl

/-- The sequence check sets the number expected next and SEQ_GAP, and nothing else that is read here (R12). -/
theorem checkSequence_keeps (seg : Half) (newSeq : Bool) (s : State) :
    (checkSequence seg newSeq s).web = { s.web with expected := some (seg + 1) } ∧
    (checkSequence seg newSeq s).loader = s.loader ∧ (checkSequence seg newSeq s).peers = s.peers ∧
    (checkSequence seg newSeq s).bus.rx = s.bus.rx := by
  unfold checkSequence
  dsimp only
  split <;> simp

theorem handoffSegment_checkSequence (seg : Half) (newSeq : Bool) (s : State) (e : RxEntry) :
    (checkSequence seg newSeq s).handoffSegment e = s.handoffSegment e := by
  obtain ⟨hweb, hloader, -, -⟩ := checkSequence_keeps seg newSeq s
  simp [State.handoffSegment, hweb, State.cfg, hloader]

/-- A number other than the one expected latches SEQ_GAP, unless a new sequence begins (R12). -/
theorem checkSequence_gap {seg x : Half} {s : State} (hx : s.web.expected = some x) (hne : x ≠ seg) :
    Cond.seqGap ∈ (checkSequence seg false s).cond.flags := by
  simp [checkSequence, hx, hne]

theorem admitHandoff_full {e : RxEntry} {s : State} (h : 48 ≤ s.web.map.length) :
    admitHandoff e s = setHold .mapFull (raise .mapFull s) := if_pos h

theorem admitHandoff_room {e : RxEntry} {s : State} (h : s.web.map.length < 48) :
    admitHandoff e s = placeSegment (s.handoffSegment e) s := if_neg (Nat.not_le.2 h)

/-- What the capacity check and the placement leave of what the command's answer reads (R13, R14). -/
theorem admitHandoff_keeps (e : RxEntry) (s : State) :
    (admitHandoff e s).loader = s.loader ∧ (admitHandoff e s).peers = s.peers ∧
    (admitHandoff e s).bus.rx = s.bus.rx ∧ (admitHandoff e s).web.expected = s.web.expected := by
  unfold admitHandoff
  split <;> simp

theorem takeHandoff_upstream {e : RxEntry} {s : State} (hup : e.origin = s.cfg.upstream) (hu : s.is .unwind = false) :
    takeHandoff e s = admitHandoff e (checkSequence (s.handoffSegment e).seg (s.handoffSegment e).newSeq s) :=
  if_pos ⟨hup, hu⟩

/-- A HANDOFF taken: the number expected next, the latch of a gap, and the full map (R12 to R14). -/
theorem takeHandoff_answer {s : State} {e : RxEntry} (hup : e.origin = s.cfg.upstream) (hu : s.is .unwind = false) :
    let t := finish (takeHandoff e s)
    t.bus.rx = s.bus.rx ∧ t.web.expected = some (BitVec.ofNat 16 (fieldAt e.body 0 2) + 1) ∧
    (∀ x, s.web.expected = some x → x ≠ BitVec.ofNat 16 (fieldAt e.body 0 2) →
      (fieldAt e.body 15 1).testBit 2 = false → Cond.seqGap ∈ t.cond.flags) ∧
    (48 ≤ s.web.map.length → Cond.mapFull ∈ t.cond.flags ∧ HoldCause.mapFull ∈ t.gov.holds ∧ t.gov.vT = 0) ∧
    (s.web.map.length < 48 → s.steady → FiguresOnly (settle (placeSegment (s.handoffSegment e)
      (checkSequence (BitVec.ofNat 16 (fieldAt e.body 0 2)) ((fieldAt e.body 15 1).testBit 2) s))) t) := by
  intro t
  obtain ⟨hweb, hloader, hpeers, hrx⟩ :=
    checkSequence_keeps (BitVec.ofNat 16 (fieldAt e.body 0 2)) ((fieldAt e.body 15 1).testBit 2) s
  have hseg := handoffSegment_checkSequence (BitVec.ofNat 16 (fieldAt e.body 0 2)) ((fieldAt e.body 15 1).testBit 2) s e
  have htake : takeHandoff e s = admitHandoff e
      (checkSequence (BitVec.ofNat 16 (fieldAt e.body 0 2)) ((fieldAt e.body 15 1).testBit 2) s) := by
    rw [takeHandoff_upstream hup hu, handoffSegment_seg, handoffSegment_newSeq]
  have hgap : ∀ x, s.web.expected = some x → x ≠ BitVec.ofNat 16 (fieldAt e.body 0 2) →
      (fieldAt e.body 15 1).testBit 2 = false → Cond.seqGap ∈ (checkSequence (BitVec.ofNat 16 (fieldAt e.body 0 2))
        ((fieldAt e.body 15 1).testBit 2) s).cond.flags := by
    intro x hx hne hb
    rw [hb]
    exact checkSequence_gap hx hne
  generalize hv : checkSequence (BitVec.ofNat 16 (fieldAt e.body 0 2)) ((fieldAt e.body 15 1).testBit 2) s = v at *
  obtain ⟨aloader, apeers, arx, aexpected⟩ := admitHandoff_keeps e v
  have kept : Settles v t := by
    unfold t
    rw [htake]
    exact (admitHandoff_settles e v).trans (finish_settles _)
  refine ⟨?_, ?_, fun x hx hne hb => kept.flags _ (hgap x hx hne hb) rfl, fun hfull => ?_, fun hroom hs => ?_⟩
  · simp [t, htake, arx, hrx]
  · simp [t, htake, aexpected, hweb]
  · have hadmit : Settles (setHold .mapFull (raise .mapFull v)) t := by
      unfold t
      rw [htake, admitHandoff_full (by simpa [hweb] using hfull)]
      exact finish_settles _
    have hhold : HoldCause.mapFull ∈ t.gov.holds := hadmit.holds _ (by simp) rfl
    exact ⟨hadmit.flags _ (by simp) rfl, hhold, conclude_vT_of_hold hhold⟩
  · have hst : (admitHandoff e v).steady := steady_congr (aloader.trans hloader) (apeers.trans hpeers) hs
    have ht : t = refresh (settle (placeSegment (s.handoffSegment e) v)) := by
      unfold t
      rw [htake, finish_of_steady hst, admitHandoff_room (by simpa [hweb] using hroom), hseg]
    rw [ht]
    exact refresh_figures _

/-- Settles O31, from what a HANDOFF taken answers (`takeHandoff_answer`); one that is not for the station is passed over. -/
theorem handoffReceived : Obligations.HandoffReceived := by
  intro s e rest ho hrx hk
  have hexec : exec .handoff s = .next (finish (takeHandoff e (s.freed rest))) := operateWeb_takeAs takeHandoff ho hrx hk
  refine ⟨fun h => ⟨_, hexec, ?_⟩, fun hup hu => ⟨_, hexec, takeHandoff_answer hup hu⟩⟩
  have htake : takeHandoff e (s.freed rest) = s.freed rest := if_neg (by
    rintro ⟨hup, hu⟩
    rcases h with h | h
    · exact h hup
    · exact absurd (h.symm.trans hu) (by decide))
  rw [htake]
  refine ⟨by simp [State.freed], by simp [State.freed], fun hs => ?_⟩
  rw [finish_of_steady (s := s.freed rest) hs]
  exact refresh_figures _

/-! ## DOSE VERDICT and CANCEL (O33) -/

/-- The verdict SET marks the SETTER that gave it (R20). -/
theorem merge_set (g : Segment) (origin : Nat) :
    g.merge .set origin = { g with setters := g.setters ||| BitVec.ofNat 16 (2 ^ origin) } := by
  simp [Segment.merge, maskOf, bitsOf, Nat.one_shiftLeft]

/-- A verdict is for the copies of its number that are not UNTRACKED, a PANEL's of its id (R20). -/
theorem matches_iff (g : Segment) (n : Nat) (hn : n < 65536) (id : Word) : g.matches (BitVec.ofNat 16 n) id = true ↔
    g.seg.toNat = n ∧ g.kind ≠ .untracked ∧ (g.kind = .panel → g.panelId = some id) := by
  have hseg : g.seg = BitVec.ofNat 16 n ↔ g.seg.toNat = n := by
    rw [← BitVec.toNat_inj, BitVec.toNat_ofNat, Nat.mod_eq_of_lt hn]
  simp only [Segment.matches, Bool.and_eq_true, Bool.or_eq_true, beq_iff_eq, decide_eq_true_eq, hseg, and_assoc,
    imp_iff_not_or]

/-- A command that tells what is to be done with no trip and no change of the peers ends with its figures (R191). -/
theorem finish_figures {s u : State} (hl : u.loader = s.loader) (hp : u.peers = s.peers) (hs : s.steady) :
    FiguresOnly (settle u) (finish u) := by
  rw [finish_of_steady (steady_congr hl hp hs)]
  exact refresh_figures _

/-- The queue of orders changes by a birth alone, and births are the UNWIND's (R82). -/
theorem settle_queue {s : State} (h : s.is .unwind = false) : (settle s).order.queue = s.order.queue := by
  have kept := settle_keeps (fun t => t.loader = s.loader ∧ t.order.queue = s.order.queue)
    (fun t ⟨hl, hq⟩ => ⟨by simpa using hl, by simpa using hq⟩)
    (fun t d ⟨hl, hq⟩ hd => by
      refine ⟨by simpa using hl, ?_⟩
      cases d with
      | birth =>
        exact absurd ((is_congr hl _).symm.trans (due_birth hd).1) (by simp [h])
      | _ => simpa [takeDue, holdBirth] using hq) s ⟨rfl, rfl⟩
  exact kept.2

/-- A CANCEL marks, lists, and in the UNWIND removes the order (R21, R81). -/
theorem cancelOrder_queue (id : Word) (s : State) :
    (cancelOrder id s).order.queue = s.order.queue.filter (fun o => o.panelId ≠ id) := by
  unfold cancelOrder
  split
  · simp
  · rename_i h
    refine (List.filter_eq_self.2 fun o ho => ?_).symm
    simp only [List.any_eq_true, not_exists, not_and, beq_iff_eq] at h
    simpa using h o ho

theorem takeCancel_unwind {s : State} {e : RxEntry} (h : s.is .unwind = true) : takeCancel e s =
    cancelOrder (BitVec.ofNat 32 (fieldAt e.body 0 4)) (cancelPanel (BitVec.ofNat 32 (fieldAt e.body 0 4)) s) := if_pos h

theorem takeCancel_other {s : State} {e : RxEntry} (h : s.is .unwind = false) :
    takeCancel e s = cancelPanel (BitVec.ofNat 32 (fieldAt e.body 0 4)) s := by
  have hu : (cancelPanel (BitVec.ofNat 32 (fieldAt e.body 0 4)) s).is .unwind = false := h
  exact if_neg (by simp [hu])

theorem takeCancel_keeps (e : RxEntry) (s : State) :
    (takeCancel e s).loader = s.loader ∧ (takeCancel e s).peers = s.peers ∧ (takeCancel e s).bus.rx = s.bus.rx ∧
    (takeCancel e s).web.cancelList = enterCancel (BitVec.ofNat 32 (fieldAt e.body 0 4)) s.web.cancelList := by
  unfold takeCancel
  dsimp only
  split <;> simp [cancelPanel]

/-- Settles O33: the verdict is merged by `matches_iff`, the marks stay with the records of their names. -/
theorem verdictAndCancel : Obligations.VerdictAndCancel := by
  intro s e rest ho hrx
  refine ⟨fun hk hs => ?_, ?_⟩
  · have hexec : exec .doseVerdict s = .next (finish (takeDoseVerdict e (s.freed rest))) :=
      operateWeb_takeAs takeDoseVerdict ho hrx hk
    refine ⟨_, hexec, by simp [takeDoseVerdict, State.freed], ?_⟩
    have hfig : FiguresOnly (settle (takeDoseVerdict e (s.freed rest))) (finish (takeDoseVerdict e (s.freed rest))) :=
      finish_figures (s := s) (by simp [takeDoseVerdict, State.freed]) (by simp [takeDoseVerdict, State.freed]) hs
    refine Eq.mp (congrArg (fun m => FiguresOnly (settle ((s.freed rest).withWeb { s.web with map := m })) _)
      (List.map_congr_left fun g _ => ?_)) hfig
    have hm := matches_iff g (fieldAt e.body 0 2) (fieldAt_lt ..) (BitVec.ofNat 32 (fieldAt e.body 2 4))
    simp only [hm]
    refine if_congr Iff.rfl ?_ rfl
    generalize fieldAt e.body 6 1 = n
    rcases n with _ | _ | _ | _ | n
    · exact merge_set ..
    all_goals rfl
  · intro hk hn id
    have hexec : exec .cancel s = .next (finish (takeCancel e (s.freed rest))) := operateWeb_takeAs takeCancel ho hrx hk
    obtain ⟨hloader, hpeers, hrx', hlist⟩ := takeCancel_keeps e (s.freed rest)
    have hrecords := (cancelPanel_settles id (s.freed rest)).records.named ⟨hn.once, hn.fresh⟩
    have hmarked : Settles (cancelPanel id (s.freed rest)) (finish (takeCancel e (s.freed rest))) :=
      Settles.trans (.ite (fun _ => cancelOrder_settles ..) (fun _ => .refl _)) (finish_settles _)
    refine ⟨_, hexec, ?_, ?_, fun g hg hp hpid h hh hu => ?_, fun hu o ho => ?_, fun hu hs => ?_⟩
    · simp only [finish_frame]
      exact hrx'
    · rw [show (finish (takeCancel e (s.freed rest))).web.cancelList = _ from by simpa only [finish_frame] using hlist]
      simp [State.freed, enterCancel, id]
    · have hg' : g.mark .cancelled ∈ (cancelPanel id (s.freed rest)).web.map :=
        List.mem_map.2 ⟨g, hg, if_pos ⟨hp, hpid⟩⟩
      exact (hmarked.records.marks hrecords hg' hh hu).causes _ (by simp [Segment.mark])
    · have hq := (finish_settles (takeCancel e (s.freed rest))).queue o ho
      rw [takeCancel_unwind (s := s.freed rest) hu, cancelOrder_queue] at hq
      simpa using (List.mem_filter.1 hq).2
    · rw [finish_of_steady (steady_congr hloader hpeers hs), (refresh_figures _).order, settle_queue,
        takeCancel_other (s := s.freed rest) hu]
      · simp [State.freed]
      · exact (is_congr hloader _).trans hu

end Sys2Proof.Machine
end

