-- ==== Sys2Proof/Proofs/Transmission.lean ====
section
/-! PROOFS. The turns of a transmission (O52): which telegram is in transmission, and what a notice entered in the meantime
leaves of it. -/

namespace Sys2Proof.Machine
open Sys2Proof

/-! ## The telegram in transmission -/

/-- A telegram that enters the queue waits, and leaves the one in transmission what it is (R200, R210). -/
theorem find?_insertByClass {e : TxEntry} (he : e.inTransmission = false) (l : List TxEntry) :
    (insertByClass e l).find? TxEntry.inTransmission = l.find? TxEntry.inTransmission := by
  induction l with
  | nil => simp [insertByClass, he]
  | cons x l ih =>
    unfold insertByClass
    split
    · simp [List.find?_cons, ih]
    · simp [List.find?_cons, he]

/-- Making the figures again enters a notice at most, which waits (R175). -/
theorem FiguresOnly.inTransmission {u t : State} (h : FiguresOnly u t) :
    t.bus.tx.find? TxEntry.inTransmission = u.bus.tx.find? TxEntry.inTransmission := by
  rcases h.tx with h | ⟨-, -, h⟩ <;> rw [h]
  exact find?_insertByClass rfl _

/-- Nothing is in transmission. -/
def AllWait (s : State) : Prop := ∀ x ∈ s.bus.tx, x.inTransmission = false

theorem allWait_iff {s : State} : AllWait s ↔ s.bus.tx.find? TxEntry.inTransmission = none := by
  simp [AllWait]

theorem offerNotice_allWait (g : Group) {s : State} (h : AllWait s) : AllWait (offerNotice g s) := by
  unfold offerNotice
  split
  · rw [allWait_iff]
    simpa [setTx, find?_insertByClass] using allWait_iff.1 h
  · simpa [AllWait] using h

theorem noticeCompleted_allWait (g : Group) {s : State} (h : AllWait s) : AllWait (noticeCompleted g s) := by
  unfold noticeCompleted
  dsimp only
  split
  · exact offerNotice_allWait g (by simpa [AllWait] using h)
  · simpa [AllWait] using h

theorem offerPending_allWait {s : State} (h : AllWait s) : AllWait (offerPending s) := by
  unfold offerPending
  split
  · exact offerNotice_allWait _ h
  · exact h

/-- With no notice PENDING a free place is offered to none (R177). -/
theorem offerPending_of_none {s : State} (h : ∀ g, (s.cond.record g).notice ≠ .pending) : offerPending s = s := by
  unfold offerPending
  split
  · rename_i g hg
    exact absurd (by simpa using List.find?_some hg) (h g)
  · rfl

/-! ## The turns (O52) -/

/-- The frame driven for the telegram that is in transmission after the figures are made again (R198 to R200). -/
theorem outputs_of_begun {u t : State} {b : TxEntry} {rest : List TxEntry} (h : FiguresOnly u t)
    (htx : u.bus.tx = b :: rest) (hb : b.inTransmission = true) :
    t.outputs.transmitter = true ∧ t.outputs.frame = some (false :: frameBits b.telegram) := by
  have hfind : t.bus.tx.find? TxEntry.inTransmission = some b := by
    rw [h.inTransmission, htx, List.find?_cons_of_pos hb]
  have hsending : t.bus.sending = true :=
    List.any_eq_true.2 ⟨b, List.mem_of_find?_eq_some hfind, hb⟩
  simp [State.outputs, State.drivenFrame, hfind, hsending]

/-- A telegram begun: a HANDOFF tells how far its edge has passed the exit point (R9, R199, R200). -/
theorem begun_eq (e : TxEntry) (address : Nat) (exitCount : Word) : e.begun address exitCount =
    { e with
      inTransmission := true
      origin := address
      body := if e.kind = .handoff then e.body.take 20 ++ bytesOf 2 (min 65535 (exitCount - e.exitPoint).toNat)
        else e.body } := by
  simp [TxEntry.begun, stampOvershoot, saturate]

theorem beginTransmission_begins {s : State} {e : TxEntry} {rest : List TxEntry} (ho : s.operating = true)
    (hoff : s.bus.off = false) (hdup : s.bus.duplicate = false) (htx : s.bus.tx = e :: rest)
    (hwait : ∀ x ∈ s.bus.tx, x.inTransmission = false) :
    beginTransmission s = s.withBus { s.bus with tx := e.begun s.cfg.address s.exitCount :: rest } := by
  have hs : s.bus.sending = false := List.any_eq_false.2 (by simpa using hwait)
  unfold beginTransmission
  rw [if_pos (by simp [State.transmitterEnabled, ho, hoff, hdup, hs])]
  split
  · simp_all
  · rename_i e' rest' htx'
    obtain ⟨rfl, rfl⟩ : e' = e ∧ rest' = rest := by simpa [htx] using htx'.symm
    rfl

theorem beginTransmission_idle {s : State} (h : s.bus.off = true ∨ s.bus.duplicate = true ∨ s.bus.tx = [] ∨
    ∃ x ∈ s.bus.tx, x.inTransmission = true) : beginTransmission s = s := by
  unfold beginTransmission
  rcases h with h | h | h | h
  · simp [State.transmitterEnabled, h]
  · simp [State.transmitterEnabled, h]
  · simp [h]
  · have hs : s.bus.sending = true := List.any_eq_true.2 h
    simp [hs]

/-- The state in which a completed telegram has left its place (R200). -/
theorem dropSent_allWait (s : State) : AllWait (dropSent s) := by
  intro x hx
  simpa using (List.mem_filter.1 hx).2

theorem completeTransmission_of_sent {s : State} {e : TxEntry} (h : s.bus.tx.find? TxEntry.inTransmission = some e) :
    completeTransmission s =
      offerPending (noteSent e ((dropSent s).withBus { (dropSent s).bus with faultCount := 0 })) := by
  unfold completeTransmission
  rw [h]

theorem completeTransmission_of_none {s : State} (h : s.bus.tx.find? TxEntry.inTransmission = none) :
    completeTransmission s = s := by
  unfold completeTransmission
  rw [h]

theorem noteSent_allWait (e : TxEntry) {s : State} (h : AllWait s) : AllWait (noteSent e s) := by
  unfold noteSent
  split
  · exact noticeCompleted_allWait _ h
  · exact h

/-- The notice records and the queue are all that a completion moves besides the fault count (R178, R200). -/
theorem completeTransmission_keeps {s : State} {e : TxEntry} (h : s.bus.tx.find? TxEntry.inTransmission = some e) :
    (completeTransmission s).loader = s.loader ∧ (completeTransmission s).peers = s.peers ∧
    (completeTransmission s).cond.wakeDue = s.cond.wakeDue ∧ (completeTransmission s).bus.faultCount = 0 := by
  rw [completeTransmission_of_sent h]
  unfold noteSent
  split <;> simp [dropSent]

/-- Settles O52: a command that moves telegrams alone ends with its figures (`conclude_figures`). -/
theorem transmissionTurns : Obligations.TransmissionTurns := by
  refine ⟨fun s ho hq => ⟨fun e rest hoff hdup htx hwait => ?_, fun h => ?_, ?_⟩, fun s e ho hsent => ?_,
    fun s ho hq hnone => ?_, fun s ho => ?_⟩
  · have hb := beginTransmission_begins ho hoff hdup htx hwait
    have hfig := conclude_figures (s := s) (u := s.withBus { s.bus with tx := e.begun s.cfg.address s.exitCount :: rest })
      rfl rfl rfl hq
    refine ⟨_, congrArg Host.Outcome.next (if_pos ho), ?_⟩
    rw [hb]
    have hout := outputs_of_begun hfig rfl rfl
    rw [begun_eq] at hfig hout ⊢
    exact ⟨hfig, hout⟩
  · refine ⟨_, congrArg Host.Outcome.next (if_pos ho), ?_⟩
    rw [beginTransmission_idle h]
    exact conclude_figures rfl rfl rfl hq
  · exact ⟨_, congrArg Host.Outcome.next (if_pos ho), conclude_figures (s := s) rfl rfl rfl hq⟩
  · obtain ⟨hloader, hpeers, hwake, hcount⟩ := completeTransmission_keeps hsent
    refine ⟨_, congrArg Host.Outcome.next (if_pos ho), by simpa using hcount, fun hq => ?_⟩
    have hfig := conclude_figures hloader hpeers hwake hq
    refine ⟨?_, fun hk hnone => ?_⟩
    · have hwait : AllWait (completeTransmission s) := by
        rw [completeTransmission_of_sent hsent]
        exact offerPending_allWait (noteSent_allWait e (dropSent_allWait s))
      exact allWait_iff.2 (hfig.inTransmission.trans (allWait_iff.1 hwait))
    · have ht : completeTransmission s = (dropSent s).withBus { (dropSent s).bus with faultCount := 0 } := by
        rw [completeTransmission_of_sent hsent, noteSent, if_neg hk]
        exact offerPending_of_none hnone
      rwa [ht] at hfig ⊢
  · refine ⟨_, congrArg Host.Outcome.next (if_pos ho), ?_⟩
    rw [completeTransmission_of_none hnone]
    exact conclude_figures rfl rfl rfl hq
  · exact ⟨congrArg Host.Outcome.next (if_neg (by simp [ho])), congrArg Host.Outcome.next (if_neg (by simp [ho])),
      congrArg Host.Outcome.next (if_neg (by simp [ho]))⟩

end Sys2Proof.Machine
end

