-- ==== Sys2Proof/Proofs/Placement.lean ====
section
/-! PROOFS. The placement rule and the mark correction (O32): the map each leaves, and its order. -/

namespace Sys2Proof.Machine
open Sys2Proof

/-! ## Named records in a list -/

theorem uids_apart {l m : List Segment} (h : ((l ++ m).map Segment.uid).Nodup) {x y : Segment} (hx : x ∈ l) (hy : y ∈ m) :
    x.uid ≠ y.uid := by
  rw [List.map_append, List.nodup_append] at h
  exact h.2.2 _ (List.mem_map_of_mem hx) _ (List.mem_map_of_mem hy)

/-- A record is taken out of the list by its name and no other is. -/
theorem filter_named {l m n : List Segment} (h : ((l ++ m ++ n).map Segment.uid).Nodup) :
    (l ++ m ++ n).filter (fun x => x.uid ∉ m.map Segment.uid) = l ++ n := by
  have hl : l.filter (fun x => x.uid ∉ m.map Segment.uid) = l := List.filter_eq_self.2 fun x hx => by
    simp only [List.mem_map, not_exists, not_and, decide_eq_true_eq]
    exact fun y hy => (uids_apart (m := m ++ n) (List.append_assoc l m n ▸ h) hx (List.mem_append_left _ hy)).symm
  have hm : m.filter (fun x => x.uid ∉ m.map Segment.uid) = [] := by
    simpa [List.filter_eq_nil_iff] using fun x hx => ⟨x, hx, rfl⟩
  have hn : n.filter (fun x => x.uid ∉ m.map Segment.uid) = n := List.filter_eq_self.2 fun x hx => by
    simp only [List.mem_map, not_exists, not_and, decide_eq_true_eq]
    exact fun y hy => uids_apart h (List.mem_append_right _ hy) hx
  rw [List.filter_append, List.filter_append, hl, hm, hn, List.append_nil]

/-- A record is changed by its name and no other is. -/
theorem map_named {l m : List Segment} {a : Segment} (f : Segment → Segment) (h : ((l ++ a :: m).map Segment.uid).Nodup) :
    (l ++ a :: m).map (fun g => if g.uid == a.uid then f g else g) = l ++ f a :: m := by
  have hl : l.map (fun g => if g.uid == a.uid then f g else g) = l := by
    refine List.map_congr_left (g := id) (fun x hx => ?_) |>.trans (List.map_id l)
    simp [uids_apart h hx List.mem_cons_self]
  have hm : m.map (fun g => if g.uid == a.uid then f g else g) = m := by
    refine List.map_congr_left (g := id) (fun x hx => ?_) |>.trans (List.map_id m)
    rw [List.append_cons] at h
    simp [(uids_apart h (List.mem_append_right l (List.mem_singleton_self a)) hx).symm]
  rw [List.map_append, List.map_cons, hl, hm]
  simp

theorem held_of_split {s : State} {l m : List Segment} {a : Segment} (hmap : s.web.map = l ++ a :: m)
    (h : ((l ++ a :: m).map Segment.uid).Nodup) : s.held a.uid = some a := by
  have hl : l.find? (fun g => g.uid == a.uid) = none := by
    simpa using fun x hx => uids_apart h hx List.mem_cons_self
  simp [State.held, hmap, List.find?_append, hl]

theorem takeWhile_named {l m : List Segment} {a : Segment} (h : ((l ++ a :: m).map Segment.uid).Nodup) :
    (l ++ a :: m).takeWhile (fun g => g.uid ≠ a.uid) = l := by
  rw [List.takeWhile_append_of_pos (by simpa using fun x hx => uids_apart h hx List.mem_cons_self)]
  simp

theorem dropWhile_named {l m : List Segment} {a : Segment} (h : ((l ++ a :: m).map Segment.uid).Nodup) :
    (l ++ a :: m).dropWhile (fun g => g.uid ≠ a.uid) = a :: m := by
  rw [List.dropWhile_append_of_pos (by simpa using fun x hx => uids_apart h hx List.mem_cons_self)]
  simp

/-! ## The placement rule (R5, R6) -/

/-- The records ahead of a lead, the last of them fitted to it (R5, R6). -/
def fitAhead (kept : List Segment) (lead : Word) : List Segment :=
  kept.dropLast ++ (kept.getLast?.map (fun a => a.adjustTo lead)).toList

@[simp] theorem fitAhead_nil (lead : Word) : fitAhead [] lead = [] := rfl

@[simp] theorem fitAhead_concat (l : List Segment) (a : Segment) (lead : Word) :
    fitAhead (l ++ [a]) lead = l ++ [a.adjustTo lead] := by
  simp [fitAhead]

/-- The placement rule for a record of the map: the records it has covered leave, and the one ahead is fitted (R5, R6). -/
theorem placeRule_map {s : State} {b : Segment} {pre post : List Segment} (hmap : s.web.map = pre ++ b :: post)
    (h : ((pre ++ b :: post).map Segment.uid).Nodup) :
    (placeRule b.uid s).web.map =
      fitAhead (pre.reverse.dropWhile (fun h => atOrPast h.arrival b.arrival)).reverse b.arrival ++ b :: post := by
  unfold placeRule
  rw [held_of_split hmap h]
  dsimp only
  rw [hmap, takeWhile_named h]
  have hpre := congrArg List.reverse (List.takeWhile_append_dropWhile (p := fun h => atOrPast h.arrival b.arrival)
    (l := pre.reverse))
  rw [List.reverse_reverse, List.reverse_append] at hpre
  generalize pre.reverse.takeWhile (fun h => atOrPast h.arrival b.arrival) = covered at hpre ⊢
  generalize pre.reverse.dropWhile (fun h => atOrPast h.arrival b.arrival) = left at hpre ⊢
  subst hpre
  have hremoved : (covered.foldl (fun t a => removeSeg a.uid t) s).web.map = left.reverse ++ b :: post := by
    rw [removeEach_map, hmap, ← filter_named h]
    simp
  cases left with
  | nil => simpa using hremoved
  | cons a r =>
    simp only [updateSeg_map, hremoved, List.reverse_cons, fitAhead_concat]
    have hn : ((r.reverse ++ a :: (b :: post)).map Segment.uid).Nodup := by
      refine h.sublist (List.Sublist.map _ ?_)
      simp
    simpa using map_named (fun x => x.adjustTo b.arrival) hn

/-! ## Fitting the segment ahead (R6) -/

/-- Two spans in a row make one while their sum is below the modulus. -/
theorem span_add {x y z : Word} (h : (y - x).toNat + (z - y).toNat < 4294967296) :
    (z - x).toNat = (y - x).toNat + (z - y).toNat := by
  bv_omega

/-- How far a trail has passed a lead, while both spans are below half the count. -/
theorem overlap_eq {a : Segment} {lead : Word} (hlen : a.length < 2147483648) (hspan : (lead - a.arrival).toNat < 2147483648) :
    signedDiff a.trail lead = (a.length : Int) - (lead - a.arrival).toNat := by
  have : a.trail - lead = dmm a.length - (lead - a.arrival) := by
    simp only [Segment.trail]
    bv_omega
  rw [signedDiff, this, BitVec.toInt_sub, dmm]
  have hl : (BitVec.ofNat 32 a.length).toInt = a.length := by
    rw [BitVec.toInt_eq_toNat_of_lt (by simp; omega)]
    simp; omega
  have hd : (lead - a.arrival).toInt = (lead - a.arrival).toNat := BitVec.toInt_eq_toNat_of_lt (by omega)
  rw [hl, hd, Int.bmod_eq_of_le (by omega) (by omega)]

theorem adjustTo_arrival (a : Segment) (lead : Word) : (a.adjustTo lead).arrival = a.arrival := by
  unfold Segment.adjustTo
  dsimp only
  split
  · split <;> rfl
  · split <;> rfl

theorem adjustTo_cut_panel {a : Segment} {lead : Word} (h : 20 < signedDiff a.trail lead) (hp : a.kind = .panel) :
    a.adjustTo lead = { a with length := (lead - a.arrival).toNat, causes := insertNew .shortened a.causes } := by
  simp [Segment.adjustTo, h, hp, Segment.mark]

theorem adjustTo_cut {a : Segment} {lead : Word} (h : 20 < signedDiff a.trail lead) (hp : a.kind ≠ .panel) :
    a.adjustTo lead = { a with length := (lead - a.arrival).toNat } := by
  simp [Segment.adjustTo, h, hp]

theorem adjustTo_join {a : Segment} {lead : Word} (h0 : -20 ≤ signedDiff a.trail lead) (h1 : signedDiff a.trail lead ≤ 20)
    (hne : signedDiff a.trail lead ≠ 0) : a.adjustTo lead = { a with length := (lead - a.arrival).toNat } := by
  simp [Segment.adjustTo, Int.not_lt.2 h1, h0, hne]

theorem adjustTo_left {a : Segment} {lead : Word} (h : signedDiff a.trail lead < -20 ∨ signedDiff a.trail lead = 0) :
    a.adjustTo lead = a := by
  rcases h with h | h
  · have h0 : ¬ 20 < signedDiff a.trail lead := by omega
    simp [Segment.adjustTo, h0, Int.not_le.2 h]
  · simp [Segment.adjustTo, h]

/-- The segment ahead, fitted, ends at or before the lead (R6). -/
theorem adjustTo_length_le {a : Segment} {lead : Word} (hlen : a.length < 2147483648)
    (hspan : (lead - a.arrival).toNat < 2147483648) : (a.adjustTo lead).length ≤ (lead - a.arrival).toNat := by
  rcases Int.lt_or_le 20 (signedDiff a.trail lead) with h | h
  · by_cases hp : a.kind = .panel
    · rw [adjustTo_cut_panel h hp]
    · rw [adjustTo_cut h hp]
  · by_cases hj : -20 ≤ signedDiff a.trail lead ∧ signedDiff a.trail lead ≠ 0
    · rw [adjustTo_join hj.1 h hj.2]
    · rw [adjustTo_left (by omega)]
      have := overlap_eq hlen hspan
      omega

/-! ## The order of the map (R5) -/

/-- Records that stand apart, the second behind the first (R5). -/
def Apart (a b : Segment) : Prop :=
  0 < (b.arrival - a.arrival).toNat ∧ a.length ≤ (b.arrival - a.arrival).toNat ∧
    (b.arrival - a.arrival).toNat + b.length < 2147483648

theorem MapOrdered.sublist {l m : List Segment} (h : MapOrdered m) (hs : l.Sublist m) : MapOrdered l :=
  ⟨fun g hg => h.length_lt g (hs.subset hg), h.apart.sublist hs⟩

/-- Records behind one another: the second behind the first and the third behind the second, within half the count. -/
theorem Apart.trans {a b c : Segment} (h : Apart a b) (k : 0 < (c.arrival - b.arrival).toNat)
    (hc : (c.arrival - a.arrival).toNat + c.length < 2147483648) (hbc : (c.arrival - b.arrival).toNat < 2147483648) :
    Apart a c := by
  obtain ⟨h0, h1, h2⟩ := h
  have := span_add (x := a.arrival) (y := b.arrival) (z := c.arrival) (by omega)
  exact ⟨by omega, by omega, hc⟩

/-- The records ahead of a lead, fitted to it, keep the order of the map with those from that lead on (R5, R6). -/
theorem MapOrdered.fit {l rest : List Segment} {b : Segment} (hl : MapOrdered l) (ht : MapOrdered (b :: rest))
    (hlast : ∀ a ∈ l.getLast?, atOrPast a.arrival b.arrival = false)
    (hspan : ∀ x ∈ l, ∀ h ∈ b :: rest, (h.arrival - x.arrival).toNat + h.length < 2147483648) :
    MapOrdered (fitAhead l b.arrival ++ b :: rest) := by
  cases l using List.reverseRecOn with
  | nil => simpa using ht
  | append_singleton l a =>
    rw [fitAhead_concat]
    have ha : a ∈ l ++ [a] := by simp
    have hahead : atOrPast a.arrival b.arrival = false := hlast a (by simp)
    have hb := hspan a ha b List.mem_cons_self
    have hpos : 0 < (b.arrival - a.arrival).toNat := by
      simp only [atOrPast, decide_eq_false_iff_not] at hahead
      bv_omega
    have hfit := adjustTo_length_le (lead := b.arrival) (hl.length_lt a ha) (by omega)
    have hab : Apart (a.adjustTo b.arrival) b := by
      refine ⟨?_, ?_, ?_⟩ <;> rw [adjustTo_arrival] <;> assumption
    obtain ⟨hll, -, hla⟩ := List.pairwise_append.1 hl.apart
    have hfar : ∀ h ∈ rest, 0 < (h.arrival - b.arrival).toNat ∧ (h.arrival - b.arrival).toNat < 2147483648 := by
      intro h hh
      obtain ⟨h0, -, h2⟩ := (List.pairwise_cons.1 ht.apart).1 h hh
      exact ⟨h0, by omega⟩
    have behind : ∀ x ∈ l ++ [a], ∀ y, y.arrival = x.arrival → Apart y b → ∀ h ∈ b :: rest, Apart y h := by
      intro x hx y hy hyb h hh
      rcases List.mem_cons.1 hh with rfl | hr
      · exact hyb
      · exact hyb.trans (hfar h hr).1 (hy ▸ hspan x hx h hh) (hfar h hr).2
    have hxa : ∀ x ∈ l, Apart x a := fun x hx => hla x hx a (List.mem_singleton_self a)
    refine ⟨fun g hg => ?_, List.pairwise_append.2 ⟨List.pairwise_append.2 ⟨hll, List.pairwise_singleton .., ?_⟩, ht.apart,
      ?_⟩⟩
    · rcases List.mem_append.1 hg with hg | hg
      · rcases List.mem_append.1 hg with hg | hg
        · exact hl.length_lt g (List.mem_append_left _ hg)
        · rw [List.mem_singleton.1 hg]
          omega
      · exact ht.length_lt g hg
    · intro x hx y hy
      obtain rfl := List.mem_singleton.1 hy
      obtain ⟨h0, h1, -⟩ := hxa x hx
      have hxb := hspan x (List.mem_append_left _ hx) b List.mem_cons_self
      have := span_add (x := x.arrival) (y := a.arrival) (z := b.arrival) (by have := (hxa x hx).2.2; omega)
      rw [adjustTo_arrival]
      exact ⟨h0, h1, by omega⟩
    · intro x hx h hh
      rcases List.mem_append.1 hx with hx | hx
      · have hx' : x ∈ l ++ [a] := List.mem_append_left _ hx
        exact behind x hx' x rfl ((hxa x hx).trans hpos (hspan x hx' b List.mem_cons_self) (by omega)) h hh
      · rw [List.mem_singleton.1 hx]
        exact behind a ha _ (adjustTo_arrival ..) hab h hh

end Sys2Proof.Machine
end

