-- ==== Sys2Proof/Proofs/MarkCorrection.lean ====
section
/-! PROOFS. The map after a placement and after the mark of a window (O32). -/

namespace Sys2Proof.Machine
open Sys2Proof

/-! ## The placement of a segment (R13) -/

/-- The records covered by the new lead leave the map (R13). -/
theorem removeCovered_map {s : State} (hn : RecordsNamed s) (p : Segment → Bool) :
    ((s.web.map.filter p).foldl (fun t h => removeSeg h.uid t) s).web.map = s.web.map.filter (fun h => !p h) := by
  rw [removeEach_map]
  refine List.filter_congr fun x hx => ?_
  rw [Bool.eq_iff_iff]
  simp only [decide_eq_true_eq, List.mem_map, List.mem_filter, not_exists, not_and, and_imp, Bool.not_eq_true']
  refine ⟨fun h => ?_, fun hp y hy hpy hu => ?_⟩
  · by_contra hp
    exact h x hx (by simpa using hp) rfl
  · obtain rfl := List.inj_on_of_nodup_map hn.once hy hx hu
    simp [hp] at hpy

theorem placeSegment_named {s : State} (g : Segment) (hn : RecordsNamed s) : RecordsNamed (placeSegment g s) :=
  (placeRule_settles ..).records.named ((appendSeg_records ..).named ((removeEach_settles ..).records.named hn))

theorem dropWhile_of_none {α : Type} {p : α → Bool} {l : List α} (h : ∀ x ∈ l, p x = false) : l.dropWhile p = l := by
  cases l with
  | nil => rfl
  | cons x l => rw [List.dropWhile_cons_of_neg (by simp [h x])]

/-- A placement: the records at or past the new lead leave, the one ahead is fitted, and the new one is the last (R13). -/
theorem placeSegment_map {s : State} (g : Segment) (hn : RecordsNamed s) :
    (placeSegment g s).web.map = fitAhead (s.web.map.filter (fun h => !atOrPast h.arrival g.arrival)) g.arrival ++
      [{ g with uid := s.web.nextUid }] := by
  have hmap := removeCovered_map hn (fun h => atOrPast h.arrival g.arrival)
  have hnamed := (appendSeg_records g _).named ((removeEach_settles
    (s.web.map.filter (fun h => atOrPast h.arrival g.arrival)) s).records.named hn)
  have huid : ((s.web.map.filter (fun h => atOrPast h.arrival g.arrival)).foldl (fun t h => removeSeg h.uid t) s).web.nextUid =
      s.web.nextUid := by simp
  unfold placeSegment
  dsimp only
  generalize (s.web.map.filter (fun h => atOrPast h.arrival g.arrival)).foldl (fun t h => removeSeg h.uid t) s = t
    at hmap hnamed huid ⊢
  have hplaced : (appendSeg g t).web.map = s.web.map.filter (fun h => !atOrPast h.arrival g.arrival) ++
      { g with uid := t.web.nextUid } :: [] := by
    simp [appendSeg, hmap]
  have hrule := placeRule_map hplaced (hplaced ▸ hnamed.once)
  rw [dropWhile_of_none (by simp), List.reverse_reverse] at hrule
  rw [hrule, huid]

/-- The last record of those that a lead has not reached is one it has not reached. -/
theorem getLast?_filter_not {p : Segment → Bool} {l : List Segment} {a : Segment}
    (h : a ∈ (l.filter (fun x => !p x)).getLast?) : p a = false := by
  simpa using (List.mem_filter.1 (List.mem_of_getLast? h)).2

theorem mapOrdered_singleton {g : Segment} (h : g.length < 2147483648) : MapOrdered [g] :=
  ⟨by simpa using h, List.pairwise_singleton ..⟩

/-! ## The mark of a window (R17) -/

theorem acceptMark_named {s : State} (edge : Word) (hn : RecordsNamed s) : RecordsNamed (acceptMark edge s) :=
  (acceptMark_settles edge s).records.named hn

/-- A window holds an edge between its opening and its closing point (R16). -/
theorem windowOf_eq_some {s : State} {edge : Word} {g : Segment} (h : s.windowOf edge = some g) :
    s.held g.uid = some g ∧ atOrPast edge (s.openPoint g) = true ∧ atOrPast (s.closePoint g) edge = true := by
  unfold State.windowOf at h
  split at h
  · cases h
  · split at h
    · rename_i r _ g' hg
      split at h
      · obtain rfl : g' = g := by simpa using h
        rename_i hp
        simp only [Bool.and_eq_true] at hp
        exact ⟨(held_eq_some hg).2 ▸ hg, hp.1, hp.2⟩
      · cases h
    · cases h

/-- A difference that neither falls short of −b nor passes a, both far below half the count. -/
theorem toInt_bounds {d : Word} {b a : Nat} (hw : b + a < 1000) (hb : (d + BitVec.ofNat 32 b).toNat < 2147483648)
    (ha : (BitVec.ofNat 32 a - d).toNat < 2147483648) : -(b : Int) ≤ d.toInt ∧ d.toInt ≤ a := by
  have hd := d.isLt
  rw [BitVec.toNat_add, BitVec.toNat_ofNat] at hb
  rw [BitVec.toNat_sub, BitVec.toNat_ofNat] at ha
  rw [BitVec.toInt_eq_toNat_cond]
  split <;> omega

/-- What the mark corrects lies within its window (R16, R17). -/
theorem correction_bounds {s : State} {edge : Word} {g : Segment} (ho : atOrPast edge (s.openPoint g) = true)
    (hc : atOrPast (s.closePoint g) edge = true) (hw : s.cfg.wBefore + s.cfg.wAfter < 1000) :
    -(s.cfg.wBefore : Int) ≤ (edge - (g.arrival + dmm s.cfg.sensor)).toInt ∧
      (edge - (g.arrival + dmm s.cfg.sensor)).toInt ≤ s.cfg.wAfter := by
  refine toInt_bounds hw ?_ ?_
  · have he : edge - (g.arrival + dmm s.cfg.sensor) + BitVec.ofNat 32 s.cfg.wBefore = edge - s.openPoint g := by
      simp only [State.openPoint, dmm]
      bv_omega
    exact he ▸ of_decide_eq_true ho
  · have he : BitVec.ofNat 32 s.cfg.wAfter - (edge - (g.arrival + dmm s.cfg.sensor)) = s.closePoint g - edge := by
      simp only [State.closePoint, dmm]
      bv_omega
    exact he ▸ of_decide_eq_true hc

/-- A record and those behind it, moved by the mark's correction (R17). -/
def shifted (d : Word) (h : Segment) : Segment := { h with arrival := h.arrival + d }

theorem shiftFrom_map {s : State} {g : Segment} {pre post : List Segment} (d : Word) (hmap : s.web.map = pre ++ g :: post)
    (h : ((pre ++ g :: post).map Segment.uid).Nodup) :
    (shiftFrom g.uid d s).web.map = pre ++ shifted d g :: post.map (shifted d) := by
  simp only [shiftFrom, State.withWeb_web]
  rw [hmap, takeWhile_named h, dropWhile_named h]
  rfl

/-- The mark of a window: the PANEL and those behind it move, and the one ahead is fitted to its lead (R17). -/
theorem acceptMark_map {s : State} {edge : Word} {g : Segment} {pre post : List Segment} (hw : s.windowOf edge = some g)
    (hmap : s.web.map = pre ++ g :: post) (h : ((pre ++ g :: post).map Segment.uid).Nodup) :
    (acceptMark edge s).web.map =
      fitAhead (pre.reverse.dropWhile (fun h => atOrPast h.arrival
        (g.arrival + (edge - (g.arrival + dmm s.cfg.sensor))))).reverse (g.arrival + (edge - (g.arrival + dmm s.cfg.sensor))) ++
      { g with arrival := g.arrival + (edge - (g.arrival + dmm s.cfg.sensor)), regPleat := s.is .pleat || g.regPleat } ::
        post.map (shifted (edge - (g.arrival + dmm s.cfg.sensor))) := by
  unfold acceptMark
  rw [hw]
  dsimp only
  generalize edge - (g.arrival + dmm s.cfg.sensor) = d
  have hs := shiftFrom_map d hmap h
  generalize hb : (shiftFrom g.uid d s).withWeb { (shiftFrom g.uid d s).web with
    window := none, closing := false, missCount := 0 } = b
  have hbmap : b.web.map = pre ++ shifted d g :: post.map (shifted d) := by simpa [← hb] using hs
  have hbis : b.is .pleat = s.is .pleat := by subst hb; rfl
  have hnodup (x : Segment) (hx : x.uid = g.uid) : ((pre ++ x :: post.map (shifted d)).map Segment.uid).Nodup := by
    have hp : (post.map (shifted d)).map Segment.uid = post.map Segment.uid := by rw [List.map_map]; rfl
    simpa [hx, hp] using h
  rw [hbis]
  cases s.is .pleat with
  | true =>
    have hmarked : (updateSeg g.uid (fun x => { x with regPleat := true }) b).web.map =
        pre ++ { shifted d g with regPleat := true } :: post.map (shifted d) := by
      rw [updateSeg_map, hbmap]
      exact map_named (fun x => { x with regPleat := true }) (hnodup (shifted d g) rfl)
    exact placeRule_map (b := { shifted d g with regPleat := true }) hmarked (hnodup _ rfl)
  | false => exact placeRule_map (b := shifted d g) hbmap (hnodup _ rfl)

theorem acceptMark_missCount {s : State} {edge : Word} {g : Segment} (hw : s.windowOf edge = some g) :
    (acceptMark edge s).web.missCount = 0 := by
  unfold acceptMark
  rw [hw]
  dsimp only
  split <;> simp

/-- Records moved together stand as they stood (R17). -/
theorem MapOrdered.shifted {g x : Segment} {post : List Segment} (h : MapOrdered (g :: post)) (d : Word)
    (hx : x.arrival = g.arrival + d) (hl : x.length = g.length) : MapOrdered (x :: post.map (shifted d)) := by
  have moved (p q : Word) : q + d - (p + d) = q - p := by bv_omega
  obtain ⟨hhead, htail⟩ := List.pairwise_cons.1 h.apart
  refine ⟨?_, List.pairwise_cons.2 ⟨?_, List.pairwise_map.2 (htail.imp fun {a b} hab => ?_)⟩⟩
  · intro y hy
    rcases List.mem_cons.1 hy with rfl | hy
    · exact hl ▸ h.length_lt g List.mem_cons_self
    · obtain ⟨z, hz, rfl⟩ := List.mem_map.1 hy
      exact h.length_lt z (List.mem_cons_of_mem _ hz)
  · intro y hy
    obtain ⟨z, hz, rfl⟩ := List.mem_map.1 hy
    simpa [Machine.shifted, hx, hl, moved] using hhead z hz
  · simpa [Machine.shifted, moved] using hab

/-- The map after a mark is in order: the records ahead are fitted to the lead from which the others have moved (R17). -/
theorem fit_shifted {pre post : List Segment} {g x : Segment} {d lead : Word} (hord : MapOrdered (pre ++ g :: post))
    (hx : x.arrival = g.arrival + d) (hl : x.length = g.length) (hlead : x.arrival = lead)
    (hspan : ∀ y ∈ (pre.reverse.dropWhile (fun h => atOrPast h.arrival lead)).reverse, ∀ h ∈ g :: post,
      (h.arrival + d - y.arrival).toNat + h.length < 2147483648) :
    MapOrdered (fitAhead (pre.reverse.dropWhile (fun h => atOrPast h.arrival lead)).reverse lead ++
      x :: post.map (shifted d)) := by
  subst hlead
  have hkept : (pre.reverse.dropWhile (fun h => atOrPast h.arrival x.arrival)).reverse.Sublist pre := by
    have := (List.dropWhile_sublist (fun h : Segment => atOrPast h.arrival x.arrival) (l := pre.reverse)).reverse
    rwa [List.reverse_reverse] at this
  refine MapOrdered.fit ((hord.sublist (List.sublist_append_left ..)).sublist hkept)
    ((hord.sublist (List.sublist_append_right ..)).shifted d hx hl) (fun a ha => ?_) (fun y hy h hh => ?_)
  · rw [List.getLast?_reverse] at ha
    have := List.head?_dropWhile_not (fun h : Segment => atOrPast h.arrival x.arrival) pre.reverse
    simpa [Option.mem_def.1 ha] using this
  · rcases List.mem_cons.1 hh with rfl | hh
    · rw [hx, hl]
      exact hspan y hy g List.mem_cons_self
    · obtain ⟨z, hz, rfl⟩ := List.mem_map.1 hh
      exact hspan y hy z (List.mem_cons_of_mem _ hz)

/-- Settles O32, from the maps of a placement and of a mark, and the order that fitting keeps (`MapOrdered.fit`). -/
theorem placementRule : Obligations.PlacementRule := by
  refine ⟨fun s g hn => ⟨placeSegment_map g hn, placeSegment_named g hn, fun hord hlen hspan => ?_⟩,
    fun s edge g hn hw => ?_,
    fun a lead => ⟨adjustTo_cut_panel, adjustTo_cut, fun h0 h1 hne => ⟨adjustTo_join h0 h1 hne, ?_⟩, adjustTo_left⟩⟩
  · rw [placeSegment_map g hn]
    refine (hord.sublist List.filter_sublist).fit (b := { g with uid := s.web.nextUid }) (mapOrdered_singleton hlen)
      (fun a ha => getLast?_filter_not ha) (fun x hx h hh => ?_)
    rw [List.mem_singleton.1 hh]
    exact hspan x hx
  · obtain ⟨hheld, ho, hc⟩ := windowOf_eq_some hw
    obtain ⟨pre, post, hmap⟩ := List.append_of_mem (held_eq_some hheld).1
    have hmark := acceptMark_map hw hmap (hmap ▸ hn.once)
    refine ⟨pre, post, hmap, hmark, acceptMark_window hw, ?_, acceptMark_named edge hn, correction_bounds ho hc,
      fun hord hspan => ?_⟩
    · exact acceptMark_missCount hw
    · rw [hmark]
      exact fit_shifted (x := { g with
        arrival := g.arrival + (edge - (g.arrival + dmm s.cfg.sensor)), regPleat := s.is .pleat || g.regPleat })
        (hmap ▸ hord) rfl rfl rfl hspan
  · rw [adjustTo_join h0 h1 hne]
    change a.arrival + BitVec.ofNat 32 (lead - a.arrival).toNat = lead
    rw [BitVec.ofNat_toNat, BitVec.setWidth_eq]
    bv_omega

end Sys2Proof.Machine
end

