-- ==== Sys2Proof/Proofs/Births.lean ====
section
/-! PROOFS. What a birth makes (O41). -/

namespace Sys2Proof.Machine
open Sys2Proof

/-! ## A birth step by step (R82, R83, R85) -/

/-- The lead of a segment born now: the anchor, or for a delayed birth the punch (R82, R83). -/
def State.birthLead (s : State) : Word :=
  if s.order.birthHeld then s.position - dmm s.cfg.unwind.punch else s.order.anchor

/-- The segment born now, under its record's name (R85). -/
def State.newborn (s : State) : Segment := { s.bornSegment s.bornNow s.birthLead with uid := s.web.nextUid }

/-- The state with the newborn in the map, by the placement rule where the birth is delayed (R83). -/
def State.bornPlaced (s : State) : State :=
  if s.order.birthHeld then placeRule s.web.nextUid (appendSeg (s.bornSegment s.bornNow s.birthLead) s)
  else appendSeg (s.bornSegment s.bornNow s.birthLead) s

/-- The order unit after a birth, before its queue and its wait (R82 to R84, R90). -/
def State.birthOrder (s : State) : OrderUnit :=
  { s.order with
    anchor := s.birthLead + dmm s.newborn.length
    nextSeg := s.order.nextSeg + 1
    newSequence := false
    birthHeld := false
    stall := .none }

theorem bornSegment_fields (s : State) (b : Born) (lead : Word) :
    (s.bornSegment b lead).seg = s.order.nextSeg ∧ (s.bornSegment b lead).arrival = lead ∧
    (s.bornSegment b lead).newSeq = s.order.newSequence ∧ (s.bornSegment b lead).handed = false ∧
    (s.bornSegment b lead).causes = [] := by
  cases b <;> exact ⟨rfl, rfl, rfl, rfl, rfl⟩

theorem bornPlaced_keeps (s : State) : s.bornPlaced.order = s.order ∧ s.bornPlaced.loader = s.loader := by
  unfold State.bornPlaced
  split <;> simp [appendSeg]

theorem makeBirth_eq (s : State) : makeBirth s =
    afterBirth s.bornNow s.order.nextSeg s.birthLead (s.bornPlaced.withOrder s.birthOrder) := by
  have hseg := (bornSegment_fields s s.bornNow s.birthLead).1
  have ho := (bornPlaced_keeps s).1
  unfold makeBirth
  dsimp only
  rw [show (if s.order.birthHeld = true then s.position - dmm s.cfg.unwind.punch else s.order.anchor) = s.birthLead from rfl,
    hseg]
  change afterBirth _ _ _ (s.bornPlaced.withOrder { s.bornPlaced.order with
    anchor := s.birthLead + dmm (s.bornSegment s.bornNow s.birthLead).length
    nextSeg := s.bornPlaced.order.nextSeg + 1
    newSequence := false
    birthHeld := false
    stall := .none }) = _
  rw [ho]
  rfl

/-- What a birth does beside the map leaves the map, and of the order unit the anchor, the count and the holds (R85). -/
theorem afterBirth_keeps (b : Born) (seg : Half) (lead : Word) (s : State) :
    (afterBirth b seg lead s).web = s.web ∧ (afterBirth b seg lead s).order.anchor = s.order.anchor ∧
    (afterBirth b seg lead s).order.nextSeg = s.order.nextSeg ∧
    (afterBirth b seg lead s).order.newSequence = s.order.newSequence ∧
    (afterBirth b seg lead s).order.birthHeld = s.order.birthHeld ∧
    (afterBirth b seg lead s).order.stall = s.order.stall := by
  cases b <;> simp [afterBirth]

theorem setWait_order (w : OrderWait) (s : State) : (setWait w s).order = { s.order with wait := w } := by
  simp [setWait]

/-! ## The map after a birth -/

theorem makeBirth_web (s : State) : (makeBirth s).web = s.bornPlaced.web := by
  rw [makeBirth_eq, (afterBirth_keeps ..).1]
  rfl

theorem appendSeg_newborn (s : State) :
    (appendSeg (s.bornSegment s.bornNow s.birthLead) s).web.map = s.web.map ++ [s.newborn] := rfl

theorem bornPlaced_onTime {s : State} (h : s.order.birthHeld = false) : s.bornPlaced.web.map = s.web.map ++ [s.newborn] := by
  unfold State.bornPlaced
  rw [if_neg (by simp [h])]
  rfl

theorem bornPlaced_delayed {s : State} (h : s.order.birthHeld = true) (hn : RecordsNamed s) :
    s.bornPlaced.web.map =
      fitAhead (s.web.map.reverse.dropWhile (fun h => atOrPast h.arrival s.birthLead)).reverse s.birthLead ++
        [s.newborn] := by
  have hnamed := (appendSeg_records (s.bornSegment s.bornNow s.birthLead) s).named hn
  have harr : s.newborn.arrival = s.birthLead := (bornSegment_fields ..).2.1
  have hrule := placeRule_map (b := s.newborn) (appendSeg_newborn s) (appendSeg_newborn s ▸ hnamed.once)
  rw [harr] at hrule
  unfold State.bornPlaced
  rw [if_pos h]
  exact hrule

theorem bornPlaced_named {s : State} (hn : RecordsNamed s) : RecordsNamed s.bornPlaced := by
  have hnamed := (appendSeg_records (s.bornSegment s.bornNow s.birthLead) s).named hn
  unfold State.bornPlaced
  split
  · exact (placeRule_settles ..).records.named hnamed
  · exact hnamed

/-! ## What is born (R85) -/

theorem bornNow_splice {s : State} (h : s.order.spliceRequest = true) : s.bornNow = .splice := if_pos h

theorem bornNow_panel {s : State} {lot : Half} {o : Order} (h : s.order.spliceRequest = false) (hl : s.activeLot = some lot)
    (ho : s.order.queue.find? (fun x => x.lot == lot) = some o) : s.bornNow = .panel o := by
  simp [State.bornNow, h, hl, ho]

theorem bornNow_leader {s : State} {lot : Half} (h : s.order.spliceRequest = false) (hl : s.activeLot = some lot)
    (ho : ∀ o ∈ s.order.queue, o.lot ≠ lot) : s.bornNow = .leader := by
  have : s.order.queue.find? (fun x => x.lot == lot) = none := by simpa using ho
  simp [State.bornNow, h, hl, this]

theorem newborn_of {s : State} {b : Born} (h : s.bornNow = b) :
    s.newborn = { s.bornSegment b s.birthLead with uid := s.web.nextUid } := by rw [← h]; rfl

/-- Settles O41, clause by clause from the state after the placement and what each born segment brings. -/
theorem birthMade : Obligations.BirthMade := by
  intro s t lead kept
  obtain ⟨hseg, harr, hnew, hhanded, hcauses⟩ := bornSegment_fields s s.bornNow s.birthLead
  obtain ⟨-, hanchor, hnext, hseq, hheld, hstall⟩ :=
    afterBirth_keeps s.bornNow s.order.nextSeg s.birthLead (s.bornPlaced.withOrder s.birthOrder)
  rw [← makeBirth_eq] at hanchor hnext hseq hheld hstall
  refine ⟨s.newborn, fun h => ?_, fun h hn => ?_, fun hn => ?_, hseg, harr, hheld, hstall, hnew, hhanded, hcauses, rfl, hanchor,
    hnext, hseq, fun h => ?_, fun lot o h hl ho => ?_, fun lot h hl ho => ?_⟩
  · exact (congrArg Web.map (makeBirth_web s)).trans (bornPlaced_onTime h)
  · exact (congrArg Web.map (makeBirth_web s)).trans (bornPlaced_delayed h hn)
  · have := bornPlaced_named hn
    exact ⟨(makeBirth_web s).symm ▸ this.once, (makeBirth_web s).symm ▸ this.fresh⟩
  · have hb := bornNow_splice h
    have ht : t = afterBirth .splice s.order.nextSeg s.birthLead (s.bornPlaced.withOrder s.birthOrder) := hb ▸ makeBirth_eq s
    have hcfg : (s.bornPlaced.withOrder s.birthOrder).cfg = s.cfg := by simp [State.cfg, (bornPlaced_keeps s).2]
    rw [ht, newborn_of hb]
    exact ⟨rfl, rfl, rfl, rfl, by rw [← hcfg]; rfl, rfl, rfl, rfl⟩
  · have hb := bornNow_panel h hl ho
    have ht : t = afterBirth (.panel o) s.order.nextSeg s.birthLead (s.bornPlaced.withOrder s.birthOrder) :=
      hb ▸ makeBirth_eq s
    rw [ht, newborn_of hb, afterBirth, setWait_order]
    exact ⟨rfl, rfl, rfl, rfl, congrArg some (by simpa using List.find?_some ho), rfl, rfl, rfl, rfl⟩
  · have hb := bornNow_leader h hl ho
    have ht : t = afterBirth .leader s.order.nextSeg s.birthLead (s.bornPlaced.withOrder s.birthOrder) := hb ▸ makeBirth_eq s
    rw [ht, newborn_of hb, afterBirth, setWait_order]
    refine ⟨rfl, hl, rfl, rfl, ?_, rfl⟩
    simp [State.birthOrder]

end Sys2Proof.Machine
end

