-- ==== Sys2Proof/Proofs/StartValues.lean ====
section
/-! PROOFS. The start values of every unit and what keeps them: the entry to JOINING, a trip on them, and the end of a command
where nothing is due (basis of O59). -/

namespace Sys2Proof.Machine
open Sys2Proof

/-! ## The start values (R41, R48, R184, R190) -/

/-- The registers that stand at their start values whatever falls due: governor, peers, receive queue and loader (R48, R213). -/
structure LineAtStart (a x : State) : Prop where
  image : x.loader.image = a.loader.image
  scanning : x.loader.scanning = a.loader.scanning
  restartCause : x.loader.restartCause = a.loader.restartCause
  keptRole : x.loader.keptRole = a.loader.keptRole
  peers : x.peers = emptyPeers
  vOp : x.gov.vOp = 0
  vA : x.gov.vA = 0
  driveEnable : x.gov.driveEnable = false
  infeed : x.web.infeed = 0
  outfeed : x.web.outfeed = 0
  expected : x.web.expected = none
  cancelList : x.web.cancelList = []
  rx : x.bus.rx = []
  faultCount : x.bus.faultCount = 0
  off : x.bus.off = false
  checkErrors : x.cond.checkErrors = 0
  pins : x.pins = a.pins

/-- The units at their start values (R3, R7, R23, R77, R94, R106, R123, R156, R171). The flat ceiling of an UNWIND is made when the
others stand. -/
structure UnitsAtStart (a x : State) : Prop where
  web : x.web = (startWeb a).web
  order : x.order = (startOrder a).order
  pattern : x.pattern = (startPattern a).pattern
  roll : { x.roll with flatCeiling := 0 } = (startRoll a).roll
  heat : x.heat = (startHeat a).heat
  outfeed : x.outfeed = {}

theorem rollConditions_keeps (s : State) :
    (rollConditions s).web = s.web ∧ (rollConditions s).order = s.order ∧ (rollConditions s).pattern = s.pattern ∧
    (rollConditions s).roll = s.roll ∧ (rollConditions s).heat = s.heat ∧ (rollConditions s).outfeed = s.outfeed := by
  simp [rollConditions]

/-- The start values of a unit are made from the loader and the unit's own record (R189). -/
theorem startUnits_start (a : State) : LineAtStart a (startUnits a) ∧ UnitsAtStart a (startUnits a) ∧
    (startUnits a).gov.trips = [] := by
  generalize hu : startRoll (startPattern (startOrder (startWeb a))) = u
  have hloader : u.loader = a.loader := by subst hu; simp [startRoll, startPattern, startOrder, startWeb]
  have hheat : u.heat = a.heat := by subst hu; simp [startRoll, startPattern, startOrder, startWeb]
  have hpins : u.pins = a.pins := by subst hu; simp [startRoll, startPattern, startOrder, startWeb]
  have hweb : u.web = (startWeb a).web := by subst hu; simp [startRoll, startPattern, startOrder]
  have horder : u.order = (startOrder a).order := by subst hu; simp [startRoll, startPattern, startOrder, startWeb]
  have hpattern : u.pattern = (startPattern a).pattern := by
    subst hu; simp [startRoll, startPattern, startOrder, startWeb, State.keeps, State.role]
  have hroll : u.roll = (startRoll a).roll := by
    subst hu
    simp [startRoll, startPattern, startOrder, startWeb, State.keeps, State.role, State.fillAtStart, State.channelValue,
      State.channel, State.cfg]
  have hstart : (startHeat u).heat = (startHeat a).heat := by
    simp [startHeat, State.keeps, State.role, State.is, State.cfg, State.startZone, hloader, hheat]
  unfold startUnits
  rw [hu]
  extract_lets c b
  have hline : LineAtStart a b ∧ UnitsAtStart a b ∧ b.gov.trips = [] := by
    refine ⟨⟨?_, ?_, ?_, ?_, rfl, rfl, rfl, rfl, ?_, ?_, ?_, ?_, rfl, rfl, rfl, rfl, ?_⟩, ⟨?_, ?_, ?_, ?_, hstart, rfl⟩, rfl⟩ <;>
      simp [b, c, startHeat, hloader, hpins, hweb, horder, hpattern, hroll, startWeb, startRoll]
  split
  · obtain ⟨hl, hu, ht⟩ := hline
    obtain ⟨kweb, korder, kpattern, kroll, kheat, koutfeed⟩ := rollConditions_keeps b
    refine ⟨?_, ⟨kweb.trans hu.web, korder.trans hu.order, kpattern.trans hu.pattern, ?_, kheat.trans hu.heat,
      koutfeed.trans hu.outfeed⟩, ?_⟩
    · cases hl
      constructor <;> simp_all [loadFlatCeiling]
    · rw [← hu.roll, ← kroll]
      rfl
    · simpa [loadFlatCeiling] using ht
  · exact hline

/-! ## JOINING, and a trip on the start values (R41, R42, R190) -/

theorem enterJoining_start {a x : State} (hl : LineAtStart a x) (hu : UnitsAtStart a x) :
    LineAtStart a (enterJoining x) ∧ UnitsAtStart a (enterJoining x) ∧ (enterJoining x).mode = .joining ∧
    (enterJoining x).loader.joinTimer = some 1000 ∧ (enterJoining x).loader.lamp = .dark ∧
    (enterJoining x).gov.trips = x.gov.trips := by
  refine ⟨?_, ?_, ?_, rfl, ?_, ?_⟩
  · cases hl
    constructor <;> simpa [enterJoining, setMode]
  · cases hu
    constructor <;> simpa [enterJoining, setMode]
  all_goals simp [enterJoining, setMode, State.mode]

/-- Units at rest, which an entry to TRIPPED finds nothing to stop in (R42, R68, R71, R110, R111, R138, R170). -/
structure AtRest (y : State) : Prop where
  stroke : y.pattern.stroke = none
  heldFold : y.pattern.heldFold = none
  move : y.pattern.move = none
  splice : y.roll.spliceState = .run
  vU : y.roll.vU = 0
  exitCommand : y.roll.exitCommand = 0
  valves : ∀ z ∈ y.heat.zones, z.valve = 0
  cutTimer : y.outfeed.cutTimer = none
  gate : y.outfeed.gate.moving = false
  vA : y.gov.vA = 0

theorem tripKnife_rest {y : State} (h : AtRest y) : tripKnife y = y := by
  simp [tripKnife, dropHeldFold, h.stroke, h.heldFold]

theorem closeValves_rest {y : State} (h : AtRest y) : closeValves y = y := by
  have hz : y.heat.zones.map (fun x => { x with valve := 0 }) = y.heat.zones := by
    refine (List.map_congr_left fun z hz => ?_).trans (List.map_id _)
    rw [← h.valves z hz]
    rfl
  unfold closeValves
  rw [hz]
  rfl

theorem resolveSplice_rest {y : State} (h : AtRest y) : resolveSplice y = y := by
  simp [resolveSplice, h.splice, SpliceState.abortable]

theorem stopUnwind_rest {y : State} (h : AtRest y) : stopUnwind y = y := by
  have hr : ({ y.roll with vU := 0, exitCommand := 0 } : RollUnit) = y.roll := by
    have hv := h.vU
    have he := h.exitCommand
    generalize y.roll = r at hv he ⊢
    cases r
    simp_all
  unfold stopUnwind
  rw [hr]
  rfl

theorem abandonMove_rest {y : State} (h : AtRest y) : abandonMove y = y := by
  simp [abandonMove, h.move]

theorem outfeedDriveClear_rest {y : State} (h : AtRest y) : outfeedDriveClear y = y := by
  have ho : ({ y.outfeed with cutTimer := none } : OutfeedUnit) = y.outfeed := by
    have hc := h.cutTimer
    generalize y.outfeed = o at hc ⊢
    cases o
    simp_all
  unfold outfeedDriveClear
  rw [ho]
  exact if_neg (by simp [h.gate])

theorem clearDrive_rest {y : State} (h : AtRest y) : clearDrive y = y.withGov { y.gov with driveEnable := false } := by
  have hg : AtRest (y.withGov { y.gov with driveEnable := false }) := { h with }
  rw [clearDrive, stopUnwind_rest hg, abandonMove_rest hg, outfeedDriveClear_rest hg, closeValves_rest hg]

theorem enterTripped_rest {y : State} (h : AtRest y) :
    (enterTripped y).web = y.web ∧ (enterTripped y).order = y.order ∧ (enterTripped y).pattern = y.pattern ∧
    (enterTripped y).roll = y.roll ∧ (enterTripped y).heat = y.heat ∧ (enterTripped y).outfeed = y.outfeed ∧
    (enterTripped y).gov.driveEnable = false ∧ (enterTripped y).gov.beforeTrip = some y.mode := by
  unfold enterTripped
  extract_lets _ a _ b _ c d _
  have hc : AtRest c := { h with }
  have hd : d = c := by
    unfold d
    rw [tripKnife_rest hc, closeValves_rest hc, resolveSplice_rest hc]
  have hr : AtRest (d.withGov { d.gov with tripTimer := none }) := hd ▸ { hc with }
  rw [if_pos (hd ▸ hc.vA), clearDrive_rest hr, hd]
  exact ⟨rfl, rfl, rfl, rfl, rfl, rfl, rfl, rfl⟩

theorem UnitsAtStart.rest {a x : State} (hl : LineAtStart a x) (hu : UnitsAtStart a x) : AtRest x where
  stroke := by rw [hu.pattern]; simp [startPattern]; split <;> rfl
  heldFold := by rw [hu.pattern]; simp [startPattern]; split <;> rfl
  move := by rw [hu.pattern]; simp [startPattern]; split <;> rfl
  splice := congrArg RollUnit.spliceState hu.roll
  vU := congrArg RollUnit.vU hu.roll
  exitCommand := congrArg RollUnit.exitCommand hu.roll
  valves := by
    rw [hu.heat]
    simp only [startHeat, State.withHeat_heat]
    split
    · intro z hz
      rw [List.eq_of_mem_replicate hz]
      rfl
    · simp
  cutTimer := by rw [hu.outfeed]
  gate := by rw [hu.outfeed]; rfl
  vA := hl.vA

/-- A trip on the start values is recorded and moves nothing: everything is at rest (R41, R42). -/
theorem addTrip_start {a x : State} (c : TripCause) (hl : LineAtStart a x) (hu : UnitsAtStart a x) (hm : x.mode = .joining)
    (ht : x.gov.trips = []) :
    LineAtStart a (addTrip c x) ∧ UnitsAtStart a (addTrip c x) ∧ (addTrip c x).mode = .tripped ∧
    (addTrip c x).gov.trips = [c] ∧ (addTrip c x).gov.beforeTrip = some .joining := by
  have hmode := (addTrip_trips c (s := x) (by simp [State.operating, hm, operatingMode])).2
  have heq : addTrip c x =
      pulseForMode (enterTripped (queueTrip c (x.withGov { x.gov with trips := insertNew c x.gov.trips }))) := by
    simp [addTrip, hm]
  generalize hy : queueTrip c (x.withGov { x.gov with trips := insertNew c x.gov.trips }) = y at heq
  have hly : LineAtStart a y := by
    subst hy
    cases hl
    constructor <;> simpa
  have huy : UnitsAtStart a y := by
    subst hy
    cases hu
    constructor <;> simpa
  have hty : y.gov.trips = [c] := by subst hy; simp [ht, insertNew]
  have hmy : y.mode = .joining := by subst hy; simpa [State.mode] using hm
  obtain ⟨kweb, korder, kpattern, kroll, kheat, koutfeed, kdrive, kbefore⟩ := enterTripped_rest (UnitsAtStart.rest hly huy)
  refine ⟨?_, ?_, hmode, ?_, ?_⟩ <;> rw [heq]
  · cases hly
    constructor <;> simp_all
  · cases huy
    constructor <;> simp_all
  · simpa [enterTripped_trips] using hty
  · simpa [hmy] using kbefore

end Sys2Proof.Machine
end

