-- ==== Sys2Proof/Proofs/FirstScan.lean ====
section
/-! PROOFS. The first scan (O59): the line at its start values, and nothing due at position 0. -/

namespace Sys2Proof.Machine
open Sys2Proof

/-! ## The end of CONFIGURING -/

/-- No peer has been heard: the join test fails, for a roster of the own station alone has not every role (R191). -/
theorem joinReady_emptyPeers {x : State} (h : x.peers = emptyPeers) : x.joinReady = false := by
  have hpeer (n : Nat) : x.peer n = {} := by
    rw [State.peer, h, emptyPeers, List.getD_eq_getElem?_getD, List.getElem?_replicate]
    split <;> rfl
  cases hr : x.rosterOthers with
  | cons n l => simp [State.joinReady, hr, hpeer]
  | nil =>
    have hcount (r : Role) : x.countRole r = if x.is r then 1 else 0 := by simp [State.countRole, hr]
    have hone : x.is .unwind = true → x.is .pleat = true → False := by
      simp only [State.is, beq_iff_eq]
      intro hu hp
      exact absurd (hu.symm.trans hp) (by decide)
    cases hu : x.is .unwind <;> cases hp : x.is .pleat <;>
      simp_all [State.joinReady, State.compositionValid]

/-- In no mode but ACTIVE is there a target speed (R37). -/
theorem FiguresOnly.vT_eq_zero {u t : State} (h : FiguresOnly u t) (hm : u.mode ≠ .active) : t.gov.vT = 0 := by
  have ht : t.mode ≠ .active := (congrArg Loader.mode h.loader).trans_ne hm
  rw [h.target]
  simp [State.targetSpeed, ht]

theorem FiguresOnly.driveEnable {u t : State} (h : FiguresOnly u t) : t.gov.driveEnable = u.gov.driveEnable := by
  rw [← h.gov]

/-- The end of a command on the start values leaves the registers of the line as they are (R37, R48). -/
theorem finish_start {a x : State} (hl : LineAtStart a x) (hs : x.steady) (hm : x.mode ≠ .active) :
    LineAtStart a (finish x) ∧ (finish x).gov.vT = 0 ∧ (finish x).loader = x.loader := by
  have hfig : FiguresOnly (settle x) (finish x) := finish_figures (s := x) rfl rfl hs
  refine ⟨?_, hfig.vT_eq_zero (by simpa [State.mode] using hm), by simpa using hfig.loader⟩
  have hd := hfig.driveEnable
  cases hl
  constructor <;> simp_all

/-- What the end of CONFIGURING concludes: JOINING at the start values, with a trip where the ESTOP input is active (R41, R190). -/
def startedLine (a : State) : State :=
  if (enterJoining (startUnits a)).pins.estop then addTrip .estopInput (enterJoining (startUnits a))
  else enterJoining (startUnits a)

theorem startedLine_start (a : State) : LineAtStart a (startedLine a) ∧ UnitsAtStart a (startedLine a) ∧
    (startedLine a).steady ∧ (startedLine a).mode ≠ .active ∧
    (a.pins.estop = false → (startedLine a).mode = .joining ∧ (startedLine a).gov.trips = [] ∧
      (startedLine a).loader.joinTimer = some 1000 ∧ (startedLine a).loader.lamp = .dark) ∧
    (a.pins.estop = true → (startedLine a).mode = .tripped ∧ (startedLine a).gov.trips = [.estopInput] ∧
      (startedLine a).gov.beforeTrip = some .joining) := by
  obtain ⟨sl, su, st⟩ := startUnits_start a
  obtain ⟨hl, hu, hm, hj, hlamp, ht⟩ := enterJoining_start sl su
  unfold startedLine
  rw [hl.pins]
  cases a.pins.estop with
  | false =>
    refine ⟨hl, hu, .inr (.inr ⟨hm, joinReady_emptyPeers hl.peers⟩), ?_, fun _ => ⟨hm, ht.trans st, hj, hlamp⟩, nofun⟩
    simp [hm]
  | true =>
    obtain ⟨tl, tu, tm, tt, tb⟩ := addTrip_start .estopInput hl hu hm (ht.trans st)
    exact ⟨tl, tu, .inr (.inl tm), by simp [tm], nofun, fun _ => ⟨tm, tt, tb⟩⟩

theorem leaveConfiguring_eq (s : State) : leaveConfiguring s =
    finish (startedLine (s.withLoader { s.loader with scanning := false, faultClass := none })) := rfl

theorem exec_firstScan {samples : List (BitVec 12)} {s : State} (hlen : samples.length = 8) (hm : s.mode = .configuring)
    (hs : s.loader.scanning = true) :
    exec (.sensorScanComplete samples) s = .next (leaveConfiguring (takeSamples samples s)) := by
  change execSensorScanComplete samples s = _
  simp [execSensorScanComplete, wellFormedSamples, hlen, hm, hs]

/-- A scan is taken in the operating modes, and once at the end of CONFIGURING (R184). -/
theorem exec_scan_idle {samples : List (BitVec 12)} {s : State} (hlen : samples.length = 8) (ho : s.operating = false)
    (h : s.mode ≠ .configuring ∨ s.loader.scanning = false) : exec (.sensorScanComplete samples) s = .next s := by
  change execSensorScanComplete samples s = _
  have hn : ¬ (s.mode = .configuring ∧ s.loader.scanning = true) := by
    rintro ⟨hm, hs⟩
    rcases h with h | h
    · exact h hm
    · simp [h] at hs
  simp [execSensorScanComplete, wellFormedSamples, hlen, ho, hn]

end Sys2Proof.Machine
end

