-- ==== Sys2Proof/Proofs/NothingDue.lean ====
section
/-! PROOFS. At position 0 nothing is due on the start values of a legal record (O59), so that they stand at the end of the first
scan. -/

namespace Sys2Proof.Machine
open Sys2Proof

/-! ## What a legal record bounds (R185 to R187) -/

theorem legal_bounds {i : Image} (h : i.legal = true) :
    1000 ≤ i.exit ∧ i.exit ≤ 1000000 ∧
    (roleOfCode i.roleCode = some .unwind → i.unwind.punch ≤ 5000 ∧ i.unwind.fMax ≤ 200000) ∧
    (roleOfCode i.roleCode ≠ some .unwind → i.approach ≤ 200000) ∧
    (roleOfCode i.roleCode = some .setter → 200 ≤ i.setter.cell ∧ i.setter.cell ≤ 1000) ∧
    (roleOfCode i.roleCode = some .outfeed → i.outfeed.cut < i.exit) := by
  unfold Image.legal at h
  cases hr : roleOfCode i.roleCode with
  | none => simp [hr] at h
  | some r =>
    simp only [hr, Bool.and_eq_true, commonFieldsOk, within, Bool.or_eq_true, decide_eq_true_eq, beq_iff_eq] at h
    cases r <;> simp_all [roleFieldsOk, roleCrossOk, within]

/-! ## The position before any web has moved (R1) -/

/-- Position 0 has not reached a point ahead of it within half the count. -/
theorem not_atOrPast_zero {n : Nat} (h0 : 0 < n) (h1 : n < 2147483648) : atOrPast 0#32 (dmm n) = false := by
  refine decide_eq_false ?_
  rw [dmm, BitVec.toNat_sub, BitVec.toNat_ofNat, BitVec.toNat_ofNat]
  omega

theorem countOf_zero : countOf 0 = 0#32 := by decide

theorem settle_of_none {x : State} (hr : retest x = x) (hd : x.due = none) : settle x = x := by
  unfold settle settleLoop
  simp [hr, hd]

/-- The registers what is due is read from, as they stand at the start (R3, R7, R23). -/
structure AtOrigin (a x : State) (i : Image) : Prop where
  image : x.loader.image = some i
  imageStart : a.loader.image = some i
  legal : i.legal = true
  start : UnitsAtStart a x
  punch : x.is .unwind = true → 0 < i.unwind.punch
  cut : x.is .outfeed = true → 0 < i.approach + i.outfeed.cut

section
variable {a x : State} {i : Image}

theorem AtOrigin.cfg (h : AtOrigin a x i) : x.cfg = i := by simp [State.cfg, h.image]

theorem AtOrigin.cfgStart (h : AtOrigin a x i) : a.cfg = i := by simp [State.cfg, h.imageStart]

theorem AtOrigin.is_iff (h : AtOrigin a x i) (r : Role) : x.is r = true ↔ roleOfCode i.roleCode = some r := by
  simp [State.is, State.role, h.image]

theorem AtOrigin.isStart (h : AtOrigin a x i) (r : Role) : a.is r = x.is r := by
  simp [State.is, State.role, h.image, h.imageStart]

theorem AtOrigin.position (h : AtOrigin a x i) : x.position = 0#32 ∧ x.exitCount = 0#32 := by
  have hw := h.start.web
  have hp : x.position = 0#32 := by rw [State.position, hw]; exact countOf_zero
  have ho : x.outCount = 0#32 := by rw [State.outCount, hw]; exact countOf_zero
  refine ⟨hp, ?_⟩
  unfold State.exitCount
  split
  · exact ho
  · exact hp

theorem AtOrigin.map (h : AtOrigin a x i) : x.web.map = [a.startSpan] := by rw [h.start.web]; rfl

theorem AtOrigin.dueWindow (h : AtOrigin a x i) : x.dueWindow = none := by
  have hw : x.web.window = none ∧ x.web.candidate = none := by rw [h.start.web]; exact ⟨rfl, rfl⟩
  have hk : a.startSpan.kind = .untracked := rfl
  simp [State.dueWindow, State.dueMark, State.dueClosing, hw, h.map, hk]

theorem AtOrigin.dueKnife (h : AtOrigin a x i) : x.dueKnife = none := by
  have hr : x.pattern.run = none := by
    rw [h.start.pattern]
    simp only [startPattern, State.withPattern_pattern]
    split <;> rfl
  have hk : a.startSpan.kind = .untracked := rfl
  simp [State.dueKnife, hr, h.map, hk]

theorem AtOrigin.dueShift (h : AtOrigin a x i) (hs : x.is .setter = true) : x.dueShift = none := by
  obtain ⟨-, -, -, -, hcell, -⟩ := legal_bounds h.legal
  have hc := hcell ((h.is_iff _).1 hs)
  have ha : x.heat.shiftAnchor = 0 := by rw [h.start.heat]; rfl
  have hp := not_atOrPast_zero (n := i.setter.cell) (by omega) (by omega)
  simp [State.dueShift, ha, h.position.1, h.cfg, hp]

theorem AtOrigin.dueBoundary (h : AtOrigin a x i) (hs : x.is .outfeed = true) : x.dueBoundary = none := by
  obtain ⟨-, hexit, -, happ, -, hcut⟩ := legal_bounds h.legal
  have hr := (h.is_iff _).1 hs
  have ha := happ (by simp [hr])
  have hc := hcut hr
  have hu : a.is .unwind = false := by simp [State.is, State.role, h.imageStart, hr]
  have hp := not_atOrPast_zero (h.cut hs) (by omega)
  have htrail : a.startSpan.trail + dmm i.outfeed.cut = dmm (i.approach + i.outfeed.cut) := by
    simp only [State.startSpan, Segment.trail, hu, h.cfgStart, dmm, Bool.false_eq_true, if_false]
    bv_omega
  have hlead : a.startSpan.leadCut = true := rfl
  have hnone : x.dueBoundaries = [] := by
    simp [State.dueBoundaries, h.map, h.position.1, h.cfg, htrail, hp, hlead]
  simp [State.dueBoundary, hnone]

theorem AtOrigin.dueRole (h : AtOrigin a x i) : x.dueRole = none := by
  unfold State.dueRole
  split
  · exact h.dueKnife
  · exact h.dueShift (by simp_all [State.is])
  · exact h.dueBoundary (by simp_all [State.is])
  all_goals rfl

theorem fillAtStart_le_fMax (s : State) : s.fillAtStart ≤ s.cfg.unwind.fMax := by
  unfold State.fillAtStart
  split
  · simp only [limitInt]
    omega
  · omega

theorem AtOrigin.dueExit (h : AtOrigin a x i) : x.dueExit = none := by
  obtain ⟨hexit0, hexit, hunwind, happ, -, -⟩ := legal_bounds h.legal
  have hh : a.startSpan.handed = true := rfl
  have hpoint : ∃ n, 0 < n ∧ n < 2147483648 ∧ a.startSpan.arrival + x.exitOffset + dmm a.startSpan.length = dmm n := by
    cases hu : x.is .unwind with
    | true =>
      have hb := hunwind ((h.is_iff _).1 hu)
      have hf := h.cfgStart ▸ fillAtStart_le_fMax a
      have hp0 : x.web.p0 = a.startP0 := by rw [h.start.web]; rfl
      have ha := (h.isStart .unwind).trans hu
      refine ⟨i.exit + a.fillAtStart, by omega, by omega, ?_⟩
      simp only [State.exitOffset, State.startSpan, hu, ha, hp0, h.cfgStart, if_true]
      bv_omega
    | false =>
      have hr : roleOfCode i.roleCode ≠ some .unwind := fun hr => by simp [(h.is_iff _).2 hr] at hu
      have hb := happ hr
      have ha := (h.isStart .unwind).trans hu
      refine ⟨i.exit + i.approach, by omega, by omega, ?_⟩
      simp only [State.exitOffset, State.startSpan, hu, ha, h.cfg, h.cfgStart, Bool.false_eq_true, if_false]
      bv_omega
  obtain ⟨n, h0, h1, hn⟩ := hpoint
  simp [State.dueExit, h.map, hh, h.position.2, hn, not_atOrPast_zero h0 h1]

theorem AtOrigin.dueUnwind (h : AtOrigin a x i) (hs : x.is .unwind = true) : x.dueUnwind = none := by
  obtain ⟨-, -, hunwind, -, -, -⟩ := legal_bounds h.legal
  have hb := hunwind ((h.is_iff _).1 hs)
  have hsplice : x.roll.spliceState = .run := congrArg RollUnit.spliceState h.start.roll
  have hp := not_atOrPast_zero (h.punch hs) (by omega)
  have horder : x.order.birthHeld = false ∧ x.order.stall = .none ∧ x.order.anchor = 0 := by
    rw [h.start.order]
    exact ⟨rfl, rfl, rfl⟩
  simp [State.dueUnwind, State.prefillDone, State.stopOldDue, State.stopOldLow, State.recovered, State.birthDue, hsplice, horder,
    h.position.1, h.cfg, hp]

/-- Nothing is due at the start (R2). -/
theorem AtOrigin.settle (h : AtOrigin a x i) : settle x = x := by
  refine settle_of_none ?_ ?_
  · have hp : x.outfeed.piece = none := by rw [h.start.outfeed]
    unfold retest retestPiece
    simp [hp]
  · unfold State.due
    rw [h.dueWindow, h.dueRole, h.dueExit]
    simpa using fun _ => h.dueUnwind

end

end Sys2Proof.Machine
end

