-- ==== Sys2Proof/Proofs/FirstScanSettled.lean ====
section
/-! PROOFS. The first scan settled (O59): what the first sample loads, and the units as they stand at the end of CONFIGURING. -/

namespace Sys2Proof.Machine
open Sys2Proof

/-! ## The figures at the start (R130, R136) -/

/-- In COLD a zone's setpoint is the keep value, which its start value is (R130, R156). -/
theorem refresh_heat_start {a x : State} {i : Image} (h : AtOrigin a x i) : (refresh x).heat = x.heat := by
  have hcold : x.heat.chamber = .cold := by rw [h.start.heat]; rfl
  have hloaded : (loadSetpoints x).heat = x.heat := by
    have hz : x.heat.zones.mapIdx (fun z y => { y with sp := x.setpoint z }) = x.heat.zones := by
      have hsp (z : Nat) : x.setpoint z = i.setter.keepSp := by simp [State.setpoint, hcold, h.cfg]
      have hzones : x.heat.zones = if a.is .setter then List.replicate a.cfg.setter.zones a.startZone else [] := by
        rw [h.start.heat]; rfl
      rw [hzones]
      split
      · refine List.ext_getElem (by simp) fun n h1 h2 => ?_
        simp [hsp, State.startZone, h.cfgStart]
      · rfl
    unfold loadSetpoints
    rw [hz]
    rfl
  have hheat : (refreshHeat x).heat = x.heat := by
    unfold refreshHeat
    split
    · have hpark : parkTest x = x := by simp [parkTest, hcold]
      have hdemand : demandTest x = x := by simp [demandTest, hcold]
      rw [hpark, hdemand]
      simpa using hloaded
    · rfl
  exact hheat

/-- The units stand at their start values when the first scan is done. -/
theorem finish_units {a x : State} {i : Image} (h : AtOrigin a x i) (hs : x.steady) : UnitsAtStart a (finish x) := by
  have heq : finish x = refresh x := by rw [finish_of_steady hs, h.settle]
  have hfig := refresh_figures x
  rw [heq]
  exact ⟨hfig.web.trans h.start.web, hfig.order.trans h.start.order, hfig.pattern.trans h.start.pattern,
    hfig.roll ▸ h.start.roll, (refresh_heat_start h).trans h.start.heat, hfig.outfeed.trans h.start.outfeed⟩

/-! ## The first sample (R125, R126) -/

theorem takeSample_channel_other {n m raw : Nat} (h : m ≠ n) (s : State) : (takeSample n raw s).channel m = s.channel m := by
  unfold takeSample
  split
  · simp [setChannel, State.channel, List.getD_eq_getElem?_getD, List.getElem?_set_ne h.symm]
  · rfl

/-- Channel 0 after a scan, in a role that uses it (R125). -/
theorem takeSamples_channel_zero {samples : List (BitVec 12)} {s : State} (hlen : s.heat.channels.length = 8)
    (hu : s.usesChannel 0 = true) :
    (takeSamples samples s).channel 0 = (s.channel 0).sample (s.cfg.scaling.getD 0 {}) (samples.getD 0 0).toNat := by
  have others (l : List Nat) (h : 0 ∉ l) (t : State) :
      (l.foldl (fun t n => takeSample n (samples.getD n 0).toNat t) t).channel 0 = t.channel 0 := by
    induction l generalizing t with
    | nil => rfl
    | cons n l ih =>
      rw [List.foldl_cons, ih (fun hm => h (List.mem_cons_of_mem n hm))]
      exact takeSample_channel_other (fun hn => h (by simp [← hn])) t
  rw [takeSamples, show List.range 8 = 0 :: [1, 2, 3, 4, 5, 6, 7] from rfl, List.foldl_cons, others _ (by decide)]
  rw [takeSample, if_pos hu]
  simp [setChannel, State.channel, List.getD_eq_getElem?_getD, hlen]

/-- The fill an UNWIND starts from: the sample scaled and limited, 0 where it is bad (R106, R125). -/
theorem fillAtStart_sampled {samples : List (BitVec 12)} {raw : BitVec 12} {s a : State} {i : Image}
    (hraw : samples[0]? = some raw) (hi : s.loader.image = some i) (hc : s.heat.channels = List.replicate 8 {})
    (hu : s.is .unwind = true) (hheat : a.heat = (takeSamples samples s).heat) (ha : a.loader.image = some i) :
    a.fillAtStart = if 16 < raw.toNat ∧ raw.toNat < 4080 then
      (max 0 (min (i.unwind.fMax : Int) ((i.scaling.getD 0 {}).offset + (raw.toNat * (i.scaling.getD 0 {}).span / 4095 : Nat)))).toNat
      else 0 := by
  have hr : s.role = some .unwind := by simpa [State.is] using hu
  have hch : a.channel 0 = (s.channel 0).sample (s.cfg.scaling.getD 0 {}) (samples.getD 0 0).toNat := by
    rw [State.channel, hheat]
    exact takeSamples_channel_zero (by simp [hc]) (by simp [State.usesChannel, hr])
  have h0 : s.channel 0 = {} := by simp [State.channel, hc]
  have hcfg : s.cfg = i := by simp [State.cfg, hi]
  have hacfg : a.cfg = i := by simp [State.cfg, ha]
  have hs : samples.getD 0 0 = raw := by simp [List.getD_eq_getElem?_getD, hraw]
  rw [h0, hcfg, hs] at hch
  simp only [State.fillAtStart, State.channelValue, hch, hacfg, Channel.sample, badSample]
  by_cases hb : 16 < raw.toNat ∧ raw.toNat < 4080
  · have hn : (decide (raw.toNat ≤ 16) || decide (4080 ≤ raw.toNat)) = false := by simp; omega
    simp [hn, hb, scaleSample, limitInt]
  · have hn : (decide (raw.toNat ≤ 16) || decide (4080 ≤ raw.toNat)) = true := by simp; omega
    simp [hn, hb]

/-- The tables are kept where the kept role is that of the record (R189). -/
theorem keeps_iff {s : State} (h : s.role.isSome = true) : s.keeps = true ↔ s.loader.keptRole = s.role := by
  unfold State.keeps
  cases hk : s.loader.keptRole <;> cases hr : s.role <;> simp_all

/-- The state from which CONFIGURING is left: the first samples taken, the loader's marks cleared (R184). -/
def scanned (samples : List (BitVec 12)) (s : State) : State :=
  (takeSamples samples s).withLoader { (takeSamples samples s).loader with scanning := false, faultClass := none }

theorem exec_firstScan_eq {samples : List (BitVec 12)} {s : State} (hlen : samples.length = 8) (hm : s.mode = .configuring)
    (hs : s.loader.scanning = true) :
    exec (.sensorScanComplete samples) s = .next (finish (startedLine (scanned samples s))) := exec_firstScan hlen hm hs

theorem scanned_keeps (samples : List (BitVec 12)) (s : State) :
    (scanned samples s).loader.image = s.loader.image ∧ (scanned samples s).loader.restartCause = s.loader.restartCause ∧
    (scanned samples s).loader.keptRole = s.loader.keptRole ∧ (scanned samples s).pins = s.pins ∧
    (scanned samples s).order = s.order ∧ (scanned samples s).pattern = s.pattern ∧ (scanned samples s).roll = s.roll ∧
    (scanned samples s).heat.recipes = s.heat.recipes := by
  simp [scanned]

/-- The line after the first scan of any record (R41, R48, R190). -/
theorem firstScan_line (samples : List (BitVec 12)) (s : State) :
    let t := finish (startedLine (scanned samples s))
    t.loader.scanning = false ∧
      t.loader.image = s.loader.image ∧ t.loader.restartCause = s.loader.restartCause ∧ t.peers = emptyPeers ∧
      t.gov.vOp = 0 ∧ t.gov.vT = 0 ∧ t.gov.vA = 0 ∧ t.gov.driveEnable = false ∧ t.web.infeed = 0 ∧ t.web.outfeed = 0 ∧
      t.web.expected = none ∧ t.web.cancelList = [] ∧ t.bus.rx = [] ∧ t.bus.faultCount = 0 ∧ t.bus.off = false ∧
      t.cond.checkErrors = 0 ∧
      (s.pins.estop = false → t.mode = .joining ∧ t.gov.trips = [] ∧ t.loader.joinTimer = some 1000 ∧
        t.loader.lamp = .dark) ∧
      (s.pins.estop = true → t.mode = .tripped ∧ t.gov.trips = [.estopInput] ∧ t.gov.beforeTrip = some .joining) := by
  intro t
  obtain ⟨kimage, krestart, -, kpins, -⟩ := scanned_keeps samples s
  obtain ⟨hl, -, hst, hact, hjoin, htrip⟩ := startedLine_start (scanned samples s)
  obtain ⟨fl, hvT, hloader⟩ := finish_start hl hst hact
  rw [kpins] at hjoin htrip
  refine ⟨fl.scanning, fl.image.trans kimage, fl.restartCause.trans krestart, fl.peers, fl.vOp, hvT, fl.vA, fl.driveEnable,
    fl.infeed, fl.outfeed, fl.expected, fl.cancelList, fl.rx, fl.faultCount, fl.off, fl.checkErrors, fun h => ?_, fun h => ?_⟩
  · obtain ⟨hm, ht, hj, hlamp⟩ := hjoin h
    exact ⟨(congrArg Loader.mode hloader).trans hm, by simpa [t] using ht, (congrArg Loader.joinTimer hloader).trans hj,
      (congrArg Loader.lamp hloader).trans hlamp⟩
  · obtain ⟨hm, ht, hb⟩ := htrip h
    exact ⟨(congrArg Loader.mode hloader).trans hm, by simpa [t] using ht, by simpa [t] using hb⟩

/-- The units after the first scan of a legal record that brings nothing due at position 0. -/
theorem firstScan_units {samples : List (BitVec 12)} {s : State} {i : Image} (hi : s.loader.image = some i)
    (hlegal : i.legal = true) (hpunch : s.is .unwind = true → 0 < i.unwind.punch)
    (hcut : s.is .outfeed = true → 0 < i.approach + i.outfeed.cut) :
    UnitsAtStart (scanned samples s) (finish (startedLine (scanned samples s))) := by
  obtain ⟨kimage, -⟩ := scanned_keeps samples s
  obtain ⟨hl, hu, hst, -⟩ := startedLine_start (scanned samples s)
  have himage : (startedLine (scanned samples s)).loader.image = some i := (hl.image.trans kimage).trans hi
  have his (r : Role) : (startedLine (scanned samples s)).is r = s.is r := by simp [State.is, State.role, himage, hi]
  exact finish_units ⟨himage, kimage.trans hi, hlegal, hu, his .unwind ▸ hpunch, his .outfeed ▸ hcut⟩ hst

theorem legal_role {i : Image} (h : i.legal = true) : (roleOfCode i.roleCode).isSome = true := by
  unfold Image.legal at h
  cases hr : roleOfCode i.roleCode <;> simp [hr] at h ⊢

/-- Settles O59: the start values (`startedLine_start`) outlast the end of the scan, for nothing is due (`AtOrigin.settle`). -/
theorem firstScanStartsTheLine : Obligations.FirstScanStartsTheLine := by
  refine ⟨fun samples s hlen hm hs => ⟨_, exec_firstScan_eq hlen hm hs, firstScan_line samples s⟩,
    fun samples raw s i hlen hraw hm hs hi hlegal hc hpunch hcut => ?_, fun samples s hlen ho h => exec_scan_idle hlen ho h⟩
  intro value fill kept cold span
  have hu := firstScan_units (samples := samples) hi hlegal hpunch hcut
  refine ⟨_, exec_firstScan_eq hlen hm hs, ?_⟩
  obtain ⟨kimage, -, kkept, -, korder, kpattern, kroll, krecipes⟩ := scanned_keeps samples s
  have hfill : s.is .unwind = true → (scanned samples s).fillAtStart = fill := fun h =>
    fillAtStart_sampled hraw hi hc h rfl (kimage.trans hi)
  obtain ⟨-, htimage, -⟩ := firstScan_line samples s
  generalize finish (startedLine (scanned samples s)) = t at hu htimage ⊢
  generalize scanned samples s = a at *
  have hcfg : a.cfg = i := by simp [State.cfg, kimage, hi]
  have his (r : Role) : a.is r = s.is r := by simp [State.is, State.role, kimage]
  have hrole : a.role = s.role := by simp [State.role, kimage]
  have hkeeps : a.keeps = true ↔ kept := by
    rw [keeps_iff (by rw [State.role, kimage.trans hi]; exact legal_role hlegal), hrole, kkept]
  have hroll := hu.roll
  have hbase : t.roll.fillBase = a.fillAtStart := congrArg RollUnit.fillBase hroll
  refine ⟨hu.web.trans ?_, fun h => ⟨?_, ?_⟩, hu.order.trans ?_, hu.pattern.trans ?_, ?_, ?_,
    congrArg RollUnit.spliceState hroll, congrArg RollUnit.spliceArm hroll, congrArg RollUnit.webTimer hroll,
    congrArg RollUnit.vU hroll, congrArg RollUnit.vOut hroll, congrArg RollUnit.exitCommand hroll,
    congrArg RollUnit.statusArm hroll, congrArg RollUnit.statusResult hroll, ?_, ?_, ?_, hu.outfeed⟩
  · have hspan : a.startSpan = span ∧ a.startP0 = if s.is .unwind then dmm (i.exit + fill) else 0 := by
      unfold State.startSpan State.startP0 span
      rw [his, hcfg]
      cases hs' : s.is .unwind with
      | true => simp [hfill hs', dmm]
      | false => simp
    rw [startWeb, hspan.1, hspan.2]
    rfl
  · rw [hbase, hfill h]
  · have hraw : t.rawFill = fill := by
      have hp : t.position = 0#32 ∧ t.outCount = 0#32 := by
        rw [State.position, State.outCount, hu.web]
        exact ⟨countOf_zero, countOf_zero⟩
      simp [State.rawFill, hbase, hfill h, hp, signedDiff]
    have hle : fill ≤ i.unwind.fMax := by
      rw [← hfill h, ← hcfg]
      exact fillAtStart_le_fMax a
    simp only [State.fill, hraw, State.cfg, htimage.trans hi, Option.getD_some, limitInt]
    omega
  · rw [startOrder, korder]
    rfl
  · rw [startPattern, State.withPattern_pattern, kpattern]
    by_cases hk : kept
    · rw [if_pos (hkeeps.2 hk), if_pos hk]
      exact congrArg (fun l => ({ slots := l } : PatternUnit)) (List.map_congr_left fun x _ => by
        unfold PatternSlot.atRestart
        cases x.pending <;> rfl)
    · rw [if_neg (fun h => hk (hkeeps.1 h)), if_neg hk]
  · exact (congrArg RollUnit.arm1 hroll).trans (by simp [startRoll, hkeeps, kroll, Arm.atRestart, cold])
  · exact (congrArg RollUnit.arm2 hroll).trans (by simp [startRoll, hkeeps, kroll, Arm.atRestart, cold])
  · exact (congrArg RollUnit.pasteTimer hroll).trans (by simp [startRoll, kroll])
  · exact (congrArg RollUnit.pasteOutput hroll).trans (by simp [startRoll, kroll])
  · rw [hu.heat]
    simp [startHeat, hkeeps, his, hcfg, krecipes, State.startZone]

end Sys2Proof.Machine
end

