-- ==== Sys2Proof/Proofs/BodiesReadBack.lean ====
section
/-! PROOFS. What a peer reads of a pulse and a receiver of a HANDOFF (O16). -/

namespace Sys2Proof.Machine
open Sys2Proof

/-! ## Fields one after another -/

/-- A field past the one written first is read from what follows it. -/
theorem fieldAt_skip {n offset size : Nat} (v : Nat) (b : List Byte) (h : n ≤ offset) :
    fieldAt (bytesOf n v ++ b) offset size = fieldAt b (offset - n) size := by
  rw [fieldAt_append_right _ _ _ _ (by simpa using h), bytesOf_length]

theorem fieldAt_last (n v : Nat) : fieldAt (bytesOf n v) 0 n = v % 256 ^ n := by
  simpa using fieldAt_bytesOf n v []

/-! ## Codes (R26, R216) -/

theorem modeOfCode_code {m : Mode} (h : operatingMode m = true) : modeOfCode (m.code % 256) = some m := by
  cases m <;> simp_all [operatingMode, Mode.code, modeOfCode]

theorem roleOfCode_code (r : Role) : roleOfCode (r.code % 256) = some r := by cases r <;> rfl

theorem segKindOfCode_code (k : SegKind) : segKindOfCode (k.code % 256) = k := by cases k <;> rfl

theorem allRejects_code (c : RejectCause) : allRejects[c.code]? = some c := by cases c <;> rfl

theorem rejectCode_injective : Function.Injective RejectCause.code := fun c d h =>
  Option.some.inj ((allRejects_code c).symm.trans (h ▸ allRejects_code d))

/-- The causes read from a bit field are those whose codes were written (R22, R216). -/
theorem mem_rejectsOfBits (l : List RejectCause) (c : RejectCause) :
    c ∈ rejectsOfBits (bitsOf (l.map RejectCause.code) % 65536) ↔ c ∈ l := by
  have hc : c.code < 16 ∧ c ∈ allRejects := by cases c <;> decide
  rw [rejectsOfBits, List.mem_filter, show (65536 : Nat) = 2 ^ 16 from rfl, Nat.testBit_mod_two_pow, testBit_bitsOf]
  simp [hc, List.mem_map, rejectCode_injective.eq_iff]

/-- The holds read from a pulse are the advertised ones that stand (R33). -/
theorem holdsOfBits_held (l : List HoldCause) :
    holdsOfBits (bitsOf ((advertisedHolds.filter (fun h => h ∈ l)).map HoldCause.code) % 256) =
      advertisedHolds.filter (fun h => h ∈ l) := by
  refine List.filter_congr fun h hh => ?_
  have hcode : h.code < 8 ∧ ∀ k ∈ advertisedHolds, k.code = h.code → k = h := by
    revert h
    decide
  rw [show (256 : Nat) = 2 ^ 8 from rfl, Nat.testBit_mod_two_pow, testBit_bitsOf]
  simp only [hcode.1, decide_true, Bool.true_and, List.mem_map, List.mem_filter, decide_eq_true_eq, decide_eq_decide]
  exact ⟨fun ⟨k, ⟨hk, hl⟩, hc⟩ => hcode.2 k hk hc ▸ hl, fun hl => ⟨h, ⟨hh, hl⟩, rfl⟩⟩

/-! ## The pulse (R26, R27) -/

/-- The ratio a PLEAT advertises is at least 1 (R76). -/
theorem advertisedRatio_ge (s : State) : 4096 ≤ s.advertisedRatio := by
  have grows (l : List Nat) (n : Nat) : n ≤ l.foldl max n := by
    induction l generalizing n with
    | nil => exact Nat.le_refl n
    | cons x l ih => exact (Nat.le_max_left n x).trans (ih _)
  exact grows _ _

theorem advertisedCeiling_le (s : State) : s.advertisedCeiling ≤ s.cfg.lineMax := by
  unfold State.advertisedCeiling
  split
  · exact (Nat.min_le_right ..).trans (Nat.min_le_right ..)
  · exact Nat.zero_le _

/-- The flag byte of a pulse tells the interval in its bit 5 (R26). -/
theorem interval_bits (s : State) (x : Nat) (hx : x ≤ 1) :
    (attentionBits s + 16 * s.loader.restartCause.code + 32 * x) % 256 / 32 % 4 = x := by
  have ha : attentionBits s ≤ 15 := by
    have hb (b : Bool) : b.toNat ≤ 1 := Bool.toNat_le b
    have h1 := hb s.cond.link.summary
    have h2 := hb s.cond.web.summary
    have h3 := hb s.cond.heat.summary
    have h4 := hb s.cond.roll.summary
    unfold attentionBits
    omega
  have hr : s.loader.restartCause.code ≤ 1 := by cases s.loader.restartCause <;> decide
  omega

/-- What a peer's receiver reads of the body, field by field (R26). -/
theorem pulse_fields {s : State} {r : Role} (ho : s.operating = true) (hr : s.role = some r) (hl : s.cfg.lineMax ≤ 6000) :
    modeOfCode (fieldAt (pulseBody s) 0 1) = some s.mode ∧ roleOfCode (fieldAt (pulseBody s) 1 1) = some r ∧
    fieldAt (pulseBody s) 2 2 = s.advertisedCeiling ∧
    holdsOfBits (fieldAt (pulseBody s) 6 1) = advertisedHolds.filter (fun h => h ∈ s.gov.holds) ∧
    pulseInterval (fieldAt (pulseBody s) 8 1 / 32 % 4) = some (if s.mode = .standby then 250 else 25) ∧
    fieldAt (pulseBody s) 11 2 = fieldAt (roleBytes s) 0 2 := by
  have hc := (advertisedCeiling_le s).trans hl
  have hi := interval_bits s (if s.mode = .standby then 1 else 0) (by split <;> omega)
  simp only [pulseBody, List.append_assoc, hr, Option.map_some, Option.getD_some]
  refine ⟨?_, ?_, ?_, ?_, ?_, ?_⟩
  · rw [fieldAt_bytesOf]
    exact modeOfCode_code ho
  · rw [fieldAt_skip _ _ (by omega), fieldAt_bytesOf]
    exact roleOfCode_code r
  · rw [fieldAt_skip _ _ (by omega), fieldAt_skip _ _ (by omega), fieldAt_bytesOf]
    omega
  · rw [fieldAt_skip _ _ (by omega), fieldAt_skip _ _ (by omega), fieldAt_skip _ _ (by omega), fieldAt_skip _ _ (by omega),
      fieldAt_bytesOf]
    exact holdsOfBits_held _
  · iterate 6 rw [fieldAt_skip _ _ (by omega)]
    rw [fieldAt_bytesOf, Nat.pow_one, hi]
    split <;> rfl
  · iterate 9 rw [fieldAt_skip _ _ (by omega)]

theorem readPulse_pulseBody {s : State} (ho : s.operating = true) (hrole : s.role.isSome = true) (hl : s.cfg.lineMax ≤ 6000)
    (hratio : s.is .pleat = true → s.advertisedRatio ≤ 20480) : readPulse (pulseBody s) = some s.asPeer := by
  obtain ⟨r, hr⟩ := Option.isSome_iff_exists.1 hrole
  obtain ⟨hm, hrc, hc, hh, hi, hf⟩ := pulse_fields ho hr hl
  have hratio' : pulseRatio r (pulseBody s) = some (if s.is .pleat then some s.advertisedRatio else none) := by
    unfold pulseRatio
    by_cases hp : r = .pleat
    · have his : s.is .pleat = true := by simp [State.is, hr, hp]
      have hle := hratio his
      have hread : fieldAt (pulseBody s) 11 2 = s.advertisedRatio := by
        rw [hf, roleBytes, hr, hp]
        simp only [List.append_assoc]
        rw [fieldAt_bytesOf]
        omega
      simp [hp, his, hread, advertisedRatio_ge s, hle]
    · have his : s.is .pleat = false := by simp [State.is, hr, hp]
      simp [hp, his]
  rw [readPulse, hm, hrc, hi]
  simp only [hratio', Option.map_some, hc, hh, State.asPeer, hr]

/-! ## The HANDOFF (R8, R9, R13) -/

theorem and_fffe {x : Half} (h : x.getLsbD 0 = false) : x &&& 0xFFFE = x := by
  have hbits : ∀ i : Fin 16, i ≠ 0 → (0xFFFE#16).getLsbD i = true := by decide
  refine BitVec.eq_of_getLsbD_eq fun i hi => ?_
  rw [BitVec.getLsbD_and]
  by_cases h0 : i = 0
  · subst h0
    rw [h, Bool.false_and]
  · have := hbits ⟨i, hi⟩ (by simpa [Fin.ext_iff] using h0)
    simp only at this
    rw [show (0xFFFE : Half) = 0xFFFE#16 from rfl, this, Bool.and_true]

/-- The record of a HANDOFF as sent: the record built, then its overshoot in place of the two bytes left for it (R8, R9). -/
theorem handoff_sent (g : Segment) (length travel : Nat) (pleated newSeq : Bool) :
    stampOvershoot (handoffBody g length pleated newSeq) travel =
      bytesOf 2 g.seg.toNat ++ (bytesOf 1 g.kind.code ++ (bytesOf 4 ((g.panelId.getD 0).toNat) ++
        (bytesOf 1 (g.pattern.getD 0) ++ (bytesOf 1 g.recipe ++ (bytesOf 2 ((g.lot.getD 0).toNat) ++ (bytesOf 4 length ++
          (bytesOf 1 (pleated.toNat + 2 * g.regPleat.toNat + 4 * newSeq.toNat) ++ (bytesOf 2 g.setters.toNat ++
            (bytesOf 2 (bitsOf (g.causes.map RejectCause.code)) ++ bytesOf 2 (min 65535 travel)))))))))) := by
  unfold stampOvershoot handoffBody
  rw [List.take_left' (by simp)]
  simp only [List.append_assoc, saturate]

/-- Every field of a HANDOFF as its receiver finds it (R8, R9). -/
theorem handoff_fields (g : Segment) (length travel : Nat) (pleated newSeq : Bool) :
    let sent := stampOvershoot (handoffBody g length pleated newSeq) travel
    fieldAt sent 0 2 = g.seg.toNat % 65536 ∧ fieldAt sent 2 1 = g.kind.code % 256 ∧
    fieldAt sent 3 4 = (g.panelId.getD 0).toNat % 4294967296 ∧ fieldAt sent 7 1 = g.pattern.getD 0 % 256 ∧
    fieldAt sent 8 1 = g.recipe % 256 ∧ fieldAt sent 9 2 = (g.lot.getD 0).toNat % 65536 ∧
    fieldAt sent 11 4 = length % 4294967296 ∧
    fieldAt sent 15 1 = (pleated.toNat + 2 * g.regPleat.toNat + 4 * newSeq.toNat) % 256 ∧
    fieldAt sent 16 2 = g.setters.toNat % 65536 ∧
    fieldAt sent 18 2 = bitsOf (g.causes.map RejectCause.code) % 65536 ∧ fieldAt sent 20 2 = min 65535 travel % 65536 := by
  intro sent
  simp only [sent, handoff_sent]
  refine ⟨?_, ?_, ?_, ?_, ?_, ?_, ?_, ?_, ?_, ?_, ?_⟩
  · rw [fieldAt_bytesOf]; rfl
  · iterate 1 rw [fieldAt_skip _ _ (by omega)]
    rw [fieldAt_bytesOf]; rfl
  · iterate 2 rw [fieldAt_skip _ _ (by omega)]
    rw [fieldAt_bytesOf]; rfl
  · iterate 3 rw [fieldAt_skip _ _ (by omega)]
    rw [fieldAt_bytesOf]; rfl
  · iterate 4 rw [fieldAt_skip _ _ (by omega)]
    rw [fieldAt_bytesOf]; rfl
  · iterate 5 rw [fieldAt_skip _ _ (by omega)]
    rw [fieldAt_bytesOf]; rfl
  · iterate 6 rw [fieldAt_skip _ _ (by omega)]
    rw [fieldAt_bytesOf]; rfl
  · iterate 7 rw [fieldAt_skip _ _ (by omega)]
    rw [fieldAt_bytesOf]; rfl
  · iterate 8 rw [fieldAt_skip _ _ (by omega)]
    rw [fieldAt_bytesOf]; rfl
  · iterate 9 rw [fieldAt_skip _ _ (by omega)]
    rw [fieldAt_bytesOf]; rfl
  · iterate 10 rw [fieldAt_skip _ _ (by omega)]
    rw [fieldAt_last]; rfl

/-- The three flags of a HANDOFF are its bits 0 to 2 (R8). -/
theorem flag_bits (a b c : Bool) :
    ((a.toNat + 2 * b.toNat + 4 * c.toNat) % 256).testBit 0 = a ∧
    ((a.toNat + 2 * b.toNat + 4 * c.toNat) % 256).testBit 1 = b ∧
    ((a.toNat + 2 * b.toNat + 4 * c.toNat) % 256).testBit 2 = c := by
  revert a b c
  decide

/-- Settles O16, field by field. -/
theorem bodiesReadBack : Obligations.BodiesReadBack := by
  refine ⟨fun s ho hr hl hp => readPulse_pulseBody ho hr hl hp, ?_⟩
  intro g length travel uid pleated newSeq arrival hlen hrec hrec0 hpanel hother hleader hnone hset sent read
  obtain ⟨hseg, hkind, hid, hpat, hrecipe, hlot, hlength, hflags, hsetters, hcauses, hover⟩ :=
    handoff_fields g length travel pleated newSeq
  have hread : read = readHandoff sent uid arrival := rfl
  refine ⟨hover.trans (Nat.mod_eq_of_lt (by omega)), ?_, fun c => ?_⟩
  · have word16 (x : Half) : BitVec.ofNat 16 (x.toNat % 65536) = x := by
      rw [Nat.mod_eq_of_lt x.isLt, BitVec.ofNat_toNat, BitVec.setWidth_eq]
    have word32 (x : Word) : BitVec.ofNat 32 (x.toNat % 4294967296) = x := by
      rw [Nat.mod_eq_of_lt x.isLt, BitVec.ofNat_toNat, BitVec.setWidth_eq]
    obtain ⟨hpl, hreg, hnew⟩ := flag_bits pleated g.regPleat newSeq
    have kkind : segKindOfCode (fieldAt sent 2 1) = g.kind := hkind ▸ segKindOfCode_code g.kind
    have kid : (if g.kind = .panel then some (BitVec.ofNat 32 (fieldAt sent 3 4)) else none) = g.panelId := by
      rw [hid, word32]
      split
      · obtain ⟨x, hx⟩ := Option.isSome_iff_exists.1 (hpanel ‹_›).1
        simp [hx]
      · exact (hother ‹_›).1.symm
    have kpat : (if g.kind = .panel then some (fieldAt sent 7 1) else none) = g.pattern := by
      rw [hpat]
      split
      · obtain ⟨p, hp, hle⟩ := (hpanel ‹_›).2.2
        simp [hp]
        omega
      · exact (hother ‹_›).2.symm
    have krec : (if g.kind = .panel ∧ fieldAt sent 8 1 ≤ 16 then fieldAt sent 8 1 else 0) = g.recipe := by
      rw [hrecipe, Nat.mod_eq_of_lt (by omega)]
      split
      · rfl
      · rename_i hn
        exact (hrec0 fun hk => hn ⟨hk, hrec⟩).symm
    have klot : (if g.kind = .panel ∨ g.kind = .leader then some (BitVec.ofNat 16 (fieldAt sent 9 2)) else none) = g.lot := by
      rw [hlot, word16]
      cases hk : g.kind with
      | panel | leader =>
        have hsome : g.lot.isSome = true := by simp_all
        obtain ⟨x, hx⟩ := Option.isSome_iff_exists.1 hsome
        simp [hx]
      | splice | untracked => simp [hnone, hk]
    have kset : BitVec.ofNat 16 (fieldAt sent 16 2) &&& 0xFFFE = g.setters := by rw [hsetters, word16, and_fffe hset]
    rw [hread]
    unfold readHandoff
    dsimp only
    rw [kkind, kid, kpat, krec, klot, kset, hflags, hpl, hreg, hnew, hseg, word16, hlength, Nat.mod_eq_of_lt hlen]
  · rw [hread, readHandoff]
    simp only [sent, hcauses]
    exact mem_rejectsOfBits ..

end Sys2Proof.Machine
end

