-- ==== Sys2Proof/Proofs/Judgements.lean ====
section
/-! PROOFS. What the shift of the cell line does to the judgement list (R147, R149, R150). -/

namespace Sys2Proof.Machine
open Sys2Proof

/-! ## The entry of a segment -/

/-- The entry of the judgement list for a segment (R147). -/
def State.judgementOf (s : State) (uid : Nat) : Option Judgement := s.heat.judgements.find? (fun j => j.ref.uid == uid)

/-- No segment has two entries (R147). -/
def JudgedOnce (s : State) : Prop := (s.heat.judgements.map (fun j => j.ref.uid)).Nodup

theorem judgementOf_congr {s t : State} (h : t.heat.judgements = s.heat.judgements) (uid : Nat) :
    t.judgementOf uid = s.judgementOf uid := by
  rw [State.judgementOf, h, State.judgementOf]

theorem judgementOf_some {s : State} {uid : Nat} {j : Judgement} (h : s.judgementOf uid = some j) :
    j ∈ s.heat.judgements ∧ j.ref.uid = uid :=
  ⟨List.mem_of_find?_eq_some h, by simpa using List.find?_some h⟩

theorem JudgedOnce.judgementOf {s : State} (once : JudgedOnce s) {j : Judgement} (hj : j ∈ s.heat.judgements) :
    s.judgementOf j.ref.uid = some j := by
  cases h : s.judgementOf j.ref.uid with
  | none => simpa using List.find?_eq_none.1 h j hj
  | some k =>
    obtain ⟨hk, hu⟩ := judgementOf_some h
    exact congrArg some (List.inj_on_of_nodup_map once hk hj hu)

/-- A change of one segment's entry, seen by an entry's name. -/
theorem find?_update (f : Judgement → Judgement) (hf : ∀ j, (f j).ref = j.ref) (l : List Judgement) (v u : Nat) :
    (l.map (fun x => if x.ref.uid == v then f x else x)).find? (fun j => j.ref.uid == u) =
      (l.find? (fun j => j.ref.uid == u)).map (fun x => if u = v then f x else x) := by
  have hname : (fun j : Judgement => j.ref.uid == u) ∘ (fun x => if x.ref.uid == v then f x else x) =
      fun j => j.ref.uid == u := by
    funext x
    dsimp only [Function.comp]
    split <;> simp [hf]
  rw [List.find?_map, hname]
  cases h : l.find? (fun j => j.ref.uid == u) with
  | none => rfl
  | some x =>
    have hx : x.ref.uid = u := by simpa using List.find?_some h
    simp [hx]

/-- A change of one segment's entry leaves every entry its name. -/
theorem names_update (f : Judgement → Judgement) (hf : ∀ j, (f j).ref = j.ref) (l : List Judgement) (v : Nat) :
    (l.map (fun x => if x.ref.uid == v then f x else x)).map (fun j => j.ref.uid) = l.map (fun j => j.ref.uid) := by
  rw [List.map_map]
  refine List.map_congr_left fun x _ => ?_
  dsimp only [Function.comp]
  split <;> simp [hf]

/-! ## Judging (R149) -/

/-- The entry of a segment once the leaving cell has been judged for it: made when there is none, left when it is closed. -/
def judgedFor (c : Cell) (r : Option Recipe) (g : Segment) : Option Judgement → Judgement
  | some j => if j.closed then j else j.judge c r
  | none =>
    ({ ref := g.ref, closed := false, underFlag := false, overFlag := false, unjudged := false, least := c.dose,
       greatest := c.dose, peak := none } : Judgement).judge c r

theorem judge_judge (j : Judgement) (c : Cell) (r : Option Recipe) : (j.judge c r).judge c r = j.judge c r := by
  cases hp : j.peak <;> cases hq : c.peak <;> simp [Judgement.judge, hp, hq]

theorem judgedFor_open {j : Judgement} (h : j.closed = false) (c : Cell) (r : Option Recipe) (g : Segment) :
    judgedFor c r g (some j) = j.judge c r := if_neg (by simp [h])

theorem judgedFor_judgedFor (c : Cell) (r : Option Recipe) (g : Segment) (e : Option Judgement) :
    judgedFor c r g (some (judgedFor c r g e)) = judgedFor c r g e := by
  cases e with
  | none => exact (judgedFor_open rfl ..).trans (judge_judge ..)
  | some j =>
    by_cases hj : j.closed = true
    · simp [judgedFor, hj]
    · simpa [judgedFor, hj, Judgement.judge] using judge_judge j c r

theorem judgeRef_once (c : Cell) (r : SegRef) {s : State} (once : JudgedOnce s) : JudgedOnce (judgeRef c r s) := by
  unfold judgeRef
  split
  · exact once
  · rename_i g _
    split
    · exact once
    · dsimp only
      split
      · split
        · exact once
        · simp only [JudgedOnce, State.withHeat_heat]
          rwa [names_update (·.judge c (s.recipeEntry g.recipe)) (fun _ => rfl)]
      · rename_i hnone
        have hnew : g.uid ∉ s.heat.judgements.map (fun j => j.ref.uid) := by simpa using hnone
        simp only [JudgedOnce, State.withHeat_heat, List.map_append, List.map_cons, List.map_nil]
        exact once.append (List.nodup_singleton _) (by simpa [Judgement.judge, Segment.ref] using hnew)

/-- A PANEL with a recipe has the cell judged for it when it is the one referred to, and is passed over else (R149). -/
theorem judgeRef_judgementOf {s : State} {g : Segment} (hg : s.held g.uid = some g) (hk : g.kind = .panel)
    (hr : g.recipe ≠ 0) (c : Cell) (r : SegRef) : (judgeRef c r s).judgementOf g.uid =
      if r.uid = g.uid then some (judgedFor c (s.recipeEntry g.recipe) g (s.judgementOf g.uid)) else s.judgementOf g.uid := by
  unfold judgeRef
  by_cases hu : r.uid = g.uid
  · simp only [hu, hg, hk, hr, ne_eq, not_true_eq_false, or_self, if_false, if_true]
    split
    · rename_i j hj
      have hj : s.judgementOf g.uid = some j := hj
      by_cases hc : j.closed = true
      · simp [hc, hj, judgedFor]
      · rw [if_neg hc]
        simp only [State.judgementOf, State.withHeat_heat, judgedFor] at hj ⊢
        rw [find?_update (·.judge c (s.recipeEntry g.recipe)) (fun _ => rfl), hj]
        simp [hc]
    · rename_i hnone
      have hn : s.judgementOf g.uid = none := hnone
      simp [State.judgementOf, hnone, judgedFor, Judgement.judge, Segment.ref]
  · rw [if_neg hu]
    split
    · rfl
    · rename_i k hk'
      obtain ⟨-, hku⟩ := held_eq_some hk'
      have hne : k.uid ≠ g.uid := hku ▸ hu
      split
      · rfl
      · dsimp only
        split
        · split
          · rfl
          · simp only [State.judgementOf, State.withHeat_heat]
            rw [find?_update (·.judge c (s.recipeEntry k.recipe)) (fun _ => rfl)]
            simp [Ne.symm hne]
        · simp [State.judgementOf, Judgement.judge, Segment.ref, hne]

/-- A closed entry is judged no more (R149). -/
theorem judgeRef_closed {s : State} {u : Nat} {z : Judgement} (h : s.judgementOf u = some z) (hz : z.closed = true) (c : Cell)
    (r : SegRef) : (judgeRef c r s).judgementOf u = some z := by
  unfold judgeRef
  split
  · exact h
  · rename_i g _
    split
    · exact h
    · dsimp only
      split
      · rename_i j hj
        split
        · exact h
        · rename_i hc
          simp only [State.judgementOf, State.withHeat_heat] at h ⊢
          rw [find?_update (·.judge c (s.recipeEntry g.recipe)) (fun _ => rfl), h]
          have : u ≠ g.uid := by
            rintro rfl
            rw [hj] at h
            exact hc (Option.some.inj h ▸ hz)
          simp [this]
      · simp only [State.judgementOf, State.withHeat_heat] at h ⊢
        rw [List.find?_append, h]
        rfl

theorem judgeCell_once (c : Cell) {s : State} (once : JudgedOnce s) : JudgedOnce (judgeCell c s) := by
  cases hl : c.lead <;> cases ht : c.trail <;> simp only [judgeCell, hl, ht]
  · exact once
  · exact judgeRef_once _ _ once
  · exact judgeRef_once _ _ once
  · split
    · exact judgeRef_once _ _ once
    · exact judgeRef_once _ _ (judgeRef_once _ _ once)

theorem judgeCell_closed {s : State} {u : Nat} {z : Judgement} (h : s.judgementOf u = some z) (hz : z.closed = true) (c : Cell) :
    (judgeCell c s).judgementOf u = some z := by
  cases hl : c.lead <;> cases ht : c.trail <;> simp only [judgeCell, hl, ht]
  · exact h
  · exact judgeRef_closed h hz ..
  · exact judgeRef_closed h hz ..
  · split
    · exact judgeRef_closed h hz ..
    · exact judgeRef_closed (judgeRef_closed h hz ..) hz ..

/-- The leaving cell is judged for a PANEL with a recipe when it refers to it, once though it may name it twice (R149). -/
theorem judgeCell_judgementOf {s : State} {g : Segment} (hg : s.held g.uid = some g) (hk : g.kind = .panel)
    (hr : g.recipe ≠ 0) (c : Cell) : (judgeCell c s).judgementOf g.uid =
      if c.refers g.uid = true then some (judgedFor c (s.recipeEntry g.recipe) g (s.judgementOf g.uid))
      else s.judgementOf g.uid := by
  have atRef := judgeRef_judgementOf hg hk hr c
  cases hl : c.lead with
  | none =>
    cases ht : c.trail with
    | none => simp [judgeCell, Cell.refers, hl, ht]
    | some r => simp [judgeCell, Cell.refers, hl, ht, atRef]
  | some l =>
    cases ht : c.trail with
    | none => simp [judgeCell, Cell.refers, hl, ht, atRef]
    | some r =>
      by_cases hlr : l = r
      · simp [judgeCell, Cell.refers, hl, ht, hlr, atRef]
      · have hheld : (judgeRef c l s).held g.uid = some g := by simpa [State.held] using hg
        have hentry : (judgeRef c l s).recipeEntry g.recipe = s.recipeEntry g.recipe := by simp [State.recipeEntry]
        simp only [judgeCell, Cell.refers, hl, ht, Option.some.injEq, hlr, if_false, Option.any_some, Bool.or_eq_true, beq_iff_eq,
          judgeRef_judgementOf hheld hk hr, hentry, atRef]
        by_cases hlu : l.uid = g.uid <;> by_cases hru : r.uid = g.uid <;> simp [hlu, hru, judgedFor_judgedFor]

/-! ## Closing (R150) -/

/-- The leaving cell ends the judging of a segment: it refers to it no more, or it holds the last of its fabric (R150). -/
def closeDue (c : Cell) (edge : Word) (g : Segment) : Bool := !c.refers g.uid || atOrPast edge g.trail

/-- The closing of one segment's entry, when it is open and its closing due (R150). -/
def closeStep (c : Cell) (edge : Word) (t : State) (g : Segment) : State :=
  match t.heat.judgements.find? (fun j => j.ref.uid == g.uid && !j.closed) with
  | none => t
  | some j => if !c.refers g.uid || atOrPast edge g.trail then closeEntry j g t else t

theorem closeEntries_eq (c : Cell) (edge : Word) (s : State) : closeEntries c edge s = s.web.map.foldl (closeStep c edge) s := rfl

theorem closeEntry_judgements (j : Judgement) (g : Segment) (s : State) : (closeEntry j g s).heat.judgements =
    s.heat.judgements.map (fun x => if x.ref.uid == g.uid then { x with closed := true } else x) := by
  unfold closeEntry
  extract_lets v a b c d
  have hb : b.heat = s.heat := by unfold b; split <;> simp [a]
  have hd : d.heat = s.heat := by unfold d c; split <;> simp [hb]
  simp [hd]

theorem closeEntry_judgementOf (j : Judgement) (g : Segment) (s : State) (u : Nat) : (closeEntry j g s).judgementOf u =
    (s.judgementOf u).map (fun x => if u = g.uid then { x with closed := true } else x) := by
  rw [State.judgementOf, closeEntry_judgements, find?_update ({ · with closed := true }) (fun _ => rfl)]
  rfl

theorem closeEntry_once (j : Judgement) (g : Segment) {s : State} (once : JudgedOnce s) : JudgedOnce (closeEntry j g s) := by
  rw [JudgedOnce, closeEntry_judgements]
  rwa [names_update ({ · with closed := true }) (fun _ => rfl)]

theorem closeStep_due {c : Cell} {edge : Word} {t : State} {g : Segment} {j : Judgement} (hj : t.judgementOf g.uid = some j)
    (ho : j.closed = false) (hd : closeDue c edge g = true) : closeStep c edge t g = closeEntry j g t := by
  have hfind : t.heat.judgements.find? (fun j => j.ref.uid == g.uid && !j.closed) = some j := by
    rw [State.judgementOf, List.find?_eq_some_iff_append] at hj
    rw [List.find?_eq_some_iff_append]
    obtain ⟨hu, l, m, hl, hbefore⟩ := hj
    exact ⟨by simpa [ho] using hu, l, m, hl, fun x hx => by simp [by simpa using hbefore x hx]⟩
  rw [closeStep, hfind]
  exact if_pos hd

theorem closeStep_same {c : Cell} {edge : Word} {t : State} {g : Segment} (once : JudgedOnce t)
    (h : ∀ j, t.judgementOf g.uid = some j → j.closed = false → closeDue c edge g = false) : closeStep c edge t g = t := by
  unfold closeStep
  split
  · rfl
  · rename_i j hj
    have hp := List.find?_some hj
    simp only [Bool.and_eq_true, beq_iff_eq, Bool.not_eq_true'] at hp
    obtain ⟨hu, ho⟩ := hp
    have hentry := once.judgementOf (List.mem_of_find?_eq_some hj)
    refine if_neg (Bool.not_eq_true _ ▸ h j (hu ▸ hentry) ho)

theorem closeStep_cases (c : Cell) (edge : Word) (t : State) (g : Segment) :
    closeStep c edge t g = t ∨ ∃ j, closeStep c edge t g = closeEntry j g t := by
  unfold closeStep
  split
  · exact .inl rfl
  · split
    · exact .inr ⟨_, rfl⟩
    · exact .inl rfl

theorem closeStep_once {c : Cell} {edge : Word} {t : State} {g : Segment} (once : JudgedOnce t) :
    JudgedOnce (closeStep c edge t g) := by
  rcases closeStep_cases c edge t g with h | ⟨j, h⟩ <;> rw [h]
  · exact once
  · exact closeEntry_once j g once

theorem closeStep_other {c : Cell} {edge : Word} {t : State} {g : Segment} {u : Nat} (hu : u ≠ g.uid) :
    (closeStep c edge t g).judgementOf u = t.judgementOf u := by
  rcases closeStep_cases c edge t g with h | ⟨j, h⟩ <;> rw [h]
  rw [closeEntry_judgementOf]
  simp [hu]

theorem closeStep_own {c : Cell} {edge : Word} {t : State} {g : Segment} (once : JudgedOnce t) :
    (closeStep c edge t g).judgementOf g.uid =
      (t.judgementOf g.uid).map (fun x => if closeDue c edge g = true then { x with closed := true } else x) := by
  cases hj : t.judgementOf g.uid with
  | none => rw [closeStep_same once (by simp [hj]), hj]; rfl
  | some j =>
    by_cases hdue : closeDue c edge g = true
    · by_cases ho : j.closed = true
      · rw [closeStep_same once (by simp [hj, ho]), hj, Option.map_some, if_pos hdue, ← ho]
      · rw [closeStep_due hj (by simpa using ho) hdue, closeEntry_judgementOf, hj]
        simp [hdue]
    · rw [closeStep_same once (by simp [hdue]), hj]
      simp [hdue]

theorem closeSteps_once {c : Cell} {edge : Word} {t : State} (l : List Segment) (once : JudgedOnce t) :
    JudgedOnce (l.foldl (closeStep c edge) t) := by
  induction l generalizing t with
  | nil => exact once
  | cons g l ih => exact ih (closeStep_once once)

theorem closeSteps_other {c : Cell} {edge : Word} {t : State} {u : Nat} {l : List Segment} (hu : ∀ h ∈ l, h.uid ≠ u) :
    (l.foldl (closeStep c edge) t).judgementOf u = t.judgementOf u := by
  induction l generalizing t with
  | nil => rfl
  | cons g l ih =>
    rw [List.foldl_cons, ih fun h hh => hu h (List.mem_cons_of_mem _ hh)]
    exact closeStep_other (hu g List.mem_cons_self).symm

theorem closeSteps_same {c : Cell} {edge : Word} {t : State} {l : List Segment} (once : JudgedOnce t)
    (h : ∀ g ∈ l, ∀ j, t.judgementOf g.uid = some j → j.closed = false → closeDue c edge g = false) :
    l.foldl (closeStep c edge) t = t := by
  induction l with
  | nil => rfl
  | cons g l ih =>
    rw [List.foldl_cons, closeStep_same once (h g List.mem_cons_self)]
    exact ih fun g' hg' => h g' (List.mem_cons_of_mem _ hg')

/-- Every held segment's entry is closed when its closing is due, and left else (R150). -/
theorem closeEntries_judgementOf {s : State} (hs : (s.web.map.map Segment.uid).Nodup) (once : JudgedOnce s) {g : Segment}
    (hg : g ∈ s.web.map) (c : Cell) (edge : Word) : (closeEntries c edge s).judgementOf g.uid =
      (s.judgementOf g.uid).map (fun x => if closeDue c edge g = true then { x with closed := true } else x) := by
  obtain ⟨l, m, hmap⟩ := List.append_of_mem hg
  rw [hmap] at hs
  have hl : ∀ h ∈ l, h.uid ≠ g.uid := fun h hh => uids_apart hs hh List.mem_cons_self
  have hm : ∀ h ∈ m, h.uid ≠ g.uid := fun h hh =>
    (uids_apart (l := l ++ [g]) (by simpa using hs) (by simp) hh).symm
  rw [closeEntries_eq, hmap, List.foldl_append, List.foldl_cons, closeSteps_other hm, closeStep_own (closeSteps_once l once),
    closeSteps_other hl]

end Sys2Proof.Machine
end

