-- ==== Sys2Proof/Proofs/CellsDosedAndShifted.lean ====
section
/-! PROOFS. The dose tick, the shift of the cell line and the verdict a closing sends (O50). -/

namespace Sys2Proof.Machine
open Sys2Proof

/-! ## The dose tick (R144) -/

theorem doseTick_cell {s : State} {k : Nat} {c : Cell} {temp : Int} (hc : s.heat.cells[k]? = some c)
    (ht : s.zoneTemp (s.cfg.setter.zoneOfCell k) = some temp) :
    (doseTick s).heat.cells[k]? = some (c.tick (s.aboveBase temp) temp) := by
  simp [doseTick, hc, ht]

theorem doseTick_cell_of_fault {s : State} {k : Nat} {c : Cell} (hc : s.heat.cells[k]? = some c)
    (ht : s.zoneTemp (s.cfg.setter.zoneOfCell k) = none) : (doseTick s).heat.cells[k]? = some c := by
  simp [doseTick, hc, ht]

/-! ## The cell an entry has been judged with (R149) -/

theorem refers_iff {c : Cell} {uid : Nat} :
    c.refers uid = true ↔ ∃ r, (c.lead = some r ∨ c.trail = some r) ∧ r.uid = uid := by
  simp [Cell.refers, or_and_right, exists_or, Option.any_eq_true]

section
variable {e : Option Judgement} (c : Cell) (r : Option Recipe) (g : Segment)

/-- An entry that is not closed is judged, and stays open. -/
theorem judgedFor_closed (ho : ∀ j, e = some j → j.closed = false) : (judgedFor c r g e).closed = false := by
  cases e with
  | none => rfl
  | some j => rw [judgedFor_open (ho j rfl)]; exact ho j rfl

theorem judgedFor_ref (ho : ∀ j, e = some j → j.closed = false) :
    (judgedFor c r g e).ref = (e.map Judgement.ref).getD g.ref := by
  cases e with
  | none => rfl
  | some j => rw [judgedFor_open (ho j rfl)]; rfl

theorem judgedFor_under (ho : ∀ j, e = some j → j.closed = false) : (judgedFor c r g e).underFlag = true ↔
    (∃ x, e = some x ∧ x.underFlag = true) ∨ ∃ x, r = some x ∧ c.dose < x.doseMin := by
  cases e with
  | none => simp [judgedFor, Judgement.judge, Option.any_eq_true]
  | some j => simp [judgedFor_open (ho j rfl), Judgement.judge, Option.any_eq_true]

theorem judgedFor_over (ho : ∀ j, e = some j → j.closed = false) : (judgedFor c r g e).overFlag = true ↔
    (∃ x, e = some x ∧ x.overFlag = true) ∨ ∃ x, r = some x ∧ x.doseMax < c.dose := by
  cases e with
  | none => simp [judgedFor, Judgement.judge, Option.any_eq_true]
  | some j => simp [judgedFor_open (ho j rfl), Judgement.judge, Option.any_eq_true]

theorem judgedFor_unjudged (ho : ∀ j, e = some j → j.closed = false) : (judgedFor c r g e).unjudged = true ↔
    (∃ x, e = some x ∧ x.unjudged = true) ∨ r = none := by
  cases e with
  | none => simp [judgedFor, Judgement.judge]
  | some j => simp [judgedFor_open (ho j rfl), Judgement.judge]

end

/-! ## The verdict of an entry (R150) -/

theorem verdict_under (j : Judgement) : (j.verdict = .underDose ∨ j.verdict = .underOver) ↔ j.underFlag = true := by
  unfold Judgement.verdict
  cases j.underFlag <;> cases j.overFlag <;> cases j.unjudged <;> decide

theorem verdict_over (j : Judgement) : (j.verdict = .overDose ∨ j.verdict = .underOver) ↔ j.overFlag = true := by
  unfold Judgement.verdict
  cases j.underFlag <;> cases j.overFlag <;> cases j.unjudged <;> decide

theorem verdict_set {j : Judgement} (hu : j.underFlag = false) (ho : j.overFlag = false) (hn : j.unjudged = false) :
    j.verdict = .set := by
  simp [Judgement.verdict, hu, ho, hn]

theorem verdict_code (j : Judgement) : j.verdict.code =
    if j.underFlag then (if j.overFlag then 3 else 1) else if j.overFlag then 2 else if j.unjudged then 4 else 0 := by
  unfold Judgement.verdict
  cases j.underFlag <;> cases j.overFlag <;> cases j.unjudged <;> rfl

theorem merge_under {v : Verdict} (h : v = .underDose ∨ v = .underOver) (x : Segment) (origin : Nat) :
    RejectCause.underSet ∈ (x.merge v origin).causes := by
  rcases h with rfl | rfl <;> simp [Segment.merge, Segment.mark]

theorem merge_over {v : Verdict} (h : v = .overDose ∨ v = .underOver) (x : Segment) (origin : Nat) :
    RejectCause.overSet ∈ (x.merge v origin).causes := by
  rcases h with rfl | rfl <;> simp [Segment.merge, Segment.mark]

theorem merge_set_inMask (x : Segment) {origin : Nat} (h : origin ≤ 15) : inMask (x.merge .set origin).setters origin = true := by
  have hlt : origin < 16 := by omega
  rw [merge_set, inMask, BitVec.getLsbD_or, BitVec.getLsbD_ofNat]
  simp [-BitVec.getLsbD_eq_getElem, hlt, Nat.testBit_two_pow_self]

/-- The peak of an entry is read back from its two bytes when it fits them (log entry 9). -/
theorem peakField_read {p : Option Int} (hl : -32768 ≤ p.getD (-500)) (hh : p.getD (-500) ≤ 32767) :
    signed16 ((peakField p).toNat) = p.getD (-500) := by
  rw [peakField, if_pos ⟨hl, hh⟩, signed16, BitVec.ofNat_toNat, BitVec.setWidth_eq, BitVec.toInt_ofInt]
  exact Int.bmod_eq_of_le (by omega) (by omega)

/-- What a receiver reads of a DOSE VERDICT (R150). -/
theorem verdictBody_fields (j : Judgement) (g : Segment) :
    fieldAt (verdictBody j g) 0 2 = j.ref.seg.toNat ∧ fieldAt (verdictBody j g) 2 4 = (g.panelId.getD 0).toNat ∧
    fieldAt (verdictBody j g) 6 1 = j.verdict.code ∧ fieldAt (verdictBody j g) 7 4 = j.least % 4294967296 ∧
    fieldAt (verdictBody j g) 11 4 = j.greatest % 4294967296 ∧ fieldAt (verdictBody j g) 15 2 = (peakField j.peak).toNat := by
  have hseg := j.ref.seg.isLt
  have hid := (g.panelId.getD 0).isLt
  have hpeak := (peakField j.peak).isLt
  have hcode : j.verdict.code < 256 := by cases j.verdict <;> decide
  refine ⟨?_, ?_, ?_, ?_, ?_, ?_⟩ <;> simp only [verdictBody, List.append_assoc]
  · rw [fieldAt_bytesOf]; omega
  · rw [fieldAt_skip _ _ (by omega), fieldAt_bytesOf]; omega
  · iterate 2 rw [fieldAt_skip _ _ (by omega)]
    rw [fieldAt_bytesOf]; omega
  · iterate 3 rw [fieldAt_skip _ _ (by omega)]
    rw [fieldAt_bytesOf]; rfl
  · iterate 4 rw [fieldAt_skip _ _ (by omega)]
    rw [fieldAt_bytesOf]; rfl
  · iterate 5 rw [fieldAt_skip _ _ (by omega)]
    rw [fieldAt_last]; omega

/-! ## What a closing does (R150) -/

/-- The DOSE VERDICT of an entry. -/
def verdictEntry (j : Judgement) (g : Segment) : TxEntry := { kind := .doseVerdict, dest := 0, body := verdictBody j g }

/-- The report of a condition takes no telegram out of the queue (R175, R177). -/
theorem raise_tx {e : TxEntry} (c : Cond) {s : State} (h : e ∈ s.bus.tx) : e ∈ (raise c s).bus.tx := by
  have offer : ∀ (g : Group) (u : State), e ∈ u.bus.tx → e ∈ (offerNotice g u).bus.tx := by
    intro g u hu
    unfold offerNotice
    split <;> simp [setTx, hu]
  have rising : e ∈ (reportRising c (setFlags (s.cond.flags ++ [c]) s)).bus.tx := by
    unfold reportRising
    split
    · dsimp only
      split
      · exact offer _ _ (by simpa using h)
      · simpa using h
      · simpa using h
    · simpa using h
  unfold raise
  split
  · exact h
  · dsimp only
    split
    · simpa using rising
    · exact rising

theorem closeEntry_flags (j : Judgement) (g : Segment) (s : State) :
    (j.underFlag = true → Cond.underSet ∈ (closeEntry j g s).cond.flags) ∧
    (j.overFlag = true → Cond.overSet ∈ (closeEntry j g s).cond.flags) := by
  unfold closeEntry
  extract_lets v a b c d
  have hd : d.cond = c.cond := by simp [d]
  simp only [State.withHeat_cond, hd]
  constructor
  · intro hu
    have hb : Cond.underSet ∈ b.cond.flags := by
      unfold b
      rw [if_pos ((verdict_under j).2 hu)]
      exact raise_sets ..
    unfold c
    split
    · exact (raise_others _ _ (by decide) _).2 hb
    · exact hb
  · intro ho
    unfold c
    rw [if_pos ((verdict_over j).2 ho)]
    exact raise_sets ..

theorem closeEntry_map (j : Judgement) (g : Segment) (s : State) : (closeEntry j g s).web.map =
    s.web.map.map (fun x => if x.matches g.seg (g.panelId.getD 0) then x.merge j.verdict s.cfg.address else x) := by
  unfold closeEntry
  extract_lets v a b c d
  have hb : b.web = s.web := by unfold b; split <;> simp [a]
  have hc : c.web = s.web := by unfold c; split <;> simp [hb]
  simp [d, mergeVerdict, hc, v]

/-- With a free place the verdict of the entry stands in the queue (R150, R210). -/
theorem closeEntry_tx (j : Judgement) (g : Segment) {s : State} (room : s.bus.tx.length < 8) :
    verdictEntry j g ∈ (closeEntry j g s).bus.tx := by
  unfold closeEntry
  extract_lets v a b c d
  have ha : verdictEntry j g ∈ a.bus.tx := by
    unfold a
    rw [queueTx_free _ _ room]
    simp [setTx, verdictEntry]
  have hb : verdictEntry j g ∈ b.bus.tx := by
    unfold b
    split
    · exact raise_tx _ ha
    · exact ha
  have hc : verdictEntry j g ∈ c.bus.tx := by
    unfold c
    split
    · exact raise_tx _ hb
    · exact hb
  simpa [d] using hc

/-- The own copy of the segment closed has been given the verdict (R20, R150). -/
theorem closeEntry_copy {g x : Segment} {s : State} (j : Judgement) (hx : x ∈ s.web.map) (hk : MarksKept g x)
    (panel : g.kind = .panel) (named : g.panelId.isSome = true) : x.merge j.verdict s.cfg.address ∈ (closeEntry j g s).web.map := by
  rw [closeEntry_map]
  refine List.mem_map.2 ⟨x, hx, if_pos ?_⟩
  obtain ⟨id, hid⟩ := Option.isSome_iff_exists.1 named
  simp [Segment.matches, hk.seg, hk.kind, hk.panelId, panel, hid]

/-! ## The leaving cell (R145, R149, R150) -/

/-- The downstream edge of the leaving cell once it has left (R145, R150). -/
def State.leavingEdge (s : State) : Word :=
  s.heat.shiftAnchor + dmm s.cfg.setter.cell - dmm s.cfg.setter.entry - dmm (s.cfg.setter.cells * s.cfg.setter.cell)

/-- The station once the leaving cell has been judged and the entries due have been closed. -/
def leaveCell (c : Cell) (s : State) : State := closeEntries c s.leavingEdge (judgeCell c s)

/-- The cells move up and a new cell 0 is made; the rest is what the leaving cell did. -/
theorem shiftCells_eq {s : State} {c : Cell} (h : s.heat.cells.getLast? = some c) : ∃ x : Cell,
    shiftCells s = (leaveCell c s).withHeat { (leaveCell c s).heat with
      cells := x :: (leaveCell c s).heat.cells.dropLast, shiftAnchor := s.heat.shiftAnchor + dmm s.cfg.setter.cell } := by
  unfold shiftCells
  rw [h]
  exact ⟨_, rfl⟩

theorem shiftCells_cells (s : State) : (shiftCells s).heat.cells.tail = s.heat.cells.dropLast ∧
    (∃ c, (shiftCells s).heat.cells.head? = some c ∧ c.dose = 0 ∧ c.peak = none) ∧
    (shiftCells s).heat.shiftAnchor = s.heat.shiftAnchor + dmm s.cfg.setter.cell := by
  unfold shiftCells
  extract_lets a anchor edge t
  have ht : t.heat.cells = s.heat.cells := by unfold t; split <;> simp
  exact ⟨congrArg List.dropLast ht, ⟨t.newCell edge, rfl, rfl, rfl⟩, rfl⟩

theorem closeSteps_settles (c : Cell) (edge : Word) (l : List Segment) (s : State) : Settles s (l.foldl (closeStep c edge) s) := by
  refine .foldl _ (fun t g => ?_) l s
  rcases closeStep_cases c edge t g with h | ⟨j, h⟩ <;> rw [h]
  · exact .refl t
  · exact closeEntry_settles j g t

theorem closeSteps_uids (c : Cell) (edge : Word) (l : List Segment) (s : State) :
    (l.foldl (closeStep c edge) s).web.map.map Segment.uid = s.web.map.map Segment.uid := by
  induction l generalizing s with
  | nil => rfl
  | cons g l ih =>
    rw [List.foldl_cons, ih]
    rcases closeStep_cases c edge s g with h | ⟨j, h⟩ <;> rw [h]
    rw [closeEntry_map, List.map_map]
    refine List.map_congr_left fun x _ => ?_
    dsimp only [Function.comp]
    split
    · exact (merge_same ..).uid
    · rfl

section
variable {s : State} {c : Cell} {g : Segment}

/-- The entry of a PANEL with a recipe once the cell has left: judged when the cell refers to it, then closed when due. -/
theorem leaveCell_judgementOf (hs : RecordsNamed s) (once : JudgedOnce s) (hg : g ∈ s.web.map) (hk : g.kind = .panel)
    (hr : g.recipe ≠ 0) : (leaveCell c s).judgementOf g.uid =
      (if c.refers g.uid = true then some (judgedFor c (s.recipeEntry g.recipe) g (s.judgementOf g.uid))
        else s.judgementOf g.uid).map
        (fun x => if closeDue c s.leavingEdge g = true then { x with closed := true } else x) := by
  obtain ⟨l, m, hmap⟩ := List.append_of_mem hg
  have hheld := held_of_split hmap (hmap ▸ hs.once)
  rw [leaveCell, closeEntries_judgementOf (by simpa using hs.once) (judgeCell_once c once) (by simpa using hg),
    judgeCell_judgementOf hheld hk hr]

/-- The closing of one entry among the others: those before it, then its own, then those after it; when no other is due it is all
that happens. -/
theorem leaveCell_closing (hs : RecordsNamed s) (once : JudgedOnce s) (hg : g ∈ s.web.map) {j : Judgement}
    (hj : (judgeCell c s).judgementOf g.uid = some j) (ho : j.closed = false) (hd : closeDue c s.leavingEdge g = true) :
    ∃ a, Settles s a ∧ a.web.map.map Segment.uid = s.web.map.map Segment.uid ∧ a.cfg = s.cfg ∧
      Settles (closeEntry j g a) (leaveCell c s) ∧
      (leaveCell c s).web.map.map Segment.uid = s.web.map.map Segment.uid ∧
      ((∀ h ∈ s.web.map, h.uid ≠ g.uid → ∀ x, (judgeCell c s).judgementOf h.uid = some x → x.closed = false →
        closeDue c s.leavingEdge h = false) → a = judgeCell c s ∧ leaveCell c s = closeEntry j g a) := by
  obtain ⟨l, m, hmap⟩ := List.append_of_mem hg
  have hn : ((l ++ g :: m).map Segment.uid).Nodup := hmap ▸ hs.once
  have hl : ∀ h ∈ l, h.uid ≠ g.uid := fun h hh => uids_apart hn hh List.mem_cons_self
  have hm : ∀ h ∈ m, h.uid ≠ g.uid := fun h hh => (uids_apart (l := l ++ [g]) (by simpa using hn) (by simp) hh).symm
  have honce := judgeCell_once c once
  have hjmap : (judgeCell c s).web.map = s.web.map := by simp
  obtain ⟨a, ha⟩ : ∃ a, l.foldl (closeStep c s.leavingEdge) (judgeCell c s) = a := ⟨_, rfl⟩
  have haj : a.judgementOf g.uid = some j := by rw [← ha, closeSteps_other hl, hj]
  have hstep : closeStep c s.leavingEdge a g = closeEntry j g a := closeStep_due haj ho hd
  have hleave : leaveCell c s = m.foldl (closeStep c s.leavingEdge) (closeEntry j g a) := by
    rw [leaveCell, closeEntries_eq, hjmap, hmap, List.foldl_append, ha, List.foldl_cons, hstep]
  have hsa : Settles s a := ha ▸ (judgeCell_settles c s).trans (closeSteps_settles ..)
  refine ⟨a, hsa, ?_, by simp [State.cfg, hsa.image], ?_, ?_, fun others => ?_⟩
  · rw [← ha, closeSteps_uids, hjmap]
  · rw [hleave]
    exact closeSteps_settles ..
  · rw [leaveCell, closeEntries_eq, closeSteps_uids, hjmap]
  · have hal : a = judgeCell c s := by
      rw [← ha]
      exact closeSteps_same honce fun h hh => others h (by simp [hmap, hh]) (hl h hh)
    refine ⟨hal, hleave.trans (closeSteps_same (closeEntry_once j g (hal ▸ honce)) fun h hh x hx => ?_)⟩
    rw [closeEntry_judgementOf, hal] at hx
    exact others h (by simp [hmap, hh]) (hm h hh) x (by simpa [hm h hh] using hx)

/-! ## The entry of a PANEL after the shift (R149, R150) -/

/-- A cell that does not refer to the PANEL leaves its entry unjudged and closes it. -/
theorem leaveCell_unreferred (hs : RecordsNamed s) (once : JudgedOnce s) (hg : g ∈ s.web.map) (hk : g.kind = .panel)
    (hr : g.recipe ≠ 0) (hc : ¬ c.refers g.uid = true) :
    (leaveCell c s).judgementOf g.uid = (s.judgementOf g.uid).map ({ · with closed := true }) := by
  have hdue : closeDue c s.leavingEdge g = true := by simp [closeDue, hc]
  rw [leaveCell_judgementOf hs once hg hk hr, if_neg hc]
  simp only [hdue, if_true]

/-- A closed entry stays as it is, whatever the cell refers to. -/
theorem leaveCell_closed (hs : RecordsNamed s) (once : JudgedOnce s) (hg : g ∈ s.web.map) (hk : g.kind = .panel)
    (hr : g.recipe ≠ 0) {j : Judgement} (hj : s.judgementOf g.uid = some j) (hc : j.closed = true) :
    (leaveCell c s).judgementOf g.uid = some j := by
  rw [leaveCell_judgementOf hs once hg hk hr, hj]
  simp only [judgedFor, hc, if_true, ite_self, Option.map_some]
  rw [← hc, ite_self]

/-- A cell that refers to the PANEL is judged for its open entry, which is closed with the last cell of its fabric. -/
theorem leaveCell_referred (hs : RecordsNamed s) (once : JudgedOnce s) (hg : g ∈ s.web.map) (hk : g.kind = .panel)
    (hr : g.recipe ≠ 0) (hc : c.refers g.uid = true) (ho : ∀ j, s.judgementOf g.uid = some j → j.closed = false) :
    (leaveCell c s).judgementOf g.uid = some
      { judgedFor c (s.recipeEntry g.recipe) g (s.judgementOf g.uid) with closed := atOrPast s.leavingEdge g.trail } := by
  have hopen := judgedFor_closed c (s.recipeEntry g.recipe) g ho
  rw [leaveCell_judgementOf hs once hg hk hr, if_pos hc, Option.map_some]
  by_cases hd : atOrPast s.leavingEdge g.trail = true
  · simp [closeDue, hd]
  · simp [closeDue, hd, hc, ← hopen]

/-- An entry found closed that was not closed before: it was open when the cell had been judged, and its closing was due. -/
theorem closing_of_closed (hs : RecordsNamed s) (once : JudgedOnce s) (hg : g ∈ s.web.map) (hk : g.kind = .panel)
    (hr : g.recipe ≠ 0) {j : Judgement} (hj : (leaveCell c s).judgementOf g.uid = some j) (hc : j.closed = true)
    (ho : ∀ x, s.judgementOf g.uid = some x → x.closed = false) :
    ∃ k, (judgeCell c s).judgementOf g.uid = some k ∧ k.closed = false ∧ closeDue c s.leavingEdge g = true ∧
      j = { k with closed := true } := by
  obtain ⟨l, m, hmap⟩ := List.append_of_mem hg
  have hjudged := judgeCell_judgementOf (held_of_split hmap (hmap ▸ hs.once)) hk hr c
  rw [leaveCell, closeEntries_judgementOf (by simpa using hs.once) (judgeCell_once c once) (by simpa using hg)] at hj
  obtain ⟨k, hkj, hkc⟩ := Option.map_eq_some_iff.1 hj
  have hkopen : k.closed = false := by
    rw [hkj] at hjudged
    split at hjudged
    · exact Option.some.inj hjudged ▸ judgedFor_closed _ _ _ ho
    · exact ho k hjudged.symm
  by_cases hd : closeDue c s.leavingEdge g = true
  · exact ⟨k, hkj, hkopen, hd, by simpa [hd] using hkc.symm⟩
  · exact absurd hc (by simp [← hkc, hd, hkopen])

/-- When the shift closes no entry but this one, no other entry was open with its closing due. -/
theorem others_rest (hs : RecordsNamed s) (once : JudgedOnce s)
    (only : ∀ h ∈ s.web.map, h.uid ≠ g.uid → ∀ y ∈ (leaveCell c s).heat.judgements, y.ref.uid = h.uid → y.closed = true →
      ∃ z ∈ s.heat.judgements, z.ref.uid = h.uid ∧ z.closed = true) :
    ∀ h ∈ s.web.map, h.uid ≠ g.uid → ∀ x, (judgeCell c s).judgementOf h.uid = some x → x.closed = false →
      closeDue c s.leavingEdge h = false := by
  intro h hh hne x hx hxo
  by_contra hd
  have hafter : (leaveCell c s).judgementOf h.uid = some { x with closed := true } := by
    rw [leaveCell, closeEntries_judgementOf (by simpa using hs.once) (judgeCell_once c once) (by simpa using hh), hx]
    simp [by simpa using hd]
  obtain ⟨hy, hyu⟩ := judgementOf_some hafter
  obtain ⟨z, hz, hzu, hzc⟩ := only h hh hne _ hy hyu rfl
  have hz' := judgeCell_closed (hzu ▸ once.judgementOf hz) hzc c
  rw [hx] at hz'
  exact absurd (Option.some.inj hz' ▸ hzc) (by simp [hxo])

/-- What the closing of a PANEL's entry has done by the end of the shift: conditions latched, the own copy marked, and the
verdict queued (R20, R150). -/
theorem leaveCell_closes (hs : RecordsNamed s) (once : JudgedOnce s) (hg : g ∈ s.web.map) (hk : g.kind = .panel)
    (named : g.panelId.isSome = true) {j : Judgement} (hj : (judgeCell c s).judgementOf g.uid = some j)
    (ho : j.closed = false) (hd : closeDue c s.leavingEdge g = true) :
    ((j.underFlag = true → Cond.underSet ∈ (leaveCell c s).cond.flags) ∧
      (j.overFlag = true → Cond.overSet ∈ (leaveCell c s).cond.flags)) ∧
    (∃ h ∈ (leaveCell c s).web.map, h.uid = g.uid ∧ (j.underFlag = true → RejectCause.underSet ∈ h.causes) ∧
      (j.overFlag = true → RejectCause.overSet ∈ h.causes) ∧
      (j.underFlag = false → j.overFlag = false → j.unjudged = false → s.cfg.address ≤ 15 →
        inMask h.setters s.cfg.address = true)) ∧
    (s.bus.tx.length < 8 →
      (∀ h ∈ s.web.map, h.uid ≠ g.uid → ∀ y ∈ (leaveCell c s).heat.judgements, y.ref.uid = h.uid → y.closed = true →
        ∃ z ∈ s.heat.judgements, z.ref.uid = h.uid ∧ z.closed = true) →
      verdictEntry j g ∈ (leaveCell c s).bus.tx) := by
  obtain ⟨a, hsa, hauids, hacfg, hafter, huids, halone⟩ := leaveCell_closing hs once hg hj ho hd
  obtain ⟨hunder, hover⟩ := closeEntry_flags j g a
  refine ⟨⟨fun h => hafter.flags _ (hunder h) rfl, fun h => hafter.flags _ (hover h) rfl⟩, ?_, fun room only => ?_⟩
  · have hgu : g.uid ∈ s.web.map.map Segment.uid := List.mem_map_of_mem hg
    obtain ⟨x, hx, hxu⟩ := List.mem_map.1 (hauids ▸ hgu)
    have hcopy := closeEntry_copy j hx (hsa.records.marks hs hg hx hxu) hk named
    have hmu : (x.merge j.verdict a.cfg.address).uid = g.uid := (merge_same ..).uid.trans hxu
    obtain ⟨y, hy, hyu⟩ := List.mem_map.1 (huids ▸ hgu)
    have hkept : MarksKept (x.merge j.verdict a.cfg.address) y :=
      hafter.records.marks ((hsa.trans (closeEntry_settles j g a)).records.named hs) hcopy hy (hyu.trans hmu.symm)
    refine ⟨y, hy, hyu, fun h => hkept.causes _ (merge_under ((verdict_under j).2 h) ..),
      fun h => hkept.causes _ (merge_over ((verdict_over j).2 h) ..), fun h1 h2 h3 haddr => hkept.setters _ ?_⟩
    rw [verdict_set h1 h2 h3, hacfg]
    exact merge_set_inMask x haddr
  · obtain ⟨rfl, hleave⟩ := halone (others_rest hs once only)
    rw [hleave]
    exact closeEntry_tx j g (by simpa using room)

end

/-! ## The removal of a segment (R151) -/

theorem removeSeg_judgements {s : State} {uid : Nat} (h : (s.held uid).isSome = true) :
    (removeSeg uid s).heat.judgements = s.heat.judgements.filter (fun j => j.ref.uid ≠ uid) := by
  obtain ⟨g, hg⟩ := Option.isSome_iff_exists.1 h
  simp [removeSeg, hg, dropSegHeat]

/-! ## The obligation -/

/-- Settles O50: the dose tick cell by cell, the shift, the entry of a PANEL by whether the leaving cell refers to it
(`leaveCell_referred`, `leaveCell_unreferred`), what a closing does (`leaveCell_closes`), and the removal. -/
theorem cellsDosedAndShifted : Obligations.CellsDosedAndShifted := by
  refine ⟨fun s k c hc => ⟨fun temp ht => doseTick_cell hc ht, doseTick_cell_of_fault hc⟩, shiftCells_cells, ?_,
    fun s uid h j => ?_⟩
  · intro s c g hs once hlast hg hk named hr a edge referred before t after
    obtain ⟨x, hx⟩ := shiftCells_eq hlast
    have hbefore : before = s.judgementOf g.uid := rfl
    have hafter : after = (leaveCell c s).judgementOf g.uid := judgementOf_congr (congrArg (·.heat.judgements) hx) g.uid
    have hreferred : referred ↔ c.refers g.uid = true := refers_iff.symm
    have hjudgements : t.heat.judgements = (leaveCell c s).heat.judgements := congrArg (·.heat.judgements) hx
    have hflags : t.cond = (leaveCell c s).cond := congrArg (·.cond) hx
    have hmap : t.web = (leaveCell c s).web := congrArg (·.web) hx
    have htx : t.bus = (leaveCell c s).bus := congrArg (·.bus) hx
    rw [hafter, hjudgements, hflags, hmap, htx, hreferred, hbefore]
    refine ⟨fun j hj hc => leaveCell_closed hs once hg hk hr hj hc, fun j hj _ hn => ?_, fun hnone hn => ?_, fun ho hc => ?_,
      fun j hj hc ho => ?_⟩
    · rw [leaveCell_unreferred hs once hg hk hr hn, hj]
      rfl
    · rw [leaveCell_unreferred hs once hg hk hr hn, hnone]
      rfl
    · refine ⟨_, leaveCell_referred hs once hg hk hr hc ho, judgedFor_ref _ _ _ ho, Iff.rfl, judgedFor_under _ _ _ ho,
        judgedFor_over _ _ _ ho, judgedFor_unjudged _ _ _ ho, fun hnone => ?_, fun y hy => ?_⟩
      · rw [hnone]
        simp [judgedFor, Judgement.judge]
      · rw [hy]
        simp only [judgedFor_open (ho y hy)]
        exact ⟨rfl, rfl, rfl⟩
    · obtain ⟨k, hjk, hko, hdue, rfl⟩ := closing_of_closed hs once hg hk hr hj hc ho
      obtain ⟨⟨hunder, hover⟩, hcopy, hsent⟩ := leaveCell_closes hs once hg hk named hjk hko hdue
      obtain ⟨hseg, hid, hcode, hleast, hgreatest, hpeak⟩ := verdictBody_fields k g
      refine ⟨hunder, hover, hcopy, fun room only => ⟨_, hsent room only, rfl, rfl, hseg, hid, hcode.trans (verdict_code k),
        fun h => ?_, fun h => ?_, fun hl hh => ?_⟩⟩
      · exact hleast.trans (Nat.mod_eq_of_lt (Nat.lt_succ_of_le h))
      · exact hgreatest.trans (Nat.mod_eq_of_lt (Nat.lt_succ_of_le h))
      · exact (congrArg signed16 hpeak).trans (peakField_read hl hh)
  · rw [removeSeg_judgements h]
    simp

end Sys2Proof.Machine
end

