-- ==== Sys2Proof/Proofs/Guards.lean ====
section
/-! PROOFS. What the invariants of speed, motion and timers read of a state, and what an operation keeps of it (O4, O5, O6). -/

namespace Sys2Proof.Machine
open Sys2Proof

/-! ## What the invariants of speed, motion and timers read -/

/-- The registers that `TimerSafe` reads: of a timer whether it runs. -/
structure Timings where
  image : Option Image
  mode : Mode
  reading : Bool
  scanning : Bool
  joinTimer : Bool
  pulseTimer : Bool
  trips : List TripCause
  beforeTrip : Bool
  recovery : Bool
  off : Bool
  pasteTimer : Bool
  pasteOutput : Bool
  spliceState : SpliceState
  webTimer : Bool
  webSeen : Bool
  parkTimer : Bool
  heatTimer : Bool
  chamber : ChamberState

/-- What a state shows of them. -/
def State.timings (s : State) : Timings where
  image := s.loader.image
  mode := s.loader.mode
  reading := s.loader.reading
  scanning := s.loader.scanning
  joinTimer := s.loader.joinTimer.isSome
  pulseTimer := s.gov.pulseTimer.isSome
  trips := s.gov.trips
  beforeTrip := s.gov.beforeTrip.isSome
  recovery := s.bus.recovery.isSome
  off := s.bus.off
  pasteTimer := s.roll.pasteTimer.isSome
  pasteOutput := s.roll.pasteOutput
  spliceState := s.roll.spliceState
  webTimer := s.roll.webTimer.isSome
  webSeen := s.roll.webSeen
  parkTimer := s.heat.parkTimer.isSome
  heatTimer := s.heat.heatTimer.isSome
  chamber := s.heat.chamber

/-- The registers that the invariants of speed, motion and timers read: of a stroke or a move whether one is in flight. -/
structure Watched where
  timings : Timings
  vA : Nat
  driveEnable : Bool
  tripTimer : Bool
  vU : Nat
  exitCommand : Nat
  stroke : Bool
  move : Bool
  cutTimer : Bool
  gateMoves : Bool
  valves : List Nat

/-- What a state shows of them. -/
def State.watched (s : State) : Watched where
  timings := s.timings
  vA := s.gov.vA
  driveEnable := s.gov.driveEnable
  tripTimer := s.gov.tripTimer.isSome
  vU := s.roll.vU
  exitCommand := s.roll.exitCommand
  stroke := s.pattern.stroke.isSome
  move := s.pattern.move.isSome
  cutTimer := s.outfeed.cutTimer.isSome
  gateMoves := s.outfeed.gate.moving
  valves := s.heat.zones.map Zone.valve

/-- The part of `SpeedSafe` that holds at every moment within a step; the target speed is made again at the end of one (R37). -/
structure Driven (s : State) : Prop where
  applied_le : s.gov.vA ≤ s.cfg.lineMax
  applied_zero : s.mode ≠ .active → s.mode ≠ .tripped → s.gov.vA = 0
  drive_set : s.mode = .active ∨ s.mode = .standby → s.gov.driveEnable = true
  drive_in_trip : s.gov.driveEnable = true → s.mode ≠ .active → s.mode ≠ .standby →
    s.mode = .tripped ∧ 0 < s.gov.vA ∧ s.gov.tripTimer.isSome = true
  trip_timer : s.gov.tripTimer.isSome = true → s.mode = .tripped ∧ 0 < s.gov.vA ∧ s.gov.driveEnable = true

theorem SpeedSafe.driven {s : State} (h : SpeedSafe s) : Driven s :=
  ⟨h.applied_le, h.applied_zero, h.drive_set, h.drive_in_trip, h.trip_timer⟩

/-- An operation that leaves the applied speed and respects the three invariants. -/
structure Guards (s t : State) : Prop where
  applied : t.gov.vA = s.gov.vA
  speed : Driven s → Driven t
  motion : Driven s → MotionSafe s → MotionSafe t
  timers : TimerSafe s → TimerSafe t

theorem Guards.refl (s : State) : Guards s s := ⟨rfl, id, fun _ h => h, id⟩

theorem Guards.trans {s t u : State} (h : Guards s t) (k : Guards t u) : Guards s u :=
  ⟨k.applied.trans h.applied, fun d => k.speed (h.speed d), fun d m => k.motion (h.speed d) (h.motion d m),
    fun x => k.timers (h.timers x)⟩

theorem Guards.ite {s t u : State} {p : Prop} [Decidable p] (ht : p → Guards s t) (hu : ¬ p → Guards s u) :
    Guards s (if p then t else u) := by
  split
  · exact ht ‹_›
  · exact hu ‹_›

theorem Guards.foldl {α : Type} (f : State → α → State) (h : ∀ s a, Guards s (f s a)) (l : List α) (s : State) :
    Guards s (l.foldl f s) := by
  induction l generalizing s with
  | nil => exact .refl s
  | cons a l ih => exact (h s a).trans (ih (f s a))

theorem cfg_of_image {s t : State} (h : t.loader.image = s.loader.image) : t.cfg = s.cfg := by
  simp [State.cfg, h]

theorem is_of_image {s t : State} (h : t.loader.image = s.loader.image) (r : Role) : t.is r = s.is r := by
  simp [State.is, State.role, h]

theorem valves_zero_iff (l : List Zone) : (∀ z ∈ l, z.valve = 0) ↔ ∀ v ∈ l.map Zone.valve, v = 0 := by simp

/-- The timers and what their invariant reads stand alike (R25, R42, R117 to R119, R133, R190, R203). -/
theorem TimerSafe.congr {s t : State} (x : TimerSafe s) (h : t.timings = s.timings) : TimerSafe t := by
  simp only [State.timings, Timings.mk.injEq] at h
  obtain ⟨image, mode, reading, scanning, join, pulse, trips, before, recovery, off, paste, output, splice, web, seen, park,
    heat, chamber⟩ := h
  have hm : t.mode = s.mode := mode
  have ho : t.operating = s.operating := congrArg operatingMode hm
  obtain ⟨x1, x2, x3, x4, x5, x6, x7, x8, x9, x10, x11, x12⟩ := x
  constructor <;>
    simpa only [hm, ho, is_of_image image, reading, scanning, join, pulse, trips, before, recovery, off, paste, output,
      splice, web, seen, park, heat, chamber]

/-- An operation that leaves what is watched respects the invariants. -/
theorem Guards.of_watched {s t : State} (h : t.watched = s.watched) : Guards s t := by
  simp only [State.watched, Watched.mk.injEq] at h
  obtain ⟨timings, vA, drive, trip, vU, exit, stroke, move, cut, gate, valves⟩ := h
  have hm : t.mode = s.mode := congrArg Timings.mode timings
  have hc := cfg_of_image (congrArg Timings.image timings : t.loader.image = s.loader.image)
  refine ⟨vA, fun d => ?_, fun _ m => ?_, fun x => x.congr timings⟩
  · obtain ⟨d1, d2, d3, d4, d5⟩ := d
    constructor <;> simpa only [hm, hc, vA, drive, trip]
  · obtain ⟨h1, h2, h3, h4, h5, h6⟩ := m
    simp only [valves_zero_iff, ← Option.isNone_iff_eq_none, ← Option.not_isSome] at h1 h2 h3 h4 h5 h6
    constructor <;>
      simpa only [valves_zero_iff, ← Option.isNone_iff_eq_none, ← Option.not_isSome, hm, drive, vU, exit, move, stroke, cut,
        gate, valves]

end Sys2Proof.Machine
end

