-- ==== Sys2Proof/Proofs/GuardsKnifeOutfeed.lean ====
section
/-! PROOFS. The primitive updates, the knife and the outfeed keep speed, motion and timers. -/

namespace Sys2Proof.Machine
open Sys2Proof

/-! ## The primitive updates -/

/-- The knife drive may not act with drive enable clear or in TRIPPED (R39, R71). -/
theorem knifeDrive_eq_false {s : State} : s.knifeDrive = false ↔ s.gov.driveEnable = false ∨ s.mode = .tripped := by
  simp only [State.knifeDrive, Bool.and_eq_false_iff, decide_eq_false_iff_not, not_not]

/-- The part of `TimerSafe` that the roll unit's registers answer to, by mode (R117 to R119). -/
structure SpliceTimed (m : Mode) (r : RollUnit) : Prop where
  paste : r.pasteTimer.isSome = r.pasteOutput
  pasting : r.spliceState = .paste → operatingMode m = true ∧ r.pasteTimer.isSome = true
  web : r.webTimer.isSome = true → r.spliceState = .startNew ∧ m = .active ∧ r.webSeen = false

theorem TimerSafe.splice {s : State} (h : TimerSafe s) : SpliceTimed s.mode s.roll := ⟨h.paste, h.pasting, h.web⟩

/-- The web-present timer is stopped outside START_NEW (R119). -/
theorem SpliceTimed.web_none {m : Mode} {r : RollUnit} (h : SpliceTimed m r) (hs : r.spliceState ≠ .startNew) :
    r.webTimer = none := by
  by_contra hn
  exact hs (h.web (Option.isSome_iff_ne_none.2 hn)).1

/-- A change of the splice state that neither enters PASTE nor leaves the web-present timer running. -/
theorem SpliceTimed.enter {m : Mode} {r x : RollUnit} (h : SpliceTimed m r) (paste : x.pasteTimer.isSome = r.pasteTimer.isSome)
    (output : x.pasteOutput = r.pasteOutput) (state : x.spliceState = .paste → r.spliceState = .paste)
    (web : x.webTimer = none) : SpliceTimed m x where
  paste := by rw [paste, output, h.paste]
  pasting := fun hx => by rw [paste]; exact h.pasting (state hx)
  web := by simp [web]

section
variable (s : State)

theorem Guards.web (x : Web) : Guards s (s.withWeb x) := .of_watched rfl
theorem Guards.order (x : OrderUnit) : Guards s (s.withOrder x) := .of_watched rfl
theorem Guards.cond (x : CondUnit) : Guards s (s.withCond x) := .of_watched rfl
theorem Guards.pins (x : Pins) : Guards s (s.withPins x) := .of_watched rfl
theorem Guards.peers (x : List PeerEntry) : Guards s (s.withPeers x) := .of_watched rfl

/-- An update of the bus unit. -/
theorem Guards.bus (x : Bus) (recovery : s.bus.recovery.isSome = s.bus.off → x.recovery.isSome = x.off) :
    Guards s (s.withBus x) :=
  ⟨rfl, fun h => { h with }, fun _ h => { h with }, fun h => { h with recovery := recovery h.recovery }⟩

/-- An update of the governor that leaves the applied speed, drive enable and the trip. -/
theorem Guards.gov (x : Gov) (vA : x.vA = s.gov.vA) (drive : x.driveEnable = s.gov.driveEnable)
    (trip : x.tripTimer.isSome = s.gov.tripTimer.isSome) (trips : x.trips = s.gov.trips)
    (before : x.beforeTrip = s.gov.beforeTrip)
    (pulse : s.gov.pulseTimer.isSome = s.operating → x.pulseTimer.isSome = s.operating) :
    Guards s (s.withGov x) := by
  refine ⟨vA, fun ⟨h1, h2, h3, h4, h5⟩ => ?_, fun _ ⟨h1, h2, h3, h4, h5, h6⟩ => ?_, fun h => ?_⟩
  · rw [← vA, ← drive, ← trip] at *
    exact ⟨h1, h2, h3, h4, h5⟩
  · rw [← drive] at *
    exact ⟨h1, h2, h3, h4, h5, h6⟩
  · exact { h with pulse := pulse h.pulse, trips := by rw [State.withGov_gov, trips]; exact h.trips,
                   before := by rw [State.withGov_gov, before]; exact h.before }

/-- An update of the pattern unit: no move begins with drive enable clear, no stroke without the knife drive. -/
theorem Guards.pattern (x : PatternUnit) (move : s.gov.driveEnable = false → s.pattern.move = none → x.move = none)
    (stroke : s.knifeDrive = false → s.pattern.stroke = none → x.stroke = none) : Guards s (s.withPattern x) :=
  ⟨rfl, fun h => { h with },
    fun _ h => { h with actuator := fun hd => move hd (h.actuator hd),
                        knife := fun hd => stroke (knifeDrive_eq_false.2 hd) (h.knife hd) },
    fun h => { h with }⟩

/-- An update of the outfeed unit: with drive enable clear neither a cut nor a gate move begins. -/
theorem Guards.outfeed (x : OutfeedUnit)
    (cut : s.gov.driveEnable = false → s.outfeed.cutTimer = none → x.cutTimer = none)
    (gate : s.gov.driveEnable = false → s.outfeed.gate.moving = false → x.gate.moving = false) : Guards s (s.withOutfeed x) :=
  ⟨rfl, fun h => { h with },
    fun _ h => { h with cut := fun hd => cut hd (h.cut hd), gate := fun hd => gate hd (h.gate hd) },
    fun h => { h with }⟩

/-- An update of the roll unit. -/
theorem Guards.roll (x : RollUnit)
    (unwind : s.gov.driveEnable = false → s.roll.vU = 0 ∧ s.roll.exitCommand = 0 → x.vU = 0 ∧ x.exitCommand = 0)
    (timers : SpliceTimed s.mode s.roll → SpliceTimed s.mode x) : Guards s (s.withRoll x) := by
  refine ⟨rfl, fun h => { h with }, fun _ h => { h with unwind := fun hd => unwind hd (h.unwind hd) }, fun h => ?_⟩
  obtain ⟨hp, hs, hw⟩ := timers h.splice
  exact { h with paste := hp, pasting := hs, web := hw }

/-- An update of the heat-set unit: no valve opens without the knife drive. -/
theorem Guards.heat (x : HeatUnit)
    (valves : s.knifeDrive = false → (∀ z ∈ s.heat.zones, z.valve = 0) → ∀ z ∈ x.zones, z.valve = 0)
    (park : (s.heat.parkTimer.isSome = true → s.heat.chamber = .readyHeat) → x.parkTimer.isSome = true → x.chamber = .readyHeat)
    (timer : x.heatTimer.isSome = s.heat.heatTimer.isSome) : Guards s (s.withHeat x) :=
  ⟨rfl, fun h => { h with },
    fun _ h => { h with steam := fun hd => valves (knifeDrive_eq_false.2 hd) (h.steam hd) },
    fun h => { h with park := park h.park, heat := timer.trans h.heat }⟩

/-- An update of the join timer, which runs in JOINING alone (R190). -/
theorem Guards.join (t : Timer) (join : t.isSome = true → s.loader.joinTimer.isSome = true ∨ s.mode = .joining) :
    Guards s (s.withLoader { s.loader with joinTimer := t }) :=
  ⟨rfl, fun h => { h with }, fun _ h => { h with }, fun h => { h with join := fun ht => (join ht).elim h.join id }⟩

end

/-! ## Shared operations (R25, R172 to R175, R210, R211) -/

theorem raise_guards (c : Cond) (s : State) : Guards s (raise c s) := .of_watched (by simp [State.watched, State.timings])
theorem fall_guards (c : Cond) (s : State) : Guards s (fall c s) := .of_watched (by simp [State.watched, State.timings])
theorem follow_guards (c : Cond) (b : Bool) (s : State) : Guards s (follow c b s) :=
  .of_watched (by simp [State.watched, State.timings])
theorem reassert_guards (c : Cond) (s : State) : Guards s (reassert c s) := .of_watched (by simp [State.watched, State.timings])
theorem setHold_guards (h : HoldCause) (s : State) : Guards s (setHold h s) :=
  .of_watched (by simp [State.watched, State.timings])
theorem clearHold_guards (h : HoldCause) (s : State) : Guards s (clearHold h s) :=
  .of_watched (by simp [State.watched, State.timings])
theorem setTx_guards (l : List TxEntry) (s : State) : Guards s (setTx l s) :=
  .of_watched (by simp [State.watched, State.timings])
theorem queueTx_guards (e : TxEntry) (s : State) : Guards s (queueTx e s) :=
  .of_watched (by simp [State.watched, State.timings])
theorem markSeg_guards (uid : Nat) (c : RejectCause) (s : State) : Guards s (markSeg uid c s) :=
  .of_watched (by simp [State.watched, State.timings])
theorem updateSeg_guards (uid : Nat) (f : Segment → Segment) (s : State) : Guards s (updateSeg uid f s) :=
  .of_watched (by simp [State.watched, State.timings])

theorem pulseForMode_guards {s : State} (ho : s.operating = true) : Guards s (pulseForMode s) :=
  Guards.trans (.of_watched (by simp [State.watched, State.timings]))
    (.gov (queuePulse s) _ rfl rfl rfl rfl rfl (fun _ => by simpa [State.operating, State.mode] using ho.symm))

/-! ## The knife (R61 to R71) -/

theorem misfold_guards (uid : Nat) (s : State) : Guards s (misfold uid s) :=
  .of_watched (by simp [State.watched, State.timings])
theorem endRun_guards (s : State) : Guards s (endRun s) := .of_watched (by simp [State.watched, State.timings])

/-- Without the knife drive a figure of the pattern unit that reads it is never drawn on. -/
theorem Guards.knife (s : State) (x : PatternUnit) (h : s.knifeDrive = true) : Guards s (s.withPattern x) := by
  have hd : s.gov.driveEnable = true := by simp only [State.knifeDrive, Bool.and_eq_true] at h; exact h.1
  exact .pattern s x (by simp [hd]) (by simp [h])

/-- An update of the pattern unit that leaves stroke and move. -/
theorem Guards.runs {slots staging uploadPattern uploadStatus run heldFold depth limitCount pleatedLengths} (s : State) :
    Guards s (s.withPattern ⟨slots, staging, uploadPattern, uploadStatus, run, s.pattern.stroke, heldFold, depth,
      s.pattern.move, limitCount, pleatedLengths⟩) :=
  .pattern s _ (fun _ h => h) (fun _ h => h)

theorem idleKnife_guards (s : State) : Guards s (idleKnife s) := .pattern s _ (fun _ h => h) (fun _ _ => rfl)

theorem startMove_guards (s : State) : Guards s (startMove s) := by
  unfold startMove
  split
  · exact .refl s
  · exact .ite (fun h => .knife s _ (by simp_all)) (fun _ => .refl s)

theorem beginStroke_guards (k : Nat) (late : Bool) {s : State} (h : s.knifeDrive = true) : Guards s (beginStroke k late s) := by
  unfold beginStroke
  split
  · dsimp only
    split
    · exact .ite (fun _ => (Guards.knife s _ h).trans (misfold_guards ..)) (fun _ => .knife s _ h)
    · exact .knife s _ h
  · exact .refl s

theorem knifeDrive_of_strokeReady {s : State} {k : Nat} (h : s.strokeReady k = true) : s.knifeDrive = true := by
  simp only [State.strokeReady, Bool.and_eq_true] at h
  exact h.1.1.2

theorem afterKnife_guards (s : State) : Guards s (afterKnife s) := by
  unfold afterKnife
  split
  · refine .ite (fun h => ?_) (fun _ => startMove_guards s)
    exact (Guards.runs s).trans (beginStroke_guards _ _ (knifeDrive_of_strokeReady h))
  · exact startMove_guards s

theorem startRun_guards (g : Segment) (s : State) : Guards s (startRun g s) := by
  unfold startRun
  have ht : Guards s (updateSeg g.uid (fun x => { x with ran := true }) (endRun s)) :=
    (endRun_guards s).trans (updateSeg_guards ..)
  dsimp only
  split
  · exact ht.trans (Guards.trans (.runs _) (startMove_guards _))
  · exact ht.trans (Guards.trans (.runs _) (markSeg_guards ..))

theorem takeFold_guards (s : State) : Guards s (takeFold s) := by
  unfold takeFold
  split
  · exact .refl s
  · rename_i r _
    dsimp only
    have ht : Guards s (s.withPattern { s.pattern with run := some { r with nextPleat := r.nextPleat + 1 } }) := .runs s
    refine .ite (fun _ => ht.trans (misfold_guards ..)) (fun _ => .ite (fun h => ?_) (fun _ => .ite (fun _ => ?_) fun _ => ?_))
    · exact ht.trans (beginStroke_guards _ _ (knifeDrive_of_strokeReady h))
    · exact ht.trans (Guards.trans (.runs _) (startMove_guards _))
    · exact ht.trans (misfold_guards ..)

/-! ## The outfeed (R157 to R170) -/

/-- An update of the outfeed unit that leaves the cut timer and the gate. -/
theorem Guards.pieces {piece good reject} (s : State) :
    Guards s (s.withOutfeed ⟨piece, s.outfeed.cutTimer, s.outfeed.gate, good, reject⟩) :=
  .outfeed s _ (fun _ h => h) (fun _ h => h)

theorem markGateLate_guards (uid : Nat) (s : State) : Guards s (markGateLate uid s) :=
  .of_watched (by simp [State.watched, State.timings])

theorem panelOutcome_guards (g : Segment) (good : Bool) (d : Option Decision) (s : State) :
    Guards s (panelOutcome g good d s) := .of_watched (by simp [State.watched, State.timings])

theorem deliverPiece_guards (s : State) : Guards s (deliverPiece s) := .of_watched (by simp [State.watched, State.timings])

/-- A gate at rest or UNKNOWN does not move. -/
theorem setGate_guards (g : Gate) (s : State) (h : s.gov.driveEnable = false → g.moving = false) : Guards s (setGate g s) :=
  .outfeed s _ (fun _ h => h) (fun hd _ => h hd)

theorem moveGate_guards (target : GatePos) (s : State) : Guards s (moveGate target s) :=
  .ite (fun _ => .refl s) (fun h => setGate_guards _ s (by simp_all))

theorem openPiece_guards (c : Content) (edge : Word) (s : State) : Guards s (openPiece c edge s) := by
  unfold openPiece
  dsimp only
  refine .ite (fun _ => .pieces s) (fun _ => .ite (fun _ => ?_) (fun _ => Guards.trans (.pieces s) (moveGate_guards ..)))
  split
  · exact .ite (fun _ => Guards.trans (.pieces s) ((moveGate_guards ..).trans (markGateLate_guards ..)))
      (fun _ => Guards.trans (.pieces s) ((moveGate_guards ..).trans (markSeg_guards ..)))
  · exact Guards.trans (.pieces s) (moveGate_guards ..)

theorem joinPiece_guards (entering : Content) (s : State) : Guards s (joinPiece entering s) := by
  unfold joinPiece
  extract_lets passes leaving t u v piece
  clear_value leaving
  have ht : Guards s t := by
    unfold t
    split
    · exact .ite (fun _ => markGateLate_guards ..) (fun _ => .ite (fun _ => .refl s) (fun _ => markSeg_guards ..))
    · exact .refl s
  have hu : Guards t u := by
    unfold u
    split
    · exact .ite (fun _ => markGateLate_guards ..) (fun _ => markSeg_guards ..)
    · exact .refl t
  have hv : Guards u v := by
    unfold v
    split
    · exact panelOutcome_guards ..
    · exact .refl u
  exact ht.trans (hu.trans (hv.trans (Guards.trans (.pieces v) (moveGate_guards ..))))

theorem takeBoundary_guards (entering : Content) (edge : Word) (s : State) : Guards s (takeBoundary entering edge s) := by
  unfold takeBoundary
  dsimp only
  refine .ite (fun h => ?_) (fun _ => joinPiece_guards ..)
  have hd : (deliverPiece s).gov.driveEnable = true := by simp_all
  have hcut := Guards.outfeed (deliverPiece s) { (deliverPiece s).outfeed with cutTimer := some s.cfg.outfeed.cutTime }
    (fun hn => by rw [hd] at hn; cases hn) (fun _ h => h)
  exact (deliverPiece_guards s).trans (hcut.trans (openPiece_guards ..))

theorem retestPiece_guards (s : State) : Guards s (retestPiece s) := by
  unfold retestPiece
  split
  · exact .refl s
  · dsimp only
    refine .ite (fun _ => .refl s) (fun _ => .ite (fun _ => Guards.trans (.pieces s) (moveGate_guards ..)) (fun _ => ?_))
    split
    · exact .refl s
    · exact .ite (fun _ => markGateLate_guards ..) (fun _ => Guards.trans (.pieces s) (moveGate_guards ..))

end Sys2Proof.Machine
end

