-- ==== Sys2Proof/Proofs/GuardsHeatWebRolls.lean ====
section
/-! PROOFS. The heat-set unit, the web and the rolls keep speed, motion and timers. -/

namespace Sys2Proof.Machine
open Sys2Proof

/-! ## The heat-set unit (R125 to R142) -/

/-- An update of a zone that opens no valve but under the knife drive. -/
theorem setZone_guards (z : Nat) (x : Zone) (s : State)
    (h : s.knifeDrive = false → x.valve = 0 ∨ x.valve = (s.zone z).valve) : Guards s (setZone z x s) := by
  refine .heat s _ (fun hk hz y hy => ?_) (fun h => h) rfl
  rcases List.mem_or_eq_of_mem_set hy with hy | rfl
  · exact hz y hy
  · refine (h hk).elim id (fun hx => hx.trans ?_)
    unfold State.zone
    rw [List.getD_eq_getElem?_getD]
    cases hq : s.heat.zones[z]? with
    | none => rfl
    | some w => exact hz w (List.mem_of_getElem? hq)

theorem declareFault_guards (n : Nat) (s : State) : Guards s (declareFault n s) := by
  unfold declareFault
  refine .ite (fun _ => ?_) (fun _ => .refl s)
  dsimp only
  have ht : Guards s (raise (.sensorFault n) (setChannel n { s.channel n with faulted := true } s)) :=
    .of_watched (by simp [State.watched, State.timings])
  exact .ite (fun _ => ht.trans (setZone_guards _ _ _ (fun _ => .inl rfl))) (fun _ => ht)

theorem clearFault_guards (n : Nat) (s : State) : Guards s (clearFault n s) :=
  .of_watched (by simp [State.watched, State.timings])

theorem takeSamples_guards (samples : List (BitVec 12)) (s : State) : Guards s (takeSamples samples s) :=
  .of_watched (by simp [State.watched, State.timings])

theorem judgeFaults_guards (s : State) : Guards s (judgeFaults s) :=
  .foldl _ (fun t n => (declareFault_guards n t).trans (clearFault_guards n _)) _ s

/-- An update of the heat-set unit that leaves zones and heat timer; the park timer runs in READY_HEAT alone (R133). -/
theorem Guards.chamber {channels recipes chamber bandCount parkTimer cells shiftAnchor judgements} (s : State)
    (park : (s.heat.parkTimer.isSome = true → s.heat.chamber = .readyHeat) → parkTimer.isSome = true → chamber = .readyHeat) :
    Guards s (s.withHeat ⟨channels, recipes, s.heat.zones, chamber, bandCount, parkTimer, s.heat.heatTimer, cells, shiftAnchor,
      judgements⟩) :=
  .heat s _ (fun _ h => h) park rfl

theorem setChamber_guards (c : ChamberState) (s : State) : Guards s (setChamber c s) := .chamber s (by simp)

theorem parkTest_guards (s : State) : Guards s (parkTest s) := by
  unfold parkTest
  refine .ite (fun h => .ite (fun _ => ?_) (fun _ => .chamber s (by simp))) (fun _ => .refl s)
  exact .ite (fun _ => .refl s) (fun _ => .ite (fun _ => setChamber_guards ..) (fun _ => .chamber s (fun _ _ => h)))

theorem demandTest_guards (s : State) : Guards s (demandTest s) :=
  .ite (fun _ => setChamber_guards ..) (fun _ => .refl s)

theorem loadSetpoints_guards (s : State) : Guards s (loadSetpoints s) := by
  refine .heat s _ (fun _ h z hz => ?_) (fun h => h) rfl
  obtain ⟨i, hi, rfl⟩ := List.mem_mapIdx.1 hz
  exact h s.heat.zones[i] (List.getElem_mem hi)

theorem refreshHeat_guards (s : State) : Guards s (refreshHeat s) :=
  .ite (fun _ => (parkTest_guards s).trans ((demandTest_guards _).trans ((loadSetpoints_guards _).trans (follow_guards ..))))
    (fun _ => .refl s)

theorem enterReadyHeat_guards (s : State) : Guards s (enterReadyHeat s) :=
  (setChamber_guards .readyHeat s).trans (parkTest_guards _)

theorem bandScan_guards (s : State) : Guards s (bandScan s) := by
  unfold bandScan
  refine .ite (fun _ => .ite (fun _ => ?_) (fun _ => .chamber s (fun h => h))) (fun _ => .refl s)
  have ht : Guards s (s.withHeat { s.heat with bandCount := s.heat.bandCount + 1 }) := .chamber s (fun h => h)
  exact .ite (fun _ => ht.trans (enterReadyHeat_guards _)) (fun _ => ht)

theorem cutZone_guards (z : Nat) (s : State) : Guards s (cutZone z s) :=
  (setZone_guards _ _ s (fun _ => .inl rfl)).trans (raise_guards ..)

theorem overTempZone_guards (z : Nat) (s : State) : Guards s (overTempZone z s) := by
  unfold overTempZone
  dsimp only
  have counted (n : Nat) : Guards s (setZone z { s.zone z with overCount := n } s) :=
    setZone_guards _ _ s (fun _ => .inr rfl)
  exact .ite (fun _ => .ite (fun _ => (counted _).trans (cutZone_guards ..)) (fun _ => counted _)) (fun _ => counted _)

theorem overTempTest_guards (s : State) : Guards s (overTempTest s) := .foldl _ (fun t z => overTempZone_guards z t) _ s

theorem restoreZone_guards (z : Nat) (s : State) : Guards s (restoreZone z s) := by
  unfold restoreZone
  dsimp only
  split
  · exact .ite (fun _ => setZone_guards _ _ s (fun _ => .inr rfl)) (fun _ => .refl s)
  · exact .refl s

/-- A valve is driven under the knife drive alone (R138). -/
theorem knifeDrive_of_valveHeld {s : State} {z : Nat} (h : s.valveHeld z = false) : s.knifeDrive = true := by
  simp only [State.valveHeld, Bool.or_eq_false_iff, beq_eq_false_iff_ne, Bool.not_eq_false'] at h
  obtain ⟨⟨⟨hm, hd⟩, -⟩, -⟩ := h
  simp [State.knifeDrive, hd, hm]

theorem controlZone_guards (z : Nat) (s : State) : Guards s (controlZone z s) := by
  unfold controlZone
  extract_lets x t u y
  have ht : Guards s t := setZone_guards _ _ s (fun _ => .inr rfl)
  have hu : Guards s u := ht.trans (restoreZone_guards z t)
  split
  · exact hu.trans (setZone_guards _ _ u (fun _ => .inl rfl))
  · refine .ite (fun _ => hu.trans (setZone_guards _ _ u (fun _ => .inl rfl))) (fun h => hu.trans (setZone_guards _ _ u ?_))
    intro hk
    rw [knifeDrive_of_valveHeld (Bool.eq_false_iff.2 h)] at hk
    cases hk

theorem controlZones_guards (s : State) : Guards s (controlZones s) := .foldl _ (fun t z => controlZone_guards z t) _ s

theorem steamTest_guards (s : State) : Guards s (steamTest s) := follow_guards ..

theorem doseTick_guards (s : State) : Guards s (doseTick s) := .of_watched (by simp [State.watched, State.timings])

/-! ## The web and the orders (R5 to R22, R78 to R93) -/

theorem removeSeg_guards (uid : Nat) (s : State) : Guards s (removeSeg uid s) :=
  .of_watched (by simp [State.watched, State.timings])
theorem placeSegment_guards (g : Segment) (s : State) : Guards s (placeSegment g s) :=
  .of_watched (by simp [State.watched, State.timings])
theorem latchRegLost_guards (s : State) : Guards s (latchRegLost s) := .of_watched (by simp [State.watched, State.timings])
theorem closeWindowMiss_guards (s : State) : Guards s (closeWindowMiss s) :=
  .of_watched (by simp [State.watched, State.timings])
theorem openWindow_guards (g : Segment) (s : State) : Guards s (openWindow g s) :=
  .of_watched (by simp [State.watched, State.timings])
theorem acceptMark_guards (e : Word) (s : State) : Guards s (acceptMark e s) :=
  .of_watched (by simp [State.watched, State.timings])
theorem sendHandoff_guards (g : Segment) (s : State) : Guards s (sendHandoff g s) :=
  .of_watched (by simp [State.watched, State.timings])
theorem shiftCells_guards (s : State) : Guards s (shiftCells s) := .of_watched (by simp [State.watched, State.timings])
theorem mergeVerdict_guards (seg : Half) (id : Word) (v : Verdict) (origin : Nat) (s : State) :
    Guards s (mergeVerdict seg id v origin s) := .of_watched (by simp [State.watched, State.timings])
theorem cancelPanel_guards (id : Word) (s : State) : Guards s (cancelPanel id s) :=
  .of_watched (by simp [State.watched, State.timings])
theorem reviewWait_guards (s : State) : Guards s (reviewWait s) := .of_watched (by simp [State.watched, State.timings])
theorem admitOrder_guards (m : Measured) (s : State) : Guards s (admitOrder m s) :=
  .of_watched (by simp [State.watched, State.timings])
theorem cancelOrder_guards (id : Word) (s : State) : Guards s (cancelOrder id s) :=
  .of_watched (by simp [State.watched, State.timings])
theorem makeBirth_guards (s : State) : Guards s (makeBirth s) := .of_watched (by simp [State.watched, State.timings])
theorem holdBirth_guards (s : State) : Guards s (holdBirth s) := .of_watched (by simp [State.watched, State.timings])
theorem endStall_guards (s : State) : Guards s (endStall s) := .of_watched (by simp [State.watched, State.timings])
theorem stallAtStandstill_guards (s : State) : Guards s (stallAtStandstill s) :=
  .of_watched (by simp [State.watched, State.timings])

/-! ## The roll unit (R96 to R122) -/

theorem setArm_guards (a : ArmName) (x : Arm) (s : State) : Guards s (setArm a x s) :=
  .of_watched (by simp [State.watched, State.timings])
theorem loadArm_guards (a : ArmName) (lot : Half) (thickness core circumference : Nat) (s : State) :
    Guards s (loadArm a lot thickness core circumference s) := .of_watched (by simp [State.watched, State.timings])
theorem rollConditions_guards (s : State) : Guards s (rollConditions s) := .of_watched (by simp [State.watched, State.timings])
theorem loadFlatCeiling_guards (s : State) : Guards s (loadFlatCeiling s) :=
  .of_watched (by simp [State.watched, State.timings])

/-- A splice state that is not PASTE is entered from a state other than START_NEW. -/
theorem Guards.splice {arm1 arm2 spliceState spliceArm spliceMiddle fillBase vOut outHistory flatCeiling statusArm
    statusResult} (s : State) (from_ne : s.roll.spliceState ≠ .startNew) (to_ne : spliceState ≠ .paste) :
    Guards s (s.withRoll ⟨arm1, arm2, spliceState, spliceArm, spliceMiddle, s.roll.pasteTimer, s.roll.pasteOutput,
      s.roll.webTimer, s.roll.webSeen, fillBase, s.roll.vU, vOut, s.roll.exitCommand, outHistory, flatCeiling, statusArm,
      statusResult⟩) :=
  .roll s _ (fun _ h => h) (fun h => h.enter rfl rfl (fun hx => absurd hx to_ne) (h.web_none from_ne))

theorem enterSplice_guards {x : SpliceState} {s : State} (hs : s.roll.spliceState ≠ .startNew) (hx : x ≠ .paste) :
    Guards s (enterSplice x s) :=
  Guards.trans (.splice s hs hx) (rollConditions_guards _)

theorem startSplice_guards (a : ArmName) {s : State} (hs : s.roll.spliceState ≠ .startNew) : Guards s (startSplice a s) :=
  Guards.trans (.splice s hs (by decide)) (Guards.trans (.order _ _) (rollConditions_guards _))

theorem spliceTest_guards (s : State) : Guards s (spliceTest s) := by
  unfold spliceTest
  split
  · exact .refl s
  · refine .ite (fun h => startSplice_guards _ ?_) (fun _ => .refl s)
    simp only [Bool.and_eq_true, beq_iff_eq] at h
    rw [h.1.1.1]
    decide

theorem returnToRun_guards {s : State} (hs : s.roll.spliceState ≠ .startNew) : Guards s (returnToRun s) :=
  Guards.trans (.splice s hs (by decide))
    (Guards.trans (.order _ _) ((rollConditions_guards _).trans (spliceTest_guards _)))

theorem ne_startNew_of_abortable {x : SpliceState} (h : x.abortable = true) : x ≠ .startNew := by
  rintro rfl
  cases h

theorem abortSplice_guards {s : State} (hs : s.roll.spliceState ≠ .startNew) : Guards s (abortSplice s) :=
  (raise_guards .spliceAbort s).trans (returnToRun_guards (by simpa using hs))

theorem abortIf_guards (cause : Bool) (s : State) : Guards s (abortIf cause s) := by
  refine .ite (fun h => abortSplice_guards (ne_startNew_of_abortable ?_)) (fun _ => .refl s)
  simp only [Bool.and_eq_true] at h
  exact h.2

theorem activateArm_guards (a : ArmName) (s : State) : Guards s (activateArm a s) := by
  unfold activateArm
  extract_lets x t r u
  have ht : Guards s t := setArm_guards ..
  have hu : Guards t u := .roll t _ (fun _ h => ⟨rfl, h.2⟩) (fun h => ⟨h.paste, h.pasting, h.web⟩)
  exact ht.trans (hu.trans (Guards.trans (.order u _) ((reviewWait_guards _).trans (rollConditions_guards _))))

theorem emptyArm_guards (a : ArmName) (s : State) : Guards s (emptyArm a s) :=
  .ite (fun _ => .refl s) (fun _ => (setArm_guards ..).trans ((rollConditions_guards _).trans (abortIf_guards ..)))

theorem filterSample_guards (a : ArmName) (sample : Nat) (s : State) : Guards s (filterSample a sample s) := by
  unfold filterSample
  dsimp only
  split
  · exact .refl s
  · exact .ite (fun _ => (setArm_guards ..).trans ((spliceTest_guards _).trans (rollConditions_guards _)))
      (fun _ => setArm_guards ..)

theorem takeRevolution_guards (a : ArmName) (s : State) : Guards s (takeRevolution a s) := by
  unfold takeRevolution
  dsimp only
  refine .ite (fun _ => .refl s) (fun _ => ?_)
  split
  · exact setArm_guards ..
  · exact .ite (fun _ => setArm_guards ..) (fun _ => (setArm_guards ..).trans (filterSample_guards ..))

/-! ## The unwind at a ramp update (R109, R110, R117, R119) -/

theorem measureOut_guards (s : State) : Guards s (measureOut s) := by
  unfold measureOut
  dsimp only
  exact .roll s _ (fun hd h => ⟨h.1, by simp [hd]⟩) (fun h => ⟨h.paste, h.pasting, h.web⟩)

/-- With drive enable clear the unwind demand is 0 (R110). -/
theorem unwindDemand_of_drive_clear {s : State} (h : s.gov.driveEnable = false) : s.unwindDemand = 0 := by
  simp [State.unwindDemand, h]

theorem driveUnwind_guards (s : State) : Guards s (driveUnwind s) := by
  refine .roll s _ (fun hd h => ⟨?_, h.2⟩) (fun h => ⟨h.paste, h.pasting, h.web⟩)
  simp [unwindDemand_of_drive_clear hd, h.1, approach]

theorem enterPaste_guards {s : State} (ho : s.operating = true) (hs : s.roll.spliceState ≠ .startNew) :
    Guards s (enterPaste s) := by
  unfold enterPaste
  extract_lets t
  have ht : Guards s t ∧ t.operating = true ∧ t.roll.spliceState ≠ .startNew := by
    unfold t
    split
    · exact ⟨setArm_guards .., by simpa [State.operating, State.mode] using ho, by simpa using hs⟩
    · exact ⟨.refl s, ho, hs⟩
  obtain ⟨hg, hto, hts⟩ := ht
  have hp : Guards t (t.withRoll { t.roll with
      pasteOutput := true, pasteTimer := some s.cfg.unwind.pasteTime, spliceState := .paste }) :=
    .roll t _ (fun _ h => h) (fun h => ⟨rfl, fun _ => ⟨hto, rfl⟩, by simp [h.web_none hts]⟩)
  exact hg.trans (hp.trans (rollConditions_guards _))

theorem pasteTest_guards {s : State} (ho : s.operating = true) : Guards s (pasteTest s) :=
  .ite (fun h => enterPaste_guards ho (by simp [h.1])) (fun _ => .refl s)

theorem startNewTest_guards (s : State) : Guards s (startNewTest s) := by
  unfold startNewTest
  refine .ite (fun hs => ?_) (fun _ => .refl s)
  extract_lets x t
  have ht : Guards s t := .ite
    (fun _ => .roll s _ (fun _ h => h) (fun h => h.enter rfl rfl (fun hx => hx) rfl)) (fun _ => .refl s)
  refine .ite (fun h => ht.trans ?_) (fun _ => ht)
  simp only [Bool.and_eq_true] at h
  have hw (hr : SpliceTimed t.mode t.roll) : t.roll.webTimer = none := by
    by_contra hn
    have := (hr.web (Option.isSome_iff_ne_none.2 hn)).2.2
    simp [h.1.1] at this
  have hp : Guards t (t.withRoll { t.roll with spliceState := .recover }) :=
    .roll t _ (fun _ h => h) (fun hr => hr.enter rfl rfl (fun hx => by cases hx) (hw hr))
  exact hp.trans (rollConditions_guards _)

theorem rampRoll_guards {s : State} (ho : s.operating = true) : Guards s (rampRoll s) :=
  (measureOut_guards s).trans ((driveUnwind_guards _).trans
    ((pasteTest_guards (by simpa [State.operating, State.mode] using ho)).trans (startNewTest_guards _)))

theorem rampUnwind_guards {s : State} (ho : s.operating = true) : Guards s (rampUnwind s) :=
  .ite (fun _ => (rampRoll_guards ho).trans ((loadFlatCeiling_guards _).trans (stallAtStandstill_guards _)))
    (fun _ => .refl s)

end Sys2Proof.Machine
end

