-- ==== Sys2Proof/Proofs/GuardsTrips.lean ====
section
/-! PROOFS. Drive enable and the trips keep speed, motion and timers (R40 to R44). -/

namespace Sys2Proof.Machine
open Sys2Proof

/-! ## Drive enable (R40, R44) -/

/-- Clearing drive enable leaves nothing in motion that it gates (R39, R68, R110, R138, R161, R170). -/
theorem clearDrive_rests (s : State) :
    (clearDrive s).gov = { s.gov with driveEnable := false } ∧ (clearDrive s).roll.vU = 0 ∧
    (clearDrive s).roll.exitCommand = 0 ∧ (clearDrive s).pattern.move = none ∧ (clearDrive s).outfeed.cutTimer = none ∧
    (clearDrive s).outfeed.gate.moving = false ∧ (∀ z ∈ (clearDrive s).heat.zones, z.valve = 0) := by
  have hmove : (abandonMove (stopUnwind (s.withGov { s.gov with driveEnable := false }))).pattern.move = none := by
    unfold abandonMove
    split <;> simp_all
  have hgate (u : State) : (outfeedDriveClear u).outfeed.cutTimer = none ∧
      (outfeedDriveClear u).outfeed.gate.moving = false := by
    unfold outfeedDriveClear
    dsimp only
    split
    · exact ⟨rfl, rfl⟩
    · exact ⟨rfl, Bool.eq_false_iff.2 ‹_›⟩
  refine ⟨?_, ?_, ?_, ?_, ?_, ?_, ?_⟩
  · simp [clearDrive, stopUnwind]
  · simp [clearDrive, stopUnwind]
  · simp [clearDrive, stopUnwind]
  · simpa [clearDrive] using hmove
  · simpa [clearDrive] using (hgate _).1
  · simpa [clearDrive] using (hgate _).2
  · simp [clearDrive, closeValves]

/-- A state in which drive enable is clear and the knife is idle, with what drive enable gates at rest. -/
theorem MotionSafe.of_rests {t : State} (vU : t.roll.vU = 0) (exit : t.roll.exitCommand = 0) (move : t.pattern.move = none)
    (cut : t.outfeed.cutTimer = none) (gate : t.outfeed.gate.moving = false) (valves : ∀ z ∈ t.heat.zones, z.valve = 0)
    (stroke : t.pattern.stroke = none) : MotionSafe t :=
  ⟨fun _ => ⟨vU, exit⟩, fun _ => move, fun _ => cut, fun _ => gate, fun _ => stroke, fun _ => valves⟩

/-- With drive enable set outside TRIPPED nothing has to be at rest. -/
theorem MotionSafe.of_knifeDrive {t : State} (h : t.knifeDrive = true) : MotionSafe t := by
  have hn : ¬ (t.gov.driveEnable = false ∨ t.mode = .tripped) := by
    rw [← knifeDrive_eq_false, h]
    exact nofun
  have hd : t.gov.driveEnable ≠ false := fun hd => hn (.inl hd)
  exact ⟨fun h => absurd h hd, fun h => absurd h hd, fun h => absurd h hd, fun h => absurd h hd, fun h => absurd h hn,
    fun h => absurd h hn⟩

/-- TRIPPED with drive enable clear and the trip timer stopped (R44). -/
theorem Driven.of_trip_cleared {t : State} (le : t.gov.vA ≤ t.cfg.lineMax) (mode : t.mode = .tripped)
    (drive : t.gov.driveEnable = false) (timer : t.gov.tripTimer = none) : Driven t := by
  refine ⟨le, fun _ hn => absurd mode hn, ?_, ?_, ?_⟩
  · rw [mode]
    exact nofun
  · rw [drive]
    exact nofun
  · rw [timer]
    exact nofun

theorem clearDrive_driven {s : State} (le : s.gov.vA ≤ s.cfg.lineMax) (mode : s.mode = .tripped)
    (timer : s.gov.tripTimer = none) : Driven (clearDrive s) := by
  have hc : (clearDrive s).cfg = s.cfg := cfg_of_image (by simp)
  exact .of_trip_cleared (by simpa [hc] using le) (by simpa [State.mode] using mode) (by simp [clearDrive_rests])
    (by simpa using timer)

theorem clearDrive_motion {s : State} (stroke : s.pattern.stroke = none) : MotionSafe (clearDrive s) := by
  obtain ⟨-, vU, exit, move, cut, gate, valves⟩ := clearDrive_rests s
  exact .of_rests vU exit move cut gate valves (by simpa using stroke)

theorem clearDrive_timings (s : State) : (clearDrive s).timings = s.timings := by simp [State.timings]

/-- Clearing drive enable in TRIPPED with the trip timer stopped keeps the invariants: the knife is idle there (R44, R71). -/
theorem clearDrive_guards {s : State} (hm : Driven s → s.mode = .tripped) :
    Guards s (clearDrive (s.withGov { s.gov with tripTimer := none })) :=
  ⟨by simp, fun h => clearDrive_driven h.applied_le (hm h) rfl, fun hs h => clearDrive_motion (h.knife (.inr (hm hs))),
    fun h => h.congr (clearDrive_timings _)⟩

/-! ## The splice at a change of mode (R122) -/

/-- The start test of a splice leaves the sequence or begins it (R114). -/
theorem spliceTest_state (s : State) :
    (spliceTest s).roll.spliceState = s.roll.spliceState ∨ (spliceTest s).roll.spliceState = .prefill := by
  unfold spliceTest
  split
  · exact .inl rfl
  · split
    · exact .inr (by simp [startSplice])
    · exact .inl rfl

/-- A return to RUN may begin the next splice at once, and does nothing else (R114, R120, R121). -/
theorem returnToRun_state (s : State) :
    (returnToRun s).roll.spliceState = .run ∨ (returnToRun s).roll.spliceState = .prefill := by
  unfold returnToRun
  rcases spliceTest_state (rollConditions
      ((s.withRoll { s.roll with spliceState := .run, spliceArm := none, spliceMiddle := none }).withOrder
    { s.order with spliceRequest := false, fence := false })) with h | h
  · exact .inl (h.trans (by simp))
  · exact .inr h

/-- A trip or an entry to STANDBY enters no PASTE and leaves the web-present timer stopped (R122). -/
theorem resolveSplice_state {s : State} (hw : s.roll.webTimer.isSome = true → s.roll.spliceState = .startNew) :
    ((resolveSplice s).roll.spliceState = .paste → s.roll.spliceState = .paste) ∧ (resolveSplice s).roll.webTimer = none := by
  have stopped (h : s.roll.spliceState ≠ .startNew) : s.roll.webTimer = none := by
    by_contra hn
    exact h (hw (Option.isSome_iff_ne_none.2 hn))
  unfold resolveSplice
  split
  · refine ⟨fun h => ?_, by simpa using stopped (ne_startNew_of_abortable ‹_›)⟩
    rcases returnToRun_state s with hr | hr <;> cases hr.symm.trans h
  · split
    · exact ⟨fun h => h, rfl⟩
    · exact ⟨fun h => h, stopped ‹_›⟩

/-- A START_NEW that waits goes on to RECOVER; no entry to ACTIVE enters PASTE (R122). -/
theorem rollAtActive_state {s : State} (h : (rollAtActive s).roll.spliceState = .paste) : s.roll.spliceState = .paste := by
  unfold rollAtActive at h
  split at h
  · split at h
    · dsimp only at h
      split at h
      · rcases returnToRun_state (enterSplice .recover s) with hr | hr <;> cases hr.symm.trans h
      · simp [enterSplice] at h
    · rcases spliceTest_state s with hr | hr
      · exact hr.symm.trans h
      · cases hr.symm.trans h
  · exact h

/-! ## Trips (R42 to R44) -/

theorem queueTrip_guards (c : TripCause) (s : State) : Guards s (queueTrip c s) :=
  .of_watched (by simp [State.watched, State.timings])

/-- The knife at a trip: a stroke in flight is cut short (R71). -/
theorem tripKnife_stroke (s : State) : (tripKnife s).pattern.stroke = none := by
  unfold tripKnife
  dsimp only
  cases h : s.pattern.stroke <;> simp [idleKnife, h]

/-- TRIPPED as it is entered: the mode left is recorded, the trip timer runs, knife and steam are off (R42, R71). -/
def tripOff (s : State) : State :=
  let a := setMode .tripped (s.withGov { s.gov with beforeTrip := some s.mode, tripTimer := some 3000 })
  let b := a.withLoader { a.loader with joinTimer := none }
  closeValves (tripKnife (b.withCond { b.cond with wakeDue := false }))

/-- TRIPPED with the splice resolved, before drive enable is judged (R122). -/
def tripBegun (s : State) : State := resolveSplice (tripOff s)

theorem enterTripped_eq (s : State) : enterTripped s =
    if s.gov.vA = 0 then clearDrive ((tripBegun s).withGov { (tripBegun s).gov with tripTimer := none }) else tripBegun s := by
  have hv : (tripBegun s).gov.vA = s.gov.vA := by simp [tripBegun, tripOff]
  rw [← hv]
  rfl

theorem tripBegun_mode (s : State) : (tripBegun s).mode = .tripped := by
  simp [tripBegun, tripOff, State.mode, setMode]

/-- What TRIPPED as it is entered leaves of the registers the invariants read. -/
@[simp] theorem tripBegun_frame (s : State) :
    (tripBegun s).loader.image = s.loader.image ∧ (tripBegun s).loader.reading = s.loader.reading ∧
    (tripBegun s).loader.scanning = s.loader.scanning ∧ (tripBegun s).bus.recovery = s.bus.recovery ∧
    (tripBegun s).bus.off = s.bus.off ∧ (tripBegun s).gov.vA = s.gov.vA ∧
    (tripBegun s).gov.driveEnable = s.gov.driveEnable ∧ (tripBegun s).gov.trips = s.gov.trips ∧
    (tripBegun s).gov.pulseTimer = s.gov.pulseTimer ∧ (tripBegun s).roll.pasteTimer = s.roll.pasteTimer ∧
    (tripBegun s).roll.pasteOutput = s.roll.pasteOutput ∧ (tripBegun s).heat.parkTimer = s.heat.parkTimer ∧
    (tripBegun s).heat.heatTimer = s.heat.heatTimer ∧ (tripBegun s).heat.chamber = s.heat.chamber := by
  simp [tripBegun, tripOff]

/-- What TRIPPED as it is entered sets (R42). -/
@[simp] theorem tripBegun_sets (s : State) :
    (tripBegun s).gov.tripTimer = some 3000 ∧ (tripBegun s).gov.beforeTrip = some s.mode ∧
    (tripBegun s).loader.joinTimer = none := by
  simp [tripBegun, tripOff]

theorem tripBegun_off (s : State) : (tripBegun s).pattern.stroke = none ∧ ∀ z ∈ (tripBegun s).heat.zones, z.valve = 0 := by
  constructor
  · simp [tripBegun, tripOff, tripKnife_stroke]
  · simp [tripBegun, tripOff, closeValves]

theorem tripBegun_splice {s : State} (hw : s.roll.webTimer.isSome = true → s.roll.spliceState = .startNew) :
    ((tripBegun s).roll.spliceState = .paste → s.roll.spliceState = .paste) ∧ (tripBegun s).roll.webTimer = none := by
  have h := resolveSplice_state (s := tripOff s) (by simpa [tripOff] using hw)
  have hs : (tripOff s).roll.spliceState = s.roll.spliceState := by simp [tripOff]
  rwa [hs] at h

/-- `u` is `s` but for the trip causes, as far as the invariants read it. -/
def CausesOnly (s u : State) : Prop :=
  u.watched = { s.watched with timings := { s.timings with trips := u.gov.trips } }

/-- An entry to TRIPPED with a cause to hold keeps the timers within their rules (R42). -/
theorem tripBegun_timers {s u : State} (hu : CausesOnly s u) (ho : s.operating = true) (hc : u.gov.trips ≠ [])
    (h : TimerSafe s) : TimerSafe (tripBegun u) := by
  simp only [CausesOnly, State.watched, State.timings, Watched.mk.injEq, Timings.mk.injEq] at hu
  obtain ⟨⟨image, -, reading, scanning, -, pulse, -, -, recovery, off, paste, output, state, web, -, park, heat, chamber⟩,
    -⟩ := hu
  obtain ⟨hpaste, hweb⟩ := tripBegun_splice (s := u) (by rw [web, state]; exact fun hw => (h.web hw).1)
  have mode := tripBegun_mode u
  have op : (tripBegun u).operating = true := by simp [State.operating, mode, operatingMode]
  have his (r : Role) : (tripBegun u).is r = s.is r := is_of_image (by simpa using image) r
  have hnot : ¬ s.mode = .configuring := by intro hm; simp [State.operating, hm, operatingMode] at ho
  exact
    { join := by simp
      pulse := by simpa [op, pulse, ho] using h.pulse
      recovery := by simpa [recovery, off] using h.recovery
      paste := by simpa [paste, output] using h.paste
      pasting := fun hp => ⟨op, by simpa [paste] using (h.pasting (state ▸ hpaste hp)).2⟩
      web := by simp [hweb]
      park := by simpa [park, chamber] using h.park
      heat := by simpa [op, his, heat, ho] using h.heat
      reading := fun hr => absurd (h.reading (by simpa [reading] using hr)).1 hnot
      scanning := fun hr => absurd (h.scanning (by simpa [scanning] using hr)) hnot
      trips := by simpa [mode] using hc
      before := by simp [mode] }

/-- An entry to TRIPPED with a cause to hold respects the invariants (R42, R44). -/
theorem enterTripped_guards {s u : State} (hu : CausesOnly s u) (ho : s.operating = true) (hm : s.mode ≠ .tripped)
    (hc : u.gov.trips ≠ []) : Guards s (enterTripped u) := by
  have timers := tripBegun_timers hu ho hc
  simp only [CausesOnly, State.watched, State.timings, Watched.mk.injEq, Timings.mk.injEq] at hu
  obtain ⟨⟨image, -⟩, vA, drive, -⟩ := hu
  have mode := tripBegun_mode u
  obtain ⟨stroke, valves⟩ := tripBegun_off u
  have cfg : (tripBegun u).cfg = s.cfg := cfg_of_image (by simpa using image)
  rw [enterTripped_eq]
  split
  · rename_i hv
    exact ⟨by simpa using vA, fun h => clearDrive_driven (by simp [hv]) mode rfl, fun _ _ => clearDrive_motion stroke,
      fun h => (timers h).congr (clearDrive_timings _)⟩
  · rename_i hv
    have running (h : Driven s) : (tripBegun u).gov.driveEnable = true := by
      simp only [tripBegun_frame, drive]
      refine h.drive_set (.inl ?_)
      by_contra hn
      exact hv (vA.trans (h.applied_zero hn hm))
    have hpos : 0 < (tripBegun u).gov.vA := by simpa using Nat.pos_of_ne_zero hv
    refine ⟨by simpa using vA, fun h => ⟨?_, ?_, ?_, ?_, ?_⟩,
      fun h _ => ⟨?_, ?_, ?_, ?_, fun _ => stroke, fun _ => valves⟩, timers⟩
    · simpa [cfg, vA] using h.applied_le
    · simp [mode]
    · simp [mode]
    · exact fun _ _ _ => ⟨mode, hpos, by simp⟩
    · exact fun _ => ⟨mode, hpos, running h⟩
    all_goals
      intro hn
      rw [running h] at hn
      cases hn

theorem causesOnly_withTrips (s : State) (x : List TripCause) : CausesOnly s (s.withGov { s.gov with trips := x }) := rfl

/-- What an operation leaves as it was beside the causes stays so. -/
theorem CausesOnly.of_watched {s u v : State} (h : CausesOnly s u) (hv : v.watched = u.watched) : CausesOnly s v := by
  have ht : v.gov.trips = u.gov.trips := congrArg (fun w => w.timings.trips) hv
  rw [CausesOnly, hv, ht]
  exact h

/-- Further causes in TRIPPED respect the invariants (R42). -/
theorem tripped_causes_guards {s : State} (hm : s.mode = .tripped) (x : List TripCause) (hx : x ≠ []) :
    Guards s (s.withGov { s.gov with trips := x }) :=
  ⟨rfl, fun h => { h with }, fun _ h => { h with }, fun h => { h with trips := ⟨fun _ => hm, fun _ => hx⟩ }⟩

theorem addTrip_guards (c : TripCause) (s : State) : Guards s (addTrip c s) := by
  have entered (ho : s.operating = true) (hm : s.mode ≠ .tripped) :
      Guards s (pulseForMode (enterTripped (queueTrip c (s.withGov { s.gov with trips := insertNew c s.gov.trips })))) := by
    have hne : insertNew c s.gov.trips ≠ [] := List.ne_nil_of_mem ((mem_insertNew c c _).2 (.inl rfl))
    have hu : CausesOnly s (queueTrip c (s.withGov { s.gov with trips := insertNew c s.gov.trips })) :=
      (causesOnly_withTrips s (insertNew c s.gov.trips)).of_watched (by simp [State.watched, State.timings])
    refine (enterTripped_guards hu ho hm ?_).trans (pulseForMode_guards ?_)
    · simpa only [queueTrip_frame, State.withGov_gov] using hne
    · simp [State.operating, enterTripped_mode, operatingMode]
  unfold addTrip
  cases hm : s.mode with
  | joining | active | standby => exact entered (by simp [State.operating, hm, operatingMode]) (by simp [hm])
  | tripped => exact .ite (fun _ => .refl s) (fun _ => (tripped_causes_guards hm _ (by simp)).trans (queueTrip_guards ..))
  | powerUp | configuring | configFault => exact .refl s

/-- The causes that the trip latch adds (R43). -/
theorem takeLatch_guards {s : State} (ho : s.operating = true) : Guards s (takeLatch s) := by
  unfold takeLatch
  refine .ite (fun hl => ?_) (fun _ => .refl s)
  extract_lets p q g b t
  have hq : q ≠ [] := by
    rcases (Bool.or_eq_true ..).mp hl with hr | ht
    · exact List.ne_nil_of_mem (a := .peer) (by unfold q p; rw [if_pos hr]; split <;> simp)
    · exact List.ne_nil_of_mem (a := .terminal) (by unfold q; rw [if_pos ht]; simp)
  have hu : CausesOnly s t := (causesOnly_withTrips s q).of_watched rfl
  refine .ite (fun hm => ?_) (fun hm => (enterTripped_guards hu ho hm hq).trans (pulseForMode_guards ?_))
  · exact Guards.trans (tripped_causes_guards (s := s) hm q hq) (.bus _ _ (fun h => h))
  · simp [State.operating, enterTripped_mode, operatingMode]

end Sys2Proof.Machine
end

