-- ==== Sys2Proof/Proofs/GuardsModes.lean ====
section
/-! PROOFS. The entries to ACTIVE, JOINING and STANDBY keep speed, motion and timers (R40, R190 to R193). -/

namespace Sys2Proof.Machine
open Sys2Proof

/-! ## Entries to ACTIVE (R40, R191, R193) -/

theorem setDrive_drive (s : State) : (setDrive s).gov.driveEnable = true := by
  unfold setDrive
  dsimp only
  split <;> simp

/-- The entry to ACTIVE as far as its pulse: mode, drive enable and the depth test (R40, R191). -/
def activeBegun (s : State) : State :=
  let a := setMode .active (s.withLoader { s.loader with joinTimer := none })
  let b := a.withCond { a.cond with wakeDue := false }
  pulseForMode (if b.gov.driveEnable then startMove b else setDrive b)

theorem enterActive_eq (s : State) : enterActive s = rollAtActive (warmChamber (activeBegun s)) := rfl

/-- What the entry to ACTIVE sets (R25, R40, R191). -/
theorem activeBegun_sets (s : State) : (activeBegun s).mode = .active ∧ (activeBegun s).gov.driveEnable = true ∧
    (activeBegun s).loader.joinTimer = none ∧ (activeBegun s).gov.pulseTimer = some 25 := by
  unfold activeBegun
  extract_lets l a w b
  have ha : a.loader.mode = .active ∧ a.loader.joinTimer = none := ⟨rfl, rfl⟩
  split <;> simp_all [State.mode, pulseForMode, startPulseTimer, pulsePeriod, setDrive_drive, b, w]

theorem activeBegun_frame (s : State) :
    (activeBegun s).roll = s.roll ∧ (activeBegun s).heat = s.heat ∧ (activeBegun s).loader.image = s.loader.image := by
  unfold activeBegun
  extract_lets l a w b
  split <;> simp [a, b, l]

theorem enterActive_sets (s : State) : (enterActive s).mode = .active ∧ (enterActive s).gov.driveEnable = true ∧
    (enterActive s).loader.joinTimer = none ∧ (enterActive s).gov.pulseTimer = some 25 := by
  have h := activeBegun_sets s
  simpa [enterActive_eq, State.mode] using h

/-- Only a COLD chamber changes at an entry to ACTIVE (R131). -/
theorem enterActive_heat (s : State) : (enterActive s).heat =
    if s.is .setter && s.heat.chamber == .cold then
      { s.heat with chamber := .warming, bandCount := 0, parkTimer := none } else s.heat := by
  obtain ⟨-, heat, image⟩ := activeBegun_frame s
  simp only [enterActive_eq, rollAtActive_frame, warmChamber, heat, is_of_image image, setChamber]
  split <;> simp [heat]

theorem enterActive_paste {s : State} (h : (enterActive s).roll.spliceState = .paste) : s.roll.spliceState = .paste := by
  have := rollAtActive_state (s := warmChamber (activeBegun s)) h
  simpa [activeBegun_frame] using this

/-- With the trip timer stopped an entry to ACTIVE leaves speed and drive enable within the mode (R40). -/
theorem enterActive_driven {s : State} (le : s.gov.vA ≤ s.cfg.lineMax) (timer : s.gov.tripTimer = none) :
    Driven (enterActive s) := by
  obtain ⟨mode, drive, -, -⟩ := enterActive_sets s
  have hc : (enterActive s).cfg = s.cfg := cfg_of_image (by simp)
  exact ⟨by simpa [hc] using le, fun hn => absurd mode hn, fun _ => drive, fun _ hn => absurd mode hn, by simp [timer]⟩

theorem enterActive_motion (s : State) : MotionSafe (enterActive s) := by
  obtain ⟨mode, drive, -, -⟩ := enterActive_sets s
  exact .of_knifeDrive (by simp [State.knifeDrive, drive, mode])

/-- The timers and the causes as an entry to ACTIVE or JOINING finds them. -/
structure Entering (s : State) : Prop where
  recovery : s.bus.recovery.isSome = s.bus.off
  paste : s.roll.pasteTimer.isSome = s.roll.pasteOutput
  pasting : s.roll.spliceState = .paste → s.roll.pasteTimer.isSome = true
  web : s.roll.webTimer = none
  park : s.heat.parkTimer.isSome = true → s.heat.chamber = .readyHeat
  heat : s.heat.heatTimer.isSome = s.is .setter
  reading : s.loader.reading = false
  scanning : s.loader.scanning = false
  trips : s.gov.trips = []
  before : s.gov.beforeTrip = none

/-- Outside ACTIVE an operating mode stands as an entry finds it, once the causes are gone (R46). -/
theorem TimerSafe.entering {s : State} (h : TimerSafe s) (ho : s.operating = true) (hm : s.mode ≠ .active) :
    Entering (s.withGov { s.gov with trips := [], beforeTrip := none }) where
  recovery := h.recovery
  paste := h.paste
  pasting := fun hp => (h.pasting hp).2
  web := by
    by_contra hn
    exact hm (h.web (Option.isSome_iff_ne_none.2 hn)).2.1
  park := h.park
  heat := h.heat.trans (by rw [ho, Bool.true_and]; rfl)
  reading := by
    rw [Bool.eq_false_iff]
    intro hr
    simp [State.operating, (h.reading hr).1, operatingMode] at ho
  scanning := by
    rw [Bool.eq_false_iff]
    intro hr
    simp [State.operating, h.scanning hr, operatingMode] at ho
  trips := rfl
  before := rfl

/-- Outside TRIPPED there are no causes to take away (R42, R46). -/
theorem TimerSafe.withoutCauses {s : State} (h : TimerSafe s) (hm : s.mode ≠ .tripped) :
    s.withGov { s.gov with trips := [], beforeTrip := none } = s := by
  have ht : s.gov.trips = [] := by
    by_contra hn
    exact hm (h.trips.1 hn)
  have hb : s.gov.beforeTrip = none := by
    by_contra hn
    exact hm (h.before.1 (Option.isSome_iff_ne_none.2 hn))
  rw [← ht, ← hb]
  rfl

/-- An entry to ACTIVE finds its timers within their rules and leaves them so (R25, R122, R131, R191). -/
theorem enterActive_timers {s : State} (h : Entering s) : TimerSafe (enterActive s) := by
  obtain ⟨mode, -, join, pulse⟩ := enterActive_sets s
  have op : (enterActive s).operating = true := by simp [State.operating, mode, operatingMode]
  have his (r : Role) : (enterActive s).is r = s.is r := is_of_image (by simp) r
  exact
    { join := by simp [join]
      pulse := by simp [pulse, op]
      recovery := by simpa using h.recovery
      paste := by simpa using h.paste
      pasting := fun hp => ⟨op, by simpa using h.pasting (enterActive_paste hp)⟩
      web := by simp [h.web]
      park := by
        rw [enterActive_heat]
        split
        · simp
        · exact h.park
      heat := by simpa [op, his] using h.heat
      reading := by simp [h.reading]
      scanning := by simp [h.scanning]
      trips := by simp [h.trips, mode]
      before := by simp [h.before, mode] }

/-- The trip timer is stopped outside TRIPPED and at standstill (R44). -/
theorem Driven.tripTimer_none {s : State} (h : Driven s) (hs : s.mode ≠ .tripped ∨ s.gov.vA = 0) : s.gov.tripTimer = none := by
  by_contra hn
  obtain ⟨hm, hpos, -⟩ := h.trip_timer (Option.isSome_iff_ne_none.2 hn)
  rcases hs with hs | hs
  · exact hs hm
  · omega

/-- An entry to ACTIVE from JOINING or STANDBY respects the invariants (R191, R193). -/
theorem enterActive_guards {s : State} (ho : s.operating = true) (ha : s.mode ≠ .active) (ht : s.mode ≠ .tripped) :
    Guards s (enterActive s) :=
  ⟨by simp, fun h => enterActive_driven h.applied_le (h.tripTimer_none (.inl ht)), fun _ _ => enterActive_motion s,
    fun h => enterActive_timers (h.withoutCauses ht ▸ h.entering ho ha)⟩

/-! ## The return from a trip (R46) -/

theorem enterJoining_sets (s : State) : (enterJoining s).mode = .joining ∧ (enterJoining s).loader.joinTimer = some 1000 ∧
    (enterJoining s).gov.pulseTimer = some 25 := by
  simp [enterJoining, State.mode, setMode, pulseForMode, startPulseTimer, pulsePeriod]

/-- What an entry to JOINING leaves (R25, R190). -/
@[simp] theorem enterJoining_frame (s : State) :
    (enterJoining s).loader.image = s.loader.image ∧ (enterJoining s).loader.reading = s.loader.reading ∧
    (enterJoining s).loader.scanning = s.loader.scanning ∧ (enterJoining s).bus.rx = s.bus.rx ∧
    (enterJoining s).bus.recovery = s.bus.recovery ∧ (enterJoining s).bus.off = s.bus.off ∧
    (enterJoining s).peers = s.peers ∧ (enterJoining s).gov.vA = s.gov.vA ∧
    (enterJoining s).gov.driveEnable = s.gov.driveEnable ∧ (enterJoining s).gov.tripTimer = s.gov.tripTimer ∧
    (enterJoining s).gov.trips = s.gov.trips ∧ (enterJoining s).gov.beforeTrip = s.gov.beforeTrip ∧
    (enterJoining s).pattern = s.pattern ∧ (enterJoining s).roll = s.roll ∧ (enterJoining s).heat = s.heat ∧
    (enterJoining s).outfeed = s.outfeed ∧ (enterJoining s).web = s.web := by
  simp [enterJoining]

theorem enterJoining_timers {s : State} (h : Entering s) : TimerSafe (enterJoining s) := by
  obtain ⟨mode, join, pulse⟩ := enterJoining_sets s
  have op : (enterJoining s).operating = true := by simp [State.operating, mode, operatingMode]
  have his (r : Role) : (enterJoining s).is r = s.is r := is_of_image (by simp) r
  exact
    { join := fun _ => mode
      pulse := by simp [pulse, op]
      recovery := by simpa using h.recovery
      paste := by simpa using h.paste
      pasting := fun hs => ⟨op, by simpa using h.pasting (by simpa using hs)⟩
      web := by simp [h.web]
      park := by simpa using h.park
      heat := by simpa [op, his] using h.heat
      reading := by simp [h.reading]
      scanning := by simp [h.scanning]
      trips := by simp [h.trips, mode]
      before := by simp [h.before, mode] }

/-- JOINING at standstill with drive enable clear (R40, R190). -/
theorem enterJoining_driven {s : State} (hv : s.gov.vA = 0) (hd : s.gov.driveEnable = false) (ht : s.gov.tripTimer = none) :
    Driven (enterJoining s) := by
  obtain ⟨mode, -, -⟩ := enterJoining_sets s
  refine ⟨by simp [hv], fun _ _ => by simp [hv], ?_, by simp [hd], by simp [ht]⟩
  rw [mode]
  exact nofun

/-- A return from a trip at standstill respects the invariants (R46). -/
theorem leaveTrip_guards {s : State} (hm : s.mode = .tripped) (hv : s.gov.vA = 0) : Guards s (leaveTrip s) := by
  have ho : s.operating = true := by simp [State.operating, hm, operatingMode]
  have ha : s.mode ≠ .active := by simp [hm]
  refine .ite (fun _ => ?_) (fun _ => ?_)
  · have clear (h : Driven s) : s.gov.driveEnable = false := by
      rw [Bool.eq_false_iff]
      intro hd
      have := (h.drive_in_trip hd ha (by simp [hm])).2.1
      omega
    refine ⟨by simp, fun h => enterJoining_driven hv (clear h) (h.tripTimer_none (.inr hv)), fun hd h => ?_,
      fun h => enterJoining_timers (h.entering ho ha)⟩
    have hc := clear hd
    exact .of_rests (by simpa using (h.unwind hc).1) (by simpa using (h.unwind hc).2) (by simpa using h.actuator hc)
      (by simpa using h.cut hc) (by simpa using h.gate hc) (by simpa using h.steam (.inl hc)) (by simpa using h.knife (.inl hc))
  · exact ⟨by simp, fun h => enterActive_driven h.applied_le (h.tripTimer_none (.inr hv)), fun _ _ => enterActive_motion _,
      fun h => enterActive_timers (h.entering ho ha)⟩

/-! ## The entry to STANDBY (R192) -/

/-- STANDBY as it is entered, before the splice is resolved (R192). -/
def standbyBegun (s : State) : State :=
  let t := pulseForMode (setMode .standby s)
  if t.is .setter then setChamber .cold t else t

theorem enterStandby_eq (s : State) : enterStandby s = resolveSplice (standbyBegun s) := rfl

/-- What the entry to STANDBY sets, and what it leaves (R25, R192). -/
theorem standbyBegun_sets (s : State) :
    (standbyBegun s).mode = .standby ∧ (standbyBegun s).gov.pulseTimer = some 250 ∧ (standbyBegun s).roll = s.roll ∧
    (standbyBegun s).loader.joinTimer = s.loader.joinTimer ∧ (standbyBegun s).gov.driveEnable = s.gov.driveEnable ∧
    (standbyBegun s).heat =
      if s.is .setter then { s.heat with chamber := .cold, bandCount := s.heat.bandCount, parkTimer := none } else s.heat := by
  have his : (pulseForMode (setMode .standby s)).is .setter = s.is .setter := is_of_image (by simp) _
  unfold standbyBegun
  simp only [his]
  split <;> simp [State.mode, setMode, pulseForMode, startPulseTimer, pulsePeriod, setChamber]

theorem enterStandby_sets (s : State) : (enterStandby s).mode = .standby ∧ (enterStandby s).gov.pulseTimer = some 250 := by
  obtain ⟨mode, pulse, -⟩ := standbyBegun_sets s
  rw [State.mode] at mode
  simp [enterStandby_eq, State.mode, mode, pulse]

/-- The chamber goes COLD with an entry to STANDBY (R192). -/
theorem enterStandby_heat (s : State) : (enterStandby s).heat =
    if s.is .setter then { s.heat with chamber := .cold, bandCount := s.heat.bandCount, parkTimer := none } else s.heat := by
  rw [enterStandby_eq, ← (standbyBegun_sets s).2.2.2.2.2]
  simp

/-- An entry to STANDBY at standstill respects the invariants (R192). -/
theorem enterStandby_guards {s : State} (hm : s.mode = .active) (hv : s.gov.vA = 0) : Guards s (enterStandby s) := by
  obtain ⟨mode, pulse⟩ := enterStandby_sets s
  obtain ⟨-, -, roll, join, drive, -⟩ := standbyBegun_sets s
  have drive : (enterStandby s).gov.driveEnable = s.gov.driveEnable := by rw [enterStandby_eq]; simpa using drive
  have op : (enterStandby s).operating = true := by simp [State.operating, mode, operatingMode]
  have his (r : Role) : (enterStandby s).is r = s.is r := is_of_image (by simp) r
  refine ⟨by simp, fun h => ⟨by simp [hv], fun _ _ => by simp [hv], fun _ => ?_, fun _ _ hn => absurd mode hn, ?_⟩,
    fun h _ => .of_knifeDrive ?_, fun h => ?_⟩
  · rw [drive]
    exact h.drive_set (.inl hm)
  · simp [h.tripTimer_none (.inr hv)]
  · simp [State.knifeDrive, mode, h.drive_set (.inl hm)]
  · obtain ⟨hpaste, hweb⟩ := resolveSplice_state (s := standbyBegun s) (by rw [roll]; exact fun hw => (h.web hw).1)
    rw [← enterStandby_eq] at hpaste hweb
    have hjoin : s.loader.joinTimer = none := by
      by_contra hn
      simpa [hm] using h.join (Option.isSome_iff_ne_none.2 hn)
    have ho : s.operating = true := by simp [State.operating, hm, operatingMode]
    exact
      { join := by rw [enterStandby_eq]; simp [join, hjoin]
        pulse := by simp [pulse, op]
        recovery := by simpa using h.recovery
        paste := by simpa using h.paste
        pasting := fun hp => ⟨op, by simpa using (h.pasting (roll ▸ hpaste hp)).2⟩
        web := by simp [hweb]
        park := by
          rw [enterStandby_heat]
          split
          · simp
          · exact h.park
        heat := by simpa [op, his, ho] using h.heat
        reading := fun hr => by simpa [hm] using (h.reading (by simpa using hr)).1
        scanning := fun hr => by simpa [hm] using h.scanning (by simpa using hr)
        trips := by simpa [mode, hm] using h.trips
        before := by simpa [mode, hm] using h.before }

end Sys2Proof.Machine
end

