-- ==== Sys2Proof/Proofs/GuardsEnd.lean ====
section
/-! PROOFS. What falls due and the end of an operation keep speed, motion and timers, and leave the figures current. -/

namespace Sys2Proof.Machine
open Sys2Proof

/-! ## What falls due (R2) -/

theorem noteBoundary_guards (point : Word) (s : State) : Guards s (noteBoundary point s) := .web s _

theorem retest_guards (s : State) : Guards s (retest s) := .ite (fun _ => retestPiece_guards s) (fun _ => .refl s)

/-- What falls due in the UNWIND is due by its own tests (R82, R115, R116, R120, R121). -/
theorem due_unwind {s : State} {d : Due} (h : s.due = some d) (hd : d.part = .unwind) : s.dueUnwind = some d := by
  rcases (due_cases h).2 with h | h | h | ⟨-, h⟩
  · exact absurd (hd.symm.trans (dueWindow_part h)) (by decide)
  · rcases dueRole_part h with ⟨-, h⟩ | ⟨-, h⟩ | ⟨-, h⟩ <;> exact absurd (hd.symm.trans h) (by decide)
  · exact absurd (hd.symm.trans (dueExit_part h)) (by decide)
  · exact h

/-- The splice states in which the events of a splice fall due (R115, R116, R120, R121). -/
theorem spliceState_of_dueUnwind {s : State} {d : Due} (h : s.dueUnwind = some d) :
    (d = .prefillDone → s.roll.spliceState = .prefill) ∧ (d = .stopOld → s.roll.spliceState = .spliceWait) ∧
    (d = .stopOldLow → s.roll.spliceState = .stopOld) ∧ (d = .recovered → s.roll.spliceState = .recover) := by
  unfold State.dueUnwind at h
  split at h
  · cases h
    simp_all [State.prefillDone]
  · split at h
    · cases h
      simp_all [State.stopOldDue]
    · split at h
      · cases h
        simp_all [State.stopOldLow]
      · split at h
        · cases h
          simp_all [State.recovered]
        · repeat' split at h
          all_goals cases h
          all_goals simp

theorem takeDue_guards {s : State} {d : Due} (h : s.due = some d) : Guards s (takeDue d s) := by
  cases d with
  | openWindow g => exact openWindow_guards g s
  | acceptMark e => exact Guards.trans (.web s _) (acceptMark_guards e _)
  | holdClosing => exact .web s _
  | closeWindow => exact closeWindowMiss_guards s
  | fold => exact takeFold_guards s
  | endRun => exact endRun_guards s
  | startRun g => exact startRun_guards g s
  | shift => exact shiftCells_guards s
  | boundary _ _ point => exact (noteBoundary_guards point s).trans (takeBoundary_guards ..)
  | handoff g => exact sendHandoff_guards g s
  | trailExit g => exact removeSeg_guards g.uid s
  | birth => exact makeBirth_guards s
  | holdBirth => exact holdBirth_guards s
  | endStall => exact endStall_guards s
  | prefillDone =>
    have hs := (spliceState_of_dueUnwind (due_unwind h rfl)).1 rfl
    exact enterSplice_guards (by simp [hs]) (by decide)
  | stopOld =>
    have hs := (spliceState_of_dueUnwind (due_unwind h rfl)).2.1 rfl
    exact enterSplice_guards (by simp [hs]) (by decide)
  | stopOldLow =>
    have hs := (spliceState_of_dueUnwind (due_unwind h rfl)).2.2.1 rfl
    exact abortSplice_guards (by simp [hs])
  | recovered =>
    have hs := (spliceState_of_dueUnwind (due_unwind h rfl)).2.2.2 rfl
    exact returnToRun_guards (by simp [hs])

theorem settle_guards (s : State) : Guards s (settle s) :=
  settle_keeps (Guards s) (fun t h => h.trans (retest_guards t)) (fun _ _ h hd => h.trans (takeDue_guards hd)) s (.refl s)

/-! ## The end of a command (R37, R181, R191) -/

theorem refresh_guards (s : State) : Guards s (refresh s) :=
  (refreshHeat_guards s).trans (.gov _ _ rfl rfl rfl rfl rfl (fun h => h))

/-- An entry to ACTIVE falls due in JOINING and in STANDBY alone (R181, R191). -/
theorem mode_of_activeDue {s : State} (h : s.activeDue = true) : s.mode = .joining ∨ s.mode = .standby := by
  simp only [State.activeDue, State.joinReady, Bool.or_eq_true, Bool.and_eq_true, beq_iff_eq] at h
  rcases h with ⟨⟨h, -⟩, -⟩ | ⟨h, -⟩
  · exact .inl h
  · exact .inr h

theorem conclude_guards (s : State) : Guards s (conclude s) := by
  rcases conclude_cases s with ⟨h, -⟩ | ⟨h, hdue⟩ <;> rw [h]
  · exact refresh_guards s
  · have hm := mode_of_activeDue hdue
    have ho : (refresh s).operating = true := by rcases hm with hm | hm <;> simp [State.operating, hm, operatingMode]
    have he : Guards (refresh s) (enterActive (refresh s)) :=
      enterActive_guards ho (by rcases hm with hm | hm <;> simp [hm]) (by rcases hm with hm | hm <;> simp [hm])
    exact (refresh_guards s).trans (he.trans ((settle_guards _).trans (refresh_guards _)))

theorem finish_guards (s : State) : Guards s (finish s) := (settle_guards s).trans (conclude_guards _)

/-- A fold of `min` is one of its figures, and at most each. -/
theorem foldl_min_least (l : List Nat) (n : Nat) : l.foldl min n ∈ n :: l ∧ ∀ b ∈ n :: l, l.foldl min n ≤ b :=
  List.min?_eq_some_iff.1 List.min?_cons'

/-- The target speed lies within v_line_max, and is 0 outside ACTIVE (R37). -/
theorem targetSpeed_bounds (s : State) : s.targetSpeed ≤ s.cfg.lineMax ∧ (s.mode ≠ .active → s.targetSpeed = 0) := by
  unfold State.targetSpeed
  split
  · rename_i h
    simp only [Bool.and_eq_true, beq_iff_eq] at h
    refine ⟨?_, fun hm => absurd h.1.1.1 hm⟩
    exact ((foldl_min_least ..).2 _ List.mem_cons_self).trans ((Nat.min_le_right ..).trans (Nat.min_le_left ..))
  · exact ⟨Nat.zero_le _, fun _ => rfl⟩

/-- With a current target speed the invariant of speed is that of every moment. -/
theorem Driven.speedSafe {s : State} (h : Driven s) (ht : s.gov.vT = s.targetSpeed) : SpeedSafe s :=
  ⟨h.applied_le, ht ▸ (targetSpeed_bounds s).1, fun hm => ht.trans ((targetSpeed_bounds s).2 hm), h.applied_zero, h.drive_set,
    h.drive_in_trip, h.trip_timer⟩

/-- The setpoint in force of a zone reads the records, the map and the chamber state (R130). -/
theorem setpoint_congr {s t : State} (hl : t.loader = s.loader) (hw : t.web = s.web) (hch : t.heat.chamber = s.heat.chamber)
    (hc : t.heat.cells = s.heat.cells) (hr : t.heat.recipes = s.heat.recipes) (z : Nat) : t.setpoint z = s.setpoint z := by
  have hcfg : t.cfg = s.cfg := by unfold State.cfg; rw [hl]
  have hheld (u : Nat) : t.held u = s.held u := by unfold State.held; rw [hw]
  have hmid : t.middleSegment z = s.middleSegment z := by unfold State.middleSegment; simp only [hcfg, hc, hheld]
  have hrec (n : Nat) : t.recipeEntry n = s.recipeEntry n := by unfold State.recipeEntry; rw [hr]
  unfold State.setpoint
  simp only [hcfg, hch, hmid, hrec]

/-- Making the figures again leaves every zone of a SETTER at its setpoint in force (R130). -/
theorem refresh_setpoints {s : State} (hs : s.is .setter = true) (ho : s.operating = true) (z : Nat)
    (hz : z < (refresh s).heat.zones.length) : ((refresh s).zone z).sp = (refresh s).setpoint z := by
  generalize hv : demandTest (parkTest s) = v
  have hl : (refresh s).loader = (loadSetpoints v).loader := by subst hv; simp
  have hheat : (refresh s).heat = (loadSetpoints v).heat := by
    simp [refresh, refreshHeat, hs, ho, speedFloorTest, hv]
  have hw : (refresh s).web = (loadSetpoints v).web := by subst hv; simp
  rw [setpoint_congr (s := v) (by simpa using hl) (by simpa using hw) (by rw [hheat]; rfl) (by rw [hheat]; rfl)
    (by rw [hheat]; rfl)]
  rw [hheat] at hz
  unfold State.zone
  rw [hheat]
  simp only [loadSetpoints, State.withHeat_heat, List.length_mapIdx] at hz ⊢
  simp [List.getElem?_eq_getElem hz]

/-- A command ends with its figures current (R37, R130, R181, R191). -/
theorem conclude_current (s : State) : FiguresCurrent (conclude s) := by
  have setpoints (u : State) : (refresh u).operating = true → (refresh u).is .setter = true →
      ∀ z, z < (refresh u).heat.zones.length → ((refresh u).zone z).sp = (refresh u).setpoint z := by
    have hl := (refresh_figures u).loader
    intro ho hs
    exact refresh_setpoints (is_of_image (congrArg Loader.image hl) _ ▸ hs)
      ((congrArg (fun l => operatingMode (Loader.mode l)) hl).symm.trans ho)
  refine ⟨conclude_vT s, ?_, ?_⟩
  · rcases conclude_cases s with ⟨h, -⟩ | ⟨h, -⟩ <;> rw [h] <;> exact setpoints _
  · rcases conclude_cases s with ⟨h, hdue⟩ | ⟨h, -⟩ <;> rw [h]
    · exact hdue
    · rw [Bool.eq_false_iff]
      intro hdue
      have hm := (enterActive_sets (refresh s)).1
      have : (refresh (settle (enterActive (refresh s)))).mode = .active := by simpa [State.mode] using hm
      rcases mode_of_activeDue hdue with h | h <;> cases this.symm.trans h

end Sys2Proof.Machine
end

