-- ==== Sys2Proof/Proofs/GuardsCommands.lean ====
section
/-! PROOFS. Each command's own operation keeps speed, motion and timers. -/

namespace Sys2Proof.Machine
open Sys2Proof

/-! ## Field lines (R1, R15, R64 to R70, R158, R161) -/

theorem countAndTest_guards (encoder : EncoderName) (forward : Bool) (s : State) :
    Guards s (countAndTest encoder forward s) := by
  have ht : Guards s (countEdge encoder forward s) := by
    cases encoder with
    | encoder1 => exact .web s _
    | encoder2 => exact .ite (fun _ => .web s _) (fun _ => .refl s)
  exact .ite (fun _ => ht.trans (addTrip_guards ..)) (fun _ => ht)

theorem regLostTest_guards (s : State) : Guards s (regLostTest s) := .ite (fun _ => latchRegLost_guards s) (fun _ => .refl s)

theorem takeMark_guards (high : Bool) (s : State) : Guards s (takeMark high s) := by
  unfold takeMark
  dsimp only
  refine .ite (fun _ => ?_) (fun _ => .pins s _)
  split
  · exact Guards.trans (.pins s _) (.web _ _)
  · exact Guards.trans (.pins s _) (.web _ _)
  · exact .pins s _

theorem strokeDone_guards (s : State) : Guards s (strokeDone s) := by
  unfold strokeDone
  split
  · exact .refl s
  · dsimp only
    refine Guards.trans ?_ (afterKnife_guards _)
    exact .ite (fun _ => idleKnife_guards s) (fun _ => (idleKnife_guards s).trans (.runs _))

theorem strokeStalled_guards (s : State) : Guards s (strokeStalled s) := by
  unfold strokeStalled
  split
  · exact .refl s
  · exact (idleKnife_guards s).trans ((markSeg_guards ..).trans ((afterKnife_guards _).trans (addTrip_guards ..)))

theorem moveDone_guards (s : State) : Guards s (moveDone s) := by
  unfold moveDone
  split
  · exact .refl s
  · rename_i m _
    have ht : Guards s (s.withPattern { s.pattern with depth := some m.target, move := none }) :=
      .pattern s _ (fun _ _ => rfl) (fun _ h => h)
    exact ht.trans (afterKnife_guards _)

theorem jamTest_guards (s : State) : Guards s (jamTest s) :=
  .ite (fun _ => Guards.trans (.runs s) (addTrip_guards ..)) (fun _ => .refl s)

theorem limitStroke_guards (microseconds : Nat) (s : State) : Guards s (limitStroke microseconds s) := by
  unfold limitStroke
  split
  · exact .refl s
  · rename_i k hk
    refine .ite (fun _ => .refl s) (fun _ => ?_)
    have ha : Guards s (s.withPattern { s.pattern with
        stroke := some { k with limited := true }, limitCount := s.pattern.limitCount + 1 }) :=
      .pattern s _ (fun _ h => h) (fun _ h => by rw [hk] at h; cases h)
    exact ha.trans ((markSeg_guards ..).trans (Guards.trans (.cond _ _) ((raise_guards ..).trans (jamTest_guards _))))

theorem cutDone_guards (s : State) : Guards s (cutDone s) := .outfeed s _ (fun _ _ => rfl) (fun _ h => h)

theorem gateDone_guards (s : State) : Guards s (gateDone s) := by
  unfold gateDone
  split
  · exact .ite (fun _ => setGate_guards _ s (fun _ => rfl))
      (fun _ => (setGate_guards _ s (fun _ => rfl)).trans (raise_guards ..))
  · exact .refl s
  · exact .refl s

/-! ## Arms and the timers of a splice (R99 to R121) -/

theorem revolve_guards (a : ArmName) (active : Bool) (s : State) : Guards s (revolve a active s) :=
  .ite (fun _ => Guards.trans (.pins s _) (takeRevolution_guards ..)) (fun _ => .pins s _)

theorem changeReady_guards (a : ArmName) (active : Bool) (s : State) : Guards s (changeReady a active s) := by
  unfold changeReady
  dsimp only
  have ht : Guards s (s.withPins (s.pins.setReady a active)) := .pins s _
  refine .ite (fun _ => ?_) (fun _ => ht)
  split
  · exact ht.trans ((setArm_guards ..).trans ((spliceTest_guards _).trans (rollConditions_guards _)))
  · exact ht.trans ((setArm_guards ..).trans ((rollConditions_guards _).trans (abortIf_guards ..)))
  · exact ht

theorem changeEmpty_guards (a : ArmName) (active : Bool) (s : State) : Guards s (changeEmpty a active s) :=
  .ite (fun _ => Guards.trans (.pins s _) (emptyArm_guards ..)) (fun _ => .pins s _)

/-- The paste output goes off outside PASTE (R123). -/
theorem stopPaste_guards {s : State} (h : s.roll.spliceState ≠ .paste) : Guards s (stopPaste s) :=
  .roll s _ (fun _ h => h) (fun hr => ⟨rfl, fun hp => absurd hp h, hr.web⟩)

theorem bringIn_guards (s : State) : Guards s (bringIn s) := by
  unfold bringIn
  split
  · split
    · exact activateArm_guards ..
    · exact activateArm_guards ..
    all_goals exact .refl s
  · exact .refl s

theorem bringIn_splice (s : State) : (bringIn s).roll.spliceState = s.roll.spliceState ∧
    (bringIn s).roll.webSeen = s.roll.webSeen := by
  unfold bringIn
  split
  · split <;> simp
  · exact ⟨rfl, rfl⟩

/-- The paste timer's expiry in PASTE stops the paste, enters START_NEW, and in ACTIVE starts the web-present timer (R118). -/
theorem pasteDone_guards (s : State) : Guards s (pasteDone s) := by
  refine .ite (fun hs => ?_) (fun hs => stopPaste_guards hs)
  have ha : Guards s (s.withRoll { s.roll with
      pasteOutput := false, pasteTimer := none, webSeen := false, spliceState := .startNew }) :=
    .roll s _ (fun _ h => h) (fun h => ⟨rfl, nofun, by simp [h.web_none (by simp [hs])]⟩)
  have hb := ha.trans ((rollConditions_guards _).trans (bringIn_guards _))
  obtain ⟨hstate, hseen⟩ := bringIn_splice (rollConditions (s.withRoll { s.roll with
      pasteOutput := false, pasteTimer := none, webSeen := false, spliceState := .startNew }))
  refine .ite (fun hm => hb.trans ?_) (fun _ => hb)
  refine .roll _ _ (fun _ h => h) (fun h => ⟨h.paste, h.pasting, fun _ => ⟨?_, hm, ?_⟩⟩)
  · exact hstate.trans (by simp)
  · exact hseen.trans (by simp)

theorem webPresentExpiry_guards (s : State) : Guards s (webPresentExpiry s) := by
  unfold webPresentExpiry
  refine .ite (fun _ => ?_) (fun _ => .refl s)
  have ht : Guards s (s.withRoll { s.roll with webTimer := none }) :=
    .roll s _ (fun _ h => h) (fun h => h.enter rfl rfl (fun hp => hp) rfl)
  exact .ite (fun _ => ht.trans (addTrip_guards ..)) (fun _ => ht)

/-! ## The ramp, the peers and the station's timers (R25, R29, R30, R38, R41, R44, R190) -/

@[simp] theorem tickTimer_isSome (t : Timer) : (tickTimer t).isSome = t.isSome := Option.isSome_map ..

@[simp] theorem tick_moving (g : Gate) : g.tick.moving = g.moving := by cases g <;> rfl

theorem tickTimers_guards (s : State) : Guards s (tickTimers s) :=
  .of_watched (by simp [State.watched, State.timings, tickTimers])

theorem followPeerLate_guards (s : State) : Guards s (followPeerLate s) := follow_guards ..

theorem agePeers_guards (s : State) : Guards s (agePeers s) := by
  have ht := Guards.trans (.peers s (s.peers.map PeerEntry.aged)) (followPeerLate_guards _)
  exact .ite (fun _ => ht.trans (raise_guards ..)) (fun _ => ht)

theorem lateTest_guards (address : Nat) (s : State) : Guards s (lateTest address s) :=
  .ite (fun _ => Guards.trans (.peers s _) (followPeerLate_guards _)) (fun _ => .refl s)

theorem lostTest_guards (address : Nat) (s : State) : Guards s (lostTest address s) :=
  .ite (fun _ => Guards.trans (.peers s _) ((followPeerLate_guards _).trans (raise_guards ..))) (fun _ => .refl s)

theorem pulseExpiry_guards {s : State} (ho : s.operating = true) : Guards s (pulseExpiry s) :=
  .ite (fun _ => pulseForMode_guards ho) (fun _ => .refl s)

theorem joinExpiry_guards (s : State) : Guards s (joinExpiry s) := by
  refine .ite (fun h => .ite (fun _ => ?_) (fun _ => .join s none nofun)) (fun _ => .refl s)
  exact (raise_guards ..).trans (.join _ _ (fun _ => .inr (by simpa [State.mode] using h.1)))

theorem tripExpiry_guards (s : State) : Guards s (tripExpiry s) :=
  .ite (fun h => clearDrive_guards (fun hd => (hd.trip_timer h).1)) (fun _ => .refl s)

theorem setEstop_guards (active : Bool) (s : State) : Guards s (setEstop active s) :=
  .ite (fun _ => Guards.trans (.pins s _) (addTrip_guards ..)) (fun _ => .pins s _)

/-! ## The bus unit (R200 to R213) -/

theorem countCheckError_guards (s : State) : Guards s (countCheckError s) := .cond s _

theorem hearDuplicate_guards (s : State) : Guards s (hearDuplicate s) :=
  .ite (fun _ => .refl s) (fun _ =>
    have ht : Guards s (s.withBus { s.bus with duplicate := true }) := .bus s _ (fun h => h)
    ht.trans ((raise_guards ..).trans (addTrip_guards ..)))

theorem receiveFrame_guards (bits : List Bool) (s : State) : Guards s (receiveFrame bits s) := by
  unfold receiveFrame
  split
  · exact countCheckError_guards s
  · refine .ite (fun _ => hearDuplicate_guards s) (fun _ => .ite (fun _ => ?_) (fun _ => .ite (fun _ => ?_) (fun _ => ?_)))
    · exact Guards.trans (.cond s _) (raise_guards ..)
    · exact .bus s _ (fun h => h)
    · refine .ite (fun _ => .ite (fun _ => .bus s _ (fun h => h)) (fun _ => ?_)) (fun _ => .refl s)
      exact Guards.trans (.cond s _) (raise_guards ..)

theorem beginTransmission_guards (s : State) : Guards s (beginTransmission s) := by
  unfold beginTransmission
  refine .ite (fun _ => ?_) (fun _ => .refl s)
  split
  · exact .refl s
  · exact setTx_guards ..

theorem offerPending_guards (s : State) : Guards s (offerPending s) := .of_watched (by simp [State.watched, State.timings])

theorem completeTransmission_guards (s : State) : Guards s (completeTransmission s) := by
  unfold completeTransmission
  split
  · exact .refl s
  · rename_i e _
    have ht : Guards s (dropSent s) := setTx_guards ..
    have hn (u : State) : Guards u (noteSent e u) :=
      .ite (fun _ => .of_watched (by simp [State.watched, State.timings])) (fun _ => .refl u)
    have hc : Guards (dropSent s) ((dropSent s).withBus { (dropSent s).bus with faultCount := 0 }) := .bus _ _ (fun h => h)
    exact ht.trans (hc.trans ((hn _).trans (offerPending_guards _)))

theorem makeWaiting_guards (s : State) : Guards s (makeWaiting s) := setTx_guards ..

theorem busOffTest_guards (s : State) : Guards s (busOffTest s) :=
  .ite (fun _ => Guards.trans (.bus s _ (fun _ => rfl)) ((raise_guards ..).trans (setHold_guards ..))) (fun _ => .refl s)

theorem faultSender_guards (s : State) : Guards s (faultSender s) := by
  refine .ite (fun _ => ?_) (fun _ => .refl s)
  have hc : Guards (makeWaiting s) ((makeWaiting s).withBus
      { (makeWaiting s).bus with faultCount := saturate 16 ((makeWaiting s).bus.faultCount + 1) }) := .bus _ _ (fun h => h)
  exact (makeWaiting_guards s).trans (hc.trans ((raise_guards ..).trans (busOffTest_guards _)))

theorem recoverBus_guards (s : State) : Guards s (recoverBus s) :=
  .ite (fun _ => Guards.trans (.bus s _ (fun _ => rfl)) ((fall_guards ..).trans (clearHold_guards ..))) (fun _ => .refl s)

/-! ## Telegrams of every role (R11 to R14, R20, R21, R28, R32, R34, R46, R179, R192, R193) -/

theorem freed_guards (s : State) (rest : List RxEntry) : Guards s (s.freed rest) := .bus s _ (fun h => h)

theorem takeAs_guards {s : State} (k : Kind) (f : RxEntry → State → State)
    (hf : ∀ e t, Guards t (f e t)) : Guards s (takeAs k f s) := by
  unfold takeAs
  split
  · rename_i e t h
    obtain ⟨rest, -, -, rfl⟩ := takeEntry_eq_some h
    exact (freed_guards s rest).trans (hf e _)
  · exact .refl s

theorem takeTripClear_guards (e : RxEntry) (s : State) : Guards s (takeTripClear e s) := by
  refine .ite (fun h => ?_) (fun _ => .refl s)
  simp only [State.clearAccepted, Bool.and_eq_true, beq_iff_eq] at h
  exact leaveTrip_guards h.1.1.1 h.1.1.2

theorem takeSpeedSet_guards (e : RxEntry) (s : State) : Guards s (takeSpeedSet e s) :=
  .ite (fun _ => .gov s _ rfl rfl rfl rfl rfl (fun h => h)) (fun _ => .refl s)

theorem takeLinePulse_guards (e : RxEntry) (s : State) : Guards s (takeLinePulse e s) := by
  refine .ite (fun _ => ?_) (fun _ => .refl s)
  split
  · exact Guards.trans (.peers s _) (followPeerLate_guards _)
  · exact .refl s

theorem takeHandoff_guards (e : RxEntry) (s : State) : Guards s (takeHandoff e s) := by
  refine .ite (fun _ => ?_) (fun _ => .refl s)
  have hc (seg : Half) (new : Bool) : Guards s (checkSequence seg new s) :=
    .ite (fun _ => Guards.trans (.web s _) (raise_guards ..)) (fun _ => .web s _)
  exact (hc ..).trans (.ite (fun _ => (raise_guards ..).trans (setHold_guards ..)) (fun _ => placeSegment_guards ..))

theorem takeCancel_guards (e : RxEntry) (s : State) : Guards s (takeCancel e s) :=
  .ite (fun _ => (cancelPanel_guards ..).trans (cancelOrder_guards ..)) (fun _ => cancelPanel_guards ..)

theorem ackZone_guards (z : Nat) (s : State) : Guards s (ackZone z s) := by
  unfold ackZone
  extract_lets x t
  have ht : Guards s t := .ite (fun _ => setZone_guards _ _ s (fun _ => .inr rfl)) (fun _ => .refl s)
  exact .ite (fun _ => .ite (fun _ => ht.trans (reassert_guards ..)) (fun _ => ht.trans (fall_guards ..))) (fun _ => ht)

theorem ackLatched_guards (c : Cond) (s : State) : Guards s (ackLatched c s) := by
  cases c with
  | regLost => exact Guards.trans (.web s _) ((fall_guards ..).trans (clearHold_guards ..))
  | mapFull => exact (fall_guards ..).trans (clearHold_guards ..)
  | dupAddress => exact .ite (fun _ => reassert_guards ..) (fun _ => fall_guards ..)
  | _ => exact fall_guards ..

theorem takeConditionAck_guards (e : RxEntry) (s : State) : Guards s (takeConditionAck e s) := by
  unfold takeConditionAck
  refine .ite (fun _ => .ite (fun _ => .foldl _ (fun t z => ackZone_guards z t) _ s) (fun _ => .refl s)) (fun _ => ?_)
  split
  · exact ackLatched_guards ..
  · exact .refl s

theorem takeStandby_guards (e : RxEntry) (s : State) : Guards s (takeStandby e s) :=
  .ite (fun h => enterStandby_guards h.1 h.2) (fun _ => .refl s)

theorem takeWake_guards (e : RxEntry) (s : State) : Guards s (takeWake e s) :=
  .ite (fun h => enterActive_guards (by simp [State.operating, h, operatingMode]) (by simp [h]) (by simp [h]))
    (fun _ => .refl s)

/-! ## Telegrams of one role (R52 to R60, R79, R97 to R99, R127) -/

theorem takeOrderMeasure_guards (e : RxEntry) (s : State) : Guards s (takeOrderMeasure e s) :=
  .ite (fun _ => admitOrder_guards ..) (fun _ => .refl s)

theorem takePanelOrder_guards (e : RxEntry) (s : State) : Guards s (takePanelOrder e s) :=
  .ite (fun _ => queueTx_guards ..) (fun _ => .refl s)

theorem dropUpload_guards (number : Option Nat) (status : UploadStatus) (s : State) : Guards s (dropUpload number status s) :=
  Guards.trans (.runs s) (.runs _)

theorem commitUpload_guards (u : Staging) (s : State) : Guards s (commitUpload u s) :=
  .ite (fun _ => Guards.trans (.runs s) (Guards.trans (.runs _) (.runs _)))
    (fun _ => Guards.trans (.runs s) (Guards.trans (.runs _) (.runs _)))

theorem stageUpload_guards (u : Staging) (last : Bool) (s : State) : Guards s (stageUpload u last s) :=
  .ite (fun _ => .ite (fun _ => commitUpload_guards ..) (fun _ => dropUpload_guards ..)) (fun _ => .runs s)

theorem takePatternFragment_guards (e : RxEntry) (s : State) : Guards s (takePatternFragment e s) := by
  refine .ite (fun _ => .ite (fun _ => ?_) (fun _ => ?_)) (fun _ => .refl s)
  · unfold beginUpload
    extract_lets u t
    have ht : Guards s t := by
      unfold t
      split <;> exact dropUpload_guards ..
    exact .ite (fun _ => ht.trans (stageUpload_guards ..)) (fun _ => ht.trans (dropUpload_guards ..))
  · unfold continueUpload
    split
    · exact dropUpload_guards ..
    · exact .ite (fun _ => .ite (fun _ => stageUpload_guards ..) (fun _ => dropUpload_guards ..))
        (fun _ => dropUpload_guards ..)

theorem takeRecipe_guards (e : RxEntry) (s : State) : Guards s (takeRecipe e s) :=
  .ite (fun _ => .chamber s (fun h => h)) (fun _ => .refl s)

/-- The status of a ROLL DATA (R97). -/
theorem setRollStatus_guards (arm : Nat) (r : RollResult) (s : State) : Guards s (setRollStatus arm r s) := by
  have ht : Guards s (s.withRoll { s.roll with statusArm := arm, statusResult := r }) := .of_watched rfl
  unfold setRollStatus
  cases r with
  | badField | busy | notTaken => exact ht.trans (raise_guards ..)
  | none | threaded | splice | loaded => exact ht

theorem loadPlain_guards (a : ArmName) (d : RollData) (s : State) : Guards s (loadPlain a d s) :=
  (loadArm_guards ..).trans ((spliceTest_guards _).trans ((rollConditions_guards _).trans (abortIf_guards ..)))

theorem loadRoll_guards (a : ArmName) (d : RollData) (s : State) : Guards s (loadRoll a d s) := by
  unfold loadRoll
  dsimp only
  refine .ite (fun _ => .ite (fun _ => ?_) (fun _ => (loadPlain_guards ..).trans (setRollStatus_guards ..)))
    (fun _ => .ite (fun _ => .ite (fun h => ?_) (fun _ => (loadPlain_guards ..).trans (setRollStatus_guards ..)))
      (fun _ => (loadPlain_guards ..).trans (setRollStatus_guards ..)))
  · exact (loadArm_guards ..).trans ((activateArm_guards ..).trans (setRollStatus_guards ..))
  · simp only [State.maySplice, Bool.and_eq_true, beq_iff_eq] at h
    refine (loadArm_guards ..).trans ((startSplice_guards a ?_).trans (setRollStatus_guards ..))
    rw [h.1.2]
    decide

theorem takeRollData_guards (e : RxEntry) (s : State) : Guards s (takeRollData e s) := by
  refine .ite (fun _ => ?_) (fun _ => .refl s)
  unfold describeRoll
  split
  · exact setRollStatus_guards ..
  · exact .ite (fun _ => setRollStatus_guards ..)
      (fun _ => .ite (fun _ => setRollStatus_guards ..) (fun _ => loadRoll_guards ..))

/-! ## The scan (R107, R124 to R142) -/

theorem compareFill_guards (s : State) : Guards s (compareFill s) := by
  unfold compareFill
  split
  · exact .refl s
  · rename_i v _
    refine .ite (fun _ => ?_) (fun _ => .refl s)
    have hb : Guards s (s.withRoll { s.roll with fillBase := v - signedDiff s.position s.outCount }) := .of_watched rfl
    have ht := hb.trans (raise_guards .accumDrift _)
    exact .ite (fun _ => ht.trans (addTrip_guards ..)) (fun _ => ht)

theorem scanTests_guards (s : State) : Guards s (scanTests s) := by
  unfold scanTests
  dsimp only
  refine (judgeFaults_guards s).trans ?_
  split
  · exact (doseTick_guards _).trans ((overTempTest_guards _).trans ((bandScan_guards _).trans (steamTest_guards _)))
  · exact compareFill_guards _
  all_goals exact .refl _

theorem readyHeatTest_guards (s : State) : Guards s (readyHeatTest s) :=
  .ite (fun _ => enterReadyHeat_guards s) (fun _ => .refl s)

theorem cutTest_guards (z : Nat) (s : State) : Guards s (cutTest z s) := .ite (fun _ => cutZone_guards z s) (fun _ => .refl s)

theorem heatBoundary_guards (s : State) : Guards s (heatBoundary s) := by
  refine .ite (fun h => ?_) (fun _ => .refl s)
  refine (controlZones_guards s).trans (.heat _ _ (fun _ h => h) (fun h => h) ?_)
  have := h.2
  simpa [running] using this.symm

theorem parkExpiry_guards (s : State) : Guards s (parkExpiry s) := .ite (fun _ => setChamber_guards ..) (fun _ => .refl s)

end Sys2Proof.Machine
end

