-- ==== Sys2Proof/Proofs/StepEnds.lean ====
section
/-! PROOFS. The ramp, and the shape in which every command of an operating station ends. -/

namespace Sys2Proof.Machine
open Sys2Proof

/-! ## The ramp (R38, R44) -/

/-- Units at rest move nothing (R39). -/
theorem AtRest.motionSafe {s : State} (h : AtRest s) : MotionSafe s :=
  .of_rests h.vU h.exitCommand h.move h.cutTimer h.gate h.valves h.stroke

/-- The ramp goes to 0 in TRIPPED and toward the target speed elsewhere, and passes neither (R38). -/
theorem rampedSpeed_cases (s : State) :
    (s.mode = .tripped ∧ s.rampedSpeed = s.gov.vA - s.cfg.aE) ∨
    (s.mode ≠ .tripped ∧ s.gov.vA < s.gov.vT ∧ s.rampedSpeed = min (s.gov.vA + s.cfg.aUp) s.gov.vT) ∨
    (s.mode ≠ .tripped ∧ s.gov.vT ≤ s.gov.vA ∧ s.rampedSpeed = max (s.gov.vA - s.cfg.aDn) s.gov.vT) := by
  unfold State.rampedSpeed
  split
  · exact .inl ⟨‹_›, rfl⟩
  · split
    · exact .inr (.inl ⟨‹_›, ‹_›, rfl⟩)
    · exact .inr (.inr ⟨‹_›, Nat.not_lt.1 ‹_›, rfl⟩)

/-- The ramp update moves the applied speed, and drive enable ends with a trip's standstill (R38, R44). -/
theorem rampGov_cases (s : State) :
    (s.mode = .tripped ∧ s.rampedSpeed = 0 ∧
      rampGov s = clearDrive ((s.withGov { s.gov with vA := 0 }).withGov { s.gov with vA := 0, tripTimer := none })) ∨
    (rampGov s = s.withGov { s.gov with vA := s.rampedSpeed } ∧ (s.mode = .tripped → 0 < s.gov.vA → 0 < s.rampedSpeed)) := by
  unfold rampGov
  dsimp only
  split
  · rename_i h
    obtain ⟨hm, -, hz⟩ := h
    have hz : s.rampedSpeed = 0 := hz
    exact .inl ⟨hm, hz, by rw [hz]; rfl⟩
  · rename_i h
    exact .inr ⟨rfl, fun hm hp => Nat.pos_of_ne_zero fun hz => h ⟨hm, hp, hz⟩⟩

theorem rampGov_vA (s : State) : (rampGov s).gov.vA = s.rampedSpeed := by
  rcases rampGov_cases s with ⟨-, hz, h⟩ | ⟨h, -⟩ <;> rw [h]
  · simp [hz]
  · rfl

/-- The ramp keeps the applied speed within v_line_max, and at 0 where nothing runs (R37, R38). -/
theorem rampGov_driven {s : State} (h : SpeedSafe s) : Driven (rampGov s) := by
  obtain ⟨le, tle, tzero, zero, set, trip, timer⟩ := h
  rcases rampGov_cases s with ⟨hm, hz, hr⟩ | ⟨hr, hp⟩
  · rw [hr]
    exact clearDrive_driven (Nat.zero_le _) hm rfl
  · rw [hr]
    have hcases := rampedSpeed_cases s
    refine ⟨?_, fun ha ht => ?_, set, fun hd ha hs => ?_, fun ht => ?_⟩
    · change s.rampedSpeed ≤ s.cfg.lineMax
      omega
    · have hv : s.gov.vA = 0 := zero ha ht
      have ht0 : s.gov.vT = 0 := tzero ha
      change s.rampedSpeed = 0
      omega
    · obtain ⟨hm, hpos, hrun⟩ := trip hd ha hs
      exact ⟨hm, hp hm hpos, hrun⟩
    · obtain ⟨hm, hpos, hd⟩ := timer ht
      exact ⟨hm, hp hm hpos, hd⟩

theorem rampGov_motion {s : State} (h : MotionSafe s) : MotionSafe (rampGov s) := by
  rcases rampGov_cases s with ⟨hm, -, hr⟩ | ⟨hr, -⟩ <;> rw [hr]
  · exact clearDrive_motion (h.knife (.inr hm))
  · exact { h with }

theorem rampGov_timings (s : State) : (rampGov s).timings = s.timings := by
  rcases rampGov_cases s with ⟨-, -, hr⟩ | ⟨hr, -⟩ <;> rw [hr]
  · exact clearDrive_timings _
  · rfl

/-- What a ramp update does after the applied speed has moved respects the invariants (R29, R109 to R112). -/
theorem rampRest_guards {s : State} (ho : s.operating = true) : Guards s (rampUnwind (agePeers s)) := by
  have hl : (agePeers s).loader = s.loader := by
    unfold agePeers
    dsimp only
    split <;> simp [followPeerLate]
  exact (agePeers_guards s).trans (rampUnwind_guards ((congrArg (fun l => operatingMode (Loader.mode l)) hl).trans ho))

/-- The ramp update: the timers and the pins first, and in the operating modes the ramp and what falls due (R38; log entries
6 and 52). -/
theorem exec_rampUpdate (w p d : Bool) (s : State) : ∃ v, Guards s v ∧ v.loader.image = s.loader.image ∧ v.mode = s.mode ∧
    v.gov.vT = s.gov.vT ∧ v.pins = { s.pins with webPresent := w, gatePass := p, gateDivert := d } ∧
    exec (.rampUpdate w p d) s = .next (if s.operating then finish (rampUnwind (agePeers (rampGov v))) else v) := by
  refine ⟨tickTimers (samplePins w p d s), Guards.trans (.pins s _) (tickTimers_guards _), ?_, ?_, ?_, ?_, ?_⟩
  · simp [tickTimers, samplePins]
  · simp [State.mode, tickTimers, samplePins]
  · simp [tickTimers, samplePins]
  · simp [tickTimers, samplePins]
  · rfl

/-! ## The commands of the operating modes -/

/-- A command of the operating modes does nothing, or ends an operation that respects the invariants. -/
def Ends (s t : State) : Prop := t = s ∨ ∃ u, Guards s u ∧ t = conclude u

theorem Ends.finish {s u : State} (h : Guards s u) : Ends s (finish u) := .inr ⟨settle u, h.trans (settle_guards u), rfl⟩

theorem Ends.guards {s t : State} (h : Ends s t) : Guards s t := by
  rcases h with rfl | ⟨u, hu, rfl⟩
  · exact .refl _
  · exact hu.trans (conclude_guards u)

theorem Ends.current {s t : State} (h : Ends s t) (hs : FiguresCurrent s) : FiguresCurrent t := by
  rcases h with rfl | ⟨u, -, rfl⟩
  · exact hs
  · exact conclude_current u

theorem operate_ends {f : State → State} {s t : State} (ho : s.operating = true) (hf : Guards s (f s))
    (h : operate f s = .next t) : Ends s t := by
  obtain rfl := Host.Outcome.next.inj h
  rw [if_pos ho]
  exact .inr ⟨_, hf, rfl⟩

theorem operateWeb_ends {f : State → State} {s t : State} (ho : s.operating = true) (hf : Guards s (f s))
    (h : operateWeb f s = .next t) : Ends s t := by
  obtain rfl := Host.Outcome.next.inj h
  rw [if_pos ho]
  exact .finish hf

/-- A command that is nothing but an operation and its end in the operating modes. -/
theorem concluded_ends {s u v t : State} (ho : s.operating = true) (hu : Guards s u)
    (h : (.next (if s.operating then conclude u else v) : Answer) = .next t) : Ends s t := by
  obtain rfl := Host.Outcome.next.inj h
  rw [if_pos ho]
  exact .inr ⟨u, hu, rfl⟩

theorem finished_ends {s u v t : State} (ho : s.operating = true) (hu : Guards s u)
    (h : (.next (if s.operating then finish u else v) : Answer) = .next t) : Ends s t := by
  obtain rfl := Host.Outcome.next.inj h
  rw [if_pos ho]
  exact .finish hu

/-- The ramp update, which moves the applied speed (R38). -/
def isRamp (c : Instr) : Bool :=
  match c with
  | .rampUpdate _ _ _ => true
  | _ => false

/-- Every command of the operating modes but the ramp update and those that end operation leaves the applied speed and respects
the invariants. -/
theorem exec_ends {c : Instr} {s t : State} (hc : endsOperation c = false) (hr : isRamp c = false) (ho : s.operating = true)
    (h : exec c s = .next t) : Ends s t := by
  have mode : s.mode ≠ .powerUp ∧ s.mode ≠ .configuring ∧ s.mode ≠ .configFault := by
    refine ⟨?_, ?_, ?_⟩ <;> intro hm <;> simp [State.operating, hm, operatingMode] at ho
  cases c with
  | powerOnReset => cases hc
  | restart => cases hc
  | rampUpdate w p d => cases hr
  | powerOnResetRelease =>
    obtain rfl := Host.Outcome.next.inj h
    exact .inl (if_neg mode.1)
  | configurationReadComplete answer =>
    replace h : execConfigurationReadComplete answer s = .next t := h
    simp only [execConfigurationReadComplete, mode.2.1, false_and, if_false] at h
    split at h <;> cases h
    exact .inl rfl
  | sensorScanComplete samples =>
    replace h : execSensorScanComplete samples s = .next t := h
    simp only [execSensorScanComplete, mode.2.1, false_and, if_false, ho, if_true] at h
    split at h
    · obtain rfl := Host.Outcome.next.inj h
      exact .finish ((takeSamples_guards ..).trans (scanTests_guards _))
    · cases h
  | sensorFault channel => exact operate_ends ho (declareFault_guards ..) h
  | sensorFaultClear channel => exact operate_ends ho (clearFault_guards ..) h
  | readyHeatEntry => exact operate_ends ho (readyHeatTest_guards s) h
  | zoneCut zone => exact operate_ends ho (cutTest_guards ..) h
  | heatControlBoundary => exact operate_ends ho (heatBoundary_guards s) h
  | parkTimerExpiry => exact operate_ends ho (parkExpiry_guards s) h
  | peerEntryLate address =>
    replace h : execPeerEntryLate address s = .next t := h
    unfold execPeerEntryLate at h
    split at h
    · exact operateWeb_ends ho (lateTest_guards ..) h
    · cases h
  | peerEntryLost address =>
    replace h : execPeerEntryLost address s = .next t := h
    unfold execPeerEntryLost at h
    split at h
    · exact operateWeb_ends ho (lostTest_guards ..) h
    · cases h
  | pulseTimerExpiry => exact operate_ends ho (pulseExpiry_guards ho) h
  | joinTimerExpiry => exact operate_ends ho (joinExpiry_guards s) h
  | tripTimerExpiry => exact operate_ends ho (tripExpiry_guards s) h
  | estopInput active => exact finished_ends ho (setEstop_guards ..) h
  | encoderEdge encoder forward => exact operateWeb_ends ho (countAndTest_guards ..) h
  | regLost => exact operate_ends ho (regLostTest_guards s) h
  | markInput high => exact finished_ends ho (takeMark_guards ..) h
  | strokeComplete => exact operate_ends ho (strokeDone_guards s) h
  | stallTimerExpiry => exact operateWeb_ends ho (strokeStalled_guards s) h
  | moveTimerExpiry => exact operate_ends ho (moveDone_guards s) h
  | currentLimitDetection microseconds => exact operateWeb_ends ho (limitStroke_guards ..) h
  | knifeJam => exact operateWeb_ends ho (jamTest_guards s) h
  | cutTimerExpiry => exact operate_ends ho (cutDone_guards s) h
  | gateTimerExpiry p d => exact concluded_ends (s := s) ho (Guards.trans (.pins s _) (gateDone_guards _)) h
  | revolutionPulse arm active => exact finished_ends ho (revolve_guards ..) h
  | armReadyChange arm active => exact finished_ends ho (changeReady_guards ..) h
  | armEmpty arm active => exact finished_ends ho (changeEmpty_guards ..) h
  | pasteTimerExpiry =>
    obtain rfl := Host.Outcome.next.inj h
    rw [if_pos ho]
    split
    · exact .finish (pasteDone_guards s)
    · exact .inl rfl
  | webPresentTimerExpiry => exact operateWeb_ends ho (webPresentExpiry_guards s) h
  | frameReceived bits =>
    have hf : execFrameReceived bits s = .next (finish (receiveFrame bits s)) := by
      unfold execFrameReceived
      split <;> simp_all
    obtain rfl := Host.Outcome.next.inj (hf.symm.trans h)
    exact .finish (receiveFrame_guards ..)
  | tripLatchTaken => exact operateWeb_ends ho (takeLatch_guards ho) h
  | transmissionBegin => exact operate_ends ho (beginTransmission_guards s) h
  | transmissionComplete => exact concluded_ends ho (completeTransmission_guards s) h
  | arbitrationLost => exact concluded_ends ho (makeWaiting_guards s) h
  | senderFault => exact concluded_ends ho (faultSender_guards s) h
  | busOff => exact operate_ends ho (busOffTest_guards s) h
  | recoveryTimerExpiry => exact operate_ends ho (recoverBus_guards s) h
  | tripClear => exact operateWeb_ends ho (takeAs_guards _ _ takeTripClear_guards) h
  | hold => exact operate_ends ho (takeAs_guards _ _ fun _ t => setHold_guards _ t) h
  | release => exact operate_ends ho (takeAs_guards _ _ fun _ t => clearHold_guards _ t) h
  | handoff => exact operateWeb_ends ho (takeAs_guards _ _ takeHandoff_guards) h
  | speedSet => exact operate_ends ho (takeAs_guards _ _ takeSpeedSet_guards) h
  | linePulse => exact operateWeb_ends ho (takeAs_guards _ _ takeLinePulse_guards) h
  | doseVerdict => exact operateWeb_ends ho (takeAs_guards _ _ fun _ _ => mergeVerdict_guards ..) h
  | orderMeasure => exact operate_ends ho (takeAs_guards _ _ takeOrderMeasure_guards) h
  | cancel => exact operateWeb_ends ho (takeAs_guards _ _ takeCancel_guards) h
  | conditionAck => exact operate_ends ho (takeAs_guards _ _ takeConditionAck_guards) h
  | panelOrder => exact operate_ends ho (takeAs_guards _ _ takePanelOrder_guards) h
  | patternFragment => exact operate_ends ho (takeAs_guards _ _ takePatternFragment_guards) h
  | recipe => exact operate_ends ho (takeAs_guards _ _ takeRecipe_guards) h
  | rollData => exact operateWeb_ends ho (takeAs_guards _ _ takeRollData_guards) h
  | standby => exact operateWeb_ends ho (takeAs_guards _ _ takeStandby_guards) h
  | wake => exact operateWeb_ends ho (takeAs_guards _ _ takeWake_guards) h
  | faultLampFlash =>
    obtain rfl := Host.Outcome.next.inj h
    exact .inl (if_neg mode.2.2)

end Sys2Proof.Machine
end

