-- ==== Sys2Proof/Proofs/StepStarts.lean ====
section
/-! PROOFS. The commands outside the operating modes and the starts keep speed, motion and timers (R183, R184, R195). -/

namespace Sys2Proof.Machine
open Sys2Proof

/-! ## Commands outside the operating modes -/

/-- What a command leaves outside the operating modes where it begins no start: the station stays outside them, with the target
speed as it was. -/
structure Idles (s t : State) : Prop where
  before : s.operating = false
  idle : t.operating = false
  target : t.gov.vT = s.gov.vT
  guards : Guards s t

theorem Idles.refl {s : State} (ho : s.operating = false) : Idles s s := ⟨ho, ho, rfl, .refl s⟩

theorem ne_of_idle {s : State} (ho : s.operating = false) :
    s.mode ≠ .joining ∧ s.mode ≠ .active ∧ s.mode ≠ .tripped ∧ s.mode ≠ .standby := by
  refine ⟨?_, ?_, ?_, ?_⟩ <;> intro hm <;> simp [State.operating, hm, operatingMode] at ho

/-- Outside the operating modes the applied speed is 0, drive enable clear and the trip timer stopped (R39, R44). -/
theorem Driven.idle {s : State} (d : Driven s) (ho : s.operating = false) :
    s.gov.vA = 0 ∧ s.gov.driveEnable = false ∧ s.gov.tripTimer = none := by
  obtain ⟨-, ha, ht, hs⟩ := ne_of_idle ho
  refine ⟨d.applied_zero ha ht, ?_, d.tripTimer_none (.inl ht)⟩
  rw [Bool.eq_false_iff]
  exact fun hd => ht (d.drive_in_trip hd ha hs).1

/-- Outside the operating modes a standstill with drive enable clear is all the speed invariant asks. -/
theorem Driven.of_idle {t : State} (ho : t.operating = false) (hv : t.gov.vA = 0) (hd : t.gov.driveEnable = false)
    (ht : t.gov.tripTimer = none) : Driven t := by
  obtain ⟨-, ha, -, hs⟩ := ne_of_idle ho
  exact ⟨by simp [hv], fun _ _ => hv, fun h => (h.elim ha hs).elim, by simp [hd], by simp [ht]⟩

/-- A change of the loader outside the operating modes leaves what stands of the timers of the units. -/
theorem Guards.idle {s t : State} (hs : s.operating = false) (ht : t.operating = false) (gov : t.gov = s.gov)
    (roll : t.roll = s.roll) (pattern : t.pattern = s.pattern) (outfeed : t.outfeed = s.outfeed)
    (heat : ∃ x, t.heat = { s.heat with channels := x }) (recovery : t.bus.recovery = s.bus.recovery)
    (off : t.bus.off = s.bus.off) (join : t.loader.joinTimer.isSome = true → s.loader.joinTimer.isSome = true)
    (reading : TimerSafe s → t.loader.reading = true → t.mode = .configuring ∧ t.loader.scanning = false)
    (scanning : TimerSafe s → t.loader.scanning = true → t.mode = .configuring) : Guards s t := by
  obtain ⟨sj, sa, st, ss⟩ := ne_of_idle hs
  obtain ⟨tj, ta, tt, ts⟩ := ne_of_idle ht
  obtain ⟨x, heat⟩ := heat
  have zones : t.heat.zones = s.heat.zones := by rw [heat]
  have chamber : t.heat.chamber = s.heat.chamber := by rw [heat]
  have park : t.heat.parkTimer = s.heat.parkTimer := by rw [heat]
  have timer : t.heat.heatTimer = s.heat.heatTimer := by rw [heat]
  refine ⟨by rw [gov], fun d => ?_, fun _ m => ?_, fun x => ?_⟩
  · obtain ⟨hv, hd, hn⟩ := d.idle hs
    exact .of_idle ht (by rw [gov, hv]) (by rw [gov, hd]) (by rw [gov, hn])
  · obtain ⟨m1, m2, m3, m4, m5, m6⟩ := m
    simp only [st, or_false] at m5 m6
    constructor <;> simpa only [gov, roll, pattern, outfeed, zones, tt, or_false]
  · exact
      { join := fun h => absurd (x.join (join h)) sj
        pulse := by rw [gov, ht, x.pulse, hs]
        recovery := by rw [recovery, off, x.recovery]
        paste := by rw [roll, x.paste]
        pasting := fun h => absurd (x.pasting (roll ▸ h)).1 (by simp [hs])
        web := fun h => absurd (x.web (roll ▸ h)).2.1 sa
        park := fun h => chamber.trans (x.park (park ▸ h))
        heat := by rw [timer, x.heat, hs, ht, Bool.false_and, Bool.false_and]
        reading := reading x
        scanning := scanning x
        trips := by rw [gov, x.trips]; exact ⟨fun h => absurd h st, fun h => absurd h tt⟩
        before := by rw [gov, x.before]; exact ⟨fun h => absurd h st, fun h => absurd h tt⟩ }

/-- Outside the operating modes the target speed is 0, no setpoint is in force and no entry due (R37, R130, R191). -/
theorem FiguresCurrent.of_idle {t : State} (ho : t.operating = false) (hv : t.gov.vT = 0) : FiguresCurrent t := by
  obtain ⟨hj, ha, -, hs⟩ := ne_of_idle ho
  refine ⟨hv.trans ((targetSpeed_bounds t).2 ha).symm, by simp [ho], ?_⟩
  rw [Bool.eq_false_iff]
  exact fun hdue => (mode_of_activeDue hdue).elim hj hs

theorem Idles.current {s t : State} (h : Idles s t) (hv : s.gov.vT = 0) : FiguresCurrent t :=
  .of_idle h.idle (h.target.trans hv)

/-! ## The starts -/

/-- A start: the power-on reset, a RESTART taken, and the first scan after a record that passed (R183, R184, R195). -/
inductive Starts (s : State) : State → Prop
  | reset (p : Pins) (q : List Instr) : Starts s ((State.reset.withPins p).withPending q)
  | restart {u : State} (h : Guards s u) : Starts s (takeRestart u)
  | firstScan (samples : List (BitVec 12)) (h : s.loader.scanning = true) : Starts s (leaveConfiguring (takeSamples samples s))

/-- What `enterConfiguring` is entered with after a RESTART: nothing but the recipes, the arms and the paste in flight
(R189, R195). -/
theorem takeRestart_frame (u : State) : (takeRestart u).mode = .configuring ∧ (takeRestart u).gov = {} ∧
    (takeRestart u).outfeed = {} ∧ (takeRestart u).roll = u.roll.atRestart ∧
    (takeRestart u).pattern = { slots := u.pattern.slots } ∧ (takeRestart u).heat = { recipes := u.heat.recipes } ∧
    (takeRestart u).bus.recovery = none ∧ (takeRestart u).bus.off = false ∧ (takeRestart u).loader.joinTimer = none ∧
    (takeRestart u).loader.reading = true ∧ (takeRestart u).loader.scanning = false :=
  ⟨rfl, rfl, rfl, rfl, rfl, rfl, rfl, rfl, rfl, rfl, rfl⟩

theorem takeRestart_motion (u : State) : MotionSafe (takeRestart u) :=
  .of_rests rfl rfl rfl rfl rfl (by simp [(takeRestart_frame u).2.2.2.2.2.1]) rfl

/-- A RESTART leaves no timer running but that of a paste in flight (R117, R195). -/
theorem takeRestart_timers {u : State} (h : TimerSafe u) : TimerSafe (takeRestart u) where
  join := nofun
  pulse := rfl
  recovery := rfl
  paste := h.paste
  pasting := nofun
  web := nofun
  park := nofun
  heat := rfl
  reading := fun _ => ⟨rfl, rfl⟩
  scanning := nofun
  trips := ⟨fun h => absurd rfl h, nofun⟩
  before := ⟨nofun, nofun⟩

/-- The bus and the governor at a start (R48, R213). -/
theorem startUnits_line (a : State) : (startUnits a).bus.recovery = none ∧ (startUnits a).bus.off = false ∧
    (startUnits a).gov.tripTimer = none ∧ (startUnits a).gov.beforeTrip = none ∧ (startUnits a).loader = a.loader := by
  unfold startUnits
  extract_lets c b
  have hl : b.loader = a.loader := by simp [b, c, startHeat, startRoll, startPattern, startOrder, startWeb]
  have hb : b.bus.recovery = none ∧ b.bus.off = false ∧ b.gov.tripTimer = none ∧ b.gov.beforeTrip = none ∧
      b.loader = a.loader := ⟨rfl, rfl, rfl, rfl, hl⟩
  split
  · simpa [loadFlatCeiling] using hb
  · exact hb

/-- The start values as an entry to JOINING finds them: the control boundary of a SETTER runs, and a paste in flight
(R117, R156). -/
theorem startUnits_entering {a : State} (paste : a.roll.pasteTimer.isSome = a.roll.pasteOutput)
    (reading : a.loader.reading = false) (scanning : a.loader.scanning = false) : Entering (startUnits a) := by
  obtain ⟨-, hu, trips⟩ := startUnits_start a
  obtain ⟨recovery, off, -, before, hl⟩ := startUnits_line a
  have hp : (startUnits a).roll.pasteTimer = a.roll.pasteTimer :=
    (congrArg RollUnit.pasteTimer hu.roll :)
  have hout : (startUnits a).roll.pasteOutput = a.roll.pasteOutput :=
    (congrArg RollUnit.pasteOutput hu.roll :)
  have hs : (startUnits a).roll.spliceState = .run := congrArg RollUnit.spliceState hu.roll
  have hw : (startUnits a).roll.webTimer = none := congrArg RollUnit.webTimer hu.roll
  have his : (startUnits a).is .setter = a.is .setter := is_of_image (congrArg Loader.image hl) _
  refine ⟨by simp [recovery, off], by rw [hp, hout, paste], by simp [hs], hw, ?_, ?_, by rw [hl, reading],
    by rw [hl, scanning], trips, before⟩
  · rw [hu.heat]
    exact nofun
  · rw [hu.heat, his]
    simp only [startHeat, State.withHeat_heat]
    cases a.is .setter <;> rfl

/-- The end of CONFIGURING up to what it concludes keeps the invariants, from the start values (R48, R190). -/
theorem startedLine_safe (a : State) : Driven (startedLine a) ∧ MotionSafe (startedLine a) ∧
    (Entering (startUnits a) → TimerSafe (startedLine a)) := by
  obtain ⟨sl, su, -⟩ := startUnits_start a
  obtain ⟨hl, hu, -⟩ := enterJoining_start sl su
  have d : Driven (enterJoining (startUnits a)) := enterJoining_driven sl.vA sl.driveEnable (startUnits_line a).2.2.1
  have g : Guards (enterJoining (startUnits a)) (startedLine a) := .ite (fun _ => addTrip_guards ..) (fun _ => .refl _)
  exact ⟨g.speed d, g.motion d (hu.rest hl).motionSafe, fun h => g.timers (enterJoining_timers h)⟩

namespace Starts
variable {s t : State}

theorem applied (h : Starts s t) : t.gov.vA = 0 := by
  cases h with
  | reset => rfl
  | restart => rfl
  | firstScan samples => exact (finish_guards _).applied.trans (startedLine_start _).1.vA

theorem driven (h : Starts s t) : Driven t := by
  cases h with
  | reset => exact .of_idle rfl rfl rfl rfl
  | restart => exact .of_idle rfl rfl rfl rfl
  | firstScan samples => exact (finish_guards _).speed (startedLine_safe _).1

theorem motion (h : Starts s t) : MotionSafe t := by
  cases h with
  | reset => exact .of_rests rfl rfl rfl rfl rfl (by simp [State.reset]) rfl
  | restart => exact takeRestart_motion _
  | firstScan samples => exact (finish_guards _).motion (startedLine_safe _).1 (startedLine_safe _).2.1

theorem timers (h : Starts s t) (hs : TimerSafe s) : TimerSafe t := by
  cases h with
  | reset p q =>
    exact ⟨nofun, rfl, rfl, rfl, nofun, nofun, nofun, rfl, nofun, nofun, ⟨fun h => absurd rfl h, nofun⟩, ⟨nofun, nofun⟩⟩
  | restart h => exact takeRestart_timers (h.timers hs)
  | firstScan samples scanning =>
    have x := (takeSamples_guards samples s).timers hs
    have reading : s.loader.reading = false := by
      rw [Bool.eq_false_iff]
      intro hr
      simp [(hs.reading hr).2] at scanning
    exact (finish_guards _).timers ((startedLine_safe _).2.2 (startUnits_entering x.paste (by simpa using reading) rfl))

theorem current (h : Starts s t) : FiguresCurrent t := by
  cases h with
  | reset => exact .of_idle rfl rfl
  | restart => exact .of_idle rfl rfl
  | firstScan samples => exact conclude_current _

end Starts

/-! ## Every command -/

/-- The completion of a record read: nothing, the record in force, or CONFIG_FAULT (R184, R188). -/
theorem execConfigurationReadComplete_idles {s t : State} {answer : Option (List Byte)} (ho : s.operating = false)
    (h : execConfigurationReadComplete answer s = .next t) : Idles s t := by
  unfold execConfigurationReadComplete at h
  split at h
  · obtain rfl := Host.Outcome.next.inj h
    split
    · rename_i hm
      obtain ⟨mode, reading⟩ := hm
      unfold takeRecord
      split
      · exact ⟨ho, rfl, rfl, .idle ho rfl rfl rfl rfl rfl ⟨_, rfl⟩ rfl rfl (fun h => h) (fun _ => nofun)
          fun x h => by cases (x.reading reading).2.symm.trans h⟩
      · exact ⟨ho, ho, rfl, .idle ho ho rfl rfl rfl rfl ⟨_, rfl⟩ rfl rfl (fun h => h) (fun _ => nofun) fun _ _ => mode⟩
    · exact .refl ho
  · cases h

/-- Every command outside the operating modes idles or begins a start. -/
theorem exec_idle {c : Instr} {s t : State} (ho : s.operating = false) (h : exec c s = .next t) : Idles s t ∨ Starts s t := by
  have stay (h : t = s) : Idles s t ∨ Starts s t := by
    subst h
    exact .inl (.refl ho)
  have pins (x : Pins) : Idles s (s.withPins x) := ⟨ho, ho, rfl, .pins s x⟩
  have level {u : State} {x : Pins} (h : (.next (if s.operating then u else s.withPins x) : Answer) = .next t) :
      Idles s t ∨ Starts s t := by
    obtain rfl := Host.Outcome.next.inj h
    rw [if_neg (by simp [ho])]
    exact .inl (pins x)
  have sent {u : State} (h : (.next (if s.operating then u else dropSent s) : Answer) = .next t) :
      Idles s t ∨ Starts s t := by
    obtain rfl := Host.Outcome.next.inj h
    rw [if_neg (by simp [ho])]
    exact .inl ⟨ho, ho, rfl, setTx_guards ..⟩
  cases c with
  | powerOnReset =>
    cases h
    exact .inr (.reset ..)
  | powerOnResetRelease =>
    obtain rfl := Host.Outcome.next.inj h
    refine .inl ?_
    split
    · exact ⟨ho, rfl, rfl, .idle ho rfl rfl rfl rfl rfl ⟨_, rfl⟩ rfl rfl nofun (fun _ _ => ⟨rfl, rfl⟩) fun _ => nofun⟩
    · exact .refl ho
  | configurationReadComplete answer => exact .inl (execConfigurationReadComplete_idles ho h)
  | sensorScanComplete samples =>
    replace h : execSensorScanComplete samples s = .next t := h
    unfold execSensorScanComplete at h
    split at h
    · obtain rfl := Host.Outcome.next.inj h
      split
      · exact .inr (.firstScan samples ‹_ ∧ _›.2)
      · exact .inl (by simpa [ho] using Idles.refl ho)
    · cases h
  | rampUpdate w p d =>
    obtain ⟨v, hv, -, mode, target, -, he⟩ := exec_rampUpdate w p d s
    obtain rfl := Host.Outcome.next.inj (he.symm.trans h)
    rw [if_neg (by simp [ho])]
    exact .inl ⟨ho, (congrArg operatingMode mode).trans ho, target, hv⟩
  | peerEntryLate address =>
    replace h : execPeerEntryLate address s = .next t := h
    unfold execPeerEntryLate at h
    split at h
    · exact stay (operateWeb_idle ho h)
    · cases h
  | peerEntryLost address =>
    replace h : execPeerEntryLost address s = .next t := h
    unfold execPeerEntryLost at h
    split at h
    · exact stay (operateWeb_idle ho h)
    · cases h
  | estopInput | markInput | revolutionPulse | armReadyChange | armEmpty => exact level h
  | gateTimerExpiry p d =>
    obtain rfl := operate_idle (s := s.withPins { s.pins with gatePass := p, gateDivert := d }) ho h
    exact .inl (pins _)
  | pasteTimerExpiry =>
    obtain rfl := Host.Outcome.next.inj h
    refine .inl ?_
    split
    · rw [if_neg (by simp [ho])]
      exact ⟨ho, ho, rfl, .roll s _ (fun _ h => h) fun hr =>
        ⟨rfl, fun hp => absurd (hr.pasting hp).1 (ne_true_of_eq_false ho), hr.web⟩⟩
    · exact .refl ho
  | frameReceived bits =>
    rcases execFrameReceived_idle ho h with rfl | rfl
    · exact .inl (.refl ho)
    · exact .inr (.restart (.refl s))
  | transmissionComplete | arbitrationLost | senderFault => exact sent h
  | faultLampFlash =>
    obtain rfl := Host.Outcome.next.inj h
    refine .inl ?_
    split
    · unfold flashLamp
      split
      · exact ⟨ho, ho, rfl, .of_watched rfl⟩
      · exact .refl ho
    · exact .refl ho
  | restart =>
    obtain rfl := Host.Outcome.next.inj h
    rw [if_neg (by simp [ho])]
    exact .inl (.refl ho)
  | sensorFault | sensorFaultClear | readyHeatEntry | zoneCut | heatControlBoundary | parkTimerExpiry | pulseTimerExpiry
  | joinTimerExpiry | tripTimerExpiry | regLost | strokeComplete | moveTimerExpiry | cutTimerExpiry | transmissionBegin
  | busOff | recoveryTimerExpiry | hold | release | speedSet | orderMeasure | conditionAck | panelOrder | patternFragment
  | recipe => exact stay (operate_idle ho h)
  | encoderEdge | stallTimerExpiry | currentLimitDetection | knifeJam | webPresentTimerExpiry | tripLatchTaken | tripClear
  | handoff | linePulse | doseVerdict | cancel | rollData | standby | wake =>
    exact stay (operateWeb_idle ho h)

/-- The ramp update of an operating mode ends an operation that respects the invariants from the ramp on (R38). -/
theorem exec_ramp {w p d : Bool} {s t : State} (ho : s.operating = true) (h : exec (.rampUpdate w p d) s = .next t) :
    ∃ v u, Guards s v ∧ v.loader.image = s.loader.image ∧ v.mode = s.mode ∧ v.gov.vT = s.gov.vT ∧
      Guards (rampGov v) u ∧ t = conclude u := by
  obtain ⟨v, hv, image, mode, target, -, he⟩ := exec_rampUpdate w p d s
  obtain rfl := Host.Outcome.next.inj (he.symm.trans h)
  have hl : (rampGov v).mode = v.mode := congrArg Timings.mode (rampGov_timings v)
  have hr : (rampGov v).operating = true := (congrArg operatingMode (hl.trans mode)).trans ho
  rw [if_pos ho]
  exact ⟨v, _, hv, image, mode, target, (rampRest_guards hr).trans (settle_guards _), rfl⟩

/-- Every command but the ramp update ends an operation that respects the invariants, idles, or begins a start. -/
theorem exec_cases {c : Instr} {s t : State} (hr : isRamp c = false) (h : exec c s = .next t) :
    Ends s t ∨ Idles s t ∨ Starts s t := by
  cases ho : s.operating with
  | false => exact .inr (exec_idle ho h)
  | true =>
    cases hc : endsOperation c with
    | false => exact .inl (exec_ends hc hr ho h)
    | true =>
      cases c with
      | powerOnReset =>
        cases h
        exact .inr (.inr (.reset ..))
      | restart =>
        rcases execRestart_cases ho h with ⟨e, rest, -, -, ⟨-, rfl⟩ | ⟨-, rfl⟩⟩ | rfl
        · exact .inr (.inr (.restart (freed_guards ..)))
        · exact .inl (.inr ⟨_, freed_guards .., rfl⟩)
        · exact .inl (.inl rfl)
      | _ => cases hc

end Sys2Proof.Machine
end

