-- ==== Sys2Proof/Proofs/SpeedMotionTimers.lean ====
section
/-! PROOFS. O4, O5, O6, O11: every step keeps speed, motion, timers and figures. -/

namespace Sys2Proof.Machine
open Sys2Proof

/-! ## The three invariants over one command -/

theorem SpeedSafe.congr {s t : State} (h : SpeedSafe s) (d : Driven t) (mode : t.mode = s.mode)
    (image : t.loader.image = s.loader.image)
    (target : t.gov.vT = s.gov.vT) : SpeedSafe t :=
  { d with target_le := by rw [target, cfg_of_image image]; exact h.target_le
           target_zero := fun ha => target.trans (h.target_zero (mode ▸ ha)) }

/-- A command that ends an operation, idles or starts keeps the speeds and drive enable (R37, R38, R40, R44). -/
theorem speedSafe_of_cases {s t : State} (hs : SpeedSafe s) (h : Ends s t ∨ Idles s t ∨ Starts s t) : SpeedSafe t := by
  rcases h with (rfl | ⟨u, hu, rfl⟩) | hi | hb
  · exact hs
  · exact ((conclude_guards u).speed (hu.speed hs.driven)).speedSafe (conclude_vT u)
  · exact (hi.guards.speed hs.driven).speedSafe (hi.current (hs.target_zero (ne_of_idle hi.before).2.1)).target
  · exact hb.driven.speedSafe hb.current.target

theorem motionSafe_of_cases {s t : State} (hs : SpeedSafe s) (hm : MotionSafe s) (h : Ends s t ∨ Idles s t ∨ Starts s t) :
    MotionSafe t := by
  rcases h with he | hi | hb
  · exact he.guards.motion hs.driven hm
  · exact hi.guards.motion hs.driven hm
  · exact hb.motion

theorem timerSafe_of_cases {s t : State} (hs : TimerSafe s) (h : Ends s t ∨ Idles s t ∨ Starts s t) : TimerSafe t := by
  rcases h with he | hi | hb
  · exact he.guards.timers hs
  · exact hi.guards.timers hs
  · exact hb.timers hs

theorem figuresCurrent_of_cases {s t : State} (hs : FiguresCurrent s) (h : Ends s t ∨ Idles s t ∨ Starts s t) :
    FiguresCurrent t := by
  rcases h with he | hi | hb
  · exact he.current hs
  · exact hi.current (hs.target.trans ((targetSpeed_bounds s).2 (ne_of_idle hi.before).2.1))
  · exact hb.current

/-- The ramp update is the one command that is no such case, and in the operating modes alone (R38). -/
theorem exec_cases_or_ramp {c : Instr} {s t : State} (h : exec c s = .next t) : (Ends s t ∨ Idles s t ∨ Starts s t) ∨
    ∃ v u, Guards s v ∧ v.loader.image = s.loader.image ∧ v.mode = s.mode ∧ v.gov.vT = s.gov.vT ∧ Guards (rampGov v) u ∧
      t = conclude u := by
  cases hr : isRamp c with
  | false => exact .inl (exec_cases hr h)
  | true =>
    cases c with
    | rampUpdate w p d =>
      cases ho : s.operating with
      | false => exact .inl (.inr (exec_idle ho h))
      | true => exact .inr (exec_ramp ho h)
    | _ => cases hr

theorem exec_speedSafe {c : Instr} {s t : State} (hs : SpeedSafe s) (h : exec c s = .next t) : SpeedSafe t := by
  rcases exec_cases_or_ramp h with hc | ⟨v, u, hv, image, mode, target, hu, rfl⟩
  · exact speedSafe_of_cases hs hc
  · have sv : SpeedSafe v := hs.congr (hv.speed hs.driven) mode image target
    exact ((hu.trans (conclude_guards u)).speed (rampGov_driven sv)).speedSafe (conclude_vT u)

theorem exec_motionSafe {c : Instr} {s t : State} (hs : SpeedSafe s) (hm : MotionSafe s) (h : exec c s = .next t) :
    MotionSafe t := by
  rcases exec_cases_or_ramp h with hc | ⟨v, u, hv, image, mode, target, hu, rfl⟩
  · exact motionSafe_of_cases hs hm hc
  · have sv : SpeedSafe v := hs.congr (hv.speed hs.driven) mode image target
    exact (hu.trans (conclude_guards u)).motion (rampGov_driven sv) (rampGov_motion (hv.motion hs.driven hm))

theorem exec_timerSafe {c : Instr} {s t : State} (hs : TimerSafe s) (h : exec c s = .next t) : TimerSafe t := by
  rcases exec_cases_or_ramp h with hc | ⟨v, u, hv, -, -, -, hu, rfl⟩
  · exact timerSafe_of_cases hs hc
  · exact (hu.trans (conclude_guards u)).timers ((hv.timers hs).congr (rampGov_timings v))

theorem exec_current {c : Instr} {s t : State} (hs : FiguresCurrent s) (h : exec c s = .next t) : FiguresCurrent t := by
  rcases exec_cases_or_ramp h with hc | ⟨v, u, -, -, -, -, -, rfl⟩
  · exact figuresCurrent_of_cases hs hc
  · exact conclude_current u

/-! ## The step (log entry 1) -/

/-- A step idles on an empty queue, and else is its front command with that command taken. -/
theorem step_cases {s t : State} (h : step s = .next t) : t = s ∨ ∃ c rest, exec c (s.withPending rest) = .next t := by
  unfold step at h
  split at h
  · exact .inl (Host.Outcome.next.inj h).symm
  · exact .inr ⟨_, _, h⟩

/-- Settles O4, from what every operation keeps (`Guards`), the ramp, and the target speed made again at the end. -/
theorem speedInvariantKept : Obligations.SpeedInvariantKept := by
  intro s t hs h
  rcases step_cases h with rfl | ⟨c, rest, hc⟩
  · exact hs
  · exact exec_speedSafe (s := s.withPending rest) { hs with } hc

/-- Settles O5: no operation sets in motion what drive enable gates while it is clear, and the clearing of drive enable leaves
nothing in motion (`clearDrive_rests`). -/
theorem motionInvariantKept : Obligations.MotionInvariantKept := by
  intro s t hs hm h
  rcases step_cases h with rfl | ⟨c, rest, hc⟩
  · exact hm
  · exact exec_motionSafe (s := s.withPending rest) { hs with } { hm with } hc

/-- Settles O6, from what every operation keeps (`Guards`) and the timers of the starts. -/
theorem timerInvariantKept : Obligations.TimerInvariantKept := by
  intro s t hs h
  rcases step_cases h with rfl | ⟨c, rest, hc⟩
  · exact hs
  · exact exec_timerSafe (s := s.withPending rest) { hs with } hc

/-- Settles O11: every operation ends with its figures made again (`conclude_current`), and outside the operating modes there
are none. -/
theorem figuresStayCurrent : Obligations.FiguresStayCurrent := by
  intro s t hs h
  rcases step_cases h with rfl | ⟨c, rest, hc⟩
  · exact hs
  · exact exec_current (s := s.withPending rest) { hs with } hc

end Sys2Proof.Machine
end

