-- ==== Sys2Proof/Proofs/RampAndTargetSpeed.lean ====
section
/-! PROOFS. O13, O22, O60: the target speed, the ramp of the applied speed, and the outputs under drive enable. -/

namespace Sys2Proof.Machine
open Sys2Proof

/-! ## The outputs under drive enable (O60) -/

/-- Settles O60: every gated output is made under drive enable or the knife drive, which asks for it. -/
theorem driveEnableGatesOutputs : Obligations.DriveEnableGatesOutputs := by
  intro s hd
  have knife : s.knifeDrive = false := knifeDrive_eq_false.2 (.inl hd)
  have driven (v : Nat) : s.driven v = 0 := by simp [State.driven, hd]
  have stroke (b : Blade) : s.strokeOutput b = false := by simp [State.strokeOutput, knife]
  have valve (z : Nat) : s.valveOutput z = 0 := by
    have held : s.valveHeld z = true := by
      by_contra h
      exact absurd (knifeDrive_of_valveHeld (Bool.eq_false_iff.2 h)) (by simp [knife])
    simp [State.valveOutput, held]
  simp [State.outputs, State.gateOutput, hd, driven, stroke, valve]

/-! ## The target speed (O13) -/

/-- The premise of a target speed above 0 (R37). -/
theorem targetSpeed_of_free {s : State} (hm : s.mode = .active) (hh : s.holdKnown = false)
    (hr : s.rosterOthers.all (fun a => (s.peer a).runs) = true) (hc : s.compositionValid = true) :
    s.targetSpeed =
      (s.rosterOthers.map (fun a => (s.peer a).ceiling)).foldl min (min s.gov.vOp (min s.cfg.lineMax s.ownCeiling)) := by
  simp [State.targetSpeed, hm, hh, hr, hc]

/-- Settles O13, from the current target speed (O11) and its definition. -/
theorem targetSpeedLaw : Obligations.TargetSpeedLaw := by
  intro s t hs h
  rw [(figuresStayCurrent s t hs h).target]
  refine ⟨fun hcase => ?_, fun hm hh hr hc => ?_⟩
  · refine if_neg fun hfree => ?_
    simp only [Bool.and_eq_true, beq_iff_eq, Bool.not_eq_true', List.all_eq_true, PeerEntry.runs, Bool.or_eq_true] at hfree
    obtain ⟨⟨⟨hm, hh⟩, hr⟩, hc⟩ := hfree
    rcases hcase with h | h | ⟨a, ha, h⟩ | h
    · exact h hm
    · cases hh.symm.trans h
    · obtain ⟨hl, hp⟩ := hr a ha
      rcases h with h | h | h
      · simp [h] at hl
      · simp [h] at hl
      · exact h hp
    · cases hc.symm.trans h
  · have hruns : t.rosterOthers.all (fun a => (t.peer a).runs) = true := by
      simpa [PeerEntry.runs] using hr
    rw [targetSpeed_of_free hm hh hruns hc]
    obtain ⟨hmem, hle⟩ := foldl_min_least (t.rosterOthers.map (fun a => (t.peer a).ceiling))
      (min t.gov.vOp (min t.cfg.lineMax t.ownCeiling))
    have hinit := hle _ List.mem_cons_self
    refine ⟨⟨by omega, by omega, by omega, fun a ha => hle _ (List.mem_cons_of_mem _ (List.mem_map_of_mem ha))⟩, ?_⟩
    rcases List.mem_cons.1 hmem with h | h
    · omega
    · obtain ⟨a, ha, he⟩ := List.mem_map.1 h
      exact .inr (.inr (.inr ⟨a, ha, he.symm⟩))

/-! ## The ramp (O22) -/

/-- What a ramp update leaves of the applied speed, by mode and by the target speed held before it (R38; log entry 26). -/
theorem rampedSpeed_law (s : State) :
    (s.mode = .tripped → s.rampedSpeed = s.gov.vA - s.cfg.aE) ∧
    (s.mode ≠ .tripped → s.gov.vA < s.gov.vT → s.rampedSpeed = min (s.gov.vA + s.cfg.aUp) s.gov.vT) ∧
    (s.mode ≠ .tripped → s.gov.vT < s.gov.vA → s.rampedSpeed = max (s.gov.vA - s.cfg.aDn) s.gov.vT) ∧
    (s.mode ≠ .tripped → s.gov.vA = s.gov.vT → s.rampedSpeed = s.gov.vA) := by
  rcases rampedSpeed_cases s with ⟨hm, h⟩ | ⟨hm, hlt, h⟩ | ⟨hm, hle, h⟩ <;> simp only [hm, h] <;> simp <;> omega

/-- A command that is no ramp update leaves the applied speed or stands it at 0 (R38). -/
theorem vA_of_cases {s t : State} (h : Ends s t ∨ Idles s t ∨ Starts s t) : t.gov.vA = s.gov.vA ∨ t.gov.vA = 0 := by
  rcases h with he | hi | hb
  · exact .inl he.guards.applied
  · exact .inl hi.guards.applied
  · exact .inr hb.applied

/-- The applied speed rises below the target speed alone (R38). -/
theorem vA_rises {c : Instr} {s t : State} (h : exec c s = .next t) (hv : s.gov.vA < t.gov.vA) : s.gov.vA < s.gov.vT := by
  rcases exec_cases_or_ramp h with hc | ⟨v, u, hsv, -, -, target, hu, rfl⟩
  · have := vA_of_cases hc
    omega
  · have applied := (hu.trans (conclude_guards u)).applied
    rw [rampGov_vA] at applied
    have := hsv.applied
    have := rampedSpeed_cases v
    omega

/-- Of the record's checks those of the ramp steps (R186). -/
theorem rampSteps_of_legal {i : Image} (h : i.legal = true) :
    (1 ≤ i.aUp ∧ i.aUp ≤ 100) ∧ (1 ≤ i.aDn ∧ i.aDn ≤ 100) ∧ (1 ≤ i.aE ∧ i.aE ≤ 100) := by
  unfold Image.legal at h
  simp only [Bool.and_eq_true] at h
  obtain ⟨-, h⟩ := h
  split at h
  · cases h
  · simp only [commonFieldsOk, within, Bool.and_eq_true, decide_eq_true_eq] at h
    tauto

/-- A ramp step moves every peer entry one millisecond on, and leaves the loader and the pins (R29). -/
theorem rampStep_frame (s : State) : (rampStep s).loader = s.loader ∧ (rampStep s).peers = s.peers.map PeerEntry.aged ∧
    (rampStep s).pins = s.pins := by
  have gov (s : State) : (rampGov s).loader = s.loader ∧ (rampGov s).peers = s.peers ∧ (rampGov s).pins = s.pins := by
    rcases rampGov_cases s with ⟨-, -, h⟩ | ⟨h, -⟩ <;> rw [h] <;> simp
  have age (s : State) : (agePeers s).loader = s.loader ∧ (agePeers s).peers = s.peers.map PeerEntry.aged ∧
      (agePeers s).pins = s.pins := by
    unfold agePeers
    dsimp only
    split <;> simp [followPeerLate]
  have unwind (s : State) : (rampUnwind s).loader = s.loader ∧ (rampUnwind s).peers = s.peers ∧
      (rampUnwind s).pins = s.pins := by
    unfold rampUnwind
    split <;> simp
  simp [rampStep, gov, age, unwind]

/-- A ramp update answers a state with the pin levels it brings and, in the operating modes, the ramped speed (R38; log
entry 6). -/
theorem exec_rampUpdate_answer (w p d : Bool) (s : State) : ∃ t, exec (.rampUpdate w p d) s = .next t ∧
    t.pins = { s.pins with webPresent := w, gatePass := p, gateDivert := d } ∧
    (s.operating = false → t.gov.vA = s.gov.vA) ∧ (s.operating = true → t.gov.vA = s.rampedSpeed) := by
  obtain ⟨v, hv, image, mode, target, pins, he⟩ := exec_rampUpdate w p d s
  refine ⟨_, he, ?_, fun ho => ?_, fun ho => ?_⟩
  · split
    · have fin (u : State) : (finish u).pins = u.pins := by simp
      exact (fin _).trans ((rampStep_frame v).2.2.trans pins)
    · exact pins
  · simpa [ho] using hv.applied
  · obtain ⟨v', u, hv', image', mode', target', hu, ht⟩ := exec_ramp ho he
    have hcfg : v'.cfg = s.cfg := cfg_of_image image'
    rw [ht, (hu.trans (conclude_guards u)).applied, rampGov_vA]
    simp only [State.rampedSpeed, hcfg, mode', target', hv'.applied]

/-- Settles O22: the ramp as `rampedSpeed` says it (`rampedSpeed_law`), and no other command on the applied speed. -/
theorem rampLaw : Obligations.RampLaw := by
  refine ⟨fun w p d s => ?_, fun c s t h hc => ?_, fun s t hs h => ?_, fun s => (startUnits_start s).1.vA,
    fun i h => rampSteps_of_legal h⟩
  · obtain ⟨t, he, pins, idle, ramp⟩ := exec_rampUpdate_answer w p d s
    refine ⟨t, he, pins, idle, fun ho => ?_⟩
    rw [ramp ho]
    exact rampedSpeed_law s
  · have hr : isRamp c = false := by
      cases c with
      | rampUpdate w p d => exact absurd rfl (hc w p d)
      | _ => rfl
    exact vA_of_cases (exec_cases hr h)
  · have ht := speedInvariantKept s t hs h
    refine ⟨ht.applied_le, fun hv => ?_, fun hm => ht.target_zero (by simp [hm])⟩
    rcases step_cases h with rfl | ⟨c, rest, hc⟩
    · exact absurd hv (lt_irrefl _)
    · exact vA_rises (s := s.withPending rest) hc hv

end Sys2Proof.Machine
end

