-- ==== Sys2Proof/Proofs/StationTimers.lean ====
section
/-! PROOFS. O24, O28: commands that end with their figures; HOLD, RELEASE and SPEED SET, and the timers of the station. -/

namespace Sys2Proof.Machine
open Sys2Proof

/-! ## Commands that end with their figures -/

/-- Where no entry to ACTIVE can fall due a command that moves no web ends with its figures (R181, R191). -/
theorem conclude_steady_figures {s u : State} (hl : u.loader = s.loader) (hp : u.peers = s.peers) (h : s.steady) :
    FiguresOnly u (conclude u) := by
  rw [conclude_of_steady u (steady_congr hl hp h)]
  exact refresh_figures u

theorem FiguresOnly.mode {u t : State} (h : FiguresOnly u t) : t.mode = u.mode := congrArg Loader.mode h.loader

/-- Making the figures again takes no telegram out of the queue (R175). -/
theorem FiguresOnly.mem_tx {u t : State} (h : FiguresOnly u t) {e : TxEntry} (he : e ∈ u.bus.tx) : e ∈ t.bus.tx := by
  rcases h.tx with h | ⟨-, -, h⟩ <;> rw [h]
  · exact he
  · simp [he]

theorem FiguresOnly.valves {u t : State} (h : FiguresOnly u t) (hz : ∀ z ∈ u.heat.zones, z.valve = 0) :
    ∀ z ∈ t.heat.zones, z.valve = 0 := by
  have hmap : t.heat.zones.map Zone.valve = u.heat.zones.map Zone.valve := by
    simpa [Function.comp_def] using congrArg (List.map Zone.valve) h.zones
  rw [valves_zero_iff] at hz ⊢
  rwa [hmap]

/-! ## HOLD, RELEASE and SPEED SET (O28) -/

/-- A telegram acted on in the operating modes that moves no web is taken off the queue and acted on (R209). -/
theorem operate_takeAs {s : State} {e : RxEntry} {rest : List RxEntry} {k : Kind} (f : RxEntry → State → State)
    (ho : s.operating = true) (hrx : s.bus.rx = e :: rest) (hk : e.kind = k) :
    operate (takeAs k f) s = .next (conclude (f e (s.freed rest))) := by
  rw [operate, if_pos ho, takeAs_front f hrx hk]

theorem takeSpeedSet_eq (e : RxEntry) (s : State) : takeSpeedSet e s =
    s.withGov { s.gov with vOp := if fieldAt e.body 0 2 ≤ 6000 then fieldAt e.body 0 2 else s.gov.vOp } := by
  unfold takeSpeedSet
  dsimp only
  split <;> rfl

/-- Settles O28: each of the three loads one register of the governor, and the command ends with its figures. -/
theorem holdReleaseAndSpeedSet : Obligations.HoldReleaseAndSpeedSet := by
  intro s e rest ho hrx
  refine ⟨fun hk => ⟨_, operate_takeAs takeHold ho hrx hk, by simp [takeHold, State.freed], by simp [takeHold, State.freed],
      fun hq => ?_⟩,
    fun hk => ⟨_, operate_takeAs takeRelease ho hrx hk, by simp [takeRelease, State.freed],
      by simp [takeRelease, State.freed], fun hq => ?_⟩,
    fun hk => ⟨_, operate_takeAs takeSpeedSet ho hrx hk, ?_⟩⟩
  · have hfig : FiguresOnly (takeHold e (s.freed rest)) (conclude (takeHold e (s.freed rest))) :=
      conclude_figures (s := s) rfl rfl rfl hq
    refine ⟨?_, hfig⟩
    rw [hfig.holds]
    simp [takeHold]
  · have hfig : FiguresOnly (takeRelease e (s.freed rest)) (conclude (takeRelease e (s.freed rest))) :=
      conclude_figures (s := s) rfl rfl rfl hq
    refine ⟨?_, hfig⟩
    rw [hfig.holds]
    simp [takeRelease]
  · rw [takeSpeedSet_eq]
    exact ⟨by simp [State.freed], by simp [State.freed], fun hq => conclude_figures (s := s) rfl rfl rfl hq⟩

/-! ## The timers of the station (O24) -/

/-- A pulse enters the queue in the place of one that waits, or in a free place (R211). -/
theorem mem_tx_queuePulse {s : State} (h : s.bus.tx.any TxEntry.waitingPulse = true ∨ s.bus.tx.length < 8) :
    ({ kind := .linePulse, dest := 0, body := pulseBody s } : TxEntry) ∈ (queuePulse s).bus.tx := by
  unfold queuePulse
  dsimp only
  split
  · rename_i hany
    obtain ⟨x, hx, hw⟩ := List.any_eq_true.1 hany
    exact List.mem_map.2 ⟨x, hx, if_pos hw⟩
  · rename_i hany
    rw [queueTx_free _ _ (h.resolve_left hany)]
    simp [setTx]

/-- What a pulse queued leaves besides the queue and the notice it displaces: the sequence counts on and the timer starts again
(R25, R26). -/
theorem pulseForMode_sets (s : State) : (pulseForMode s).loader = s.loader ∧ (pulseForMode s).peers = s.peers ∧
    (pulseForMode s).cond.wakeDue = s.cond.wakeDue ∧ (pulseForMode s).web = s.web ∧
    (pulseForMode s).gov = { s.gov with sequence := s.gov.sequence + 1, pulseTimer := some (pulsePeriod s.mode) } ∧
    (pulseForMode s).bus.tx = (queuePulse s).bus.tx := by
  have hq : (queuePulse s).gov = { s.gov with sequence := s.gov.sequence + 1 } ∧ (queuePulse s).loader = s.loader := by
    unfold queuePulse
    dsimp only
    split <;> simp [setTx]
  refine ⟨by simp, by simp, by simp, by simp, ?_, rfl⟩
  simp [pulseForMode, startPulseTimer, hq, State.mode]

theorem joinExpiry_eq {s : State} (hm : s.mode = .joining) (ht : s.loader.joinTimer.isSome = true) : joinExpiry s =
    if s.settersUnknown then (raise .peerLost s).withLoader { (raise .peerLost s).loader with joinTimer := some 1000 }
    else s.withLoader { s.loader with joinTimer := none } := by
  unfold joinExpiry
  rw [if_pos ⟨hm, ht⟩]

theorem settersUnknown_iff (s : State) : s.settersUnknown = true ↔ ∃ a ∈ s.rosterOthers, (s.peer a).liveness = .unknown := by
  simp [State.settersUnknown]

/-- The join timer is none of the registers the end of a command reads. -/
theorem steady_of_joinTimer {s u : State} {t : Timer} (hl : u.loader = { s.loader with joinTimer := t })
    (hp : u.peers = s.peers) (h : s.mode = .joining ∧ s.joinReady = false) : u.steady := by
  refine .inr (.inr ⟨(congrArg Loader.mode hl).trans h.1, ?_⟩)
  have hr : u.joinReady = (s.withLoader { s.loader with joinTimer := t }).joinReady := joinReady_congr hl hp
  rw [hr, ← h.2]
  rfl

/-- The join timer's expiry in JOINING (R190). -/
theorem exec_joinTimerExpiry_joining {s : State} (hm : s.mode = .joining) (hj : s.joinReady = false)
    (ht : s.loader.joinTimer.isSome = true) : ∃ t, exec .joinTimerExpiry s = .next t ∧ t.mode = .joining ∧
      ((∃ a ∈ s.rosterOthers, (s.peer a).liveness = .unknown) →
        t.loader.joinTimer = some 1000 ∧ Cond.peerLost ∈ t.cond.flags) ∧
      ((∀ a ∈ s.rosterOthers, (s.peer a).liveness ≠ .unknown) →
        t.loader.joinTimer = none ∧ (Cond.peerLost ∈ t.cond.flags ↔ Cond.peerLost ∈ s.cond.flags)) := by
  have ho : s.operating = true := by simp [State.operating, hm, operatingMode]
  have hne : Cond.peerLost ≠ .speedFloor := by decide
  refine ⟨_, congrArg Host.Outcome.next (if_pos ho), ?_⟩
  rw [joinExpiry_eq hm ht]
  split
  · rename_i hu
    obtain ⟨a, ha, hl⟩ := (settersUnknown_iff s).1 hu
    generalize hx : (raise .peerLost s).withLoader { (raise .peerLost s).loader with joinTimer := some 1000 } = x
    have hload : x.loader = { s.loader with joinTimer := some 1000 } := by simp [← hx]
    have hpeers : x.peers = s.peers := by simp [← hx]
    have hflag : Cond.peerLost ∈ x.cond.flags := by simp [← hx]
    have hfig : FiguresOnly x (conclude x) := by
      rw [conclude_of_steady x (steady_of_joinTimer hload hpeers ⟨hm, hj⟩)]
      exact refresh_figures x
    refine ⟨hfig.mode.trans ((congrArg Loader.mode hload).trans hm), fun _ => ⟨?_, (hfig.flags _ hne).2 hflag⟩,
      fun h => absurd hl (h a ha)⟩
    rw [hfig.loader, hload]
  · rename_i hu
    generalize hx : s.withLoader { s.loader with joinTimer := none } = x
    have hload : x.loader = { s.loader with joinTimer := none } := by simp [← hx]
    have hfig : FiguresOnly x (conclude x) := by
      rw [conclude_of_steady x (steady_of_joinTimer hload (by simp [← hx]) ⟨hm, hj⟩)]
      exact refresh_figures x
    refine ⟨hfig.mode.trans ((congrArg Loader.mode hload).trans hm), fun h => absurd ((settersUnknown_iff s).2 h) hu,
      fun _ => ⟨?_, ?_⟩⟩
    · rw [hfig.loader, hload]
    · rw [hfig.flags _ hne, ← hx]
      rfl

/-- The trip timer's expiry in TRIPPED: drive enable is cleared, and what it gates stands (R39, R44). -/
theorem exec_tripTimerExpiry_tripped {s : State} (hm : s.mode = .tripped) (ht : s.gov.tripTimer.isSome = true) :
    ∃ t, exec .tripTimerExpiry s = .next t ∧ t.mode = .tripped ∧ t.gov.driveEnable = false ∧ t.gov.tripTimer = none ∧
      t.gov.vA = s.gov.vA ∧ t.gov.trips = s.gov.trips ∧ t.roll.vU = 0 ∧ t.outfeed.cutTimer = none ∧
      t.pattern.move = none ∧ (∀ z ∈ t.heat.zones, z.valve = 0) ∧ t.web = s.web := by
  have ho : s.operating = true := by simp [State.operating, hm, operatingMode]
  have hx : tripExpiry s = clearDrive (s.withGov { s.gov with tripTimer := none }) := if_pos ht
  obtain ⟨hgov, hunwind, -, hmove, hcut, -, hvalves⟩ := clearDrive_rests (s.withGov { s.gov with tripTimer := none })
  have hfig : FiguresOnly (tripExpiry s) (conclude (tripExpiry s)) := by
    refine conclude_steady_figures (s := s) ?_ ?_ (.inr (.inl hm)) <;> simp [hx]
  refine ⟨_, congrArg Host.Outcome.next (if_pos ho), ?_⟩
  rw [hx] at hfig ⊢
  have hdrive := hfig.driveEnable
  have gov := hfig.gov
  rw [hgov] at gov hdrive
  refine ⟨hfig.mode.trans (by simpa [State.mode] using hm), hdrive, ?_, by simp, by simp, ?_, ?_, ?_, hfig.valves hvalves, ?_⟩
  · exact (congrArg Gov.tripTimer gov :)
  · rw [hfig.roll, hunwind]
  · rw [hfig.outfeed, hcut]
  · rw [hfig.pattern, hmove]
  · rw [hfig.web]
    simp

/-- Settles O24: each expiry is one operation that leaves no entry to ACTIVE due, and the command ends with its figures. -/
theorem stationTimers : Obligations.StationTimers := by
  refine ⟨fun s ho hq => ⟨fun hn => ⟨_, congrArg Host.Outcome.next (if_pos ho), ?_⟩,
      fun ht => ⟨_, congrArg Host.Outcome.next (if_pos ho), ?_⟩⟩,
    fun s hm hj ht => exec_joinTimerExpiry_joining hm hj ht, fun s hm ht => exec_tripTimerExpiry_tripped hm ht⟩
  · have hx : pulseExpiry s = s := if_neg (by simp [Machine.running, hn])
    rw [hx]
    exact conclude_figures rfl rfl rfl hq
  · have hx : pulseExpiry s = pulseForMode s := if_pos ht
    obtain ⟨hl, hp, hw, hweb, hgov, htx⟩ := pulseForMode_sets s
    have hfig := conclude_figures hl hp hw hq
    have gov := hfig.gov
    rw [hgov] at gov
    rw [hx]
    refine ⟨(congrArg Gov.sequence gov :), (congrArg Gov.pulseTimer gov :), hfig.mode.trans (congrArg Loader.mode hl),
      hfig.web.trans hweb, fun h => hfig.mem_tx ?_⟩
    rw [htx]
    exact mem_tx_queuePulse h

end Sys2Proof.Machine
end

