-- ==== Sys2Proof/Proofs/SenderFaults.lean ====
section
/-! PROOFS. O54: sender faults, BUS_OFF and the recovery. -/

namespace Sys2Proof.Machine
open Sys2Proof

/-! ## Sender faults (R202, R203) -/

/-- A rising offers its notice at most, which waits (R175). -/
theorem raise_allWait (c : Cond) {s : State} (h : AllWait s) : AllWait (raise c s) := by
  have rising : AllWait (reportRising c (setFlags (s.cond.flags ++ [c]) s)) := by
    unfold reportRising
    split
    · dsimp only
      split
      · exact offerNotice_allWait _ (by simpa [AllWait] using h)
      all_goals simpa [AllWait] using h
    · simpa [AllWait] using h
  unfold raise
  split
  · exact h
  · dsimp only
    split
    · simpa [AllWait] using rising
    · exact rising

/-- A telegram that lost the bus waits again (R200). -/
theorem makeWaiting_allWait (s : State) : AllWait (makeWaiting s) := by
  intro x hx
  have hm : x ∈ s.bus.tx.map (fun e => { e with inTransmission := false }) := (mergePulses_spec _).1 x hx
  obtain ⟨e, -, rfl⟩ := List.mem_map.1 hm
  rfl

/-- A sender fault before the test for BUS_OFF: the telegram waits, the fault is counted, BUS_FAULT is latched (R202). -/
def faultCounted (s : State) : State :=
  raise .busFault ((makeWaiting s).withBus { (makeWaiting s).bus with faultCount := min 16 (s.bus.faultCount + 1) })

theorem faultSender_eq {s : State} (h : s.bus.sending = true) : faultSender s = busOffTest (faultCounted s) := by
  unfold faultSender
  rw [if_pos h]
  rfl

@[simp] theorem faultCounted_frame (s : State) : (faultCounted s).loader = s.loader ∧ (faultCounted s).peers = s.peers ∧
    (faultCounted s).gov = s.gov ∧ (faultCounted s).bus.off = s.bus.off ∧
    (faultCounted s).bus.faultCount = min 16 (s.bus.faultCount + 1) := by
  simp [faultCounted, makeWaiting, setTx]

/-- Sixteen faults take the sender off the bus (R35, R203). -/
theorem busOffTest_off {s : State} (hc : 16 ≤ s.bus.faultCount) (h : s.bus.off = false) : busOffTest s =
    setHold .busOff (raise .busOff (s.withBus { s.bus with off := true, recovery := some 500 })) :=
  if_pos ⟨hc, h⟩

theorem busOffTest_on {s : State} (h : s.bus.faultCount < 16 ∨ s.bus.off = true) : busOffTest s = s := by
  refine if_neg ?_
  rintro ⟨hc, hoff⟩
  rcases h with h | h
  · omega
  · simp [hoff] at h

@[simp] theorem busOffTest_frame (s : State) : (busOffTest s).loader = s.loader ∧ (busOffTest s).peers = s.peers ∧
    (busOffTest s).bus.faultCount = s.bus.faultCount := by
  unfold busOffTest
  split <;> simp

theorem busOffTest_flags {c : Cond} {s : State} (h : c ∈ s.cond.flags) : c ∈ (busOffTest s).cond.flags := by
  unfold busOffTest
  split
  · by_cases hc : c = .busOff
    · simp [hc]
    · simp only [setHold_frame, raise_others _ c hc]
      exact h
  · exact h

theorem busOffTest_allWait {s : State} (h : AllWait s) : AllWait (busOffTest s) := by
  unfold busOffTest
  split
  · exact fun x hx => raise_allWait .busOff (s := s.withBus { s.bus with off := true, recovery := some 500 }) h x
      (by simpa using hx)
  · exact h

/-- What BUS_OFF leaves at the end of the command that brings it: the bus off, the timer, the condition, the hold and with it a
target speed of 0 (R35, R37, R203). -/
theorem conclude_busOff {s : State} (hs : s.steady) (hc : 16 ≤ s.bus.faultCount) (h : s.bus.off = false) :
    (conclude (busOffTest s)).bus.off = true ∧ (conclude (busOffTest s)).bus.recovery = some 500 ∧
    Cond.busOff ∈ (conclude (busOffTest s)).cond.flags ∧ HoldCause.busOff ∈ (conclude (busOffTest s)).gov.holds ∧
    (conclude (busOffTest s)).gov.vT = 0 := by
  have hfig : FiguresOnly (busOffTest s) (conclude (busOffTest s)) := conclude_steady_figures (by simp) (by simp) hs
  have hold : HoldCause.busOff ∈ (conclude (busOffTest s)).gov.holds := by
    rw [hfig.holds, busOffTest_off hc h]
    simp
  refine ⟨?_, ?_, (hfig.flags _ (by decide)).2 ?_, hold, conclude_vT_of_hold hold⟩ <;> rw [busOffTest_off hc h] <;> simp

/-- Settles O54: a sender fault is counted and then tested for BUS_OFF (`busOffTest`), and the recovery takes all of it back. -/
theorem senderFaultsAndRecovery : Obligations.SenderFaultsAndRecovery := by
  refine ⟨fun s ho hs hsend => ?_, fun s ho hs hsend => ?_, fun s ho hs => ⟨fun hc hoff => ?_, fun h => ?_⟩,
    fun s ho hq => ⟨fun hr => ?_, fun hr => ?_⟩⟩
  · have hc : (faultCounted s).steady := steady_congr (by simp) (by simp) hs
    have hfig : FiguresOnly (busOffTest (faultCounted s)) (conclude (busOffTest (faultCounted s))) :=
      conclude_steady_figures (s := s) (by simp) (by simp) hs
    have hwait : AllWait (conclude (busOffTest (faultCounted s))) :=
      allWait_iff.2 (hfig.inTransmission.trans
        (allWait_iff.1 (busOffTest_allWait (raise_allWait .busFault (makeWaiting_allWait s)))))
    refine ⟨_, congrArg Host.Outcome.next (if_pos ho), ?_⟩
    rw [faultSender_eq hsend]
    refine ⟨by simp, (hfig.flags _ (by decide)).2 (busOffTest_flags (by simp [faultCounted])), hwait, fun hoff hn => ?_,
      fun hoff hn => conclude_busOff hc (by simp; omega) (by simpa using hoff)⟩
    have hon : busOffTest (faultCounted s) = faultCounted s := busOffTest_on (.inl (by simp; omega))
    rw [hfig.holds, hon]
    exact ⟨by simpa using hoff, by simp⟩
  · have hx : faultSender s = s := if_neg (by simp [hsend])
    refine ⟨_, congrArg Host.Outcome.next (if_pos ho), ?_⟩
    rw [hx]
    exact conclude_steady_figures rfl rfl hs
  · obtain ⟨off, recovery, flag, hold, target⟩ := conclude_busOff hs hc hoff
    exact ⟨_, congrArg Host.Outcome.next (if_pos ho), off, recovery, flag, hold, target, by simp⟩
  · refine ⟨_, congrArg Host.Outcome.next (if_pos ho), ?_⟩
    rw [busOffTest_on h]
    exact conclude_steady_figures rfl rfl hs
  · have hx : recoverBus s =
        clearHold .busOff (fall .busOff (s.withBus { s.bus with off := false, faultCount := 0, recovery := none })) := if_pos hr
    have hfig : FiguresOnly (recoverBus s) (conclude (recoverBus s)) := by
      refine conclude_figures (s := s) ?_ ?_ ?_ hq <;> simp [hx, fall, setFlags]
    refine ⟨_, congrArg Host.Outcome.next (if_pos ho), by simp [hx], by simp [hx], by simp [hx], ?_, ?_, ?_⟩
    · rw [hfig.flags _ (by decide), hx]
      simp
    · rw [hfig.holds, hx]
      simp
    · rw [hfig.web, hx]
      simp
  · have hx : recoverBus s = s := if_neg (by simp [Machine.running, hr])
    refine ⟨_, congrArg Host.Outcome.next (if_pos ho), ?_⟩
    rw [hx]
    exact conclude_figures rfl rfl rfl hq

end Sys2Proof.Machine
end

