-- ==== Sys2Proof/Proofs/ModesTaken.lean ====
section
/-! PROOFS. O27, O56: the return from a trip, STANDBY and WAKE. -/

namespace Sys2Proof.Machine
open Sys2Proof

/-! ## TRIP CLEAR (R46) -/

theorem clearAccepted_iff (s : State) : s.clearAccepted = true ↔
    s.mode = .tripped ∧ s.gov.vA = 0 ∧ s.pins.estop = false ∧ TripCause.dupAddress ∉ s.gov.trips := by
  simp [State.clearAccepted, and_assoc]

/-- A return from a trip takes the causes away (R46). -/
theorem leaveTrip_cleared (s : State) : (leaveTrip s).bus.rx = s.bus.rx ∧ (leaveTrip s).gov.trips = [] ∧
    (leaveTrip s).gov.beforeTrip = none := by
  unfold leaveTrip
  dsimp only
  split <;> simp

/-- A peer not LIVE fails the join test (R191). -/
theorem joinReady_of_not_live {s : State} (h : ∃ a ∈ s.rosterOthers, (s.peer a).liveness ≠ .live) : s.joinReady = false := by
  obtain ⟨a, ha, hl⟩ := h
  rw [Bool.eq_false_iff]
  intro hj
  simp only [State.joinReady, Bool.and_eq_true, List.all_eq_true] at hj
  obtain ⟨⟨-, hlive⟩, -⟩ := hj
  exact hl (by simpa using hlive a ha)

/-- The peers and the roster as the join test reads them. -/
theorem not_live_congr {s t : State} (hl : t.loader.image = s.loader.image) (hp : t.peers = s.peers)
    (h : ∃ a ∈ s.rosterOthers, (s.peer a).liveness ≠ .live) : ∃ a ∈ t.rosterOthers, (t.peer a).liveness ≠ .live := by
  have hc := cfg_of_image hl
  have hr : t.rosterOthers = s.rosterOthers := by simp [State.rosterOthers, hc]
  have hpeer (a : Nat) : t.peer a = s.peer a := by simp [State.peer, hp]
  simpa only [hr, hpeer] using h

/-- A return to JOINING with a peer not LIVE stays there to the end of the command (R46, R190). -/
theorem leaveTrip_joining {s : State} (hb : s.gov.beforeTrip = some .joining)
    (hn : ∃ a ∈ s.rosterOthers, (s.peer a).liveness ≠ .live) : (finish (leaveTrip s)).mode = .joining ∧
    (finish (leaveTrip s)).gov.driveEnable = s.gov.driveEnable ∧ (finish (leaveTrip s)).loader.joinTimer = some 1000 := by
  have hx : leaveTrip s = enterJoining (s.withGov { s.gov with trips := [], beforeTrip := none }) := if_pos hb
  rw [hx]
  generalize hj : s.withGov { s.gov with trips := [], beforeTrip := none } = x
  obtain ⟨mode, join, -⟩ := enterJoining_sets x
  have hsteady : (enterJoining x).steady := by
    refine .inr (.inr ⟨mode, joinReady_of_not_live (not_live_congr (s := s) ?_ ?_ hn)⟩) <;> simp [← hj]
  have hfig := finish_figures rfl rfl hsteady
  refine ⟨?_, ?_, ?_⟩
  · rw [hfig.mode]
    simpa [State.mode] using mode
  · rw [hfig.driveEnable]
    simp [← hj]
  · rw [hfig.loader]
    simpa using join

/-- An entry to ACTIVE stands to the end of the command (R40, R191, R193). -/
theorem finish_enterActive (s : State) : (finish (enterActive s)).mode = .active ∧
    (finish (enterActive s)).gov.driveEnable = true ∧ (finish (enterActive s)).gov.pulseTimer = some 25 := by
  obtain ⟨mode, drive, -, pulse⟩ := enterActive_sets s
  have hfig := finish_figures rfl rfl (.inl mode : (enterActive s).steady)
  refine ⟨?_, ?_, ?_⟩
  · rw [hfig.mode]
    simpa [State.mode] using mode
  · rw [hfig.driveEnable]
    simpa using drive
  · have gov : (finish (enterActive s)).gov.pulseTimer = (settle (enterActive s)).gov.pulseTimer :=
      (congrArg Gov.pulseTimer hfig.gov :)
    simpa [gov] using pulse

/-- Settles O27: `leaveTrip` where the telegram is accepted, and nothing but what the place freed brings where it is not. -/
theorem tripClearReturns : Obligations.TripClearReturns := by
  intro s e rest ho hrx hk
  refine ⟨fun hm hv he hd => ?_, fun h => ?_⟩
  · have hx : takeTripClear e (s.freed rest) = leaveTrip (s.freed rest) :=
      if_pos ((clearAccepted_iff (s.freed rest)).2 ⟨hm, hv, he, hd⟩)
    obtain ⟨rx, trips, before⟩ := leaveTrip_cleared (s.freed rest)
    refine ⟨_, operateWeb_takeAs takeTripClear ho hrx hk, ?_⟩
    rw [hx]
    refine ⟨by simpa [State.freed] using rx, by simpa using trips, by simpa using before, fun hb hn => ?_, fun hb => ?_⟩
    · exact leaveTrip_joining (s := s.freed rest) hb hn
    · have hl : leaveTrip (s.freed rest) = enterActive _ := if_neg hb
      rw [hl]
      exact ⟨(finish_enterActive _).1, (finish_enterActive _).2.1⟩
  · have hx : takeTripClear e (s.freed rest) = s.freed rest := by
      refine if_neg fun hc => ?_
      obtain ⟨hm, hv, he, hd⟩ := (clearAccepted_iff (s.freed rest)).1 hc
      rcases h with h | h | h | h
      · exact h hm
      · exact absurd hv (Nat.ne_of_gt h)
      · cases he.symm.trans h
      · exact hd h
    refine ⟨_, operateWeb_takeAs takeTripClear ho hrx hk, ?_⟩
    rw [hx]
    exact ⟨by simp [State.freed], by simp [State.freed], fun hs => finish_figures (s := s) rfl rfl hs⟩

/-! ## STANDBY and WAKE (R192, R193) -/

/-- Making the figures again leaves a chamber COLD or WARMING: READY_HEAT alone parks, PARKED alone answers the demand
(R133, R134). -/
theorem refresh_chamber {s : State} (h : s.heat.chamber = .cold ∨ s.heat.chamber = .warming) :
    (refresh s).heat.chamber = s.heat.chamber := by
  have park : parkTest s = s := if_neg fun hr => by simp [hr] at h
  have demand : demandTest s = s := if_neg fun hp => by simp [hp.1] at h
  have heat : (refreshHeat s).heat.chamber = s.heat.chamber := by
    unfold refreshHeat
    split
    · rw [park, demand]
      simp [speedFloorTest, loadSetpoints]
    · rfl
  simpa [refresh] using heat

/-- An entry to ACTIVE falls due in STANDBY by a wake alone (R181). -/
theorem activeDue_of_standby {s : State} (h : s.mode = .standby) : s.activeDue = s.cond.wakeDue := by
  simp [State.activeDue, State.joinReady, h]

/-- The end of a command that leaves the station in STANDBY (R181; log entry 29). -/
theorem conclude_standby {s : State} (h : s.mode = .standby) :
    (conclude s).mode = (if (refresh s).cond.wakeDue then .active else .standby) ∧
    ((conclude s).mode = .standby → conclude s = refresh s) := by
  have hm : (refresh s).mode = .standby := (refresh_figures s).mode.trans h
  rw [← activeDue_of_standby hm]
  rcases conclude_cases s with ⟨hc, hd⟩ | ⟨hc, hd⟩
  · rw [hd, hc]
    exact ⟨hm, fun _ => rfl⟩
  · have ha : (conclude s).mode = .active := by
      have hset := (enterActive_sets (refresh s)).1
      rw [hc, (refresh_figures _).mode]
      simpa [State.mode] using hset
    rw [hd]
    exact ⟨ha, fun hs => by cases ha.symm.trans hs⟩

/-- Drive enable set stays set to the end of a command (R40). -/
theorem conclude_driveEnable {s : State} (h : s.gov.driveEnable = true) : (conclude s).gov.driveEnable = true := by
  rcases conclude_cases s with ⟨hc, -⟩ | ⟨hc, -⟩ <;> rw [hc, (refresh_figures _).driveEnable]
  · exact h
  · simpa using (enterActive_sets (refresh s)).2.1

/-- A chamber COLD holds every zone at the keep setpoint (R130). -/
theorem keepSp_of_cold {t : State} (hf : FiguresCurrent t) (ho : t.operating = true) (hs : t.is .setter = true)
    (hc : t.heat.chamber = .cold) : ∀ z ∈ t.heat.zones, z.sp = t.cfg.setter.keepSp := by
  intro z hz
  obtain ⟨n, hn, rfl⟩ := List.mem_iff_getElem.1 hz
  have h := hf.setpoints ho hs n hn
  simpa [State.zone, State.setpoint, hc, List.getElem?_eq_getElem hn] using h

/-- A station that goes to STANDBY and stays there: no target speed, the pulse timer of the mode, and in a SETTER the chamber
COLD at the keep setpoints (R25, R37, R130, R131, R192). -/
theorem finish_enterStandby {s : State} (h : (finish (enterStandby s)).mode = .standby) :
    (finish (enterStandby s)).gov.vT = 0 ∧ (finish (enterStandby s)).gov.pulseTimer = some 250 ∧
    (s.is .setter = true → (finish (enterStandby s)).heat.chamber = .cold ∧
      ∀ z ∈ (finish (enterStandby s)).heat.zones, z.sp = s.cfg.setter.keepSp) := by
  obtain ⟨mode, pulse⟩ := enterStandby_sets s
  have hm : (settle (enterStandby s)).mode = .standby := by simpa [State.mode] using mode
  have heq : finish (enterStandby s) = refresh (settle (enterStandby s)) := (conclude_standby hm).2 h
  have hcur : FiguresCurrent (finish (enterStandby s)) := conclude_current _
  refine ⟨hcur.target.trans ((targetSpeed_bounds _).2 (by simp [h])), ?_, fun hs => ?_⟩
  · have gov := (refresh_figures (settle (enterStandby s))).gov
    rw [heq, (congrArg Gov.pulseTimer gov :)]
    simpa using pulse
  · have cold : (settle (enterStandby s)).heat.chamber = .cold := by
      simp [enterStandby_heat, hs]
    have image : (finish (enterStandby s)).loader.image = s.loader.image := by simp
    have hc : (finish (enterStandby s)).heat.chamber = .cold := by
      rw [heq, refresh_chamber (.inl cold), cold]
    refine ⟨hc, ?_⟩
    rw [← cfg_of_image image]
    exact keepSp_of_cold hcur (by simp [State.operating, h, operatingMode]) ((is_of_image image _).trans hs) hc

/-- Settles O56: `enterStandby` and `enterActive` where the telegram is taken, and nothing but what the place freed brings
where it is not. -/
theorem standbyAndWake : Obligations.StandbyAndWake := by
  intro s e rest ho hrx
  refine ⟨fun hk => ⟨fun hm hv _ => ?_, fun h => ?_⟩, fun hk => ⟨fun hm => ?_, fun h => ?_⟩⟩
  · have hx : takeStandby e (s.freed rest) = enterStandby (s.freed rest) := if_pos ⟨hm, hv⟩
    refine ⟨_, operateWeb_takeAs takeStandby ho hrx hk, ?_⟩
    rw [hx]
    have hmode : (settle (enterStandby (s.freed rest))).mode = .standby := by
      simpa [State.mode] using (enterStandby_sets (s.freed rest)).1
    refine ⟨by simp [State.freed], by simpa [State.freed] using hv, fun hd => conclude_driveEnable ?_,
      (conclude_standby hmode).1, fun h => finish_enterStandby h⟩
    simpa [State.freed] using hd
  · have hx : takeStandby e (s.freed rest) = s.freed rest := by
      refine if_neg ?_
      rintro ⟨hm, hv⟩
      exact h.elim (fun h => h hm) fun h => absurd hv (Nat.ne_of_gt h)
    refine ⟨_, operateWeb_takeAs takeStandby ho hrx hk, ?_⟩
    rw [hx]
    exact ⟨by simp [State.freed], fun hs => finish_figures (s := s) rfl rfl hs⟩
  · have hx : takeWake e (s.freed rest) = enterActive (s.freed rest) := if_pos hm
    obtain ⟨mode, drive, pulse⟩ := finish_enterActive (s.freed rest)
    refine ⟨_, operateWeb_takeAs takeWake ho hrx hk, ?_⟩
    rw [hx]
    refine ⟨by simp [State.freed], mode, drive, pulse, fun hs hc => ?_⟩
    have warm : (settle (enterActive (s.freed rest))).heat.chamber = .warming := by
      have his : (s.freed rest).is .setter = true := hs
      have hcold : (s.freed rest).heat.chamber = .cold := hc
      simp [enterActive_heat, his, hcold]
    rw [finish_of_steady (.inl (enterActive_sets _).1), refresh_chamber (.inr warm), warm]
  · have hx : takeWake e (s.freed rest) = s.freed rest := if_neg h
    refine ⟨_, operateWeb_takeAs takeWake ho hrx hk, ?_⟩
    rw [hx]
    exact ⟨by simp [State.freed], fun hs => finish_figures (s := s) rfl rfl hs⟩

end Sys2Proof.Machine
end

