-- ==== Sys2Proof/Proofs/TripsAndPeerLate.lean ====
section
/-! PROOFS. Which operations leave the TRIPs queued and PEER_LATE as they were (basis of O23, O25, O26). -/

namespace Sys2Proof.Machine
open Sys2Proof

/-! ## What an operation leaves of the trips queued and of PEER_LATE -/

/-- An operation that neither queues a TRIP nor takes one out of the queue, and leaves PEER_LATE (R30, R42). -/
structure KeepsLink (s t : State) : Prop where
  trips : ∀ e : TxEntry, e.kind = .trip → (e ∈ t.bus.tx ↔ e ∈ s.bus.tx)
  late : Cond.peerLate ∈ t.cond.flags ↔ Cond.peerLate ∈ s.cond.flags

namespace KeepsLink

theorem of_eq {s t : State} (tx : t.bus.tx = s.bus.tx) (flags : t.cond.flags = s.cond.flags) : KeepsLink s t :=
  ⟨fun _ _ => by rw [tx], by rw [flags]⟩

theorem refl (s : State) : KeepsLink s s := .of_eq rfl rfl

theorem trans {s t u : State} (h : KeepsLink s t) (k : KeepsLink t u) : KeepsLink s u :=
  ⟨fun e he => (k.trips e he).trans (h.trips e he), k.late.trans h.late⟩

theorem ite {s t u : State} {p : Prop} [Decidable p] (ht : p → KeepsLink s t) (hu : ¬ p → KeepsLink s u) :
    KeepsLink s (if p then t else u) := by
  split
  · exact ht ‹_›
  · exact hu ‹_›

theorem foldl {α : Type} (f : State → α → State) (h : ∀ s a, KeepsLink s (f s a)) (l : List α) (s : State) :
    KeepsLink s (l.foldl f s) := by
  induction l generalizing s with
  | nil => exact .refl s
  | cons a l ih => exact (h s a).trans (ih (f s a))

/-! The updates of the other units. -/

theorem loader (s : State) (x : Loader) : KeepsLink s (s.withLoader x) := .of_eq rfl rfl
theorem peers (s : State) (x : List PeerEntry) : KeepsLink s (s.withPeers x) := .of_eq rfl rfl
theorem gov (s : State) (x : Gov) : KeepsLink s (s.withGov x) := .of_eq rfl rfl
theorem web (s : State) (x : Web) : KeepsLink s (s.withWeb x) := .of_eq rfl rfl
theorem order (s : State) (x : OrderUnit) : KeepsLink s (s.withOrder x) := .of_eq rfl rfl
theorem pattern (s : State) (x : PatternUnit) : KeepsLink s (s.withPattern x) := .of_eq rfl rfl
theorem roll (s : State) (x : RollUnit) : KeepsLink s (s.withRoll x) := .of_eq rfl rfl
theorem heat (s : State) (x : HeatUnit) : KeepsLink s (s.withHeat x) := .of_eq rfl rfl
theorem outfeed (s : State) (x : OutfeedUnit) : KeepsLink s (s.withOutfeed x) := .of_eq rfl rfl
theorem pins (s : State) (x : Pins) : KeepsLink s (s.withPins x) := .of_eq rfl rfl

end KeepsLink

/-! ## Queue, notices and conditions (R172 to R177, R210) -/

theorem setRecord_link (g : Group) (r : GroupRecord) (s : State) : KeepsLink s (setRecord g r s) :=
  .of_eq (by simp) (by simp)

theorem noticeRemoved_link (e : TxEntry) (s : State) : KeepsLink s (noticeRemoved e s) :=
  .ite (fun _ => setRecord_link ..) (fun _ => .refl s)

/-- A telegram of another kind enters the queue. -/
theorem insert_link {e : TxEntry} (he : e.kind ≠ .trip) (s : State) : KeepsLink s (setTx (insertByClass e s.bus.tx) s) := by
  refine ⟨fun x hx => ?_, Iff.rfl⟩
  simp only [setTx, State.withBus_bus, mem_insertByClass, or_iff_right_iff_imp]
  rintro rfl
  exact absurd hx he

/-- The telegram displaced is of a less urgent class than the one that enters, and a TRIP is of the most urgent (R210). -/
theorem queueTx_link {e : TxEntry} (he : e.kind ≠ .trip) (s : State) : KeepsLink s (queueTx e s) := by
  unfold queueTx
  split
  · exact insert_link he s
  · split
    · exact .refl s
    · rename_i d rest hd
      refine .ite (fun hcls => KeepsLink.trans (t := setTx (insertByClass e rest.reverse) s) ⟨fun x hx => ?_, Iff.rfl⟩
        (noticeRemoved_link d _)) (fun _ => .refl s)
      obtain ⟨-, pre, post, hl, rfl⟩ := takeWaiting_eq_some hd
      have hxe : x ≠ e := by
        rintro rfl
        exact he hx
      have hxd : x ≠ d := by
        rintro rfl
        rw [hx] at hcls
        exact absurd hcls (Nat.not_lt_zero _)
      have hmem : x ∈ s.bus.tx ↔ x ∈ pre ++ d :: post := by rw [← hl, List.mem_reverse]
      rw [hmem]
      simp [setTx, hxe, hxd, or_comm]

theorem offerNotice_link (g : Group) (s : State) : KeepsLink s (offerNotice g s) :=
  .ite (fun _ => (insert_link (by simp) s).trans (setRecord_link ..)) (fun _ => setRecord_link ..)

theorem reportRising_link (c : Cond) (s : State) : KeepsLink s (reportRising c s) := by
  unfold reportRising
  refine .ite (fun _ => ?_) (fun _ => .refl s)
  dsimp only
  split
  · exact (setRecord_link ..).trans (offerNotice_link ..)
  · exact setRecord_link ..
  · exact setRecord_link ..

theorem setFlags_link {l : List Cond} {s : State} (h : Cond.peerLate ∈ l ↔ Cond.peerLate ∈ s.cond.flags) :
    KeepsLink s (setFlags l s) := ⟨fun _ _ => Iff.rfl, h⟩

theorem raise_link {c : Cond} (hc : c ≠ .peerLate) (s : State) : KeepsLink s (raise c s) := by
  unfold raise
  refine .ite (fun _ => .refl s) (fun _ => ?_)
  have h : KeepsLink s (reportRising c (setFlags (s.cond.flags ++ [c]) s)) :=
    (setFlags_link (by simp [hc.symm])).trans (reportRising_link ..)
  exact .ite (fun _ => h.trans (.of_eq rfl rfl)) (fun _ => h)

theorem follow_link {c : Cond} (hc : c ≠ .peerLate) (b : Bool) (s : State) : KeepsLink s (follow c b s) :=
  .ite (fun _ => raise_link hc s) (fun _ => setFlags_link (by simp [hc.symm]))

theorem followHold_link (h : HoldCause) (b : Bool) (s : State) : KeepsLink s (followHold h b s) :=
  .of_eq (by simp) (by simp)

/-- A pulse takes the place of a pulse, or enters the queue (R211). -/
theorem queuePulse_link (s : State) : KeepsLink s (queuePulse s) := by
  have map (f : TxEntry → TxEntry) (hf : ∀ x, f x = x ∨ x.kind = .linePulse ∧ (f x).kind = .linePulse) :
      KeepsLink s (setTx (s.bus.tx.map f) s) := by
    refine ⟨fun e he => ?_, Iff.rfl⟩
    have hne {x : TxEntry} (hx : x.kind = .linePulse) : x ≠ e := by
      rintro rfl
      cases hx.symm.trans he
    simp only [setTx, State.withBus_bus, List.mem_map]
    constructor
    · rintro ⟨x, hx, hfx⟩
      rcases hf x with h | ⟨-, h⟩
      · rwa [← hfx, h]
      · exact absurd hfx (hne h)
    · refine fun h => ⟨e, h, (hf e).resolve_right fun hk => hne hk.1 rfl⟩
  unfold queuePulse
  extract_lets e t
  refine KeepsLink.trans (t := t) (.ite (fun _ => map _ fun x => ?_) (fun _ => queueTx_link (by simp [e]) s)) (.gov t _)
  split
  · exact .inr ⟨by simp_all [TxEntry.waitingPulse], rfl⟩
  · exact .inl rfl

theorem pulseForMode_link (s : State) : KeepsLink s (pulseForMode s) := (queuePulse_link s).trans (.gov _ _)

/-! ## The knife and the outfeed -/

theorem markSeg_link (uid : Nat) (c : RejectCause) (s : State) : KeepsLink s (markSeg uid c s) := .of_eq (by simp) (by simp)

theorem updateSeg_link (uid : Nat) (f : Segment → Segment) (s : State) : KeepsLink s (updateSeg uid f s) :=
  .of_eq (by simp) (by simp)

theorem startMove_link (s : State) : KeepsLink s (startMove s) := .of_eq (by simp) (by simp)

theorem misfold_link (uid : Nat) (s : State) : KeepsLink s (misfold uid s) :=
  (markSeg_link ..).trans (raise_link (by decide) _)

theorem beginStroke_link (k : Nat) (late : Bool) (s : State) : KeepsLink s (beginStroke k late s) := by
  unfold beginStroke
  split
  · dsimp only
    split
    · exact .ite (fun _ => KeepsLink.trans (.pattern s _) (misfold_link ..)) (fun _ => .pattern s _)
    · exact .pattern s _
  · exact .refl s

theorem dropHeldFold_link (s : State) : KeepsLink s (dropHeldFold s) := by
  unfold dropHeldFold
  split
  · exact KeepsLink.trans (.pattern s _) (misfold_link ..)
  · exact .refl s

theorem endRun_link (s : State) : KeepsLink s (endRun s) := by
  unfold endRun
  split
  · exact .refl s
  · exact (dropHeldFold_link s).trans (.of_eq (by simp) (by simp))

theorem startRun_link (g : Segment) (s : State) : KeepsLink s (startRun g s) := by
  unfold startRun
  extract_lets t bound run
  have ht : KeepsLink s t := (endRun_link s).trans (updateSeg_link ..)
  clear_value t run bound
  split
  · exact ht.trans (KeepsLink.trans (.pattern t _) (startMove_link _))
  · exact ht.trans (KeepsLink.trans (.pattern t _) (markSeg_link ..))

theorem takeFold_link (s : State) : KeepsLink s (takeFold s) := by
  unfold takeFold
  split
  · exact .refl s
  · extract_lets k x t
    have ht : KeepsLink s t := .pattern s _
    clear_value t x
    exact .ite (fun _ => ht.trans (misfold_link ..))
      (fun _ => .ite (fun _ => ht.trans (beginStroke_link ..))
        (fun _ => .ite (fun _ => ht.trans (KeepsLink.trans (.pattern t _) (startMove_link _)))
          (fun _ => ht.trans (misfold_link ..))))

theorem tripKnife_link (s : State) : KeepsLink s (tripKnife s) := by
  unfold tripKnife
  refine KeepsLink.trans ?_ (dropHeldFold_link _)
  split
  · exact KeepsLink.trans (.of_eq (by simp) (by simp)) (markSeg_link ..)
  · exact .refl s

theorem dropSegKnife_link (uid : Nat) (s : State) : KeepsLink s (dropSegKnife uid s) := by
  unfold dropSegKnife
  extract_lets t
  refine KeepsLink.trans (t := t) ?_ (.pattern t _)
  unfold t
  split
  · exact .ite (fun _ => endRun_link s) (fun _ => .refl s)
  · exact .refl s

theorem setPiece_link (p : Option Piece) (s : State) : KeepsLink s (setPiece p s) := .of_eq (by simp) (by simp)

theorem moveGate_link (target : GatePos) (s : State) : KeepsLink s (moveGate target s) := .of_eq (by simp) (by simp)

theorem markGateLate_link (uid : Nat) (s : State) : KeepsLink s (markGateLate uid s) :=
  (markSeg_link ..).trans (raise_link (by decide) _)

theorem panelOutcome_link (g : Segment) (good : Bool) (d : Option Decision) (s : State) :
    KeepsLink s (panelOutcome g good d s) := by
  unfold panelOutcome
  extract_lets x t
  exact KeepsLink.trans (t := t) (.outfeed s _) (queueTx_link (by simp) t)

theorem openPiece_link (c : Content) (edge : Word) (s : State) : KeepsLink s (openPiece c edge s) := by
  have moved (p : Option Piece) (target : GatePos) : KeepsLink s (moveGate target (setPiece p s)) :=
    (setPiece_link ..).trans (moveGate_link ..)
  unfold openPiece
  dsimp only
  refine .ite (fun _ => setPiece_link ..) (fun _ => .ite (fun _ => ?_) (fun _ => moved ..))
  split
  · exact .ite (fun _ => (moved ..).trans (markGateLate_link ..)) (fun _ => (moved ..).trans (markSeg_link ..))
  · exact moved ..

theorem joinPiece_link (entering : Content) (s : State) : KeepsLink s (joinPiece entering s) := by
  unfold joinPiece
  extract_lets enteringPasses leaving t u v piece
  clear_value leaving
  have ht : KeepsLink s t := by
    unfold t
    split
    · exact .ite (fun _ => markGateLate_link ..) (fun _ => .ite (fun _ => .refl s) (fun _ => markSeg_link ..))
    · exact .refl s
  have hu : KeepsLink t u := by
    unfold u
    split
    · exact .ite (fun _ => markGateLate_link ..) (fun _ => markSeg_link ..)
    · exact .refl t
  have hv : KeepsLink u v := by
    unfold v
    split
    · exact panelOutcome_link ..
    · exact .refl u
  exact (ht.trans (hu.trans hv)).trans ((setPiece_link ..).trans (moveGate_link ..))

theorem deliverPiece_link (s : State) : KeepsLink s (deliverPiece s) := by
  unfold deliverPiece
  split
  · exact .refl s
  · split
    · exact .refl s
    · exact panelOutcome_link ..

theorem takeBoundary_link (entering : Content) (edge : Word) (s : State) : KeepsLink s (takeBoundary entering edge s) := by
  unfold takeBoundary
  exact .ite (fun _ => (deliverPiece_link s).trans (KeepsLink.trans (.outfeed _ _) (openPiece_link ..)))
    (fun _ => joinPiece_link ..)

theorem retestPiece_link (s : State) : KeepsLink s (retestPiece s) := by
  unfold retestPiece
  split
  · exact .refl s
  · refine .ite (fun _ => .refl s) (fun _ => .ite (fun _ => (setPiece_link ..).trans (moveGate_link ..)) (fun _ => ?_))
    split
    · exact .refl s
    · exact .ite (fun _ => markGateLate_link ..) (fun _ => (setPiece_link ..).trans (moveGate_link ..))

theorem dropSegOutfeed_link (g : Segment) (s : State) : KeepsLink s (dropSegOutfeed g s) := by
  unfold dropSegOutfeed
  split
  · exact .refl s
  · exact .ite (fun _ => panelOutcome_link ..) (fun _ => .refl s)

/-! ## The web and the orders -/

theorem removeSeg_link (uid : Nat) (s : State) : KeepsLink s (removeSeg uid s) := by
  unfold removeSeg
  split
  · exact .refl s
  · exact (dropSegOutfeed_link _ s).trans (KeepsLink.trans (.heat _ _) ((dropSegKnife_link uid _).trans (.web _ _)))

theorem placeRule_link (uid : Nat) (s : State) : KeepsLink s (placeRule uid s) := by
  unfold placeRule
  split
  · exact .refl s
  · extract_lets ahead covered t
    have ht : KeepsLink s t := .foldl _ (fun t (a : Segment) => removeSeg_link a.uid t) _ s
    split
    · exact ht
    · exact ht.trans (updateSeg_link ..)

theorem latchRegLost_link (s : State) : KeepsLink s (latchRegLost s) :=
  (raise_link (c := .regLost) (by decide) s).trans (.gov _ _)

theorem closeWindowMiss_link (s : State) : KeepsLink s (closeWindowMiss s) := by
  unfold closeWindowMiss
  split
  · exact .refl s
  · rename_i r _
    extract_lets x a y b c
    have hb : KeepsLink s b := .of_eq rfl rfl
    have hm : KeepsLink b (if b.is .pleat then markSeg r.uid .unregistered b else b) :=
      .ite (fun _ => markSeg_link ..) (fun _ => .refl b)
    have hc : KeepsLink s c := (hb.trans hm).trans (raise_link (by decide) _)
    exact .ite (fun _ => hc.trans (latchRegLost_link c)) (fun _ => hc)

theorem openWindow_link (g : Segment) (s : State) : KeepsLink s (openWindow g s) :=
  (closeWindowMiss_link s).trans ((updateSeg_link ..).trans (.web _ _))

theorem acceptMark_link (edge : Word) (s : State) : KeepsLink s (acceptMark edge s) := by
  unfold acceptMark
  split
  · exact .of_eq rfl rfl
  · rename_i g _
    extract_lets a x b
    have hb : KeepsLink s b := .of_eq rfl rfl
    exact (hb.trans (.ite (fun _ => updateSeg_link ..) (fun _ => .refl b))).trans (placeRule_link ..)

theorem sendHandoff_link (g : Segment) (s : State) : KeepsLink s (sendHandoff g s) := by
  unfold sendHandoff
  exact .ite (fun _ => updateSeg_link ..)
    (fun _ => (queueTx_link (by simp) s).trans ((updateSeg_link ..).trans ((KeepsLink.web _ _).trans (.pattern _ _))))

theorem closeEntry_link (j : Judgement) (g : Segment) (s : State) : KeepsLink s (closeEntry j g s) := by
  unfold closeEntry
  extract_lets v a b c d
  have ha : KeepsLink s a := queueTx_link (by simp) s
  have hb : KeepsLink a b := .ite (fun _ => raise_link (by decide) a) (fun _ => .refl a)
  have hc : KeepsLink b c := .ite (fun _ => raise_link (by decide) b) (fun _ => .refl b)
  exact (ha.trans (hb.trans hc)).trans ((KeepsLink.web c _).trans (.heat d _))

theorem shiftCells_link (s : State) : KeepsLink s (shiftCells s) := by
  have entries (c : Cell) (edge : Word) (s : State) : KeepsLink s (closeEntries c edge s) := by
    refine .foldl _ (fun t g => ?_) _ s
    split
    · exact .refl t
    · exact .ite (fun _ => closeEntry_link ..) (fun _ => .refl t)
  unfold shiftCells
  extract_lets a anchor edge t
  refine KeepsLink.trans (t := t) ?_ (.heat t _)
  unfold t
  split
  · exact KeepsLink.trans (.of_eq (by simp) (by simp)) (entries ..)
  · exact .refl s

theorem setWait_link (w : OrderWait) (s : State) : KeepsLink s (setWait w s) :=
  KeepsLink.trans (.order s _) ((followHold_link ..).trans ((followHold_link ..).trans
    ((follow_link (by decide) _ _).trans (follow_link (by decide) _ _))))

theorem makeBirth_link (s : State) : KeepsLink s (makeBirth s) := by
  have after (b : Born) (seg : Half) (arrival : Word) (s : State) : KeepsLink s (afterBirth b seg arrival s) := by
    unfold afterBirth
    cases b with
    | splice => exact (KeepsLink.order s _).trans (.roll _ _)
    | panel o => exact KeepsLink.trans (.order s _) (setWait_link ..)
    | leader => exact setWait_link ..
  unfold makeBirth
  extract_lets delayed arrival b g uid t u v
  have ht : KeepsLink s t := .of_eq rfl rfl
  have hu : KeepsLink t u := .ite (fun _ => placeRule_link ..) (fun _ => .refl t)
  exact (ht.trans hu).trans (KeepsLink.trans (.order u _) (after ..))

theorem stallAtStandstill_link (s : State) : KeepsLink s (stallAtStandstill s) :=
  .ite (fun _ => KeepsLink.trans (.order s _) (raise_link (by decide) _)) (fun _ => .refl s)

theorem holdBirth_link (s : State) : KeepsLink s (holdBirth s) :=
  KeepsLink.trans (.order s _) (stallAtStandstill_link _)

/-! ## The rolls -/

theorem rollConditions_link (s : State) : KeepsLink s (rollConditions s) :=
  (follow_link (by decide) _ s).trans ((follow_link (by decide) _ _).trans (followHold_link ..))

theorem enterSplice_link (x : SpliceState) (s : State) : KeepsLink s (enterSplice x s) :=
  KeepsLink.trans (.roll s _) (rollConditions_link _)

theorem spliceTest_link (s : State) : KeepsLink s (spliceTest s) := by
  unfold spliceTest
  split
  · exact .refl s
  · exact .ite (fun _ => ((KeepsLink.roll s _).trans (.order _ _)).trans (rollConditions_link _)) (fun _ => .refl s)

theorem returnToRun_link (s : State) : KeepsLink s (returnToRun s) :=
  ((KeepsLink.roll s _).trans (.order _ _)).trans ((rollConditions_link _).trans (spliceTest_link _))

theorem abortSplice_link (s : State) : KeepsLink s (abortSplice s) :=
  (raise_link (by decide) s).trans (returnToRun_link _)

theorem resolveSplice_link (s : State) : KeepsLink s (resolveSplice s) :=
  .ite (fun _ => returnToRun_link s) (fun _ => .ite (fun _ => .roll s _) (fun _ => .refl s))

theorem rollAtActive_link (s : State) : KeepsLink s (rollAtActive s) :=
  .ite
    (fun _ => .ite
      (fun _ => .ite (fun _ => (enterSplice_link ..).trans (returnToRun_link _)) (fun _ => enterSplice_link ..))
      (fun _ => spliceTest_link s))
    (fun _ => .refl s)

/-- The UNWIND at a ramp update (R84, R109 to R112, R117, R119). -/
theorem rampUnwind_link (s : State) : KeepsLink s (rampUnwind s) := by
  have paste (s : State) : KeepsLink s (pasteTest s) := by
    refine .ite (fun _ => ?_) (fun _ => .refl s)
    unfold enterPaste
    extract_lets t
    refine KeepsLink.trans (t := t) ?_ ((KeepsLink.roll t _).trans (enterSplice_link ..))
    unfold t
    split
    · exact .of_eq (by simp) (by simp)
    · exact .refl s
  have start (s : State) : KeepsLink s (startNewTest s) := by
    unfold startNewTest
    refine .ite (fun _ => ?_) (fun _ => .refl s)
    extract_lets x t
    have ht : KeepsLink s t := .ite (fun _ => .roll s _) (fun _ => .refl s)
    exact .ite (fun _ => ht.trans (enterSplice_link ..)) (fun _ => ht)
  have roll (s : State) : KeepsLink s (rampRoll s) :=
    KeepsLink.trans ((KeepsLink.roll s _).trans (.roll _ _)) ((paste _).trans (start _))
  exact .ite (fun _ => (roll s).trans (KeepsLink.trans (.roll _ _) (stallAtStandstill_link _))) (fun _ => .refl s)

/-! ## What falls due, and the end of a command -/

theorem takeDue_link (d : Due) (s : State) : KeepsLink s (takeDue d s) := by
  cases d with
  | openWindow g => exact openWindow_link ..
  | acceptMark e => exact KeepsLink.trans (.web s _) (acceptMark_link ..)
  | holdClosing => exact .of_eq rfl rfl
  | closeWindow => exact closeWindowMiss_link s
  | fold => exact takeFold_link s
  | endRun => exact endRun_link s
  | startRun g => exact startRun_link ..
  | shift => exact shiftCells_link s
  | boundary g isLead point => exact KeepsLink.trans (.web s _) (takeBoundary_link ..)
  | handoff g => exact sendHandoff_link ..
  | trailExit g => exact removeSeg_link ..
  | prefillDone => exact enterSplice_link ..
  | stopOld => exact enterSplice_link ..
  | stopOldLow => exact abortSplice_link s
  | recovered => exact returnToRun_link s
  | birth => exact makeBirth_link s
  | holdBirth => exact holdBirth_link s
  | endStall => exact .of_eq rfl rfl

theorem settle_link (s : State) : KeepsLink s (settle s) :=
  settle_keeps (KeepsLink s) (fun t h => h.trans (.ite (fun _ => retestPiece_link t) (fun _ => .refl t)))
    (fun t d h _ => h.trans (takeDue_link d t)) s (.refl s)

/-- Making the figures again enters a CONDITION NOTICE at most (R154, R175). -/
theorem FiguresOnly.link {u t : State} (h : FiguresOnly u t) : KeepsLink u t := by
  refine ⟨fun e he => ?_, h.flags _ (by decide)⟩
  rcases h.tx with h | ⟨-, -, h⟩ <;> rw [h]
  rw [mem_insertByClass, or_iff_right_iff_imp]
  rintro rfl
  cases he

theorem enterActive_link (s : State) : KeepsLink s (enterActive s) := by
  unfold enterActive
  extract_lets x a y b c
  have hb : KeepsLink s b := .of_eq rfl rfl
  have hc : KeepsLink b c := .ite (fun _ => startMove_link b) (fun _ => .of_eq (by simp) (by simp))
  have hw : KeepsLink (pulseForMode c) (warmChamber (pulseForMode c)) := .of_eq (by simp) (by simp)
  exact (hb.trans hc).trans ((pulseForMode_link c).trans (hw.trans (rollAtActive_link _)))

theorem conclude_link (s : State) : KeepsLink s (conclude s) := by
  rcases conclude_cases s with ⟨h, -⟩ | ⟨h, -⟩ <;> rw [h]
  · exact (refresh_figures s).link
  · exact (refresh_figures s).link.trans ((enterActive_link _).trans ((settle_link _).trans (refresh_figures _).link))

theorem finish_link (s : State) : KeepsLink s (finish s) := (settle_link s).trans (conclude_link _)

/-- An entry to TRIPPED queues no TRIP of its own (R42, R43). -/
theorem enterTripped_link (s : State) : KeepsLink s (enterTripped s) := by
  unfold enterTripped
  extract_lets x a y b z c d
  have hc : KeepsLink s c := .of_eq rfl rfl
  have hd : KeepsLink c d := (tripKnife_link c).trans (KeepsLink.trans (.of_eq (by simp) (by simp)) (resolveSplice_link _))
  exact .ite (fun _ => (hc.trans hd).trans (.of_eq (by simp) (by simp))) (fun _ => hc.trans hd)

end Sys2Proof.Machine
end

