-- ==== Sys2Proof/Proofs/TripsTaken.lean ====
section
/-! PROOFS. O25, O26: the ESTOP input and the trip latch. -/

namespace Sys2Proof.Machine
open Sys2Proof

/-! ## An entry to TRIPPED (R42, R44, R71) -/

/-- What an entry to TRIPPED leaves: the mode left, the trip timer and drive enable by the applied speed, and neither a stroke
nor a valve. -/
theorem enterTripped_leaves (s : State) : (enterTripped s).gov.beforeTrip = some s.mode ∧
    (enterTripped s).gov.tripTimer = (if s.gov.vA = 0 then none else some 3000) ∧
    (s.gov.vA = 0 → (enterTripped s).gov.driveEnable = false) ∧ (enterTripped s).pattern.stroke = none ∧
    ∀ z ∈ (enterTripped s).heat.zones, z.valve = 0 := by
  obtain ⟨stroke, valves⟩ := tripBegun_off s
  rw [enterTripped_eq]
  split
  · obtain ⟨gov, -, -, -, -, -, rest⟩ := clearDrive_rests ((tripBegun s).withGov { (tripBegun s).gov with tripTimer := none })
    exact ⟨by simp, by simp, fun _ => by rw [gov], by simpa using stroke, rest⟩
  · rename_i hv
    exact ⟨by simp, by simp, fun h => absurd h hv, stroke, valves⟩

/-- In TRIPPED nothing that falls due begins a stroke (R63, R71). -/
theorem takeDue_stroke {s : State} (d : Due) (hm : s.mode = .tripped) (hs : s.pattern.stroke = none) :
    (takeDue d s).pattern.stroke = none := by
  have fold : (takeFold s).pattern.stroke = none := by
    unfold takeFold
    split
    · exact hs
    · rename_i r _
      have hk : (s.withPattern { s.pattern with run := some { r with nextPleat := r.nextPleat + 1 } }).knifeDrive = false :=
        knifeDrive_eq_false.2 (.inr hm)
      dsimp only
      rw [if_pos (by simp [hk])]
      simpa using hs
  cases d with
  | fold => exact fold
  | _ => simpa [takeDue, noteBoundary] using hs

theorem settle_stroke {s : State} (hm : s.mode = .tripped) (hs : s.pattern.stroke = none) :
    (settle s).pattern.stroke = none := by
  refine (settle_keeps (fun t => t.mode = .tripped ∧ t.pattern.stroke = none) (fun t h => ?_) (fun t d h _ => ?_) s
    ⟨hm, hs⟩).2
  · have hl : (retest t).mode = t.mode := by simp [State.mode]
    exact ⟨hl.trans h.1, by simpa using h.2⟩
  · have hl : (takeDue d t).mode = t.mode := by simp [State.mode]
    exact ⟨hl.trans h.1, takeDue_stroke d h.1 h.2⟩

/-- A command that ends in TRIPPED ends with what was due and the figures (R191). -/
theorem finish_tripped_figures {s : State} (h : s.mode = .tripped) : FiguresOnly (settle s) (finish s) :=
  finish_figures rfl rfl (.inr (.inl h))

/-- What an entry to TRIPPED leaves stands to the end of the command. -/
theorem finish_entered (s : State) : (finish (pulseForMode (enterTripped s))).mode = .tripped ∧
    (finish (pulseForMode (enterTripped s))).gov.trips = s.gov.trips ∧
    (finish (pulseForMode (enterTripped s))).gov.beforeTrip = some s.mode ∧
    (finish (pulseForMode (enterTripped s))).gov.tripTimer = (if s.gov.vA = 0 then none else some 3000) ∧
    (s.gov.vA = 0 → (finish (pulseForMode (enterTripped s))).gov.driveEnable = false) ∧
    (finish (pulseForMode (enterTripped s))).pattern.stroke = none ∧
    (∀ z ∈ (finish (pulseForMode (enterTripped s))).heat.zones, z.valve = 0) ∧
    KeepsLink s (finish (pulseForMode (enterTripped s))) := by
  obtain ⟨before, timer, drive, stroke, valves⟩ := enterTripped_leaves s
  have hm : (pulseForMode (enterTripped s)).mode = .tripped := by
    simpa [State.mode] using enterTripped_mode s
  have hfig := finish_tripped_figures hm
  refine ⟨finish_tripped hm, by simp [enterTripped_trips], by simpa using before, by simpa using timer, fun hv => ?_, ?_, ?_,
    (enterTripped_link s).trans ((pulseForMode_link _).trans (finish_link _))⟩
  · rw [hfig.driveEnable]
    simpa using drive hv
  · rw [hfig.pattern]
    exact settle_stroke hm (by simpa using stroke)
  · exact hfig.valves (by simpa using valves)

/-! ## The ESTOP input (O25) -/

/-- Outside TRIPPED a cause added queues its TRIP and enters TRIPPED (R41, R42). -/
theorem addTrip_entering (c : TripCause) {s : State} (ho : s.operating = true) (hm : s.mode ≠ .tripped) : addTrip c s =
    pulseForMode (enterTripped (queueTrip c (s.withGov { s.gov with trips := insertNew c s.gov.trips }))) := by
  unfold addTrip
  cases hs : s.mode with
  | joining | active | standby => rfl
  | tripped => exact absurd hs hm
  | powerUp | configuring | configFault => simp [State.operating, hs, operatingMode] at ho

/-- In TRIPPED a cause is added, and the mode before the trip and its timer stand (R41, R42). -/
theorem addTrip_tripped (c : TripCause) {s : State} (hm : s.mode = .tripped) :
    (∀ x ∈ s.gov.trips, x ∈ (addTrip c s).gov.trips) ∧ (addTrip c s).gov.beforeTrip = s.gov.beforeTrip ∧
    (addTrip c s).gov.tripTimer = s.gov.tripTimer := by
  unfold addTrip
  rw [hm]
  dsimp only
  split
  · exact ⟨fun _ h => h, rfl, rfl⟩
  · simp +contextual

/-- The TRIP queued for a cause finds a free place (R42, R210). -/
theorem mem_tx_queueTrip {c : TripCause} {s : State} (hc : c ≠ .dupAddress) (h : s.bus.tx.length < 8) :
    ({ kind := .trip, dest := 0, body := bytesOf 1 c.code } : TxEntry) ∈ (queueTrip c s).bus.tx := by
  rw [queueTrip, if_neg hc, queueTx_free _ _ h]
  simp [setTx]

/-- A trip by the ESTOP input from another mode (R41, R42, R44, R47). -/
theorem finish_estop_entering {s : State} (ho : s.operating = true) (hm : s.mode ≠ .tripped) :
    (finish (addTrip .estopInput s)).gov.beforeTrip = some s.mode ∧
    (finish (addTrip .estopInput s)).gov.tripTimer = (if s.gov.vA = 0 then none else some 3000) ∧
    (s.gov.vA = 0 → (finish (addTrip .estopInput s)).gov.driveEnable = false) ∧
    (finish (addTrip .estopInput s)).pattern.stroke = none ∧
    (∀ z ∈ (finish (addTrip .estopInput s)).heat.zones, z.valve = 0) ∧
    (s.bus.tx.length < 8 →
      ∃ e ∈ (finish (addTrip .estopInput s)).bus.tx, e.kind = .trip ∧ e.dest = 0 ∧ fieldAt e.body 0 1 = 0) := by
  rw [addTrip_entering _ ho hm]
  generalize ht : s.withGov { s.gov with trips := insertNew .estopInput s.gov.trips } = t
  obtain ⟨-, -, before, timer, drive, stroke, valves, link⟩ := finish_entered (queueTrip .estopInput t)
  have hmode : (queueTrip .estopInput t).mode = s.mode := by simp [State.mode, ← ht]
  have hv : (queueTrip .estopInput t).gov.vA = s.gov.vA := by simp [← ht]
  rw [hv] at timer drive
  refine ⟨before.trans (by rw [hmode]), timer, drive, stroke, valves, fun hlen => ?_⟩
  have hfree : t.bus.tx.length < 8 := by simpa [← ht] using hlen
  exact ⟨_, (link.trips _ rfl).2 (mem_tx_queueTrip (by decide) hfree), rfl, rfl, by decide⟩

/-- Settles O25: the level is noted, and becoming active it adds its cause (`addTrip`). -/
theorem estopTrips : Obligations.EstopTrips := by
  refine ⟨fun s ho hp => ?_, fun s level ho h => ?_, fun s level ho => congrArg Host.Outcome.next (if_neg (by simp [ho]))⟩
  · have hx : setEstop true s = addTrip .estopInput (s.withPins { s.pins with estop := true }) := by
      simp [setEstop, hp]
    refine ⟨_, congrArg Host.Outcome.next (if_pos ho), ?_⟩
    rw [hx]
    generalize ha : s.withPins { s.pins with estop := true } = a
    have hoa : a.operating = true := by rw [← ha]; exact ho
    have hma : a.mode = s.mode := by rw [← ha]; rfl
    have hga : a.gov = s.gov := by rw [← ha]; rfl
    have hba : a.bus = s.bus := by rw [← ha]; rfl
    obtain ⟨trip, mode⟩ := addTrip_trips .estopInput hoa
    refine ⟨by simp [← ha], finish_tripped mode, by simpa using trip, fun c hc => ?_, by simp [hga], fun hm => ?_, fun hm => ?_⟩
    · by_cases hm : a.mode = .tripped
      · simpa using (addTrip_tripped .estopInput hm).1 c (hga ▸ hc)
      · rw [addTrip_entering _ hoa hm, (finish_entered _).2.1]
        simp [hga, hc]
    · rw [← hma] at hm ⊢
      rw [← hga, ← hba]
      exact finish_estop_entering hoa hm
    · obtain ⟨-, before, timer⟩ := addTrip_tripped .estopInput (hma.trans hm)
      exact ⟨by simpa [hga] using before, by simpa [hga] using timer⟩
  · have hx : setEstop level s = s.withPins { s.pins with estop := level } := by
      rcases h with h | h <;> simp [setEstop, h]
    refine ⟨_, congrArg Host.Outcome.next (if_pos ho), ?_⟩
    rw [hx]
    simp

/-! ## The trip latch (O26) -/

/-- The causes a latch taken adds (R43). -/
def latchedTrips (s : State) : List TripCause :=
  let p := if s.bus.latchRoster then insertNew TripCause.peer s.gov.trips else s.gov.trips
  if s.bus.latchTerminal then insertNew TripCause.terminal p else p

theorem mem_latchedTrips (c : TripCause) (s : State) : c ∈ latchedTrips s ↔
    s.bus.latchTerminal = true ∧ c = .terminal ∨ s.bus.latchRoster = true ∧ c = .peer ∨ c ∈ s.gov.trips := by
  unfold latchedTrips
  cases s.bus.latchRoster <;> cases s.bus.latchTerminal <;> simp

/-- The latch emptied and its causes added (R43). -/
def latchEmptied (s : State) : State :=
  (s.withGov { s.gov with trips := latchedTrips s }).withBus { s.bus with latchRoster := false, latchTerminal := false }

theorem takeLatch_eq (s : State) : takeLatch s =
    if s.bus.latchRoster || s.bus.latchTerminal then
      if s.mode = .tripped then latchEmptied s else pulseForMode (enterTripped (latchEmptied s))
    else s := rfl

/-- Settles O26: the causes go in with the latch's own registers, and the entry to TRIPPED queues no TRIP
(`enterTripped_link`). -/
theorem tripLatchTrips : Obligations.TripLatchTrips := by
  refine fun s ho => ⟨fun h => ?_, fun hr ht => ?_⟩
  · have mem (c : TripCause) := mem_latchedTrips c s
    refine ⟨_, congrArg Host.Outcome.next (if_pos ho), ?_⟩
    rw [takeLatch_eq, if_pos (by simpa using h)]
    split
    · rename_i hm
      have hmode : (latchEmptied s).mode = .tripped := hm
      have link : KeepsLink s (finish (latchEmptied s)) :=
        KeepsLink.trans (t := latchEmptied s) (.of_eq rfl rfl) (finish_link _)
      refine ⟨by simp [latchEmptied], by simp [latchEmptied], finish_tripped hmode, fun hl => ?_, fun hl => ?_, fun c hc => ?_,
        fun hn => absurd hm hn, fun _ => by simp [latchEmptied], fun e he hk => (link.trips e hk).1 he⟩ <;>
        simp [latchEmptied, *]
    · rename_i hm
      obtain ⟨mode, trips, before, -, -, -, -, link⟩ := finish_entered (latchEmptied s)
      rw [trips]
      refine ⟨by simp [latchEmptied], by simp [latchEmptied], mode, fun hl => (mem _).2 (.inr (.inl ⟨hl, rfl⟩)),
        fun hl => (mem _).2 (.inl ⟨hl, rfl⟩), fun c hc => (mem _).2 (.inr (.inr hc)), fun _ => before, fun hn => absurd hn hm,
        fun e he hk => (link.trips e hk).1 he⟩
  · have hx : takeLatch s = s := if_neg (by simp [hr, ht])
    refine ⟨_, congrArg Host.Outcome.next (if_pos ho), ?_⟩
    rw [hx]
    exact ⟨by simp, fun hs => finish_figures rfl rfl hs⟩

end Sys2Proof.Machine
end

