-- ==== Sys2Proof/Proofs/PeersAge.lean ====
section
/-! PROOFS. O23: peer ages, liveness, and the entry a pulse loads. -/

namespace Sys2Proof.Machine
open Sys2Proof

/-! ## One entry a millisecond later (R29) -/

/-- Judging an entry by its age moves its liveness alone; LOST is kept. -/
theorem judged_law (e : PeerEntry) : e.judged = { e with liveness := e.judged.liveness } ∧
    (e.liveness = .lost → e.judged.liveness = .lost) ∧
    (e.liveness = .live ∨ e.liveness = .late →
      (4 * e.interval < e.age → e.judged.liveness = .lost) ∧
      (2 * e.interval < e.age → e.age ≤ 4 * e.interval → e.judged.liveness = .late) ∧
      (e.age ≤ 2 * e.interval → e.age ≤ 4 * e.interval → e.judged.liveness = e.liveness)) := by
  have heard (h : e.liveness = .live ∨ e.liveness = .late) : e.judged =
      if 4 * e.interval < e.age then { e with liveness := .lost }
      else if 2 * e.interval < e.age then { e with liveness := .late } else e := by
    unfold PeerEntry.judged
    rcases h with h | h <;> rw [h]
  have same (h : e.judged = e) : e.judged = { e with liveness := e.judged.liveness } := by rw [h]
  cases hl : e.liveness with
  | unknown =>
    have hj : e.judged = e := by simp [PeerEntry.judged, hl]
    exact ⟨same hj, nofun, nofun⟩
  | lost =>
    have hj : e.judged = e := by simp [PeerEntry.judged, hl]
    exact ⟨same hj, fun _ => by rw [hj, hl], nofun⟩
  | live | late =>
    have hj := heard (by simp [hl])
    refine ⟨?_, nofun, fun _ => ⟨fun h4 => ?_, fun h2 h4 => ?_, fun h2 h4 => ?_⟩⟩
    · rw [hj]
      split
      · rfl
      · split <;> rfl
    · rw [hj, if_pos h4]
    · rw [hj, if_neg (by omega), if_pos h2]
    · rw [hj, if_neg (by omega), if_neg (by omega), hl]

/-- An entry never heard does not age; any other is a millisecond older, and its liveness follows its age. -/
theorem aged_law (e : PeerEntry) : (e.liveness = .unknown → e.aged = e) ∧
    (e.liveness ≠ .unknown →
      e.aged = { e with age := min 65535 (e.age + 1), liveness := e.aged.liveness } ∧
      (e.liveness = .lost → e.aged.liveness = .lost) ∧
      (e.liveness ≠ .lost →
        (4 * e.interval < e.aged.age → e.aged.liveness = .lost) ∧
        (2 * e.interval < e.aged.age → e.aged.age ≤ 4 * e.interval → e.aged.liveness = .late) ∧
        (e.aged.age ≤ 2 * e.interval → e.aged.age ≤ 4 * e.interval → e.aged.liveness = e.liveness))) := by
  refine ⟨fun h => if_pos h, fun h => ?_⟩
  have ha : e.aged = PeerEntry.judged { e with age := min 65535 (e.age + 1) } := if_neg h
  obtain ⟨frame, lost, heard⟩ := judged_law { e with age := min 65535 (e.age + 1) }
  rw [← ha] at frame lost heard
  have hage : e.aged.age = min 65535 (e.age + 1) := by rw [frame]
  rw [hage]
  refine ⟨frame, lost, fun hl => heard ?_⟩
  change e.liveness = .live ∨ e.liveness = .late
  cases hc : e.liveness with
  | unknown => exact absurd hc h
  | lost => exact absurd hc hl
  | live => exact .inl rfl
  | late => exact .inr rfl

/-! ## The peer table of a state -/

theorem peer_congr {s t : State} (h : t.peers = s.peers) (a : Nat) : t.peer a = s.peer a := by simp [State.peer, h]

theorem peer_of_aged {s t : State} (h : t.peers = s.peers.map PeerEntry.aged) (a : Nat) : t.peer a = (s.peer a).aged := by
  simp only [State.peer, h, List.getD_eq_getElem?_getD, List.getElem?_map]
  cases s.peers[a - 1]? <;> rfl

/-- An address of the table names one of its entries (R28). -/
theorem peer_mem {s : State} {a : Nat} (hlen : s.peers.length = 15) (h1 : 1 ≤ a) (h2 : a ≤ 15) : s.peer a ∈ s.peers := by
  have hlt : a - 1 < s.peers.length := by omega
  simp [State.peer, List.getElem?_eq_getElem hlt]

/-! ## PEER_LATE and PEER_LOST (R30) -/

/-- PEER_LATE stands as the roster entries do. -/
def LateFollows (s : State) : Prop := Cond.peerLate ∈ s.cond.flags ↔ ∃ b ∈ s.rosterOthers, (s.peer b).liveness = .late

theorem LateFollows.congr {s t : State} (h : LateFollows s) (link : KeepsLink s t) (image : t.loader.image = s.loader.image)
    (peers : t.peers = s.peers) : LateFollows t := by
  have hr : t.rosterOthers = s.rosterOthers := by simp [State.rosterOthers, cfg_of_image image]
  simpa only [LateFollows, link.late, hr, peer_congr peers] using h

theorem followPeerLate_follows (s : State) : LateFollows (followPeerLate s) := by
  have hr : (followPeerLate s).rosterOthers = s.rosterOthers := by
    have : (followPeerLate s).loader.image = s.loader.image := by simp [followPeerLate]
    simp [State.rosterOthers, cfg_of_image this]
  have hp : (followPeerLate s).peers = s.peers := by simp [followPeerLate]
  simp only [LateFollows, hr, peer_congr hp]
  simp [followPeerLate]

/-- After the peers have aged PEER_LATE stands as they do, and PEER_LOST is latched where one went to LOST (R29, R30). -/
theorem agePeers_flags (s : State) : LateFollows (agePeers s) ∧
    (s.peers.any PeerEntry.goesLost = true → Cond.peerLost ∈ (agePeers s).cond.flags) := by
  unfold agePeers
  extract_lets t
  have ht : LateFollows t := followPeerLate_follows _
  split
  · exact ⟨ht.congr (raise_link (by decide) t) (by simp) (by simp), fun _ => raise_sets ..⟩
  · rename_i h
    exact ⟨ht, fun hl => absurd hl h⟩

theorem rampGov_peers (s : State) : (rampGov s).peers = s.peers := by
  rcases rampGov_cases s with ⟨-, -, h⟩ | ⟨h, -⟩ <;> rw [h]
  · simp
  · rfl

/-- The conditions of the peers at the end of a ramp update (R29, R30; log entry 26). -/
theorem finish_rampStep_flags (s : State) : LateFollows (finish (rampStep s)) ∧
    (s.peers.any PeerEntry.goesLost = true → Cond.peerLost ∈ (finish (rampStep s)).cond.flags) := by
  obtain ⟨late, lost⟩ := agePeers_flags (rampGov s)
  have frame : (rampUnwind (agePeers (rampGov s))).loader = (agePeers (rampGov s)).loader ∧
      (rampUnwind (agePeers (rampGov s))).peers = (agePeers (rampGov s)).peers := by
    unfold rampUnwind
    split <;> simp
  have link : KeepsLink (agePeers (rampGov s)) (finish (rampStep s)) := (rampUnwind_link _).trans (finish_link _)
  have settles : Settles (agePeers (rampGov s)) (finish (rampStep s)) := (rampUnwind_settles _).trans (finish_settles _)
  rw [rampGov_peers] at lost
  refine ⟨late.congr link ?_ ?_, fun h => settles.flags _ (lost h) rfl⟩ <;> simp [rampStep, frame]

/-! ## The commands (O23) -/

/-- A ramp update in the operating modes: a millisecond for every peer, the conditions that follow, and what falls due. -/
theorem exec_rampUpdate_peers (w p d : Bool) {s : State} (ho : s.operating = true) : ∃ v, v.peers = s.peers ∧
    exec (.rampUpdate w p d) s = .next (finish (rampStep v)) := by
  refine ⟨tickTimers (samplePins w p d s), by simp [tickTimers, samplePins], congrArg Host.Outcome.next (if_pos ?_)⟩
  simpa [State.operating, State.mode, tickTimers, samplePins] using ho

theorem finish_rampStep_peer {s v : State} (hv : v.peers = s.peers) (a : Nat) :
    (finish (rampStep v)).peer a = (s.peer a).aged := by
  refine peer_of_aged ?_ a
  rw [← hv, ← (rampStep_frame v).2.1]
  simp

theorem exec_peerEntryLate {a : Nat} {s : State} (ho : s.operating = true) (h1 : 1 ≤ a) (h2 : a ≤ 15) :
    exec (.peerEntryLate a) s = .next (finish (lateTest a s)) := by
  have hw : wellFormedAddress a = true := by simp [wellFormedAddress, h1, h2]
  change execPeerEntryLate a s = _
  rw [execPeerEntryLate, if_pos hw, operateWeb, if_pos ho]

theorem exec_peerEntryLost {a : Nat} {s : State} (ho : s.operating = true) (h1 : 1 ≤ a) (h2 : a ≤ 15) :
    exec (.peerEntryLost a) s = .next (finish (lostTest a s)) := by
  have hw : wellFormedAddress a = true := by simp [wellFormedAddress, h1, h2]
  change execPeerEntryLost a s = _
  rw [execPeerEntryLost, if_pos hw, operateWeb, if_pos ho]

theorem lateTest_peers (a : Nat) (s : State) : (lateTest a s).peers =
    if (s.peer a).liveness = .live ∧ 2 * (s.peer a).interval < (s.peer a).age then
      s.peers.set (a - 1) { s.peer a with liveness := .late } else s.peers := by
  unfold lateTest
  dsimp only
  split <;> simp [followPeerLate, setPeer]

/-- The transition to LOST latches PEER_LOST (R29, R30). -/
theorem lostTest_lost {a : Nat} {s : State} (h : (s.peer a).liveness = .late ∧ 4 * (s.peer a).interval < (s.peer a).age) :
    (lostTest a s).peers = s.peers.set (a - 1) { s.peer a with liveness := .lost } ∧
    Cond.peerLost ∈ (lostTest a s).cond.flags := by
  have hx : lostTest a s = raise .peerLost (followPeerLate (setPeer a { s.peer a with liveness := .lost } s)) := if_pos h
  rw [hx]
  exact ⟨by simp [followPeerLate, setPeer], raise_sets ..⟩

/-- The entry a pulse of a roster peer loads (R28). -/
theorem takeLinePulse_heard {e : RxEntry} {s : State} {p : PeerEntry} (hm : inMask s.cfg.roster e.origin = true)
    (ha : e.origin ≠ s.cfg.address) (hp : readPulse e.body = some p) :
    (takeLinePulse e s).peers = s.peers.set (e.origin - 1) p := by
  simp [takeLinePulse, hm, ha, hp, followPeerLate, setPeer]

theorem takeLinePulse_ignored {e : RxEntry} {s : State} (h : inMask s.cfg.roster e.origin = false ∨
    e.origin = s.cfg.address ∨ readPulse e.body = none) : takeLinePulse e s = s := by
  unfold takeLinePulse
  split
  · rename_i hc
    simp only [Bool.and_eq_true, decide_eq_true_eq] at hc
    obtain ⟨hm, ha⟩ := hc
    rcases h with h | h | h
    · cases h.symm.trans hm
    · exact absurd h ha
    · rw [h]
  · rfl

theorem takeLinePulse_rx (e : RxEntry) (s : State) : (takeLinePulse e s).bus.rx = s.bus.rx := by
  unfold takeLinePulse
  split
  · split <;> simp [followPeerLate]
  · rfl

/-- Settles O23: the ageing of one entry (`aged_law`) over the table, and the conditions it brings kept to the end of the
command. -/
theorem peersAgeAndAreHeard : Obligations.PeersAgeAndAreHeard := by
  refine ⟨fun w p d s a ho hlen h1 h2 => ?_, fun a s ho h1 h2 => ⟨⟨_, exec_peerEntryLate ho h1 h2, ?_⟩,
    ⟨_, exec_peerEntryLost ho h1 h2, fun hl hage => ?_, fun hn => ?_⟩⟩, fun s e rest ho hrx hk => ?_⟩
  · obtain ⟨v, hv, he⟩ := exec_rampUpdate_peers w p d ho
    obtain ⟨late, lost⟩ := finish_rampStep_flags v
    obtain ⟨unheard, heard⟩ := aged_law (s.peer a)
    refine ⟨_, he, ?_⟩
    rw [finish_rampStep_peer hv a]
    refine ⟨unheard, heard, late, fun hn hl => lost (List.any_eq_true.2 ⟨s.peer a, ?_, ?_⟩)⟩
    · rw [hv]
      exact peer_mem hlen h1 h2
    · simp [PeerEntry.goesLost, hn, hl]
  · simpa using lateTest_peers a s
  · obtain ⟨peers, flag⟩ := lostTest_lost ⟨hl, hage⟩
    exact ⟨by simpa using peers, (finish_settles _).flags _ flag rfl⟩
  · have hx : lostTest a s = s := if_neg hn
    simp [hx]
  · refine ⟨_, operateWeb_takeAs takeLinePulse ho hrx hk, by simpa [State.freed] using takeLinePulse_rx e (s.freed rest),
      fun p hm ha hp => ?_, fun h => ?_⟩
    · simpa [State.freed] using takeLinePulse_heard (s := s.freed rest) hm ha hp
    · rw [takeLinePulse_ignored (s := s.freed rest) h]
      simp [State.freed]

end Sys2Proof.Machine
end

