-- ==== Sys2Proof/Proofs/IdleUnits.lean ====
section
/-! PROOFS. The units of the roles a station does not have, as idle units, and what an operation leaves of them (O12). An operation
either leaves such a unit as it is because the unit is idle, or is one the unit's own role alone makes. -/

namespace Sys2Proof.Machine
open Sys2Proof

/-! ## Idle units (R77, R94, R123, R156, R171) -/

/-- A pattern unit that holds the kept slots alone (R77). -/
def PatternUnit.Idle (x : PatternUnit) : Prop := x = { slots := x.slots }

/-- An order unit at its start values (R94). -/
def OrderUnit.Idle (x : OrderUnit) : Prop := x = { newSequence := x.newSequence, punches := x.punches }

/-- A roll unit in RUN that drives nothing but a paste in flight (R123). -/
def RollUnit.Idle (x : RollUnit) : Prop :=
  x = { arm1 := x.arm1, arm2 := x.arm2, pasteTimer := x.pasteTimer, pasteOutput := x.pasteOutput, fillBase := x.fillBase,
        outHistory := x.outHistory }

/-- A heat-set unit of which the sensor channels alone work (R124, R156). -/
def HeatUnit.Idle (x : HeatUnit) : Prop := x = { channels := x.channels, recipes := x.recipes }

/-- The units of the roles that the station does not have are idle, whatever its mode. -/
structure UnitsIdle (s : State) : Prop where
  pattern : s.is .pleat = false → s.pattern.Idle
  order : s.is .unwind = false → s.order.Idle
  roll : s.is .unwind = false → s.roll.Idle
  heat : s.is .setter = false → s.heat.Idle
  outfeed : s.is .outfeed = false → s.outfeed = {}

theorem UnitsIdle.idleSafe {s : State} (h : UnitsIdle s) : IdleSafe s :=
  ⟨fun _ => h.pattern, fun _ => h.order, fun _ => h.roll, fun _ => h.heat, fun _ => h.outfeed⟩

theorem IdleSafe.unitsIdle {s : State} (h : IdleSafe s) (ho : s.operating = true) : UnitsIdle s :=
  ⟨h.pattern ho, h.order ho, h.roll ho, h.heat ho, h.outfeed ho⟩

/-- Outside the operating modes the invariant asks nothing. -/
theorem IdleSafe.of_idle {s : State} (ho : s.operating = false) : IdleSafe s := by
  constructor <;> exact fun h => absurd (ho.symm.trans h) nofun

/-- In an idle pattern unit nothing is in flight, held or recorded. -/
theorem PatternUnit.Idle.holdsNothing {x : PatternUnit} (h : x.Idle) : x.run = none ∧ x.stroke = none ∧ x.heldFold = none ∧
    x.move = none ∧ x.limitCount = 0 ∧ x.pleatedLengths = [] := by
  rw [PatternUnit.Idle] at h
  rw [h]
  exact ⟨rfl, rfl, rfl, rfl, rfl, rfl⟩

theorem OrderUnit.Idle.queue_nil {x : OrderUnit} (h : x.Idle) : x.queue = [] := by
  rw [OrderUnit.Idle] at h
  rw [h]

/-- An idle roll unit is in RUN with the unwind and the web-present timer stopped. -/
theorem RollUnit.Idle.atRest {x : RollUnit} (h : x.Idle) : x.spliceState = .run ∧ x.webTimer = none ∧ x.vU = 0 ∧
    x.exitCommand = 0 := by
  rw [RollUnit.Idle] at h
  rw [h]
  exact ⟨rfl, rfl, rfl, rfl⟩

/-- An idle heat-set unit has no zones, no cells and no entries, is COLD, and its timers are stopped. -/
theorem HeatUnit.Idle.empty {x : HeatUnit} (h : x.Idle) : x.zones = [] ∧ x.chamber = .cold ∧ x.parkTimer = none ∧
    x.heatTimer = none ∧ x.judgements = [] := by
  rw [HeatUnit.Idle] at h
  rw [h]
  exact ⟨rfl, rfl, rfl, rfl, rfl⟩

/-! ## What an operation leaves of them -/

/-- An operation that leaves the record in force, and idle units idle. -/
structure KeepsIdle (s t : State) : Prop where
  image : t.loader.image = s.loader.image
  units : UnitsIdle s → UnitsIdle t

theorem KeepsIdle.refl (s : State) : KeepsIdle s s := ⟨rfl, id⟩

theorem KeepsIdle.trans {s t u : State} (h : KeepsIdle s t) (k : KeepsIdle t u) : KeepsIdle s u :=
  ⟨k.image.trans h.image, fun x => k.units (h.units x)⟩

theorem KeepsIdle.is {s t : State} (h : KeepsIdle s t) (r : Role) : t.is r = s.is r := is_of_image h.image r

theorem KeepsIdle.ite {s t u : State} {p : Prop} [Decidable p] (ht : p → KeepsIdle s t) (hu : ¬ p → KeepsIdle s u) :
    KeepsIdle s (if p then t else u) := by
  split
  · exact ht ‹_›
  · exact hu ‹_›

theorem KeepsIdle.foldl {α : Type} (f : State → α → State) (h : ∀ s a, KeepsIdle s (f s a)) (l : List α) (s : State) :
    KeepsIdle s (l.foldl f s) := by
  induction l generalizing s with
  | nil => exact .refl s
  | cons a l ih => exact (h s a).trans (ih (f s a))

/-- Each unit is kept idle, where the role does not make its operations. -/
theorem KeepsIdle.of_units {s t : State} (image : t.loader.image = s.loader.image)
    (pattern : s.is .pleat = false → s.pattern.Idle → t.pattern.Idle)
    (order : s.is .unwind = false → s.order.Idle → t.order.Idle)
    (roll : s.is .unwind = false → s.roll.Idle → t.roll.Idle)
    (heat : s.is .setter = false → s.heat.Idle → t.heat.Idle)
    (outfeed : s.is .outfeed = false → s.outfeed = {} → t.outfeed = {}) : KeepsIdle s t := by
  refine ⟨image, fun h => ?_⟩
  have his (r : Role) : t.is r = s.is r := is_of_image image r
  constructor <;> rw [his] <;> intro hr
  · exact pattern hr (h.pattern hr)
  · exact order hr (h.order hr)
  · exact roll hr (h.roll hr)
  · exact heat hr (h.heat hr)
  · exact outfeed hr (h.outfeed hr)

/-- An operation outside the role units. -/
theorem KeepsIdle.of_same {s t : State} (h : t.loader.image = s.loader.image ∧ t.pattern = s.pattern ∧ t.order = s.order ∧
    t.roll = s.roll ∧ t.heat = s.heat ∧ t.outfeed = s.outfeed) : KeepsIdle s t := by
  obtain ⟨image, pattern, order, roll, heat, outfeed⟩ := h
  refine .of_units image ?_ ?_ ?_ ?_ ?_ <;> intro _
  · exact pattern ▸ id
  · exact order ▸ id
  · exact roll ▸ id
  · exact heat ▸ id
  · exact outfeed ▸ id

/-- A unit of the station's own role is not one of the others. -/
theorem not_other {b : Bool} {P : Prop} (own : b = true) (other : b = false) : P := by
  rw [own] at other
  cases other

/-- An operation on the pattern unit, of the PLEAT or with nothing to do in an idle unit. -/
theorem KeepsIdle.pattern {s t : State} (h : t.loader.image = s.loader.image ∧ t.order = s.order ∧ t.roll = s.roll ∧
    t.heat = s.heat ∧ t.outfeed = s.outfeed) (idle : s.is .pleat = false → s.pattern.Idle → t.pattern = s.pattern) :
    KeepsIdle s t := by
  obtain ⟨image, order, roll, heat, outfeed⟩ := h
  exact .of_units image (fun hr hi => by rwa [idle hr hi]) (fun _ => order ▸ id) (fun _ => roll ▸ id) (fun _ => heat ▸ id)
    (fun _ => outfeed ▸ id)

/-- An operation of the UNWIND on the order unit and the roll unit. -/
theorem KeepsIdle.unwind {s t : State} (hr : s.is .unwind = true) (h : t.loader.image = s.loader.image ∧
    t.pattern = s.pattern ∧ t.heat = s.heat ∧ t.outfeed = s.outfeed) : KeepsIdle s t := by
  obtain ⟨image, pattern, heat, outfeed⟩ := h
  exact .of_units image (fun _ => pattern ▸ id) (not_other hr) (not_other hr) (fun _ => heat ▸ id) (fun _ => outfeed ▸ id)

/-- An operation on the roll unit that keeps an idle one idle. -/
theorem KeepsIdle.roll {s t : State} (h : t.loader.image = s.loader.image ∧ t.pattern = s.pattern ∧ t.order = s.order ∧
    t.heat = s.heat ∧ t.outfeed = s.outfeed) (idle : s.roll.Idle → t.roll.Idle) : KeepsIdle s t := by
  obtain ⟨image, pattern, order, heat, outfeed⟩ := h
  exact .of_units image (fun _ => pattern ▸ id) (fun _ => order ▸ id) (fun _ => idle) (fun _ => heat ▸ id)
    (fun _ => outfeed ▸ id)

/-- An operation on the heat-set unit, of a SETTER or keeping an idle unit idle. -/
theorem KeepsIdle.heat {s t : State} (h : t.loader.image = s.loader.image ∧ t.pattern = s.pattern ∧ t.order = s.order ∧
    t.roll = s.roll ∧ t.outfeed = s.outfeed) (idle : s.is .setter = false → s.heat.Idle → t.heat.Idle) : KeepsIdle s t := by
  obtain ⟨image, pattern, order, roll, outfeed⟩ := h
  exact .of_units image (fun _ => pattern ▸ id) (fun _ => order ▸ id) (fun _ => roll ▸ id) idle (fun _ => outfeed ▸ id)

/-- An operation on the outfeed unit, of the OUTFEED or with nothing to do in an idle unit. -/
theorem KeepsIdle.outfeed {s t : State} (h : t.loader.image = s.loader.image ∧ t.pattern = s.pattern ∧ t.order = s.order ∧
    t.roll = s.roll ∧ t.heat = s.heat) (idle : s.is .outfeed = false → s.outfeed = {} → t.outfeed = {}) : KeepsIdle s t := by
  obtain ⟨image, pattern, order, roll, heat⟩ := h
  exact .of_units image (fun _ => pattern ▸ id) (fun _ => order ▸ id) (fun _ => roll ▸ id) (fun _ => heat ▸ id) idle

/-! ## The primitive updates -/

section
variable (s : State)

theorem KeepsIdle.web (x : Web) : KeepsIdle s (s.withWeb x) := .of_same ⟨rfl, rfl, rfl, rfl, rfl, rfl⟩
theorem KeepsIdle.bus (x : Bus) : KeepsIdle s (s.withBus x) := .of_same ⟨rfl, rfl, rfl, rfl, rfl, rfl⟩
theorem KeepsIdle.gov (x : Gov) : KeepsIdle s (s.withGov x) := .of_same ⟨rfl, rfl, rfl, rfl, rfl, rfl⟩
theorem KeepsIdle.cond (x : CondUnit) : KeepsIdle s (s.withCond x) := .of_same ⟨rfl, rfl, rfl, rfl, rfl, rfl⟩
theorem KeepsIdle.peers (x : List PeerEntry) : KeepsIdle s (s.withPeers x) := .of_same ⟨rfl, rfl, rfl, rfl, rfl, rfl⟩
theorem KeepsIdle.pins (x : Pins) : KeepsIdle s (s.withPins x) := .of_same ⟨rfl, rfl, rfl, rfl, rfl, rfl⟩
theorem KeepsIdle.joinTimer (x : Timer) : KeepsIdle s (s.withLoader { s.loader with joinTimer := x }) :=
  .of_same ⟨rfl, rfl, rfl, rfl, rfl, rfl⟩

end

section
variable (s : State)

theorem raise_keepsIdle (c : Cond) : KeepsIdle s (raise c s) := .of_same (by simp)
theorem fall_keepsIdle (c : Cond) : KeepsIdle s (fall c s) := .of_same (by simp)
theorem follow_keepsIdle (c : Cond) (b : Bool) : KeepsIdle s (follow c b s) := .of_same (by simp)
theorem reassert_keepsIdle (c : Cond) : KeepsIdle s (reassert c s) := .of_same (by simp)
theorem setHold_keepsIdle (h : HoldCause) : KeepsIdle s (setHold h s) := .of_same (by simp)
theorem clearHold_keepsIdle (h : HoldCause) : KeepsIdle s (clearHold h s) := .of_same (by simp)
theorem setTx_keepsIdle (l : List TxEntry) : KeepsIdle s (setTx l s) := .of_same (by simp)
theorem queueTx_keepsIdle (e : TxEntry) : KeepsIdle s (queueTx e s) := .of_same (by simp)
theorem pulseForMode_keepsIdle : KeepsIdle s (pulseForMode s) := .of_same (by simp)
theorem setMode_keepsIdle (m : Mode) : KeepsIdle s (setMode m s) := .of_same (by simp)
theorem updateSeg_keepsIdle (uid : Nat) (f : Segment → Segment) : KeepsIdle s (updateSeg uid f s) := .of_same (by simp)
theorem markSeg_keepsIdle (uid : Nat) (c : RejectCause) : KeepsIdle s (markSeg uid c s) := .of_same (by simp)

end

end Sys2Proof.Machine
end

