-- ==== Sys2Proof/Proofs/IdleUnitOperations.lean ====
section
/-! PROOFS. The operations of the units leave idle units idle (basis of O12). -/

namespace Sys2Proof.Machine
open Sys2Proof

/-! ## The knife (R61 to R72) -/

theorem startMove_idle {s : State} (h : s.pattern.Idle) : startMove s = s := by
  obtain ⟨run, -, held, -⟩ := h.holdsNothing
  simp [startMove, State.depthWanted, State.nextPleatIndex, run, held]

theorem afterKnife_idle {s : State} (h : s.pattern.Idle) : afterKnife s = s := by
  obtain ⟨-, -, held, -⟩ := h.holdsNothing
  simp [afterKnife, held, startMove_idle h]

theorem endRun_idle {s : State} (h : s.pattern.Idle) : endRun s = s := by
  simp [endRun, h.holdsNothing.1]

theorem tripKnife_idle {s : State} (h : s.pattern.Idle) : tripKnife s = s := by
  obtain ⟨-, stroke, held, -⟩ := h.holdsNothing
  simp [tripKnife, dropHeldFold, stroke, held]

theorem abandonMove_idle {s : State} (h : s.pattern.Idle) : abandonMove s = s := by
  obtain ⟨-, -, -, move, -⟩ := h.holdsNothing
  simp [abandonMove, move]

/-- Taking lengths out of a list that has none. -/
theorem pleatedLengths_idle {x : PatternUnit} (h : x.Idle) (p : PleatedLength → Bool) :
    { x with pleatedLengths := x.pleatedLengths.filter p } = x := by
  obtain ⟨-, -, -, -, -, lengths⟩ := h.holdsNothing
  rw [lengths, List.filter_nil, ← lengths]

theorem startMove_keepsIdle (s : State) : KeepsIdle s (startMove s) := .pattern (by simp) fun _ h => by rw [startMove_idle h]
theorem tripKnife_keepsIdle (s : State) : KeepsIdle s (tripKnife s) := .pattern (by simp) fun _ h => by rw [tripKnife_idle h]
theorem abandonMove_keepsIdle (s : State) : KeepsIdle s (abandonMove s) :=
  .pattern (by simp) fun _ h => by rw [abandonMove_idle h]

theorem dropSegKnife_keepsIdle (uid : Nat) (s : State) : KeepsIdle s (dropSegKnife uid s) := by
  refine .pattern (by simp) fun _ h => ?_
  have run := h.holdsNothing.1
  simpa [dropSegKnife, run] using pleatedLengths_idle h _

theorem strokeDone_keepsIdle (s : State) : KeepsIdle s (strokeDone s) := by
  refine .pattern ?_ fun _ h => by simp [strokeDone, h.holdsNothing.2.1]
  unfold strokeDone
  split
  · simp
  · dsimp only
    split <;> simp

theorem moveDone_keepsIdle (s : State) : KeepsIdle s (moveDone s) := by
  refine .pattern ?_ fun _ h => by simp [moveDone, h.holdsNothing.2.2.2.1]
  unfold moveDone
  split <;> simp

/-! ## The outfeed (R157 to R170) -/

theorem dropSegOutfeed_keepsIdle (g : Segment) (s : State) : KeepsIdle s (dropSegOutfeed g s) :=
  .outfeed (by simp) fun _ h => by simp [dropSegOutfeed, h]

theorem outfeedDriveClear_keepsIdle (s : State) : KeepsIdle s (outfeedDriveClear s) :=
  .outfeed (by simp) fun _ h => by simp [outfeedDriveClear, h, Gate.moving]

theorem cutDone_keepsIdle (s : State) : KeepsIdle s (cutDone s) :=
  .outfeed (by simp [cutDone]) fun _ h => by simp [cutDone, h]

theorem gateDone_keepsIdle (s : State) : KeepsIdle s (gateDone s) := by
  refine .outfeed ?_ fun _ h => by simp [gateDone, h]
  unfold gateDone
  split
  · split <;> simp
  all_goals simp

theorem retest_keepsIdle (s : State) : KeepsIdle s (retest s) :=
  .ite (fun hr => .outfeed (by simp) (not_other hr)) (fun _ => .refl s)

theorem gateAtDriveSet_keepsIdle {s : State} (hr : s.is .outfeed = true) : KeepsIdle s (gateAtDriveSet s) :=
  .outfeed (by simp) (not_other hr)

theorem takeBoundary_keepsIdle (entering : Content) (point : Word) {s : State} (hr : s.is .outfeed = true) :
    KeepsIdle s (takeBoundary entering point s) :=
  .outfeed (by simp) (not_other hr)

/-! ## The heat-set unit (R124 to R156) -/

/-- The channels of an idle unit work, and it has no zone to load. -/
theorem HeatUnit.Idle.setZones {x : HeatUnit} (h : x.Idle) (c : List Channel) (f : List Zone → List Zone) (hf : f [] = []) :
    HeatUnit.Idle { x with channels := c, zones := f x.zones } := by
  rw [HeatUnit.Idle] at h
  rw [h]
  simp [HeatUnit.Idle, hf]

theorem setChannel_keepsIdle (n : Nat) (x : Channel) (s : State) : KeepsIdle s (setChannel n x s) :=
  .heat (by simp) fun _ h => h.setZones _ id rfl

theorem setZone_keepsIdle (z : Nat) (x : Zone) (s : State) : KeepsIdle s (setZone z x s) :=
  .heat (by simp) fun _ h => h.setZones s.heat.channels (fun l => l.set z x) rfl

theorem closeValves_keepsIdle (s : State) : KeepsIdle s (closeValves s) :=
  .heat (by simp) fun _ h => h.setZones s.heat.channels (List.map fun x : Zone => { x with valve := 0 }) rfl

theorem declareFault_keepsIdle (n : Nat) (s : State) : KeepsIdle s (declareFault n s) := by
  refine .ite (fun _ => ?_) (fun _ => .refl s)
  have ht := (setChannel_keepsIdle n { s.channel n with faulted := true } s).trans (raise_keepsIdle _ (.sensorFault n))
  exact .ite (fun _ => ht.trans (setZone_keepsIdle ..)) (fun _ => ht)

theorem clearFault_keepsIdle (n : Nat) (s : State) : KeepsIdle s (clearFault n s) :=
  .ite (fun _ => (setChannel_keepsIdle ..).trans (fall_keepsIdle ..)) (fun _ => .refl s)

theorem judgeFaults_keepsIdle (s : State) : KeepsIdle s (judgeFaults s) :=
  .foldl _ (fun t n => (declareFault_keepsIdle n t).trans (clearFault_keepsIdle n _)) _ s

theorem takeSamples_keepsIdle (samples : List (BitVec 12)) (s : State) : KeepsIdle s (takeSamples samples s) :=
  .foldl _ (fun t _ => .ite (fun _ => setChannel_keepsIdle ..) (fun _ => .refl t)) _ s

theorem dropSegHeat_keepsIdle (uid : Nat) (s : State) : KeepsIdle s (dropSegHeat uid s) := by
  refine .heat (by simp) fun _ h => ?_
  simp only [dropSegHeat, State.withHeat_heat, h.empty.2.2.2.2, List.filter_nil]
  rw [HeatUnit.Idle] at h
  rw [h]
  rfl

theorem refreshHeat_keepsIdle (s : State) : KeepsIdle s (refreshHeat s) := by
  refine .heat (by simp) fun hr h => ?_
  rwa [show refreshHeat s = s from if_neg (by simp [hr])]

theorem readyHeatTest_keepsIdle (s : State) : KeepsIdle s (readyHeatTest s) := by
  refine .heat ?_ fun _ h => ?_
  · unfold readyHeatTest
    split <;> simp
  · obtain ⟨-, chamber, -⟩ := h.empty
    simpa [readyHeatTest, chamber] using h

theorem cutTest_keepsIdle (z : Nat) (s : State) : KeepsIdle s (cutTest z s) :=
  .ite (fun _ => (setZone_keepsIdle ..).trans (raise_keepsIdle ..)) (fun _ => .refl s)

theorem heatBoundary_keepsIdle (s : State) : KeepsIdle s (heatBoundary s) :=
  .ite (fun h => .heat (by simp) (not_other h.1)) (fun _ => .refl s)

theorem parkExpiry_keepsIdle (s : State) : KeepsIdle s (parkExpiry s) := by
  refine .heat ?_ fun _ h => ?_
  · unfold parkExpiry
    split <;> simp
  · obtain ⟨-, chamber, -⟩ := h.empty
    simpa [parkExpiry, chamber] using h

theorem warmChamber_keepsIdle (s : State) : KeepsIdle s (warmChamber s) := by
  refine .ite (fun h => .heat (by simp) (not_other ?_)) (fun _ => .refl s)
  rw [Bool.and_eq_true] at h
  exact h.1

/-! ## The web (R5 to R22) -/

theorem removeSeg_keepsIdle (uid : Nat) (s : State) : KeepsIdle s (removeSeg uid s) := by
  unfold removeSeg
  split
  · exact .refl s
  · exact (dropSegOutfeed_keepsIdle ..).trans ((dropSegHeat_keepsIdle ..).trans
      ((dropSegKnife_keepsIdle ..).trans (.web ..)))

theorem removeEach_keepsIdle (l : List Segment) (s : State) : KeepsIdle s (l.foldl (fun t h => removeSeg h.uid t) s) :=
  .foldl _ (fun t h => removeSeg_keepsIdle h.uid t) l s

theorem placeRule_keepsIdle (uid : Nat) (s : State) : KeepsIdle s (placeRule uid s) := by
  unfold placeRule
  split
  · exact .refl s
  · dsimp only
    split
    · exact removeEach_keepsIdle ..
    · exact (removeEach_keepsIdle ..).trans (updateSeg_keepsIdle ..)

theorem placeSegment_keepsIdle (g : Segment) (s : State) : KeepsIdle s (placeSegment g s) :=
  (removeEach_keepsIdle ..).trans (KeepsIdle.trans (.web ..) (placeRule_keepsIdle ..))

theorem acceptMark_keepsIdle (edge : Word) (s : State) : KeepsIdle s (acceptMark edge s) := by
  unfold acceptMark
  split
  · exact .of_same (by simp)
  · refine KeepsIdle.trans (.of_same ?_) (placeRule_keepsIdle ..)
    split <;> simp

theorem sendHandoff_keepsIdle (g : Segment) (s : State) : KeepsIdle s (sendHandoff g s) := by
  refine .ite (fun _ => .of_same (by simp)) (fun _ => .pattern (by simp) fun _ h => ?_)
  simpa using pleatedLengths_idle h _

/-- The cell line shifts in a SETTER, and closing an entry removes no segment (R145, R150). -/
theorem shiftCells_keepsIdle {s : State} (hr : s.is .setter = true) : KeepsIdle s (shiftCells s) :=
  .heat (by simp) (not_other hr)

/-! ## Orders and rolls (R78 to R123) -/

theorem cancelOrder_keepsIdle {s : State} (hr : s.is .unwind = true) (id : Word) : KeepsIdle s (cancelOrder id s) :=
  .unwind hr (by simp)

theorem makeBirth_keepsIdle {s : State} (hr : s.is .unwind = true) : KeepsIdle s (makeBirth s) := by
  unfold makeBirth
  extract_lets delayed arrival b g uid t u o v
  have ht : KeepsIdle s t := .of_same (by simp [t])
  have hu : KeepsIdle s u := ht.trans (.ite (fun _ => placeRule_keepsIdle ..) (fun _ => .refl t))
  exact hu.trans (.unwind ((hu.is .unwind).trans hr) (by simp [v]))

/-- An idle roll unit stands in RUN with nothing to resolve (R122). -/
theorem resolveSplice_idle {s : State} (h : s.roll.Idle) : resolveSplice s = s := by
  simp [resolveSplice, h.atRest.1, SpliceState.abortable]

theorem resolveSplice_keepsIdle (s : State) : KeepsIdle s (resolveSplice s) := by
  cases hr : s.is .unwind with
  | true => exact .unwind hr (by simp)
  | false => exact ⟨by simp, fun h => by rwa [resolveSplice_idle (h.roll hr)]⟩

theorem stopUnwind_keepsIdle (s : State) : KeepsIdle s (stopUnwind s) := by
  refine .roll (by simp) fun h => ?_
  rw [RollUnit.Idle] at h
  simp only [stopUnwind, State.withRoll_roll]
  rw [h]
  rfl

theorem stopPaste_keepsIdle (s : State) : KeepsIdle s (stopPaste s) := by
  refine .roll (by simp [stopPaste]) fun h => ?_
  rw [RollUnit.Idle] at h
  simp only [stopPaste, State.withRoll_roll]
  rw [h]
  rfl

theorem rampUnwind_keepsIdle (s : State) : KeepsIdle s (rampUnwind s) := 
  .ite (fun hr => .unwind hr (by simp)) (fun _ => .refl s)

theorem rollAtActive_keepsIdle (s : State) : KeepsIdle s (rollAtActive s) := by
  refine .ite (fun hr => .unwind hr ?_) (fun _ => .refl s)
  split
  · dsimp only
    split <;> simp
  · simp

end Sys2Proof.Machine
end

