-- ==== Sys2Proof/Proofs/IdleUnitsInModes.lean ====
section
/-! PROOFS. Trips, mode entries, what falls due and the end of a command leave idle units idle (basis of O12). -/

namespace Sys2Proof.Machine
open Sys2Proof

/-! ## Drive enable and trips (R40 to R44) -/

theorem clearDrive_keepsIdle (s : State) : KeepsIdle s (clearDrive s) :=
  KeepsIdle.trans (.gov ..) ((stopUnwind_keepsIdle _).trans ((abandonMove_keepsIdle _).trans
    ((outfeedDriveClear_keepsIdle _).trans (closeValves_keepsIdle _))))

theorem setDrive_keepsIdle (s : State) : KeepsIdle s (setDrive s) := by
  unfold setDrive
  extract_lets g t
  have ht : KeepsIdle s t := KeepsIdle.trans (.gov ..) (startMove_keepsIdle _)
  exact .ite (fun hr => ht.trans (gateAtDriveSet_keepsIdle hr)) (fun _ => ht)

theorem queueTrip_keepsIdle (c : TripCause) (s : State) : KeepsIdle s (queueTrip c s) := .of_same (by simp)

theorem tripOff_keepsIdle (s : State) : KeepsIdle s (tripOff s) :=
  KeepsIdle.trans (.gov ..) ((setMode_keepsIdle ..).trans (KeepsIdle.trans (.joinTimer ..)
    (KeepsIdle.trans (.cond ..) ((tripKnife_keepsIdle _).trans (closeValves_keepsIdle _)))))

theorem enterTripped_keepsIdle (s : State) : KeepsIdle s (enterTripped s) := by
  have begun : KeepsIdle s (tripBegun s) := (tripOff_keepsIdle s).trans (resolveSplice_keepsIdle _)
  rw [enterTripped_eq]
  exact .ite (fun _ => begun.trans (KeepsIdle.trans (.gov ..) (clearDrive_keepsIdle _))) (fun _ => begun)

theorem addTrip_keepsIdle (c : TripCause) (s : State) : KeepsIdle s (addTrip c s) := by
  unfold addTrip
  split
  iterate 3
    exact KeepsIdle.trans (.gov ..)
      ((queueTrip_keepsIdle ..).trans ((enterTripped_keepsIdle _).trans (pulseForMode_keepsIdle _)))
  · exact .ite (fun _ => .refl s) (fun _ => KeepsIdle.trans (.gov ..) (queueTrip_keepsIdle ..))
  all_goals exact .refl s

theorem takeLatch_keepsIdle (s : State) : KeepsIdle s (takeLatch s) := by
  unfold takeLatch
  refine .ite (fun _ => ?_) (fun _ => .refl s)
  extract_lets p q g b t
  have ht : KeepsIdle s t := KeepsIdle.trans (.gov ..) (.bus ..)
  exact .ite (fun _ => ht) (fun _ => ht.trans ((enterTripped_keepsIdle _).trans (pulseForMode_keepsIdle _)))

/-! ## Entries to ACTIVE, JOINING and STANDBY (R190 to R193) -/

theorem activeBegun_keepsIdle (s : State) : KeepsIdle s (activeBegun s) := by
  unfold activeBegun
  extract_lets l a w b
  have hb : KeepsIdle s b := KeepsIdle.trans (.joinTimer ..) ((setMode_keepsIdle ..).trans (.cond ..))
  exact hb.trans (KeepsIdle.trans (.ite (fun _ => startMove_keepsIdle b) (fun _ => setDrive_keepsIdle b))
    (pulseForMode_keepsIdle _))

theorem enterActive_keepsIdle (s : State) : KeepsIdle s (enterActive s) :=
  (activeBegun_keepsIdle s).trans ((warmChamber_keepsIdle _).trans (rollAtActive_keepsIdle _))

theorem enterJoining_keepsIdle (s : State) : KeepsIdle s (enterJoining s) :=
  (setMode_keepsIdle ..).trans ((pulseForMode_keepsIdle _).trans (.joinTimer ..))

theorem leaveTrip_keepsIdle (s : State) : KeepsIdle s (leaveTrip s) :=
  .ite (fun _ => KeepsIdle.trans (.gov ..) (enterJoining_keepsIdle _))
    (fun _ => KeepsIdle.trans (.gov ..) (enterActive_keepsIdle _))

theorem enterStandby_keepsIdle (s : State) : KeepsIdle s (enterStandby s) :=
  (setMode_keepsIdle ..).trans ((pulseForMode_keepsIdle _).trans
    (KeepsIdle.trans (.ite (fun hr => .heat (by simp) (not_other hr)) (fun _ => .refl _)) (resolveSplice_keepsIdle _)))

/-! ## What falls due (R2) -/

/-- The role whose station what falls due belongs to; none for what falls due in every role. -/
def DuePart.role (p : DuePart) : Option Role :=
  match p with
  | .knife => some .pleat
  | .cells => some .setter
  | .cut => some .outfeed
  | .unwind => some .unwind
  | .window | .exit => none

theorem dueUnwind_part {s : State} {d : Due} (h : s.dueUnwind = some d) : d.part = .unwind := by
  unfold State.dueUnwind at h
  repeat' split at h
  all_goals cases h
  all_goals rfl

/-- What falls due for one role falls due in its stations alone. -/
theorem is_of_due {s : State} {d : Due} {r : Role} (h : s.due = some d) (hr : d.part.role = some r) : s.is r = true := by
  rcases (due_cases h).2 with h | h | h | ⟨hu, h⟩
  · simp [dueWindow_part h, DuePart.role] at hr
  · rcases dueRole_part h with ⟨hi, hp⟩ | ⟨hi, hp⟩ | ⟨hi, hp⟩ <;> simp only [hp, DuePart.role, Option.some.injEq] at hr <;>
      exact hr ▸ hi
  · simp [dueExit_part h, DuePart.role] at hr
  · simp only [dueUnwind_part h, DuePart.role, Option.some.injEq] at hr
    exact hr ▸ hu

theorem takeDue_keepsIdle {s : State} {d : Due} (h : s.due = some d) : KeepsIdle s (takeDue d s) := by
  cases d with
  | openWindow g => exact .of_same (by simp [takeDue])
  | acceptMark e => exact KeepsIdle.trans (.web ..) (acceptMark_keepsIdle e _)
  | holdClosing => exact .web ..
  | closeWindow => exact .of_same (by simp [takeDue])
  | fold | endRun | startRun => exact .pattern (by simp [takeDue]) (not_other (is_of_due h rfl))
  | shift => exact shiftCells_keepsIdle (is_of_due h rfl)
  | boundary _ _ point =>
    have hr : (noteBoundary point s).is .outfeed = true := is_of_due (s := s) h rfl
    exact KeepsIdle.trans (.web ..) (takeBoundary_keepsIdle _ _ hr)
  | handoff g => exact sendHandoff_keepsIdle g s
  | trailExit g => exact removeSeg_keepsIdle g.uid s
  | birth => exact makeBirth_keepsIdle (is_of_due h rfl)
  | prefillDone | stopOld | stopOldLow | recovered | holdBirth | endStall => exact .unwind (is_of_due h rfl) (by simp [takeDue])

theorem settle_keepsIdle (s : State) : KeepsIdle s (settle s) :=
  settle_keeps (KeepsIdle s) (fun t h => h.trans (retest_keepsIdle t)) (fun _ _ h hd => h.trans (takeDue_keepsIdle hd)) s
    (.refl s)

/-! ## The end of a command (R37, R181, R191) -/

theorem refresh_keepsIdle (s : State) : KeepsIdle s (refresh s) := (refreshHeat_keepsIdle s).trans (.gov ..)

theorem conclude_keepsIdle (s : State) : KeepsIdle s (conclude s) := by
  rcases conclude_cases s with ⟨h, -⟩ | ⟨h, -⟩ <;> rw [h]
  · exact refresh_keepsIdle s
  · exact (refresh_keepsIdle s).trans ((enterActive_keepsIdle _).trans ((settle_keepsIdle _).trans (refresh_keepsIdle _)))

theorem finish_keepsIdle (s : State) : KeepsIdle s (finish s) := (settle_keepsIdle s).trans (conclude_keepsIdle _)

end Sys2Proof.Machine
end

