-- ==== Sys2Proof/Proofs/IdleUnitCommands.lean ====
section
/-! PROOFS. Each command's own operation leaves idle units idle (basis of O12). -/

namespace Sys2Proof.Machine
open Sys2Proof

/-! ## Field lines (R1, R15, R64 to R70, R158, R161) -/

theorem countAndTest_keepsIdle (encoder : EncoderName) (forward : Bool) (s : State) :
    KeepsIdle s (countAndTest encoder forward s) := by
  have ht : KeepsIdle s (countEdge encoder forward s) := by
    cases encoder with
    | encoder1 => exact .web ..
    | encoder2 => exact .ite (fun _ => .web ..) (fun _ => .refl s)
  exact .ite (fun _ => ht.trans (addTrip_keepsIdle ..)) (fun _ => ht)

theorem takeMark_keepsIdle (high : Bool) (s : State) : KeepsIdle s (takeMark high s) := by
  unfold takeMark
  extract_lets p t
  have ht : KeepsIdle s t := .pins ..
  refine .ite (fun _ => ?_) (fun _ => ht)
  split
  · exact ht.trans (.web ..)
  · exact ht.trans (.web ..)
  · exact ht

/-- A stroke falls due to stall in a PLEAT alone: an idle unit has none in flight. -/
theorem strokeStalled_keepsIdle (s : State) : KeepsIdle s (strokeStalled s) := by
  unfold strokeStalled
  split
  · exact .refl s
  · rename_i k hk
    have he : KeepsIdle s (afterKnife (markSeg k.ref.uid .mispleat (idleKnife s))) := by
      refine .pattern (by simp) fun _ h => ?_
      rw [h.holdsNothing.2.1] at hk
      cases hk
    exact he.trans (addTrip_keepsIdle ..)

theorem jamTest_keepsIdle (s : State) : KeepsIdle s (jamTest s) := by
  refine .ite (fun hc => ?_) (fun _ => .refl s)
  have he : KeepsIdle s (s.withPattern { s.pattern with limitCount := 0 }) := by
    refine .pattern (by simp) fun _ h => ?_
    simp [h.holdsNothing.2.2.2.2.1] at hc
  exact he.trans (addTrip_keepsIdle ..)

theorem limitStroke_keepsIdle (microseconds : Nat) (s : State) : KeepsIdle s (limitStroke microseconds s) := by
  unfold limitStroke
  split
  · exact .refl s
  · rename_i k hk
    refine .ite (fun _ => .refl s) (fun _ => ?_)
    extract_lets p a b w c
    have ha : KeepsIdle s a := by
      refine .pattern (by simp [a]) fun _ h => ?_
      rw [h.holdsNothing.2.1] at hk
      cases hk
    exact ha.trans ((markSeg_keepsIdle ..).trans (KeepsIdle.trans (.cond ..)
      ((raise_keepsIdle ..).trans (jamTest_keepsIdle _))))

/-! ## Arms and the timers of a splice (R99 to R121) -/

theorem revolve_keepsIdle (a : ArmName) (active : Bool) (s : State) : KeepsIdle s (revolve a active s) := by
  refine .ite (fun h => ?_) (fun _ => .pins ..)
  rw [Bool.and_eq_true] at h
  exact .unwind h.1 (by simp)

theorem changeReady_keepsIdle (a : ArmName) (active : Bool) (s : State) : KeepsIdle s (changeReady a active s) := by
  refine .ite (fun hr => .unwind hr ?_) (fun _ => .pins ..)
  split <;> simp [armBecomesReady, armLosesReady]

theorem changeEmpty_keepsIdle (a : ArmName) (active : Bool) (s : State) : KeepsIdle s (changeEmpty a active s) := by
  refine .ite (fun h => ?_) (fun _ => .pins ..)
  simp only [Bool.and_eq_true] at h
  exact .unwind h.1.1 (by simp)

/-- A new roll begun is an operation of the roll unit and the order unit (R92, R118). -/
theorem beginNewRoll_others (s : State) : (beginNewRoll s).loader.image = s.loader.image ∧
    (beginNewRoll s).pattern = s.pattern ∧ (beginNewRoll s).heat = s.heat ∧ (beginNewRoll s).outfeed = s.outfeed := by
  have bring (u : State) : (bringIn u).loader.image = u.loader.image ∧ (bringIn u).pattern = u.pattern ∧
      (bringIn u).heat = u.heat ∧ (bringIn u).outfeed = u.outfeed := by
    unfold bringIn
    split
    · split <;> simp
    · simp
  unfold beginNewRoll
  dsimp only
  split <;> simp [bring]

theorem pasteDone_keepsIdle (s : State) : KeepsIdle s (pasteDone s) := by
  refine .ite (fun hp => ?_) (fun _ => stopPaste_keepsIdle s)
  cases hr : s.is .unwind with
  | true => exact .unwind hr (beginNewRoll_others (stopPaste s))
  | false =>
    refine ⟨(beginNewRoll_others (stopPaste s)).1, fun h => ?_⟩
    cases (h.roll hr).atRest.1.symm.trans hp

theorem webPresentExpiry_keepsIdle (s : State) : KeepsIdle s (webPresentExpiry s) := by
  unfold webPresentExpiry
  refine .ite (fun hw => ?_) (fun _ => .refl s)
  extract_lets r t
  have ht : KeepsIdle s t := by
    refine .roll (by simp [t]) fun h => ?_
    simp [running, h.atRest.2.1] at hw
  exact .ite (fun _ => ht.trans (addTrip_keepsIdle ..)) (fun _ => ht)

/-! ## The scan (R107, R124 to R142) -/

theorem compareFill_keepsIdle {s : State} (hr : s.is .unwind = true) : KeepsIdle s (compareFill s) := by
  unfold compareFill
  split
  · exact .refl s
  · rename_i v _
    refine .ite (fun _ => ?_) (fun _ => .refl s)
    have hb : KeepsIdle s (s.withRoll { s.roll with fillBase := v - signedDiff s.position s.outCount }) :=
      .unwind hr ⟨rfl, rfl, rfl, rfl⟩
    have ht := hb.trans (raise_keepsIdle _ .accumDrift)
    exact .ite (fun _ => ht.trans (addTrip_keepsIdle ..)) (fun _ => ht)

theorem scanTests_keepsIdle (s : State) : KeepsIdle s (scanTests s) := by
  unfold scanTests
  extract_lets t
  have ht : KeepsIdle s t := judgeFaults_keepsIdle s
  clear_value t
  refine ht.trans ?_
  have his {r : Role} (h : t.role = some r) : t.is r = true := by rw [State.is, h, beq_self_eq_true]
  split
  · exact .heat (by simp) (not_other (his ‹_›))
  · exact compareFill_keepsIdle (his ‹_›)
  all_goals exact .refl t

/-! ## The ramp, the peers and the station's timers (R25, R29, R30, R38, R41, R44, R190) -/

/-- In an idle unit no timer runs but that of a paste in flight (R117, R195). -/
theorem tickTimers_keepsIdle (s : State) : KeepsIdle s (tickTimers s) := by
  refine .of_units rfl (fun _ h => ?_) (fun _ => id) (fun _ h => ?_) (fun _ h => ?_) (fun _ h => ?_)
  · rw [PatternUnit.Idle] at h
    simp only [tickTimers, State.withOutfeed_pattern, State.withHeat_pattern, State.withRoll_pattern]
    change PatternUnit.Idle { s.pattern with stroke := s.pattern.stroke.map _, move := s.pattern.move.map _ }
    rw [h]
    rfl
  · rw [RollUnit.Idle] at h
    change RollUnit.Idle { s.roll with pasteTimer := tickTimer s.roll.pasteTimer, webTimer := tickTimer s.roll.webTimer }
    rw [h]
    rfl
  · rw [HeatUnit.Idle] at h
    change HeatUnit.Idle { s.heat with parkTimer := tickTimer s.heat.parkTimer, heatTimer := tickTimer s.heat.heatTimer }
    rw [h]
    rfl
  · change { s.outfeed with cutTimer := tickTimer s.outfeed.cutTimer, gate := s.outfeed.gate.tick } = ({} : OutfeedUnit)
    rw [h]
    rfl

theorem rampGov_keepsIdle (s : State) : KeepsIdle s (rampGov s) :=
  KeepsIdle.trans (.gov ..) (.ite (fun _ => KeepsIdle.trans (.gov ..) (clearDrive_keepsIdle _)) (fun _ => .refl _))

theorem followPeerLate_keepsIdle (s : State) : KeepsIdle s (followPeerLate s) := follow_keepsIdle ..

theorem agePeers_keepsIdle (s : State) : KeepsIdle s (agePeers s) := by
  have ht := KeepsIdle.trans (.peers s (s.peers.map PeerEntry.aged)) (followPeerLate_keepsIdle _)
  exact .ite (fun _ => ht.trans (raise_keepsIdle ..)) (fun _ => ht)

theorem rampStep_keepsIdle (s : State) : KeepsIdle s (rampStep s) :=
  (rampGov_keepsIdle s).trans ((agePeers_keepsIdle _).trans (rampUnwind_keepsIdle _))

theorem lateTest_keepsIdle (address : Nat) (s : State) : KeepsIdle s (lateTest address s) :=
  .ite (fun _ => KeepsIdle.trans (.peers ..) (followPeerLate_keepsIdle _)) (fun _ => .refl s)

theorem lostTest_keepsIdle (address : Nat) (s : State) : KeepsIdle s (lostTest address s) :=
  .ite (fun _ => KeepsIdle.trans (.peers ..) ((followPeerLate_keepsIdle _).trans (raise_keepsIdle ..))) (fun _ => .refl s)

theorem joinExpiry_keepsIdle (s : State) : KeepsIdle s (joinExpiry s) :=
  .ite (fun _ => .ite (fun _ => (raise_keepsIdle ..).trans (.joinTimer ..)) (fun _ => .joinTimer ..)) (fun _ => .refl s)

theorem tripExpiry_keepsIdle (s : State) : KeepsIdle s (tripExpiry s) :=
  .ite (fun _ => KeepsIdle.trans (.gov ..) (clearDrive_keepsIdle _)) (fun _ => .refl s)

theorem setEstop_keepsIdle (active : Bool) (s : State) : KeepsIdle s (setEstop active s) :=
  .ite (fun _ => KeepsIdle.trans (.pins ..) (addTrip_keepsIdle ..)) (fun _ => .pins ..)

/-! ## The bus unit (R200 to R213) -/

theorem hearDuplicate_keepsIdle (s : State) : KeepsIdle s (hearDuplicate s) :=
  .ite (fun _ => .refl s) (fun _ => KeepsIdle.trans (.bus ..) ((raise_keepsIdle ..).trans (addTrip_keepsIdle ..)))

theorem receiveFrame_keepsIdle (bits : List Bool) (s : State) : KeepsIdle s (receiveFrame bits s) := by
  unfold receiveFrame
  split
  · exact .cond ..
  · refine .ite (fun _ => hearDuplicate_keepsIdle s) (fun _ => .ite (fun _ => ?_) (fun _ => .ite (fun _ => ?_) (fun _ => ?_)))
    · exact KeepsIdle.trans (.cond ..) (raise_keepsIdle ..)
    · exact .bus ..
    · refine .ite (fun _ => .ite (fun _ => .bus ..) (fun _ => ?_)) (fun _ => .refl s)
      exact KeepsIdle.trans (.cond ..) (raise_keepsIdle ..)

theorem beginTransmission_keepsIdle (s : State) : KeepsIdle s (beginTransmission s) := by
  unfold beginTransmission
  refine .ite (fun _ => ?_) (fun _ => .refl s)
  split
  · exact .refl s
  · exact setTx_keepsIdle ..

theorem completeTransmission_keepsIdle (s : State) : KeepsIdle s (completeTransmission s) := by
  unfold completeTransmission
  split
  · exact .refl s
  · rename_i e _
    have hn (u : State) : KeepsIdle u (noteSent e u) := .ite (fun _ => .of_same (by simp)) (fun _ => .refl u)
    have ho (u : State) : KeepsIdle u (offerPending u) := .of_same (by simp)
    exact (setTx_keepsIdle ..).trans (KeepsIdle.trans (.bus ..) ((hn _).trans (ho _)))

theorem busOffTest_keepsIdle (s : State) : KeepsIdle s (busOffTest s) :=
  .ite (fun _ => KeepsIdle.trans (.bus ..) ((raise_keepsIdle ..).trans (setHold_keepsIdle ..))) (fun _ => .refl s)

theorem faultSender_keepsIdle (s : State) : KeepsIdle s (faultSender s) :=
  .ite (fun _ => (setTx_keepsIdle ..).trans (KeepsIdle.trans (.bus ..)
    ((raise_keepsIdle ..).trans (busOffTest_keepsIdle _)))) (fun _ => .refl s)

theorem recoverBus_keepsIdle (s : State) : KeepsIdle s (recoverBus s) :=
  .ite (fun _ => KeepsIdle.trans (.bus ..) ((fall_keepsIdle ..).trans (clearHold_keepsIdle ..))) (fun _ => .refl s)

/-! ## Telegrams (R11 to R14, R20, R21, R28, R32, R34, R46, R52 to R60, R79, R97, R127, R179, R192, R193) -/

theorem takeAs_keepsIdle {s : State} (k : Kind) (f : RxEntry → State → State) (hf : ∀ e t, KeepsIdle t (f e t)) :
    KeepsIdle s (takeAs k f s) := by
  unfold takeAs
  split
  · rename_i e t h
    obtain ⟨rest, -, -, rfl⟩ := takeEntry_eq_some h
    exact KeepsIdle.trans (.bus ..) (hf e _)
  · exact .refl s

theorem takeTripClear_keepsIdle (e : RxEntry) (s : State) : KeepsIdle s (takeTripClear e s) :=
  .ite (fun _ => leaveTrip_keepsIdle s) (fun _ => .refl s)

theorem takeSpeedSet_keepsIdle (e : RxEntry) (s : State) : KeepsIdle s (takeSpeedSet e s) :=
  .ite (fun _ => .gov ..) (fun _ => .refl s)

theorem takeLinePulse_keepsIdle (e : RxEntry) (s : State) : KeepsIdle s (takeLinePulse e s) := by
  refine .ite (fun _ => ?_) (fun _ => .refl s)
  split
  · exact KeepsIdle.trans (.peers ..) (followPeerLate_keepsIdle _)
  · exact .refl s

theorem takeHandoff_keepsIdle (e : RxEntry) (s : State) : KeepsIdle s (takeHandoff e s) := by
  refine .ite (fun _ => ?_) (fun _ => .refl s)
  have hc (seg : Half) (new : Bool) : KeepsIdle s (checkSequence seg new s) :=
    .ite (fun _ => KeepsIdle.trans (.web ..) (raise_keepsIdle ..)) (fun _ => .web ..)
  exact (hc ..).trans
    (.ite (fun _ => (raise_keepsIdle ..).trans (setHold_keepsIdle ..)) (fun _ => placeSegment_keepsIdle ..))

theorem takeCancel_keepsIdle (e : RxEntry) (s : State) : KeepsIdle s (takeCancel e s) :=
  KeepsIdle.trans (.web ..) (.ite (fun hr => cancelOrder_keepsIdle hr _) (fun _ => .refl _))

theorem takeConditionAck_keepsIdle (e : RxEntry) (s : State) : KeepsIdle s (takeConditionAck e s) := by
  have zone (z : Nat) (u : State) : KeepsIdle u (ackZone z u) := by
    unfold ackZone
    extract_lets x t
    have ht : KeepsIdle u t := .ite (fun _ => setZone_keepsIdle ..) (fun _ => .refl u)
    exact .ite (fun _ => .ite (fun _ => ht.trans (reassert_keepsIdle ..)) (fun _ => ht.trans (fall_keepsIdle ..)))
      (fun _ => ht)
  have latched (c : Cond) : KeepsIdle s (ackLatched c s) := by
    cases c with
    | regLost => exact KeepsIdle.trans (.web ..) ((fall_keepsIdle ..).trans (clearHold_keepsIdle ..))
    | mapFull => exact (fall_keepsIdle ..).trans (clearHold_keepsIdle ..)
    | dupAddress => exact .ite (fun _ => reassert_keepsIdle ..) (fun _ => fall_keepsIdle ..)
    | _ => exact fall_keepsIdle ..
  unfold takeConditionAck
  refine .ite (fun _ => .ite (fun _ => .foldl _ (fun t z => zone z t) _ s) (fun _ => .refl s)) (fun _ => ?_)
  split
  · exact latched _
  · exact .refl s

theorem takeOrderMeasure_keepsIdle (e : RxEntry) (s : State) : KeepsIdle s (takeOrderMeasure e s) :=
  .ite (fun h => .unwind h.1 (by simp)) (fun _ => .refl s)

theorem takePanelOrder_keepsIdle (e : RxEntry) (s : State) : KeepsIdle s (takePanelOrder e s) :=
  .ite (fun _ => queueTx_keepsIdle ..) (fun _ => .refl s)

theorem takeRecipe_keepsIdle (e : RxEntry) (s : State) : KeepsIdle s (takeRecipe e s) :=
  .ite (fun h => .heat ⟨rfl, rfl, rfl, rfl, rfl⟩ (not_other h.1)) (fun _ => .refl s)

/-- A fragment loads the pattern unit alone (R52 to R56). -/
theorem takePatternFragment_eq (e : RxEntry) (s : State) : ∃ x, takePatternFragment e s = s.withPattern x := by
  have staged (u : Staging) (last : Bool) (y : PatternUnit) :
      ∃ x, stageUpload u last (s.withPattern y) = s.withPattern x := by
    unfold stageUpload commitCheck commitUpload
    dsimp only
    repeat' split
    all_goals exact ⟨_, rfl⟩
  have dropped (n : Option Nat) (x : UploadStatus) (y : PatternUnit) :
      ∃ z, dropUpload n x (s.withPattern y) = s.withPattern z := ⟨_, rfl⟩
  unfold takePatternFragment
  split
  · split
    · unfold beginUpload
      extract_lets u t
      obtain ⟨y, ht⟩ : ∃ y, t = s.withPattern y := by
        unfold t
        split <;> exact ⟨_, rfl⟩
      rw [ht]
      split
      · exact staged ..
      · exact dropped ..
    · unfold continueUpload
      split
      · exact dropped _ _ s.pattern
      · dsimp only
        repeat' split
        · exact staged _ _ s.pattern
        · exact dropped _ _ s.pattern
        · exact dropped _ _ s.pattern
  · exact ⟨s.pattern, rfl⟩

theorem takePatternFragment_keepsIdle (e : RxEntry) (s : State) : KeepsIdle s (takePatternFragment e s) := by
  obtain ⟨x, hx⟩ := takePatternFragment_eq e s
  cases hr : s.is .pleat with
  | true => exact hx ▸ .pattern ⟨rfl, rfl, rfl, rfl, rfl⟩ (not_other hr)
  | false =>
    rw [takePatternFragment, if_neg (by simp [hr])]
    exact .refl s

/-- A ROLL DATA is taken by the roll unit, with the order unit (R92, R97). -/
theorem takeRollData_keepsIdle (e : RxEntry) (s : State) : KeepsIdle s (takeRollData e s) := by
  refine .ite (fun hr => .unwind hr ?_) (fun _ => .refl s)
  have status (n : Nat) (r : RollResult) (u : State) : (setRollStatus n r u).loader.image = u.loader.image ∧
      (setRollStatus n r u).pattern = u.pattern ∧ (setRollStatus n r u).heat = u.heat ∧
      (setRollStatus n r u).outfeed = u.outfeed := by
    cases r <;> simp [setRollStatus]
  unfold describeRoll loadRoll loadPlain
  dsimp only
  repeat' split
  all_goals simp [status]

theorem takeStandby_keepsIdle (e : RxEntry) (s : State) : KeepsIdle s (takeStandby e s) :=
  .ite (fun _ => enterStandby_keepsIdle s) (fun _ => .refl s)

theorem takeWake_keepsIdle (e : RxEntry) (s : State) : KeepsIdle s (takeWake e s) :=
  .ite (fun _ => enterActive_keepsIdle s) (fun _ => .refl s)

end Sys2Proof.Machine
end

