-- ==== Sys2Proof/Proofs/IdleUnitsKept.lean ====
section
/-! PROOFS. O12: every step leaves the units of the other roles idle. -/

namespace Sys2Proof.Machine
open Sys2Proof

/-! ## The operation, and its end (R2, R181, R191) -/

theorem operate_keepsIdle {f : State → State} {s t : State} (hf : KeepsIdle s (f s)) (h : operate f s = .next t) :
    KeepsIdle s t := by
  cases h
  exact .ite (fun _ => hf.trans (conclude_keepsIdle _)) (fun _ => .refl s)

theorem operateWeb_keepsIdle {f : State → State} {s t : State} (hf : KeepsIdle s (f s)) (h : operateWeb f s = .next t) :
    KeepsIdle s t := by
  cases h
  exact .ite (fun _ => hf.trans (finish_keepsIdle _)) (fun _ => .refl s)

/-- A command that brings the level of an input: it is noted in every mode and acted on in the operating modes. -/
theorem level_keepsIdle {s u : State} {x : Pins} {t : State} (hu : KeepsIdle s u)
    (h : (.next (if s.operating then finish u else s.withPins x) : Answer) = .next t) : KeepsIdle s t := by
  cases h
  exact .ite (fun _ => hu.trans (finish_keepsIdle _)) (fun _ => .pins ..)

/-- A command of the transmitter, which outside the operating modes drops the telegram sent (R195). -/
theorem sent_keepsIdle {s u t : State} (hu : KeepsIdle s u)
    (h : (.next (if s.operating then conclude u else dropSent s) : Answer) = .next t) : KeepsIdle s t := by
  cases h
  exact .ite (fun _ => hu.trans (conclude_keepsIdle _)) (fun _ => setTx_keepsIdle ..)

/-- Every command of the operating modes but those that end operation leaves idle units idle. -/
theorem exec_keepsIdle {c : Instr} {s t : State} (hc : endsOperation c = false) (ho : s.operating = true)
    (h : exec c s = .next t) : KeepsIdle s t := by
  have mode : s.mode ≠ .powerUp ∧ s.mode ≠ .configuring ∧ s.mode ≠ .configFault := by
    refine ⟨?_, ?_, ?_⟩ <;> intro hm <;> simp [State.operating, hm, operatingMode] at ho
  cases c with
  | powerOnReset | restart => cases hc
  | powerOnResetRelease =>
    cases h
    rw [if_neg mode.1]
    exact .refl s
  | configurationReadComplete answer =>
    replace h : execConfigurationReadComplete answer s = .next t := h
    simp only [execConfigurationReadComplete, mode.2.1, false_and, if_false] at h
    split at h <;> cases h
    exact .refl s
  | sensorScanComplete samples =>
    replace h : execSensorScanComplete samples s = .next t := h
    simp only [execSensorScanComplete, mode.2.1, false_and, if_false, ho, if_true] at h
    split at h
    · obtain rfl := Host.Outcome.next.inj h
      exact (takeSamples_keepsIdle ..).trans ((scanTests_keepsIdle _).trans (finish_keepsIdle _))
    · cases h
  | sensorFault channel => exact operate_keepsIdle (declareFault_keepsIdle ..) h
  | sensorFaultClear channel => exact operate_keepsIdle (clearFault_keepsIdle ..) h
  | readyHeatEntry => exact operate_keepsIdle (readyHeatTest_keepsIdle s) h
  | zoneCut zone => exact operate_keepsIdle (cutTest_keepsIdle ..) h
  | heatControlBoundary => exact operate_keepsIdle (heatBoundary_keepsIdle s) h
  | parkTimerExpiry => exact operate_keepsIdle (parkExpiry_keepsIdle s) h
  | rampUpdate w p d =>
    cases h
    have ht : KeepsIdle s (tickTimers (samplePins w p d s)) := KeepsIdle.trans (.pins ..) (tickTimers_keepsIdle _)
    exact .ite (fun _ => ht.trans ((rampStep_keepsIdle _).trans (finish_keepsIdle _))) (fun _ => ht)
  | peerEntryLate address =>
    replace h : execPeerEntryLate address s = .next t := h
    unfold execPeerEntryLate at h
    split at h
    · exact operateWeb_keepsIdle (lateTest_keepsIdle ..) h
    · cases h
  | peerEntryLost address =>
    replace h : execPeerEntryLost address s = .next t := h
    unfold execPeerEntryLost at h
    split at h
    · exact operateWeb_keepsIdle (lostTest_keepsIdle ..) h
    · cases h
  | pulseTimerExpiry => exact operate_keepsIdle (.ite (fun _ => pulseForMode_keepsIdle s) (fun _ => .refl s)) h
  | joinTimerExpiry => exact operate_keepsIdle (joinExpiry_keepsIdle s) h
  | tripTimerExpiry => exact operate_keepsIdle (tripExpiry_keepsIdle s) h
  | estopInput active => exact level_keepsIdle (setEstop_keepsIdle ..) h
  | encoderEdge encoder forward => exact operateWeb_keepsIdle (countAndTest_keepsIdle ..) h
  | regLost => exact operate_keepsIdle (.ite (fun _ => .of_same (by simp)) (fun _ => .refl s)) h
  | markInput high => exact level_keepsIdle (takeMark_keepsIdle ..) h
  | strokeComplete => exact operate_keepsIdle (strokeDone_keepsIdle s) h
  | stallTimerExpiry => exact operateWeb_keepsIdle (strokeStalled_keepsIdle s) h
  | moveTimerExpiry => exact operate_keepsIdle (moveDone_keepsIdle s) h
  | currentLimitDetection microseconds => exact operateWeb_keepsIdle (limitStroke_keepsIdle ..) h
  | knifeJam => exact operateWeb_keepsIdle (jamTest_keepsIdle s) h
  | cutTimerExpiry => exact operate_keepsIdle (cutDone_keepsIdle s) h
  | gateTimerExpiry p d => exact KeepsIdle.trans (.pins ..) (operate_keepsIdle (gateDone_keepsIdle _) h)
  | revolutionPulse arm active => exact level_keepsIdle (revolve_keepsIdle ..) h
  | armReadyChange arm active => exact level_keepsIdle (changeReady_keepsIdle ..) h
  | armEmpty arm active => exact level_keepsIdle (changeEmpty_keepsIdle ..) h
  | pasteTimerExpiry =>
    cases h
    exact .ite
      (fun _ => .ite (fun _ => (pasteDone_keepsIdle s).trans (finish_keepsIdle _)) (fun _ => stopPaste_keepsIdle s))
      (fun _ => .refl s)
  | webPresentTimerExpiry => exact operateWeb_keepsIdle (webPresentExpiry_keepsIdle s) h
  | frameReceived bits =>
    have hf : execFrameReceived bits s = .next (finish (receiveFrame bits s)) := by
      unfold execFrameReceived
      split <;> simp_all
    cases hf.symm.trans h
    exact (receiveFrame_keepsIdle ..).trans (finish_keepsIdle _)
  | tripLatchTaken => exact operateWeb_keepsIdle (takeLatch_keepsIdle s) h
  | transmissionBegin => exact operate_keepsIdle (beginTransmission_keepsIdle s) h
  | transmissionComplete => exact sent_keepsIdle (completeTransmission_keepsIdle s) h
  | arbitrationLost => exact sent_keepsIdle (setTx_keepsIdle ..) h
  | senderFault => exact sent_keepsIdle (faultSender_keepsIdle s) h
  | busOff => exact operate_keepsIdle (busOffTest_keepsIdle s) h
  | recoveryTimerExpiry => exact operate_keepsIdle (recoverBus_keepsIdle s) h
  | tripClear => exact operateWeb_keepsIdle (takeAs_keepsIdle _ _ takeTripClear_keepsIdle) h
  | hold => exact operate_keepsIdle (takeAs_keepsIdle _ _ fun _ t => setHold_keepsIdle t _) h
  | release => exact operate_keepsIdle (takeAs_keepsIdle _ _ fun _ t => clearHold_keepsIdle t _) h
  | handoff => exact operateWeb_keepsIdle (takeAs_keepsIdle _ _ takeHandoff_keepsIdle) h
  | speedSet => exact operate_keepsIdle (takeAs_keepsIdle _ _ takeSpeedSet_keepsIdle) h
  | linePulse => exact operateWeb_keepsIdle (takeAs_keepsIdle _ _ takeLinePulse_keepsIdle) h
  | doseVerdict => exact operateWeb_keepsIdle (takeAs_keepsIdle _ _ fun _ _ => .web ..) h
  | orderMeasure => exact operate_keepsIdle (takeAs_keepsIdle _ _ takeOrderMeasure_keepsIdle) h
  | cancel => exact operateWeb_keepsIdle (takeAs_keepsIdle _ _ takeCancel_keepsIdle) h
  | conditionAck => exact operate_keepsIdle (takeAs_keepsIdle _ _ takeConditionAck_keepsIdle) h
  | panelOrder => exact operate_keepsIdle (takeAs_keepsIdle _ _ takePanelOrder_keepsIdle) h
  | patternFragment => exact operate_keepsIdle (takeAs_keepsIdle _ _ takePatternFragment_keepsIdle) h
  | recipe => exact operate_keepsIdle (takeAs_keepsIdle _ _ takeRecipe_keepsIdle) h
  | rollData => exact operateWeb_keepsIdle (takeAs_keepsIdle _ _ takeRollData_keepsIdle) h
  | standby => exact operateWeb_keepsIdle (takeAs_keepsIdle _ _ takeStandby_keepsIdle) h
  | wake => exact operateWeb_keepsIdle (takeAs_keepsIdle _ _ takeWake_keepsIdle) h
  | faultLampFlash =>
    cases h
    rw [if_neg mode.2.2]
    exact .refl s

/-! ## The starts (R77, R94, R123, R156, R171) -/

/-- Outside the UNWIND the roll unit starts with no ceiling to evaluate (R123). -/
theorem startUnits_roll {a : State} (hr : a.is .unwind = false) : (startUnits a).roll.Idle := by
  unfold startUnits
  extract_lets c b
  have hl : b.loader = a.loader := by simp [b, c, startHeat, startRoll, startPattern, startOrder, startWeb]
  have hb : b.is .unwind = false := (is_of_image (congrArg Loader.image hl) _).trans hr
  have roll : b.roll = (startRoll (startPattern (startOrder (startWeb a)))).roll := by simp [b, c, startHeat]
  rw [if_neg (by simp [hb]), roll]
  rfl

/-- The start values leave the units of the other roles idle. -/
theorem startUnits_idle (a : State) : UnitsIdle (startUnits a) := by
  obtain ⟨hl, hu, -⟩ := startUnits_start a
  have his (r : Role) : (startUnits a).is r = a.is r := is_of_image hl.image r
  refine ⟨fun _ => ?_, fun _ => by rw [hu.order]; rfl, fun hr => ?_, fun hr => ?_, fun _ => hu.outfeed⟩
  · rw [hu.pattern, startPattern, State.withPattern_pattern]
    split <;> rfl
  · exact startUnits_roll (by rw [← his, hr])
  · rw [his] at hr
    rw [hu.heat, startHeat, State.withHeat_heat]
    simp [hr, HeatUnit.Idle]

theorem Starts.idleSafe {s t : State} (h : Starts s t) : IdleSafe t := by
  cases h with
  | reset => exact .of_idle rfl
  | restart => exact .of_idle rfl
  | firstScan samples =>
    have joined (u : State) : UnitsIdle (enterJoining (startUnits u)) := (enterJoining_keepsIdle _).units (startUnits_idle u)
    have started (u : State) : UnitsIdle (startedLine u) := by
      unfold startedLine
      split
      · exact (addTrip_keepsIdle ..).units (joined u)
      · exact joined u
    exact ((finish_keepsIdle _).units (started _)).idleSafe

/-! ## Every command -/

theorem exec_idleSafe {c : Instr} {s t : State} (hs : IdleSafe s) (h : exec c s = .next t) : IdleSafe t := by
  cases ho : s.operating with
  | false =>
    rcases exec_idle ho h with hi | hb
    · exact .of_idle hi.idle
    · exact hb.idleSafe
  | true =>
    cases hc : endsOperation c with
    | false => exact ((exec_keepsIdle hc ho h).units (hs.unitsIdle ho)).idleSafe
    | true =>
      cases c with
      | powerOnReset =>
        cases h
        exact .of_idle rfl
      | restart =>
        rcases execRestart_cases ho h with ⟨e, rest, -, -, ⟨-, rfl⟩ | ⟨-, rfl⟩⟩ | rfl
        · exact .of_idle rfl
        · exact ((KeepsIdle.trans (.bus ..) (conclude_keepsIdle _)).units (hs.unitsIdle ho)).idleSafe
        · exact hs
      | _ => cases hc

/-- Settles O12: every operation leaves idle units idle (`KeepsIdle`), and the start values are those of idle units. -/
theorem idleUnitsStayIdle : Obligations.IdleUnitsStayIdle := by
  intro s t hs h
  rcases step_cases h with rfl | ⟨c, rest, hc⟩
  · exact hs
  · exact exec_idleSafe (s := s.withPending rest) { hs with } hc

end Sys2Proof.Machine
end

