-- ==== Sys2Proof/Proofs/MeasureFigures.lean ====
section
/-! PROOFS. O18: F, P and the strokes of an order, and their greatest values. -/

namespace Sys2Proof.Machine
open Sys2Proof

/-! ## The figures of one repeat (R50) -/

/-- A pleat consumes twice its depth beyond its pitch, so a repeat is that much longer flat than pleated (R50). -/
theorem flatRepeat_eq (c : PatternCopy) :
    c.flatRepeat = c.pleatedRepeat + 2 * (c.steps.map (fun p => p.count * p.depth)).sum := by
  unfold PatternCopy.flatRepeat PatternCopy.pleatedRepeat
  rw [← List.sum_map_mul_left, ← List.sum_map_add]
  refine congrArg List.sum (List.map_congr_left fun p _ => ?_)
  simp only [PatternStep.flat]
  ring

/-- F exceeds P by twice the depths of all its pleats (R59). -/
theorem flat_eq_pleated_add (c : PatternCopy) (n : Nat) :
    c.flat n = c.pleated n + 2 * n * (c.steps.map (fun p => p.count * p.depth)).sum := by
  simp only [PatternCopy.flat, PatternCopy.pleated, flatRepeat_eq]
  ring

/-! ## The greatest values (R49, R59) -/

/-- What each of at most 24 steps bounds, the repeats bound 24 times as much. -/
theorem repeats_sum_le {l : List PatternStep} {f : PatternStep → Nat} {b n : Nat} (hl : l.length ≤ 24)
    (hf : ∀ p ∈ l, f p ≤ b) (hn : n ≤ 99) : n * (l.map f).sum ≤ 99 * (24 * b) := by
  have hsum : (l.map f).sum ≤ l.length * b := by
    simpa using List.sum_le_card_nsmul (l.map f) b (by simpa using hf)
  exact Nat.mul_le_mul hn (hsum.trans (Nat.mul_le_mul_right b hl))

/-- The ranges of a step bound what its pleats add to F, P and the strokes (R49). -/
theorem step_figures_le {p : PatternStep} (h : p.inRange = true) :
    p.count * p.flat ≤ 255 * 5000 ∧ p.count * p.pitch ≤ 255 * 1000 ∧ p.count ≤ 255 := by
  simp only [PatternStep.inRange, Bool.and_eq_true, decide_eq_true_eq] at h
  obtain ⟨⟨⟨⟨-, hpitch⟩, hdepth⟩, -⟩, hcount⟩ := h
  exact ⟨Nat.mul_le_mul hcount (by unfold PatternStep.flat; omega), Nat.mul_le_mul hcount hpitch, hcount⟩

/-- The copy of 24 steps with every field at its greatest value (R49). -/
def greatestCopy : PatternCopy :=
  { leadIn := 20000, tail := 20000, steps := List.replicate 24 { pitch := 1000, depth := 2000, blade := .left, count := 255 } }

/-- Settles O18: the sums step by step, and the greatest values from the ranges, reached by `greatestCopy`. -/
theorem measureFigures : Obligations.MeasureFigures := by
  refine ⟨fun c n => ⟨rfl, rfl, rfl, ?_, flat_eq_pleated_add c n⟩, fun c n hlead htail hlen hstep hn => ?_,
    ⟨greatestCopy, by decide⟩, by decide⟩
  · rw [flat_eq_pleated_add]
    exact Nat.le_add_right ..
  · have hflat := repeats_sum_le hlen (fun p hp => (step_figures_le (hstep p hp)).1) hn
    have hpleated := repeats_sum_le hlen (fun p hp => (step_figures_le (hstep p hp)).2.1) hn
    have hstrokes := repeats_sum_le hlen (fun p hp => (step_figures_le (hstep p hp)).2.2) hn
    simp only [PatternCopy.flat, PatternCopy.pleated, PatternCopy.strokes, PatternCopy.flatRepeat,
      PatternCopy.pleatedRepeat, PatternCopy.pleatsRepeat]
    omega

end Sys2Proof.Machine
end

