-- ==== Sys2Proof/Proofs/KnifeRuns.lean ====
section
/-! PROOFS. O36: what a knife run binds. -/

namespace Sys2Proof.Machine
open Sys2Proof

/-! ## The recovery of n (R51) -/

theorem fits_iff {c : PatternCopy} {length n : Nat} :
    c.fits length n = true ↔ length ≤ c.flat n + 20 ∧ c.flat n ≤ length + 20 := by
  simp [PatternCopy.fits]

/-- An n recovered lies in 1..99 and fits. -/
theorem recoverRepeats_some {c : PatternCopy} {length n : Nat} (h : c.recoverRepeats length = some n) :
    1 ≤ n ∧ n ≤ 99 ∧ c.fits length n = true := by
  have hmem := List.mem_of_find?_eq_some h
  simp only [List.mem_map, List.mem_range] at hmem
  obtain ⟨k, hk, rfl⟩ := hmem
  exact ⟨by omega, by omega, List.find?_some h⟩

/-- Where no n in 1..99 fits, none is recovered. -/
theorem recoverRepeats_none {c : PatternCopy} {length : Nat} (h : ∀ n, 1 ≤ n → n ≤ 99 → c.fits length n = false) :
    c.recoverRepeats length = none := by
  refine List.find?_eq_none.2 fun n hn => ?_
  simp only [List.mem_map, List.mem_range] at hn
  obtain ⟨k, hk, rfl⟩ := hn
  simp [h (k + 1) (by omega) (by omega)]

/-! ## The run that starts (R61) -/

/-- After a cause is added to a record, every record of that name has it (R22). -/
theorem causes_of_markSeg {uid : Nat} {c : RejectCause} {s : State} {h : Segment} (hh : h ∈ (markSeg uid c s).web.map)
    (hu : h.uid = uid) : c ∈ h.causes := by
  simp only [markSeg, updateSeg, State.withWeb_web] at hh
  obtain ⟨g, -, rfl⟩ := List.mem_map.1 hh
  split
  · exact (mem_insertNew c c _).2 (.inl rfl)
  · rename_i hn
    rw [if_neg hn] at hu
    simp [hu] at hn

/-- The state a run starts from: the segment is noted as run. -/
def ranNoted (g : Segment) (s : State) : State := updateSeg g.uid (fun x => { x with ran := true }) s

/-- The run that starts for a segment, by what it binds. -/
def runFor (g : Segment) (b : Option Bound) : KnifeRun :=
  { ref := g.ref, panelId := g.panelId, slot := g.pattern.getD 0, bound := b, nextPleat := 0 }

/-- With no run open a run binds by the slot as it stands. -/
theorem startRun_eq {s : State} (g : Segment) (hrun : s.pattern.run = none) : startRun g s =
    match s.bindFor g with
    | some b => startMove ((ranNoted g s).withPattern { s.pattern with
        run := some (runFor g (some b))
        pleatedLengths := s.pattern.pleatedLengths ++ [{ ref := g.ref, length :=
          (((b.copy.pleated b.repeats + g.length : Nat) : Int) - b.copy.flat b.repeats).toNat }] })
    | none => markSeg g.uid .measureStale ((ranNoted g s).withPattern { s.pattern with run := some (runFor g none) }) := by
  have hend : endRun s = s := by simp [endRun, hrun]
  have hbind : (ranNoted g s).bindFor g = s.bindFor g := rfl
  unfold startRun
  rw [hend]
  extract_lets noted bound run
  have hbound : bound = s.bindFor g := hbind
  clear_value bound
  cases hfit : s.bindFor g <;> rw [hfit] at hbound <;> subst hbound <;> rfl

/-- Settles O36: n is the first that fits (`recoverRepeats_some`), and a run that binds nothing has no pleats. -/
theorem knifeRunBinds : Obligations.KnifeRunBinds := by
  intro s g hrun hnamed hg hkind
  refine ⟨fun c n hactive hn => ?_, fun hmisfit => ?_⟩
  · have hbind : s.bindFor g = some { copy := c, version := (s.slot (g.pattern.getD 0)).version, repeats := n } := by
      simp [State.bindFor, hactive, hn]
    obtain ⟨hlow, hhigh, hfit⟩ := recoverRepeats_some hn
    obtain ⟨hle, hge⟩ := fits_iff.1 hfit
    rw [startRun_eq g hrun, hbind]
    refine ⟨by simp [runFor], hlow, hhigh, hle, hge, _, by simp; exact .inr rfl, rfl, ?_⟩
    dsimp only
    omega
  · have hbind : s.bindFor g = none := by
      unfold State.bindFor
      dsimp only
      split
      · rfl
      · rename_i c hc
        rw [recoverRepeats_none fun n h1 h2 => ?_, Option.map_none]
        rw [Bool.eq_false_iff, ne_eq, fits_iff]
        have := hmisfit c hc n h1 h2
        omega
    rw [startRun_eq g hrun, hbind]
    exact ⟨by simp [runFor], by simp [State.runPleats, runFor], fun h hh hu => causes_of_markSeg hh hu⟩

end Sys2Proof.Machine
end

