-- ==== Sys2Proof/Proofs/OrderMeasures.lean ====
section
/-! PROOFS. O37: the answer to a PANEL ORDER. -/

namespace Sys2Proof.Machine
open Sys2Proof

/-! ## The measure of an order (R58, R59) -/

/-- The fields of an order lie in their ranges (R58). -/
def orderLegal (number repeats recipe : Nat) : Prop :=
  (1 ≤ number ∧ number ≤ 32) ∧ (1 ≤ repeats ∧ repeats ≤ 99) ∧ (1 ≤ recipe ∧ recipe ≤ 16)

/-- The measure of an order that has no figures. -/
def emptyMeasure (status : MeasureStatus) : Measure :=
  { status := status, flat := 0, pleated := 0, strokes := 0, version := 0 }

theorem measure_of_illegal (s : State) {number repeats recipe : Nat} (h : ¬ orderLegal number repeats recipe) :
    s.measure number repeats recipe = emptyMeasure .badField := by
  simp only [orderLegal] at h
  refine if_pos ?_
  simp only [Bool.not_eq_true', Bool.and_eq_false_iff, decide_eq_false_iff_not]
  omega

theorem measure_of_legal (s : State) {number repeats recipe : Nat} (h : orderLegal number repeats recipe) :
    s.measure number repeats recipe =
      ((s.slot number).active.map fun c =>
        { status := if 200000 < c.flat repeats then .tooLong else if c.pleated repeats < 1000 then .tooShort else .ok
          flat := c.flat repeats, pleated := c.pleated repeats, strokes := c.strokes repeats
          version := (s.slot number).version : Measure }).getD (emptyMeasure .noPattern) := by
  obtain ⟨⟨h1, h2⟩, ⟨h3, h4⟩, h5, h6⟩ := h
  unfold State.measure
  dsimp only
  rw [if_neg (by simp [h1, h2, h3, h4, h5, h6])]
  cases (s.slot number).active <;> rfl

/-! ## The body of the answer (R60) -/

/-- The status and figures of a measure as the answer carries them. -/
def Measure.bytes (m : Measure) : List Byte :=
  bytesOf 1 m.status.code ++ bytesOf 4 m.flat ++ bytesOf 4 m.pleated ++ bytesOf 4 m.strokes ++ bytesOf 1 m.version.toNat

/-- The answer carries the order as received, then its measure. -/
theorem measureBody_eq (s : State) {order : List Byte} (h : order.length = 9) : s.measureBody order =
    order ++ (s.measure (fieldAt order 4 1) (fieldAt order 5 1) (fieldAt order 6 1)).bytes := by
  simp [State.measureBody, Measure.bytes, List.take_of_length_le h.le]

theorem emptyMeasure_bytes (status : MeasureStatus) : (emptyMeasure status).bytes = bytesOf 1 status.code ++ bytesOf 13 0 := by
  cases status <;> rfl

/-- Settles O37: the answer enters the free place, and the command ends with its figures (`conclude_figures`). -/
theorem panelOrderMeasured : Obligations.PanelOrderMeasured := by
  intro s e rest ho hq hpleat hrx hk hlen htx
  dsimp only
  have hbody := measureBody_eq s hlen
  have htake : takePanelOrder e (s.freed rest) =
      setTx (insertByClass { kind := .orderMeasure, dest := 0, body := s.measureBody e.body } s.bus.tx) (s.freed rest) := by
    refine (if_pos hpleat).trans (queueTx_free _ _ htx)
  have hfig : FiguresOnly (takePanelOrder e (s.freed rest)) (conclude (takePanelOrder e (s.freed rest))) := by
    rw [htake]
    exact conclude_figures (s := s) rfl rfl rfl hq
  refine ⟨_, operate_takeAs takePanelOrder ho hrx hk, ?_, ?_, ?_, { kind := .orderMeasure, dest := 0, body := s.measureBody e.body },
    hfig.mem_tx ?_, rfl, rfl, ?_, fun hbad => ?_, fun hgood hnone => ?_, fun c hgood hcopy => ?_⟩
  · have := congrArg Bus.rx hfig.bus
    rw [htake] at this ⊢
    exact this
  · rw [hfig.web, htake]
    rfl
  · rw [hfig.pattern, htake]
    rfl
  · rw [htake]
    exact (mem_insertByClass ..).2 (.inl rfl)
  · rw [hbody, ← hlen, List.take_left]
  all_goals
    rw [hbody, ← hlen, List.drop_left]
  · rw [measure_of_illegal s hbad, emptyMeasure_bytes]
    rfl
  · rw [measure_of_legal s hgood, hnone, Option.map_none, Option.getD_none, emptyMeasure_bytes]
    rfl
  · rw [measure_of_legal s hgood, hcopy, Option.map_some, Option.getD_some]
    simp only [Measure.bytes]
    congr 5
    split
    · rfl
    · split <;> rfl

end Sys2Proof.Machine
end

