-- ==== Sys2Proof/Proofs/PatternUploads.lean ====
section
/-! PROOFS. O38: the upload of a pattern, fragment by fragment. -/

namespace Sys2Proof.Machine
open Sys2Proof

/-! ## Slots (R49) -/

/-- The slots are the pattern unit's. -/
theorem slot_congr {s t : State} (h : t.pattern = s.pattern) (number : Nat) : t.slot number = s.slot number := by
  simp only [State.slot, h]

theorem slot_setSlot {number : Nat} (x : PatternSlot) {s : State} (h1 : 1 ≤ number) (h2 : number ≤ s.pattern.slots.length) :
    (setSlot number x s).slot number = x := by
  simp [State.slot, setSlot, h1, show number - 1 < s.pattern.slots.length by omega]

/-! ## The checks of a fragment (R54, R55) -/

theorem patternNumber_isSome (n : Nat) : (patternNumber n).isSome = true ↔ 1 ≤ n ∧ n ≤ 32 := by
  simp [patternNumber]

theorem fieldsOk_iff (u : Staging) : (u.headerOk && u.steps.all PatternStep.inRange) = true ↔
    (1 ≤ u.pattern ∧ u.pattern ≤ 32) ∧ u.leadIn ≤ 20000 ∧ u.tail ≤ 20000 ∧ (1 ≤ u.stepCount ∧ u.stepCount ≤ 24) ∧
      ∀ p ∈ u.steps, p.inRange = true := by
  simp only [Staging.headerOk, Bool.and_eq_true, decide_eq_true_eq, List.all_eq_true, patternNumber_isSome, and_assoc]

theorem follows_iff (u : Staging) (b : List Byte) : u.follows b = true ↔
    fieldAt b 0 1 = u.tag ∧ fieldAt b 1 1 = u.pattern ∧ fieldAt b 2 1 % 8 = u.expected ∧
      fieldAt b 2 1 % 8 ≤ 5 ∧ u.steps.length + stepsHeld b ≤ u.stepCount := by
  simp only [Staging.follows, Bool.and_eq_true, beq_iff_eq, decide_eq_true_eq, and_assoc]

/-! ## What an upload that has passed its checks does (R53, R55, R56) -/

theorem stageUpload_more (u : Staging) (s : State) :
    (stageUpload u false s).pattern = { s.pattern with staging := some u } := rfl

theorem stageUpload_short {u : Staging} (s : State) (h : u.steps.length ≠ u.stepCount) : (stageUpload u true s).pattern =
    { s.pattern with staging := none, uploadPattern := some u.pattern, uploadStatus := .sequence } :=
  congrArg State.pattern (if_neg h)

/-- A whole upload is active at once, or pending while the open run is bound to its slot (R56). -/
theorem stageUpload_whole {u : Staging} (s : State) (h : u.steps.length = u.stepCount) :
    let copy : PatternCopy := { leadIn := u.leadIn, tail := u.tail, steps := u.steps }
    let t := stageUpload u true s
    t.pattern.staging = none ∧ t.pattern.uploadPattern = some u.pattern ∧ t.pattern.run = s.pattern.run ∧
    (s.runBoundTo u.pattern = false → t.pattern.uploadStatus = .active ∧
      (1 ≤ u.pattern → u.pattern ≤ s.pattern.slots.length → t.slot u.pattern =
        { active := some copy, pending := none, version := (s.slot u.pattern).version + 1 })) ∧
    (s.runBoundTo u.pattern = true → t.pattern.uploadStatus = .pending ∧
      (1 ≤ u.pattern → u.pattern ≤ s.pattern.slots.length →
        t.slot u.pattern = { s.slot u.pattern with pending := some copy })) := by
  dsimp only
  have hcommit : stageUpload u true s = commitUpload u s := if_pos h
  have hbound : (setStaging none s).runBoundTo u.pattern = s.runBoundTo u.pattern := rfl
  rw [hcommit]
  unfold commitUpload
  dsimp only
  rw [hbound]
  cases s.runBoundTo u.pattern with
  | true => exact ⟨rfl, rfl, rfl, fun hf => absurd hf (by decide), fun _ => ⟨rfl, fun h1 h2 =>
      slot_setSlot (s := setStaging none s) _ h1 h2⟩⟩
  | false => exact ⟨rfl, rfl, rfl, fun _ => ⟨rfl, fun h1 h2 => slot_setSlot (s := setStaging none s) _ h1 h2⟩,
      fun hf => absurd hf (by decide)⟩

/-! ## A fragment 0 (R53, R54) -/

/-- The pattern unit as a fragment 0 leaves it before its own upload is loaded: the one in progress is abandoned. -/
def PatternUnit.cleared (x : PatternUnit) (u : Staging) : PatternUnit :=
  { x with
    staging := none
    uploadPattern := match x.staging with
      | some old => some old.pattern
      | none => patternNumber u.pattern
    uploadStatus := match x.staging with
      | some _ => .abandoned
      | none => .none }

theorem beginUpload_eq (b : List Byte) (s : State) : beginUpload b s =
    if ((firstStaging b).headerOk && (firstStaging b).steps.all PatternStep.inRange) = true then
      stageUpload (firstStaging b) (lastFragment b) (s.withPattern (s.pattern.cleared (firstStaging b)))
    else s.withPattern { s.pattern with
      staging := none, uploadPattern := patternNumber (firstStaging b).pattern, uploadStatus := .badStep } := by
  unfold beginUpload PatternUnit.cleared
  cases s.pattern.staging <;> rfl

/-! ## A later fragment (R55) -/

/-- The upload in progress with the steps of a fragment that continues it. -/
def Staging.extended (u : Staging) (b : List Byte) : Staging :=
  { u with steps := u.steps ++ readSteps b 3 (stepsHeld b), expected := u.expected + 1 }

theorem continueUpload_idle {s : State} (b : List Byte) (h : s.pattern.staging = none) :
    continueUpload b s = dropUpload (patternNumber (fieldAt b 1 1)) .sequence s := by
  simp [continueUpload, h]

theorem continueUpload_eq {s : State} (b : List Byte) {u : Staging} (h : s.pattern.staging = some u) : continueUpload b s =
    if u.follows b = true then
      if (readSteps b 3 (stepsHeld b)).all PatternStep.inRange = true then
        stageUpload (u.extended b) (lastFragment b) s
      else dropUpload (some u.pattern) .badStep s
    else dropUpload (some u.pattern) .sequence s := by
  unfold continueUpload
  rw [h]
  rfl

/-! ## The command -/

/-- The end of a pattern fragment (R52 to R56). -/
theorem exec_patternFragment {s : State} {e : RxEntry} {rest : List RxEntry} (ho : s.operating = true) (hq : s.quiet)
    (hpleat : s.is .pleat = true) (hrx : s.bus.rx = e :: rest) (hk : e.kind = .patternFragment) :
    ∃ t, exec .patternFragment s = .next t ∧ t.bus.rx = rest ∧ t.web = s.web ∧ t.pattern =
      (if fieldAt e.body 2 1 % 8 = 0 then beginUpload e.body (s.freed rest)
        else continueUpload e.body (s.freed rest)).pattern := by
  have htake : takePatternFragment e (s.freed rest) = if fieldAt e.body 2 1 % 8 = 0 then beginUpload e.body (s.freed rest)
      else continueUpload e.body (s.freed rest) := if_pos hpleat
  obtain ⟨x, hx⟩ := takePatternFragment_eq e (s.freed rest)
  have hfig : FiguresOnly ((s.freed rest).withPattern x) (conclude ((s.freed rest).withPattern x)) :=
    conclude_figures (s := s) rfl rfl rfl hq
  refine ⟨_, operate_takeAs takePatternFragment ho hrx hk, ?_⟩
  rw [← htake, hx]
  exact ⟨congrArg Bus.rx hfig.bus, hfig.web, hfig.pattern⟩

/-- Settles O38: the fragment's checks (`fieldsOk_iff`, `follows_iff`) choose between a drop and `stageUpload`. -/
theorem patternUploadCommits : Obligations.PatternUploadCommits := by
  intro s e rest ho hq hpleat hrx hk
  dsimp only
  obtain ⟨t, hexec, hrest, hweb, hpat⟩ := exec_patternFragment ho hq hpleat hrx hk
  have hfirst (h : fieldAt e.body 2 1 % 8 = 0) : t.pattern = (beginUpload e.body (s.freed rest)).pattern := by
    rw [hpat, if_pos h]
  have hnext (h : fieldAt e.body 2 1 % 8 ≠ 0) : t.pattern = (continueUpload e.body (s.freed rest)).pattern := by
    rw [hpat, if_neg h]
  refine ⟨t, hexec, hrest, hweb, fun h0 hbad => ?_, fun h0 hok hlast => ?_, fun h0 hok hlast hlen => ?_,
    fun h0 hok hlast hlen => ?_, fun h0 hnone => ?_, fun u h0 hu => ⟨fun hout => ?_, fun hin hbad => ?_,
      fun hin hok hlast => ?_, fun hin hok hlast hlen => ?_, fun hin hok hlast hlen => ?_⟩⟩
  · rw [hfirst h0, beginUpload_eq, if_neg (mt (fieldsOk_iff _).1 hbad)]
    rfl
  · rw [hfirst h0, beginUpload_eq, if_pos ((fieldsOk_iff _).2 hok), lastFragment, hlast, stageUpload_more]
    simp only [PatternUnit.cleared, patternNumber, if_pos hok.1]
    rfl
  · rw [hfirst h0, slot_congr (hfirst h0), beginUpload_eq, if_pos ((fieldsOk_iff _).2 hok), lastFragment, hlast]
    obtain ⟨hstaging, hnamed, -, hactive, hpending⟩ :=
      stageUpload_whole ((s.freed rest).withPattern (s.pattern.cleared (firstStaging e.body))) hlen
    obtain ⟨⟨hlow, hhigh⟩, -⟩ := hok
    exact ⟨hstaging, hnamed, fun hb => ⟨(hactive hb).1, fun h32 => (hactive hb).2 hlow (hhigh.trans_eq h32.symm)⟩,
      fun hb => ⟨(hpending hb).1, fun h32 => (hpending hb).2 hlow (hhigh.trans_eq h32.symm)⟩⟩
  · rw [hfirst h0, beginUpload_eq, if_pos ((fieldsOk_iff _).2 hok), lastFragment, hlast, stageUpload_short _ hlen]
    rfl
  · rw [hnext h0, continueUpload_idle (s := s.freed rest) e.body hnone]
    change ({ s.pattern with staging := none, uploadPattern := _, uploadStatus := _ } : PatternUnit) = _
    rw [← hnone]
    rfl
  all_goals
    rw [hnext h0]
    have hcont := continueUpload_eq (s := s.freed rest) e.body hu
  · rw [hcont, if_neg (mt (follows_iff u _).1 hout)]
    rfl
  · obtain ⟨p, hp, hr⟩ := hbad
    rw [hcont, if_pos ((follows_iff u _).2 hin), if_neg fun hall => by simp [List.all_eq_true.1 hall p hp] at hr]
    rfl
  all_goals
    have hall : (readSteps e.body 3 (stepsHeld e.body)).all PatternStep.inRange = true := List.all_eq_true.2 hok
    rw [if_pos ((follows_iff u _).2 hin), if_pos hall, lastFragment, hlast] at hcont
  · rw [hcont]
    rfl
  · have hlen' : (u.extended e.body).steps.length ≠ (u.extended e.body).stepCount := by
      rw [Staging.extended, List.length_append]
      exact hlen
    rw [hcont, stageUpload_short _ hlen']
    rfl
  · have hlen' : (u.extended e.body).steps.length = (u.extended e.body).stepCount := by
      rw [Staging.extended, List.length_append]
      exact hlen
    rw [slot_congr (hnext h0), hcont]
    obtain ⟨hstaging, hnamed, hrun, hactive, hpending⟩ := stageUpload_whole (s.freed rest) hlen'
    exact ⟨hstaging, hnamed, hrun, fun hb => (hactive hb).1, fun hb => (hpending hb).1, fun hlow hhigh h32 =>
      ⟨fun hb => (hactive hb).2 hlow (hhigh.trans_eq h32.symm), fun hb => (hpending hb).2 hlow (hhigh.trans_eq h32.symm)⟩⟩

end Sys2Proof.Machine
end

