-- ==== Sys2Proof/Proofs/StrokesAndMoves.lean ====
section
/-! PROOFS. O34: what follows a completed stroke and a completed depth move. -/

namespace Sys2Proof.Machine
open Sys2Proof

/-! ## The depth move (R66, R67) -/

/-- Nothing is started while a stroke is in flight, the knife drive may not act, or the actuator stands where it is wanted. -/
theorem startMove_rests {s : State} (h : s.pattern.stroke.isSome = true ∨ s.knifeDrive = false ∨
    ∀ d, s.depthWanted = some d → s.pattern.depth = some d) : startMove s = s := by
  unfold startMove
  split
  · rfl
  · rename_i d hd
    refine if_neg ?_
    rcases h with h | h | h
    · simp [Option.isNone_eq_false_iff.2 h]
    · simp [h]
    · simp [h d hd]

/-- Another depth wanted starts a move with the knife IDLE and no move in flight. -/
theorem startMove_starts {s : State} {d : Nat} (hd : s.depthWanted = some d) (hne : s.pattern.depth ≠ some d)
    (hstroke : s.pattern.stroke = none) (hmove : s.pattern.move = none) (hdrive : s.knifeDrive = true) :
    startMove s = s.withPattern { s.pattern with
      move := some { target := d, timer := some (s.moveTime (depthChange s.pattern.depth d)) } } := by
  unfold startMove
  rw [hd]
  exact if_pos (by simp [hstroke, hmove, hdrive, hne])

/-! ## The held fold (R63, R64, R65) -/

theorem strokeReady_iff {s : State} {n : Nat} : s.strokeReady n = true ↔ s.pattern.stroke = none ∧ s.pattern.move = none ∧
    s.knifeDrive = true ∧ ∃ p, s.runPleats[n]? = some p ∧ s.pattern.depth = some p.depth := by
  unfold State.strokeReady
  cases s.pattern.depth <;> cases s.runPleats[n]? <;> simp [and_assoc]

/-- A held fold is the next pleat, so its depth is the one wanted (R66). -/
theorem depthWanted_of_held {s : State} {n : Nat} (h : s.pattern.heldFold = some n) :
    s.depthWanted = (s.runPleats[n]?).map Pleat.depth := by
  simp only [State.depthWanted, State.nextPleatIndex, h]

/-- A fold held at a depth the actuator stands at has that depth wanted. -/
theorem depthWanted_of_strokeReady {s : State} {n : Nat} (h : s.pattern.heldFold = some n) (hr : s.strokeReady n = true) :
    ∃ d, s.depthWanted = some d ∧ s.pattern.depth = some d := by
  obtain ⟨-, -, -, p, hp, hd⟩ := strokeReady_iff.1 hr
  exact ⟨p.depth, by rw [depthWanted_of_held h, hp]; rfl, hd⟩

/-- With no held fold ready, only a move may start. -/
theorem afterKnife_moves {s : State} (h : ∀ n, s.pattern.heldFold = some n → s.strokeReady n ≠ true) :
    afterKnife s = startMove s := by
  unfold afterKnife
  split
  · rename_i n hn
    exact if_neg (h n hn)
  · rfl

/-- The knife rests with no held fold and the actuator where it is wanted, with no depth wanted, in a stroke, and while the
knife drive may not act. -/
theorem afterKnife_rests {s : State}
    (h : (s.pattern.heldFold = none ∧ ∀ d, s.depthWanted = some d → s.pattern.depth = some d) ∨ s.depthWanted = none ∨
      s.pattern.stroke.isSome = true ∨ s.knifeDrive = false) : afterKnife s = s := by
  rcases h with ⟨hheld, hat⟩ | hnone | hbusy | hdrive
  · exact (afterKnife_moves fun n hn => nomatch hheld.symm.trans hn).trans (startMove_rests (.inr (.inr hat)))
  · refine (afterKnife_moves fun n hn hr => ?_).trans (startMove_rests (.inr (.inr fun d hd => nomatch hnone.symm.trans hd)))
    obtain ⟨d, hd, -⟩ := depthWanted_of_strokeReady hn hr
    exact nomatch hnone.symm.trans hd
  · refine (afterKnife_moves fun n _ hr => ?_).trans (startMove_rests (.inl hbusy))
    obtain ⟨hstroke, -⟩ := strokeReady_iff.1 hr
    simp [hstroke] at hbusy
  · refine (afterKnife_moves fun n _ hr => ?_).trans (startMove_rests (.inr (.inl hdrive)))
    obtain ⟨-, -, hready, -⟩ := strokeReady_iff.1 hr
    simp [hready] at hdrive

/-- Another depth wanted starts a move: a fold held for it is not at its depth yet. -/
theorem afterKnife_starts {s : State} {d : Nat} (hd : s.depthWanted = some d) (hne : s.pattern.depth ≠ some d)
    (hstroke : s.pattern.stroke = none) (hmove : s.pattern.move = none) (hdrive : s.knifeDrive = true) :
    afterKnife s = s.withPattern { s.pattern with
      move := some { target := d, timer := some (s.moveTime (depthChange s.pattern.depth d)) } } := by
  refine (afterKnife_moves fun n hn hr => ?_).trans (startMove_starts hd hne hstroke hmove hdrive)
  obtain ⟨d', hd', hat⟩ := depthWanted_of_strokeReady hn hr
  exact hne (hat.trans (hd'.symm.trans hd))

/-- The stroke that begins for a pleat of a run (R64). -/
def State.strokeOf (s : State) (r : KnifeRun) (n : Nat) (p : Pleat) : Stroke :=
  { ref := r.ref, pleat := n, blade := p.blade, start := s.position, limited := false
    timer := some (2 * s.cfg.pleat.strokeTime) }

/-- A fold skipped or late marks its panel and latches the condition (R63, R65). -/
theorem misfold_marks (uid : Nat) (s : State) : Cond.strokeLate ∈ (misfold uid s).cond.flags ∧
    ∀ h ∈ (misfold uid s).web.map, h.uid = uid → RejectCause.mispleat ∈ h.causes := by
  have hweb : (misfold uid s).web = (markSeg uid .mispleat s).web := by simp [misfold]
  refine ⟨raise_sets _ _, fun h hh hu => ?_⟩
  rw [hweb] at hh
  exact causes_of_markSeg hh hu

/-- The stroke of a held fold; begun later than the tolerance it marks its panel (R64, R65). -/
theorem beginStroke_late {s : State} {r : KnifeRun} {n : Nat} {p : Pleat} (hrun : s.pattern.run = some r)
    (hp : s.runPleats[n]? = some p) :
    (beginStroke n true s).pattern = { s.pattern with stroke := some (s.strokeOf r n p) } ∧
    ∀ g, s.held r.ref.uid = some g → s.cfg.pleat.lateTol < (s.position - s.foldPoint g p).toNat →
      Cond.strokeLate ∈ (beginStroke n true s).cond.flags ∧
      ∀ h ∈ (beginStroke n true s).web.map, h.uid = r.ref.uid → RejectCause.mispleat ∈ h.causes := by
  have hheld (x : PatternUnit) : (s.withPattern x).held r.ref.uid = s.held r.ref.uid := rfl
  unfold beginStroke
  rw [hrun, hp]
  dsimp only
  rw [hheld]
  cases s.held r.ref.uid with
  | none => exact ⟨rfl, fun g hg => nomatch hg⟩
  | some g =>
    dsimp only
    split
    · exact ⟨by simp [State.strokeOf], fun _ _ _ => misfold_marks _ _⟩
    · rename_i hearly
      exact ⟨rfl, fun g' hg hlate => absurd (Option.some.inj hg ▸ hlate) hearly⟩

/-- A held fold at whose depth the actuator stands is stroked (R64, R65, R68). -/
theorem afterKnife_strokes {s : State} {r : KnifeRun} {n : Nat} {p : Pleat} (hrun : s.pattern.run = some r)
    (hheld : s.pattern.heldFold = some n) (hp : s.runPleats[n]? = some p) (hready : s.strokeReady n = true) :
    (afterKnife s).pattern = { s.pattern with heldFold := none, stroke := some (s.strokeOf r n p) } ∧
    ∀ g, s.held r.ref.uid = some g → s.cfg.pleat.lateTol < (s.position - s.foldPoint g p).toNat →
      Cond.strokeLate ∈ (afterKnife s).cond.flags ∧
      ∀ h ∈ (afterKnife s).web.map, h.uid = r.ref.uid → RejectCause.mispleat ∈ h.causes := by
  have hafter : afterKnife s = beginStroke n true (s.withPattern { s.pattern with heldFold := none }) := by
    unfold afterKnife
    rw [hheld]
    exact if_pos hready
  rw [hafter]
  exact beginStroke_late (s := s.withPattern { s.pattern with heldFold := none }) hrun hp

/-! ## The two ends (R64, R68) -/

/-- The state at the end of a stroke, before what follows it: a clean stroke sets the count to 0 (R64). -/
def State.struck (s : State) (k : Stroke) : State :=
  s.withPattern { s.pattern with stroke := none, limitCount := if k.limited then s.pattern.limitCount else 0 }

theorem strokeDone_eq {s : State} {k : Stroke} (h : s.pattern.stroke = some k) : strokeDone s = afterKnife (s.struck k) := by
  unfold strokeDone State.struck
  rw [h]
  dsimp only
  cases k.limited <;> rfl

/-- The state at the end of a move, before what follows it (R68). -/
def State.moved (s : State) (m : DepthMove) : State :=
  s.withPattern { s.pattern with depth := some m.target, move := none }

theorem moveDone_eq {s : State} {m : DepthMove} (h : s.pattern.move = some m) : moveDone s = afterKnife (s.moved m) := by
  unfold moveDone
  rw [h]
  rfl

/-- Where no entry to ACTIVE can fall due, what follows a stroke or a move ends with its figures. -/
theorem afterKnife_figures {s u : State} (hl : u.loader = s.loader) (hp : u.peers = s.peers) (h : s.steady) :
    FiguresOnly (afterKnife u) (conclude (afterKnife u)) :=
  conclude_steady_figures (by simp [hl]) (by simp [hp]) h

/-- The stroke of a held fold, through the end of its command. -/
theorem conclude_afterKnife_strokes {s u : State} {r : KnifeRun} {n : Nat} {p : Pleat} (hl : u.loader = s.loader)
    (hpeers : u.peers = s.peers) (h : s.steady) (hrun : u.pattern.run = some r)
    (hheld : u.pattern.heldFold = some n) (hp : u.runPleats[n]? = some p) (hready : u.strokeReady n = true) :
    (conclude (afterKnife u)).pattern = { u.pattern with heldFold := none, stroke := some (u.strokeOf r n p) } ∧
    ∀ g, u.held r.ref.uid = some g → u.cfg.pleat.lateTol < (u.position - u.foldPoint g p).toNat →
      Cond.strokeLate ∈ (conclude (afterKnife u)).cond.flags ∧
      ∀ x ∈ (conclude (afterKnife u)).web.map, x.uid = r.ref.uid → RejectCause.mispleat ∈ x.causes := by
  have hfig := afterKnife_figures hl hpeers h
  obtain ⟨hpat, hlate⟩ := afterKnife_strokes hrun hheld hp hready
  refine ⟨hfig.pattern.trans hpat, fun g hg hd => ?_⟩
  obtain ⟨hflag, hmarks⟩ := hlate g hg hd
  rw [hfig.flags _ (by decide), hfig.web]
  exact ⟨hflag, hmarks⟩

/-- Settles O34: at either end the held fold is stroked (`conclude_afterKnife_strokes`), a move starts
(`afterKnife_starts`) or the knife rests (`afterKnife_rests`). -/
theorem strokeAndMoveEnd : Obligations.StrokeAndMoveEnd := by
  refine ⟨fun s ho hq => ⟨fun hnone => ⟨_, congrArg Host.Outcome.next (if_pos ho), ?_⟩,
      fun hnone => ⟨_, congrArg Host.Outcome.next (if_pos ho), ?_⟩⟩,
    fun s k ho hk => ⟨_, congrArg Host.Outcome.next (if_pos ho), ?_⟩,
    fun s m ho hm => ⟨_, congrArg Host.Outcome.next (if_pos ho), ?_⟩⟩
  · have hrest : strokeDone s = s := by rw [strokeDone, hnone]
    rw [hrest]
    exact conclude_figures (s := s) rfl rfl rfl hq
  · have hrest : moveDone s = s := by rw [moveDone, hnone]
    rw [hrest]
    exact conclude_figures (s := s) rfl rfl rfl hq
  · rw [strokeDone_eq hk]
    refine ⟨by simp [State.struck], fun hq hheld hat => ?_, fun d hq _ hd hne hmove hdrive => ?_,
      fun r n p hs hrun hheld hp hdepth hmove hdrive => ?_⟩
    · rw [afterKnife_rests (s := s.struck k) (.inl ⟨hheld, hat⟩)]
      exact conclude_figures (s := s) rfl rfl rfl hq
    · rw [afterKnife_starts (s := s.struck k) hd hne rfl hmove hdrive]
      exact conclude_figures (s := s) (u := (s.struck k).withPattern { (s.struck k).pattern with
        move := some { target := d, timer := some (s.moveTime (depthChange s.pattern.depth d)) } }) rfl rfl rfl hq
    · obtain ⟨hpat, hlate⟩ := conclude_afterKnife_strokes (s := s) (u := s.struck k) rfl rfl hs hrun hheld hp
        (strokeReady_iff.2 ⟨rfl, hmove, hdrive, p, hp, hdepth⟩)
      exact ⟨congrArg PatternUnit.heldFold hpat, congrArg PatternUnit.stroke hpat, hlate⟩
  · rw [moveDone_eq hm]
    refine ⟨by simp [State.moved], fun hq hcase => ?_, fun d hq hd hne hstroke hdrive => ?_,
      fun r n p hs hrun hheld hp hdepth hstroke hdrive => ?_⟩
    · have hrests := afterKnife_rests (s := s.moved m)
        (hcase.imp_left fun ⟨hheld, hat⟩ => ⟨hheld, fun d hd => congrArg some (hat d hd).symm⟩)
      rw [hrests]
      exact conclude_figures (s := s) rfl rfl rfl hq
    · rw [afterKnife_starts (s := s.moved m) hd (by simp [State.moved, hne.symm]) hstroke rfl hdrive]
      exact conclude_figures (s := s) (u := (s.moved m).withPattern { (s.moved m).pattern with
        move := some { target := d, timer := some (s.moveTime (depthChange (some m.target) d)) } }) rfl rfl rfl hq
    · exact conclude_afterKnife_strokes (s := s) (u := s.moved m) rfl rfl hs hrun hheld hp
        (strokeReady_iff.2 ⟨hstroke, rfl, hdrive, p, hp, congrArg some hdepth.symm⟩)

end Sys2Proof.Machine
end

