-- ==== Sys2Proof/Proofs/KnifeFaults.lean ====
section
/-! PROOFS. O35: the stalled stroke and the current limit. -/

namespace Sys2Proof.Machine
open Sys2Proof

/-! ## A stroke through the end of a command (R63, R64) -/

/-- What falls due leaves a stroke in flight: a fold that meets it is held or skipped (R63). -/
theorem takeDue_stroke_inFlight {s : State} {k : Stroke} (d : Due) (h : s.pattern.stroke = some k) :
    (takeDue d s).pattern.stroke = some k := by
  have fold : (takeFold s).pattern.stroke = some k := by
    unfold takeFold
    split
    · exact h
    · rename_i r _
      have hbusy : (s.withPattern { s.pattern with run := some { r with nextPleat := r.nextPleat + 1 } }).strokeReady
          r.nextPleat = false := by
        simp [State.strokeReady, h]
      dsimp only
      split
      · simpa using h
      · rw [hbusy, if_neg Bool.false_ne_true]
        split <;> simpa using h
  cases d with
  | fold => exact fold
  | _ => simpa [takeDue, noteBoundary] using h

theorem settle_stroke_inFlight {s : State} {k : Stroke} (h : s.pattern.stroke = some k) :
    (settle s).pattern.stroke = some k :=
  settle_keeps (fun t => t.pattern.stroke = some k) (fun t h => by simpa using h)
    (fun t d h _ => takeDue_stroke_inFlight d h) s h

theorem finish_stroke_inFlight {s : State} {k : Stroke} (h : s.pattern.stroke = some k) :
    (finish s).pattern.stroke = some k := by
  have hsettled : (refresh (settle s)).pattern.stroke = some k := by
    simpa using settle_stroke_inFlight h
  unfold finish conclude
  dsimp only
  split
  · have hactive : (enterActive (refresh (settle s))).pattern.stroke = some k := by simpa using hsettled
    simpa using settle_stroke_inFlight hactive
  · exact hsettled

/-! ## A trip with no stroke left in flight (R71) -/

/-- A trip leaves no stroke in flight where TRIPPED had none (R71). -/
theorem addTrip_stroke (c : TripCause) {s : State} (ho : s.operating = true)
    (hs : s.mode = .tripped → s.pattern.stroke = none) : (addTrip c s).pattern.stroke = none := by
  by_cases hm : s.mode = .tripped
  · unfold addTrip
    rw [hm]
    dsimp only
    split
    · exact hs hm
    · simpa using hs hm
  · rw [addTrip_entering c ho hm]
    obtain ⟨-, -, -, hstroke, -⟩ :=
      enterTripped_leaves (queueTrip c (s.withGov { s.gov with trips := insertNew c s.gov.trips }))
    simpa using hstroke

/-- A trip stands to the end of its command (R41, R191). -/
theorem finish_addTrip (c : TripCause) {s : State} (ho : s.operating = true) :
    (finish (addTrip c s)).mode = .tripped ∧ c ∈ (finish (addTrip c s)).gov.trips := by
  obtain ⟨htrip, hmode⟩ := addTrip_trips c ho
  exact ⟨finish_tripped hmode, by simpa using htrip⟩

/-- With no stroke in flight in TRIPPED none begins to the end of the command (R63, R71). -/
theorem finish_stroke_tripped {s : State} (hm : s.mode = .tripped) (hs : s.pattern.stroke = none) :
    (finish s).pattern.stroke = none := by
  rw [(finish_tripped_figures hm).pattern]
  exact settle_stroke hm hs

/-- What follows a stroke in TRIPPED begins none: the knife drive may not act there (R63, R71). -/
theorem afterKnife_stroke_tripped {s : State} (hm : s.mode = .tripped) (hs : s.pattern.stroke = none) :
    (afterKnife s).pattern.stroke = none := by
  rw [afterKnife_rests (.inr (.inr (.inr (knifeDrive_eq_false.2 (.inr hm)))))]
  exact hs

/-! ## The marks of a panel (R22) -/

/-- A cause added to a panel's record stands in every record of that name that operations which settle leave. -/
theorem causes_after_markSeg {uid : Nat} {c : RejectCause} {s t : State} (hs : RecordsNamed s)
    (ht : Settles (markSeg uid c s) t) {g h : Segment} (hg : g ∈ s.web.map) (hu : g.uid = uid) (hh : h ∈ t.web.map)
    (hgh : h.uid = g.uid) : c ∈ h.causes := by
  have hmarked : g.mark c ∈ (markSeg uid c s).web.map := by
    simp only [markSeg, updateSeg_map]
    exact List.mem_map.2 ⟨g, hg, if_pos (beq_iff_eq.2 hu)⟩
  have hnamed := (markSeg_settles uid c s).records.named hs
  exact (ht.records.marks hnamed hmarked hh hgh).causes c ((mem_insertNew c c _).2 (.inl rfl))

/-! ## The stalled stroke (R64) -/

/-- The state in which a stalled stroke trips the station. -/
def State.stalled (s : State) (k : Stroke) : State := afterKnife (markSeg k.ref.uid .mispleat (idleKnife s))

theorem strokeStalled_eq {s : State} {k : Stroke} (h : s.pattern.stroke = some k) :
    strokeStalled s = addTrip .knifeStall (s.stalled k) := by
  rw [strokeStalled, h]
  rfl

theorem stalled_stroke_tripped {s : State} (k : Stroke) (h : (s.stalled k).mode = .tripped) :
    (s.stalled k).pattern.stroke = none := by
  have hmode : (s.stalled k).mode = (markSeg k.ref.uid .mispleat (idleKnife s)).mode := by
    simp [State.stalled, State.mode]
  exact afterKnife_stroke_tripped (hmode.symm.trans h) rfl

/-- A stroke that stalls (R64, R71). -/
theorem finish_strokeStalled {s : State} {k : Stroke} (ho : s.operating = true) (hs : RecordsNamed s)
    (hk : s.pattern.stroke = some k) : (finish (strokeStalled s)).mode = .tripped ∧
      TripCause.knifeStall ∈ (finish (strokeStalled s)).gov.trips ∧ (finish (strokeStalled s)).pattern.stroke = none ∧
      (finish (strokeStalled s)).pattern.limitCount = s.pattern.limitCount ∧
      ∀ g ∈ s.web.map, g.uid = k.ref.uid → ∀ h ∈ (finish (strokeStalled s)).web.map, h.uid = g.uid →
        RejectCause.mispleat ∈ h.causes := by
  have hop : (s.stalled k).operating = true :=
    (afterKnife_settles _).operating ((markSeg_settles k.ref.uid .mispleat (idleKnife s)).operating ho)
  rw [strokeStalled_eq hk]
  obtain ⟨hmode, htrip⟩ := finish_addTrip .knifeStall hop
  have hstroke := addTrip_stroke .knifeStall hop (stalled_stroke_tripped k)
  refine ⟨hmode, htrip, finish_stroke_tripped (addTrip_trips .knifeStall hop).2 hstroke,
    by simp [State.stalled, idleKnife], fun g hg hu h hh hgh => ?_⟩
  exact causes_after_markSeg (s := idleKnife s) ⟨hs.once, hs.fresh⟩
    ((afterKnife_settles _).trans ((addTrip_settles _ _).trans (finish_settles _))) hg hu hh hgh

/-! ## The current limit (R69, R70) -/

/-- The stroke in flight marked as limited, and counted (R69, R70). -/
def State.strokeLimited (s : State) (k : Stroke) : State :=
  s.withPattern { s.pattern with stroke := some { k with limited := true }, limitCount := s.pattern.limitCount + 1 }

/-- The state a current-limit detection leaves before the test for the third limited stroke in a row. -/
def State.limitNoted (s : State) (k : Stroke) : State :=
  let b := markSeg k.ref.uid .knifeLimited (s.strokeLimited k)
  raise .knifeLimit (b.withCond { b.cond with limitedStrokes := saturate 65535 (b.cond.limitedStrokes + 1) })

theorem limitNoted_settles (s : State) (k : Stroke) :
    Settles (markSeg k.ref.uid .knifeLimited (s.strokeLimited k)) (s.limitNoted k) := by
  unfold State.limitNoted
  generalize markSeg k.ref.uid .knifeLimited (s.strokeLimited k) = b
  refine Settles.trans (.counters b ?_) (raise_settles _ _)
  exact fun ⟨h1, h2, h3, h4, h5, _⟩ => ⟨h1, h2, h3, h4, h5, saturate_le ..⟩

theorem limitStroke_eq {s : State} {k : Stroke} {us : Nat} (h : s.pattern.stroke = some k) (hclean : k.limited = false)
    (hlong : s.cfg.pleat.currentFilter ≤ us) : limitStroke us s = jamTest (s.limitNoted k) := by
  rw [limitStroke, h]
  exact if_neg (by simp [hclean, hlong])

theorem limitStroke_ignored {s : State} {k : Stroke} {us : Nat} (h : s.pattern.stroke = some k)
    (hn : k.limited = true ∨ us < s.cfg.pleat.currentFilter) : limitStroke us s = s := by
  rw [limitStroke, h]
  exact if_pos hn

theorem jamTest_below {s : State} (h : s.pattern.limitCount < 3) : jamTest s = s := if_neg (by omega)

/-- The third limited stroke in a row trips the station and sets the count to 0 (R70). -/
theorem finish_jamTest {s : State} (ho : s.operating = true) (h : 3 ≤ s.pattern.limitCount) :
    (finish (jamTest s)).pattern.limitCount = 0 ∧ TripCause.knifeJam ∈ (finish (jamTest s)).gov.trips ∧
    (finish (jamTest s)).mode = .tripped := by
  have hx : jamTest s = addTrip .knifeJam (s.withPattern { s.pattern with limitCount := 0 }) := if_pos h
  rw [hx]
  obtain ⟨hmode, htrip⟩ := finish_addTrip .knifeJam (s := s.withPattern { s.pattern with limitCount := 0 }) ho
  exact ⟨by simp, htrip, hmode⟩

/-- A current-limit detection through the end of its command (R69, R70). -/
theorem finish_limitStroke {s : State} {k : Stroke} {us : Nat} (ho : s.operating = true) (hs : RecordsNamed s)
    (hk : s.pattern.stroke = some k) (hclean : k.limited = false) (hlong : s.cfg.pleat.currentFilter ≤ us) :
    Cond.knifeLimit ∈ (finish (limitStroke us s)).cond.flags ∧
    (finish (limitStroke us s)).cond.limitedStrokes = min 65535 (s.cond.limitedStrokes + 1) ∧
    (∀ g ∈ s.web.map, g.uid = k.ref.uid → ∀ h ∈ (finish (limitStroke us s)).web.map, h.uid = g.uid →
      RejectCause.knifeLimited ∈ h.causes) ∧
    (s.pattern.limitCount < 2 → (finish (limitStroke us s)).pattern.limitCount = s.pattern.limitCount + 1 ∧
      (finish (limitStroke us s)).gov.trips = s.gov.trips ∧
      (finish (limitStroke us s)).pattern.stroke = some { k with limited := true }) ∧
    (2 ≤ s.pattern.limitCount → (finish (limitStroke us s)).pattern.limitCount = 0 ∧
      TripCause.knifeJam ∈ (finish (limitStroke us s)).gov.trips ∧ (finish (limitStroke us s)).mode = .tripped) := by
  rw [limitStroke_eq hk hclean hlong]
  have hop : (s.limitNoted k).operating = true := by simpa [State.strokeLimited, State.limitNoted, State.operating, State.mode] using ho
  have hcount : (s.limitNoted k).pattern.limitCount = s.pattern.limitCount + 1 := by simp [State.strokeLimited, State.limitNoted]
  have hend := (jamTest_settles (s.limitNoted k)).trans (finish_settles _)
  refine ⟨hend.flags _ (raise_sets _ _) rfl, ?_, fun g hg hu h hh hgh => ?_, fun hlow => ?_,
    fun hhigh => finish_jamTest hop (by omega)⟩
  · unfold jamTest
    split <;> simp [State.strokeLimited, State.limitNoted, saturate]
  · exact causes_after_markSeg (s := s.strokeLimited k) ⟨hs.once, hs.fresh⟩
      ((limitNoted_settles s k).trans hend) hg hu hh hgh
  · rw [jamTest_below (by omega)]
    exact ⟨by simp [hcount], by simp [State.strokeLimited, State.limitNoted], finish_stroke_inFlight (by simp [State.strokeLimited, State.limitNoted])⟩

/-- Settles O35: `finish_strokeStalled`, `finish_limitStroke` and `finish_jamTest`; without a stroke to fault nothing is
done but what was due. -/
theorem knifeFaultsTrip : Obligations.KnifeFaultsTrip := by
  refine ⟨fun s ho hs hnone => ⟨⟨_, congrArg Host.Outcome.next (if_pos ho), ?_⟩,
      fun us => ⟨_, congrArg Host.Outcome.next (if_pos ho), ?_⟩⟩,
    fun s k ho hnamed hk => ⟨⟨_, congrArg Host.Outcome.next (if_pos ho), finish_strokeStalled ho hnamed hk⟩,
      fun us hclean hlong => ⟨_, congrArg Host.Outcome.next (if_pos ho), finish_limitStroke ho hnamed hk hclean hlong⟩,
      fun us hs hn => ⟨_, congrArg Host.Outcome.next (if_pos ho), ?_⟩⟩,
    fun s ho => ⟨fun hjam => ⟨_, congrArg Host.Outcome.next (if_pos ho), finish_jamTest ho hjam⟩,
      fun hbelow => ⟨_, congrArg Host.Outcome.next (if_pos ho), ?_⟩⟩⟩
  · have hrest : strokeStalled s = s := by rw [strokeStalled, hnone]
    rw [hrest]
    exact finish_figures rfl rfl hs
  · have hrest : limitStroke us s = s := by rw [limitStroke, hnone]
    rw [hrest]
    exact finish_figures rfl rfl hs
  · rw [limitStroke_ignored hk hn]
    exact finish_figures rfl rfl hs
  · rw [jamTest_below hbelow]
    exact ⟨by simp, by simp, finish_figures rfl rfl⟩

end Sys2Proof.Machine
end

