-- ==== Sys2Proof/Proofs/OrdersUnborn.lean ====
section
/-! PROOFS. What an operation leaves of the orders that wait: it adds none, and brings into the map no PANEL whose id is still
queued (basis of O8). -/

namespace Sys2Proof.Machine
open Sys2Proof

/-! ## The orders that wait and the panels of the map (R78) -/

/-- A PANEL of the map has a panel id. -/
def State.bears (s : State) (id : Word) : Prop := ∃ g ∈ s.web.map, g.kind = .panel ∧ g.panelId = some id

/-- No queued order is borne by the map, as `OrderSafe` says it record by record. -/
theorem unborn_iff (s : State) : (∀ o ∈ s.order.queue, ¬ s.bears o.panelId) ↔
    ∀ o ∈ s.order.queue, ∀ g ∈ s.web.map, g.kind = .panel → g.panelId ≠ some o.panelId := by
  simp [State.bears]

/-- An operation that leaves the record in force, only takes orders from the queue, and in the UNWIND makes no PANEL of an id
that stays queued. -/
structure KeepsOrders (s t : State) : Prop where
  image : t.loader.image = s.loader.image
  queue : t.order.queue.Sublist s.order.queue
  unborn : s.is .unwind = true → ∀ o ∈ t.order.queue, t.bears o.panelId → s.bears o.panelId

theorem KeepsOrders.refl (s : State) : KeepsOrders s s := ⟨rfl, .refl _, fun _ _ _ h => h⟩

theorem KeepsOrders.is {s t : State} (h : KeepsOrders s t) (r : Role) : t.is r = s.is r := is_of_image h.image r

theorem KeepsOrders.trans {s t u : State} (h : KeepsOrders s t) (k : KeepsOrders t u) : KeepsOrders s u where
  image := k.image.trans h.image
  queue := k.queue.trans h.queue
  unborn := fun hr o ho hb => h.unborn hr o (k.queue.subset ho) (k.unborn ((h.is .unwind).trans hr) o ho hb)

theorem KeepsOrders.ite {s t u : State} {p : Prop} [Decidable p] (ht : p → KeepsOrders s t) (hu : ¬ p → KeepsOrders s u) :
    KeepsOrders s (if p then t else u) := by
  split
  · exact ht ‹_›
  · exact hu ‹_›

theorem KeepsOrders.foldl {α : Type} (f : State → α → State) (h : ∀ s a, KeepsOrders s (f s a)) (l : List α) (s : State) :
    KeepsOrders s (l.foldl f s) := by
  induction l generalizing s with
  | nil => exact .refl s
  | cons a l ih => exact (h s a).trans (ih (f s a))

/-- The invariant of the orders is kept with them, while the station stays in its operating modes. -/
theorem KeepsOrders.orderSafe {s t : State} (h : KeepsOrders s t) (ho : s.operating = true → t.operating = true)
    (hs : OrderSafe s) : OrderSafe t where
  place := fun hq => by
    obtain ⟨hop, hr⟩ := hs.place fun hn => hq (List.eq_nil_of_sublist_nil (hn ▸ h.queue))
    exact ⟨ho hop, (h.is .unwind).trans hr⟩
  once := hs.once.sublist (h.queue.map _)
  unborn := (unborn_iff t).1 fun o hq hb =>
    have hm := h.queue.subset hq
    (unborn_iff s).2 hs.unborn o hm (h.unborn (hs.place (List.ne_nil_of_mem hm)).2 o hq hb)

/-! ## Operations by what they touch -/

/-- An operation outside the queue and the map. -/
theorem KeepsOrders.of_same {s t : State} (h : t.loader.image = s.loader.image ∧ t.web.map = s.web.map ∧
    t.order.queue = s.order.queue) : KeepsOrders s t := by
  obtain ⟨image, map, queue⟩ := h
  refine ⟨image, queue ▸ .refl _, fun _ o _ hb => ?_⟩
  rwa [State.bears, map] at hb

/-- An operation on the map whose records all stand for earlier ones, PANELs with their ids. -/
theorem KeepsOrders.of_records {s t : State} (h : t.loader.image = s.loader.image ∧ t.order.queue = s.order.queue)
    (records : ∀ x ∈ t.web.map, ∃ g ∈ s.web.map, SameRecord g x) : KeepsOrders s t := by
  obtain ⟨image, queue⟩ := h
  refine ⟨image, queue ▸ .refl _, fun _ o _ hb => ?_⟩
  obtain ⟨x, hx, hk, hid⟩ := hb
  obtain ⟨g, hg, -, hm⟩ := records x hx
  exact ⟨g, hg, hm.kind ▸ hk, hm.panelId ▸ hid⟩

/-- An operation that changes each record by one function. -/
theorem KeepsOrders.of_map {s t : State} (f : Segment → Segment) (h : t.loader.image = s.loader.image ∧
    t.order.queue = s.order.queue) (map : t.web.map = s.web.map.map f) (hf : ∀ g, SameRecord g (f g)) : KeepsOrders s t := by
  refine .of_records h fun x hx => ?_
  rw [map] at hx
  obtain ⟨g, hg, rfl⟩ := List.mem_map.1 hx
  exact ⟨g, hg, hf g⟩

/-- An operation outside the UNWIND, which alone has orders, leaves the queue. -/
theorem KeepsOrders.elsewhere {s t : State} (hr : s.is .unwind = false) (h : t.loader.image = s.loader.image ∧
    t.order.queue = s.order.queue) : KeepsOrders s t :=
  ⟨h.1, h.2 ▸ .refl _, fun hu => not_other hu hr⟩

section
variable (s : State)

theorem KeepsOrders.bus (x : Bus) : KeepsOrders s (s.withBus x) := .of_same ⟨rfl, rfl, rfl⟩
theorem KeepsOrders.gov (x : Gov) : KeepsOrders s (s.withGov x) := .of_same ⟨rfl, rfl, rfl⟩
theorem KeepsOrders.cond (x : CondUnit) : KeepsOrders s (s.withCond x) := .of_same ⟨rfl, rfl, rfl⟩
theorem KeepsOrders.pins (x : Pins) : KeepsOrders s (s.withPins x) := .of_same ⟨rfl, rfl, rfl⟩
theorem KeepsOrders.peers (x : List PeerEntry) : KeepsOrders s (s.withPeers x) := .of_same ⟨rfl, rfl, rfl⟩
theorem KeepsOrders.pattern (x : PatternUnit) : KeepsOrders s (s.withPattern x) := .of_same ⟨rfl, rfl, rfl⟩
theorem KeepsOrders.roll (x : RollUnit) : KeepsOrders s (s.withRoll x) := .of_same ⟨rfl, rfl, rfl⟩
theorem KeepsOrders.joinTimer (x : Timer) : KeepsOrders s (s.withLoader { s.loader with joinTimer := x }) :=
  .of_same ⟨rfl, rfl, rfl⟩
theorem KeepsOrders.order (x : OrderUnit) (queue : x.queue.Sublist s.order.queue) : KeepsOrders s (s.withOrder x) :=
  ⟨rfl, queue, fun _ _ _ h => h⟩

end

/-! ## Operations that touch neither (R25, R93, R122, R172 to R175, R210) -/

section
variable (s : State)

theorem raise_keepsOrders (c : Cond) : KeepsOrders s (raise c s) := .of_same (by simp)
theorem fall_keepsOrders (c : Cond) : KeepsOrders s (fall c s) := .of_same (by simp)
theorem follow_keepsOrders (c : Cond) (b : Bool) : KeepsOrders s (follow c b s) := .of_same (by simp)
theorem setHold_keepsOrders (h : HoldCause) : KeepsOrders s (setHold h s) := .gov ..
theorem clearHold_keepsOrders (h : HoldCause) : KeepsOrders s (clearHold h s) := .gov ..
theorem setTx_keepsOrders (l : List TxEntry) : KeepsOrders s (setTx l s) := .bus ..
theorem pulseForMode_keepsOrders : KeepsOrders s (pulseForMode s) := .of_same (by simp)
theorem setMode_keepsOrders (m : Mode) : KeepsOrders s (setMode m s) := .of_same (by simp)
theorem closeValves_keepsOrders : KeepsOrders s (closeValves s) := .of_same (by simp)
theorem setWait_keepsOrders (w : OrderWait) : KeepsOrders s (setWait w s) := .of_same (by simp)
theorem reviewWait_keepsOrders : KeepsOrders s (reviewWait s) := .of_same (by simp)
theorem enterSplice_keepsOrders (x : SpliceState) : KeepsOrders s (enterSplice x s) := .of_same (by simp)
theorem resolveSplice_keepsOrders : KeepsOrders s (resolveSplice s) := .of_same (by simp)

end

/-! ## The records of the map (R4, R6, R8, R20 to R22) -/

section
variable (s : State)

theorem updateSeg_keepsOrders (uid : Nat) (f : Segment → Segment) (hf : ∀ g, SameRecord g (f g)) :
    KeepsOrders s (updateSeg uid f s) := by
  refine .of_map _ (by simp) rfl fun g => ?_
  split
  · exact hf g
  · exact .refl g

theorem markSeg_keepsOrders (uid : Nat) (c : RejectCause) : KeepsOrders s (markSeg uid c s) :=
  updateSeg_keepsOrders s uid _ fun g => mark_same c g

theorem removeSeg_keepsOrders (uid : Nat) : KeepsOrders s (removeSeg uid s) := by
  refine .of_records (by simp) fun x hx => ?_
  rw [removeSeg_map] at hx
  exact ⟨x, List.mem_of_mem_filter hx, .refl x⟩

theorem placeRule_keepsOrders (uid : Nat) : KeepsOrders s (placeRule uid s) := by
  have removed (l : List Segment) : KeepsOrders s (l.foldl (fun t a => removeSeg a.uid t) s) :=
    .foldl _ (fun t a => removeSeg_keepsOrders t a.uid) l s
  unfold placeRule
  split
  · exact .refl s
  · dsimp only
    split
    · exact removed _
    · exact (removed _).trans (updateSeg_keepsOrders _ _ _ (adjustTo_same _))

theorem sendHandoff_keepsOrders (g : Segment) : KeepsOrders s (sendHandoff g s) := by
  unfold sendHandoff
  refine .ite (fun _ => updateSeg_keepsOrders _ _ _ fun g => ⟨rfl, by constructor <;> simp⟩) (fun _ => ?_)
  extract_lets body t u w v
  have ht : KeepsOrders s t := .of_same (by simp [t])
  have hu : KeepsOrders t u := updateSeg_keepsOrders _ _ _ fun g => ⟨rfl, by constructor <;> simp +contextual⟩
  have hv : KeepsOrders u v := .of_same ⟨rfl, rfl, rfl⟩
  exact ht.trans (hu.trans (hv.trans (.pattern v _)))

theorem mergeVerdict_keepsOrders (seg : Half) (panelId : Word) (v : Verdict) (origin : Nat) :
    KeepsOrders s (mergeVerdict seg panelId v origin s) := by
  refine .of_map _ ⟨rfl, rfl⟩ rfl fun g => ?_
  split
  · exact merge_same ..
  · exact .refl g

theorem cancelPanel_keepsOrders (id : Word) : KeepsOrders s (cancelPanel id s) := by
  refine .of_map _ ⟨rfl, rfl⟩ rfl fun g => ?_
  split
  · exact mark_same ..
  · exact .refl g

end

/-! ## The knife (R62 to R71) -/

section
variable (s : State)

theorem misfold_keepsOrders (uid : Nat) : KeepsOrders s (misfold uid s) :=
  (markSeg_keepsOrders ..).trans (raise_keepsOrders ..)

theorem dropHeldFold_keepsOrders : KeepsOrders s (dropHeldFold s) := by
  unfold dropHeldFold
  split
  · exact KeepsOrders.trans (.pattern ..) (misfold_keepsOrders ..)
  · exact .refl s

theorem tripKnife_keepsOrders : KeepsOrders s (tripKnife s) := by
  refine KeepsOrders.trans ?_ (dropHeldFold_keepsOrders _)
  split
  · exact KeepsOrders.trans (.pattern ..) (markSeg_keepsOrders ..)
  · exact .refl s

theorem beginStroke_keepsOrders (k : Nat) (late : Bool) : KeepsOrders s (beginStroke k late s) := by
  unfold beginStroke
  split
  · dsimp only
    split
    · exact .ite (fun _ => KeepsOrders.trans (.pattern ..) (misfold_keepsOrders ..)) (fun _ => .pattern ..)
    · exact .pattern ..
  · exact .refl s

theorem afterKnife_keepsOrders : KeepsOrders s (afterKnife s) := by
  have moved : KeepsOrders s (startMove s) := .of_same (by simp)
  unfold afterKnife
  split
  · exact .ite (fun _ => KeepsOrders.trans (.pattern ..) (beginStroke_keepsOrders ..)) (fun _ => moved)
  · exact moved

end

/-! ## Births (R82 to R90) -/

/-- What follows a birth takes at most the order that was born from the queue (R85). -/
theorem afterBirth_keepsOrders (b : Born) (seg : Half) (arrival : Word) (s : State) :
    KeepsOrders s (afterBirth b seg arrival s) := by
  cases b with
  | splice => exact .of_same ⟨rfl, rfl, rfl⟩
  | panel o => exact KeepsOrders.trans (.order s _ (by exact List.filter_sublist)) (setWait_keepsOrders ..)
  | leader => exact setWait_keepsOrders ..

/-- The only PANEL a birth makes is of the order it takes from the queue (R85). -/
theorem bornSegment_panel {s : State} {b : Born} {arrival : Word} (h : (s.bornSegment b arrival).kind = .panel) :
    ∃ o, b = .panel o ∧ (s.bornSegment b arrival).panelId = some o.panelId := by
  cases b with
  | splice | leader => cases h
  | panel o => exact ⟨o, rfl, rfl⟩

theorem afterBirth_panel_queue (o : Order) (seg : Half) (arrival : Word) (s : State) :
    (afterBirth (.panel o) seg arrival s).order.queue = s.order.queue.filter (fun x => x.panelId ≠ o.panelId) := by
  simp [afterBirth]

theorem makeBirth_keepsOrders (s : State) : KeepsOrders s (makeBirth s) := by
  have placed : KeepsOrders (appendSeg (s.bornSegment s.bornNow s.birthLead) s) s.bornPlaced :=
    .ite (fun _ => placeRule_keepsOrders ..) (fun _ => .refl _)
  have ordered : KeepsOrders s.bornPlaced (s.bornPlaced.withOrder s.birthOrder) :=
    .order _ _ (by rw [(bornPlaced_keeps s).1]; exact .refl _)
  have made := placed.trans (ordered.trans (afterBirth_keepsOrders s.bornNow s.order.nextSeg s.birthLead _))
  rw [makeBirth_eq]
  refine ⟨made.image, made.queue, fun hr o ho hb => ?_⟩
  obtain ⟨h, hh, hk, hid⟩ := made.unborn hr o ho hb
  rw [appendSeg_newborn] at hh
  rcases List.mem_append.1 hh with hold | hnew
  · exact ⟨h, hold, hk, hid⟩
  · rw [List.mem_singleton.1 hnew] at hk hid
    obtain ⟨p, hp, hpid⟩ := bornSegment_panel hk
    rw [hp, afterBirth_panel_queue] at ho
    have hne : o.panelId ≠ p.panelId := by simpa using (List.mem_filter.1 ho).2
    exact absurd (Option.some.inj (hid.symm.trans hpid)) hne

/-! ## Drive enable, trips and mode entries (R40 to R46, R190 to R193) -/

section
variable (s : State)

theorem clearDrive_keepsOrders : KeepsOrders s (clearDrive s) := .of_same (by simp)

theorem tripOff_keepsOrders : KeepsOrders s (tripOff s) :=
  KeepsOrders.trans (.gov ..) ((setMode_keepsOrders ..).trans (KeepsOrders.trans (.joinTimer ..)
    (KeepsOrders.trans (.cond ..) ((tripKnife_keepsOrders _).trans (closeValves_keepsOrders _)))))

theorem enterTripped_keepsOrders : KeepsOrders s (enterTripped s) := by
  have begun : KeepsOrders s (tripBegun s) := (tripOff_keepsOrders s).trans (resolveSplice_keepsOrders _)
  rw [enterTripped_eq]
  exact .ite (fun _ => begun.trans (KeepsOrders.trans (.gov ..) (clearDrive_keepsOrders _))) (fun _ => begun)

theorem addTrip_keepsOrders (c : TripCause) : KeepsOrders s (addTrip c s) := by
  have queued (t : State) : KeepsOrders t (queueTrip c t) := .of_same (by simp)
  unfold addTrip
  split
  iterate 3
    exact KeepsOrders.trans (.gov ..)
      ((queued _).trans ((enterTripped_keepsOrders _).trans (pulseForMode_keepsOrders _)))
  · exact .ite (fun _ => .refl s) (fun _ => KeepsOrders.trans (.gov ..) (queued _))
  all_goals exact .refl s

theorem takeLatch_keepsOrders : KeepsOrders s (takeLatch s) := by
  unfold takeLatch
  refine .ite (fun _ => ?_) (fun _ => .refl s)
  extract_lets p q g b t
  have ht : KeepsOrders s t := .of_same ⟨rfl, rfl, rfl⟩
  exact .ite (fun _ => ht) (fun _ => ht.trans ((enterTripped_keepsOrders _).trans (pulseForMode_keepsOrders _)))

theorem enterActive_keepsOrders : KeepsOrders s (enterActive s) := .of_same (by simp)

theorem enterJoining_keepsOrders : KeepsOrders s (enterJoining s) := .of_same (by simp [enterJoining])

theorem leaveTrip_keepsOrders : KeepsOrders s (leaveTrip s) :=
  .ite (fun _ => KeepsOrders.trans (.gov ..) (enterJoining_keepsOrders _))
    (fun _ => KeepsOrders.trans (.gov ..) (enterActive_keepsOrders _))

end

/-! ## What falls due, and the end of a command (R2, R37, R181, R191) -/

/-- The other roles are not the UNWIND. -/
theorem not_unwind_of_is {s : State} {r : Role} (h : s.is r = true) (hr : r ≠ .unwind) : s.is .unwind = false := by
  have he : s.role = some r := by simpa [State.is] using h
  simp [State.is, he, hr]

/-- Only handoffs, exits and the UNWIND's own events fall due in the UNWIND: it does not read S (R15). -/
theorem not_unwind_of_due {s : State} {d : Due} (h : s.due = some d) (hp : d.part ≠ .exit) (hu : d.part ≠ .unwind) :
    s.is .unwind = false := by
  rcases (due_cases h).2 with h | h | h | ⟨-, h⟩
  · by_contra hn
    simp [State.dueWindow, State.hasMark, hn] at h
  · rcases dueRole_part h with ⟨hi, -⟩ | ⟨hi, -⟩ | ⟨hi, -⟩ <;> exact not_unwind_of_is hi (by decide)
  · exact absurd (dueExit_part h) hp
  · exact absurd (dueUnwind_part h) hu

theorem takeDue_keepsOrders {s : State} {d : Due} (h : s.due = some d) : KeepsOrders s (takeDue d s) := by
  cases d with
  | openWindow | acceptMark | holdClosing | closeWindow | fold | endRun | startRun | shift | boundary =>
    exact .elsewhere (not_unwind_of_due h (by simp [Due.part]) (by simp [Due.part])) (by simp [takeDue])
  | handoff g => exact sendHandoff_keepsOrders s g
  | trailExit g => exact removeSeg_keepsOrders s g.uid
  | birth => exact makeBirth_keepsOrders s
  | prefillDone | stopOld | stopOldLow | recovered | holdBirth | endStall => exact .of_same (by simp [takeDue])

theorem retest_keepsOrders (s : State) : KeepsOrders s (retest s) :=
  .ite (fun hr => .elsewhere (not_unwind_of_is hr (by decide)) (by simp)) (fun _ => .refl s)

theorem settle_keepsOrders (s : State) : KeepsOrders s (settle s) :=
  settle_keeps (KeepsOrders s) (fun t h => h.trans (retest_keepsOrders t)) (fun _ _ h hd => h.trans (takeDue_keepsOrders hd)) s
    (.refl s)

theorem refresh_keepsOrders (s : State) : KeepsOrders s (refresh s) := .of_same (by simp)

theorem conclude_keepsOrders (s : State) : KeepsOrders s (conclude s) := by
  rcases conclude_cases s with ⟨h, -⟩ | ⟨h, -⟩ <;> rw [h]
  · exact refresh_keepsOrders s
  · exact (refresh_keepsOrders s).trans ((enterActive_keepsOrders _).trans
      ((settle_keepsOrders _).trans (refresh_keepsOrders _)))

theorem finish_keepsOrders (s : State) : KeepsOrders s (finish s) := (settle_keepsOrders s).trans (conclude_keepsOrders _)

end Sys2Proof.Machine
end

