-- ==== Sys2Proof/Proofs/OrderCommands.lean ====
section
/-! PROOFS. Each command's own operation but the admission adds no order to the queue and makes no PANEL of a queued id (basis
of O8). -/

namespace Sys2Proof.Machine
open Sys2Proof

section
variable (s : State)

/-! ## Field lines (R1, R15, R64 to R70, R158, R161) -/

theorem countAndTest_keepsOrders (encoder : EncoderName) (forward : Bool) :
    KeepsOrders s (countAndTest encoder forward s) := by
  have ht : KeepsOrders s (countEdge encoder forward s) := by
    cases encoder with
    | encoder1 => exact .of_same ⟨rfl, rfl, rfl⟩
    | encoder2 => exact .ite (fun _ => .of_same ⟨rfl, rfl, rfl⟩) (fun _ => .refl s)
  exact .ite (fun _ => ht.trans (addTrip_keepsOrders ..)) (fun _ => ht)

theorem regLostTest_keepsOrders : KeepsOrders s (regLostTest s) := .ite (fun _ => .of_same (by simp)) (fun _ => .refl s)

theorem takeMark_keepsOrders (high : Bool) : KeepsOrders s (takeMark high s) := by
  refine .ite (fun _ => ?_) (fun _ => .pins ..)
  split <;> exact .of_same ⟨rfl, rfl, rfl⟩

theorem strokeDone_keepsOrders : KeepsOrders s (strokeDone s) := by
  unfold strokeDone
  split
  · exact .refl s
  · refine KeepsOrders.trans ?_ (afterKnife_keepsOrders _)
    exact .ite (fun _ => .pattern ..) (fun _ => .of_same ⟨rfl, rfl, rfl⟩)

theorem strokeStalled_keepsOrders : KeepsOrders s (strokeStalled s) := by
  unfold strokeStalled
  split
  · exact .refl s
  · exact KeepsOrders.trans (.pattern ..) ((markSeg_keepsOrders ..).trans
      ((afterKnife_keepsOrders _).trans (addTrip_keepsOrders ..)))

theorem moveDone_keepsOrders : KeepsOrders s (moveDone s) := by
  unfold moveDone
  split
  · exact .refl s
  · exact KeepsOrders.trans (.pattern ..) (afterKnife_keepsOrders _)

theorem jamTest_keepsOrders : KeepsOrders s (jamTest s) :=
  .ite (fun _ => KeepsOrders.trans (.pattern ..) (addTrip_keepsOrders ..)) (fun _ => .refl s)

theorem limitStroke_keepsOrders (microseconds : Nat) : KeepsOrders s (limitStroke microseconds s) := by
  unfold limitStroke
  split
  · exact .refl s
  · exact .ite (fun _ => .refl s) (fun _ => KeepsOrders.trans (.pattern ..) ((markSeg_keepsOrders ..).trans
      (KeepsOrders.trans (.cond ..) ((raise_keepsOrders ..).trans (jamTest_keepsOrders _)))))

theorem gateDone_keepsOrders : KeepsOrders s (gateDone s) := by
  unfold gateDone
  split
  · exact .ite (fun _ => .of_same ⟨rfl, rfl, rfl⟩) (fun _ => .of_same (by simp))
  all_goals exact .refl s

/-! ## Arms and the timers of a splice (R99 to R121) -/

theorem revolve_keepsOrders (a : ArmName) (active : Bool) : KeepsOrders s (revolve a active s) :=
  .ite (fun _ => .of_same (by simp)) (fun _ => .pins ..)

theorem changeReady_keepsOrders (a : ArmName) (active : Bool) : KeepsOrders s (changeReady a active s) := by
  refine .ite (fun _ => .of_same ?_) (fun _ => .pins ..)
  split <;> simp [armBecomesReady, armLosesReady]

theorem changeEmpty_keepsOrders (a : ArmName) (active : Bool) : KeepsOrders s (changeEmpty a active s) :=
  .ite (fun _ => .of_same (by simp)) (fun _ => .pins ..)

theorem bringIn_keepsOrders : KeepsOrders s (bringIn s) := by
  unfold bringIn
  split
  · split
    · exact .of_same (by simp)
    · exact .of_same (by simp)
    all_goals exact .refl s
  · exact .refl s

theorem pasteDone_keepsOrders : KeepsOrders s (pasteDone s) := by
  have begun (t : State) : KeepsOrders t (beginNewRoll t) := by
    unfold beginNewRoll
    extract_lets r u
    have hu : KeepsOrders t u :=
      KeepsOrders.trans (.roll ..) ((enterSplice_keepsOrders ..).trans (bringIn_keepsOrders _))
    exact .ite (fun _ => hu.trans (.roll ..)) (fun _ => hu)
  exact .ite (fun _ => KeepsOrders.trans (.roll ..) (begun _)) (fun _ => .roll ..)

theorem webPresentExpiry_keepsOrders : KeepsOrders s (webPresentExpiry s) :=
  .ite (fun _ => .ite (fun _ => KeepsOrders.trans (.roll ..) (addTrip_keepsOrders ..)) (fun _ => .roll ..)) (fun _ => .refl s)

/-! ## The scan (R107, R124 to R142) -/

theorem compareFill_keepsOrders : KeepsOrders s (compareFill s) := by
  unfold compareFill
  split
  · exact .refl s
  · rename_i v _
    have ht : KeepsOrders s (raise .accumDrift
        (s.withRoll { s.roll with fillBase := v - signedDiff s.position s.outCount })) :=
      KeepsOrders.trans (.roll ..) (raise_keepsOrders ..)
    exact .ite (fun _ => .ite (fun _ => ht.trans (addTrip_keepsOrders ..)) (fun _ => ht)) (fun _ => .refl s)

theorem scanTests_keepsOrders : KeepsOrders s (scanTests s) := by
  have judged : KeepsOrders s (judgeFaults s) := .of_same (by simp)
  unfold scanTests
  dsimp only
  split
  · exact judged.trans (.of_same (by simp))
  · exact judged.trans (compareFill_keepsOrders _)
  all_goals exact judged

theorem readyHeatTest_keepsOrders : KeepsOrders s (readyHeatTest s) := .ite (fun _ => .of_same (by simp)) (fun _ => .refl s)
theorem cutTest_keepsOrders (z : Nat) : KeepsOrders s (cutTest z s) := .ite (fun _ => .of_same (by simp)) (fun _ => .refl s)
theorem heatBoundary_keepsOrders : KeepsOrders s (heatBoundary s) := .ite (fun _ => .of_same (by simp)) (fun _ => .refl s)
theorem parkExpiry_keepsOrders : KeepsOrders s (parkExpiry s) := .ite (fun _ => .of_same (by simp)) (fun _ => .refl s)

/-! ## The ramp, the peers and the station's timers (R25, R29, R30, R38, R41, R44, R190) -/

theorem tickTimers_keepsOrders : KeepsOrders s (tickTimers s) := .of_same ⟨rfl, rfl, rfl⟩

theorem followPeerLate_keepsOrders : KeepsOrders s (followPeerLate s) := follow_keepsOrders ..

theorem rampStep_keepsOrders : KeepsOrders s (rampStep s) := by
  have gov (t : State) : KeepsOrders t (rampGov t) :=
    KeepsOrders.trans (.gov ..) (.ite (fun _ => KeepsOrders.trans (.gov ..) (clearDrive_keepsOrders _)) (fun _ => .refl _))
  have peers (t : State) : KeepsOrders t (agePeers t) := by
    have ht := KeepsOrders.trans (.peers t (t.peers.map PeerEntry.aged)) (followPeerLate_keepsOrders _)
    exact .ite (fun _ => ht.trans (raise_keepsOrders ..)) (fun _ => ht)
  have unwind (t : State) : KeepsOrders t (rampUnwind t) := .ite (fun _ => .of_same (by simp)) (fun _ => .refl t)
  exact (gov s).trans ((peers _).trans (unwind _))

theorem lateTest_keepsOrders (address : Nat) : KeepsOrders s (lateTest address s) :=
  .ite (fun _ => KeepsOrders.trans (.peers ..) (followPeerLate_keepsOrders _)) (fun _ => .refl s)

theorem lostTest_keepsOrders (address : Nat) : KeepsOrders s (lostTest address s) :=
  .ite (fun _ => KeepsOrders.trans (.peers ..) ((followPeerLate_keepsOrders _).trans (raise_keepsOrders ..))) (fun _ => .refl s)

theorem joinExpiry_keepsOrders : KeepsOrders s (joinExpiry s) :=
  .ite (fun _ => .ite (fun _ => (raise_keepsOrders ..).trans (.joinTimer ..)) (fun _ => .joinTimer ..)) (fun _ => .refl s)

theorem tripExpiry_keepsOrders : KeepsOrders s (tripExpiry s) :=
  .ite (fun _ => KeepsOrders.trans (.gov ..) (clearDrive_keepsOrders _)) (fun _ => .refl s)

theorem setEstop_keepsOrders (active : Bool) : KeepsOrders s (setEstop active s) :=
  .ite (fun _ => KeepsOrders.trans (.pins ..) (addTrip_keepsOrders ..)) (fun _ => .pins ..)

/-! ## The bus unit (R200 to R213) -/

theorem receiveFrame_keepsOrders (bits : List Bool) : KeepsOrders s (receiveFrame bits s) := by
  have counted (x : CondUnit) (c : Cond) : KeepsOrders s (raise c (s.withCond x)) :=
    KeepsOrders.trans (.cond ..) (raise_keepsOrders ..)
  unfold receiveFrame
  split
  · exact .cond ..
  · refine .ite (fun _ => .ite (fun _ => .refl s) (fun _ => ?_)) (fun _ => .ite (fun _ => counted ..)
      (fun _ => .ite (fun _ => .bus ..) (fun _ => ?_)))
    · exact KeepsOrders.trans (.bus ..) ((raise_keepsOrders ..).trans (addTrip_keepsOrders ..))
    · exact .ite (fun _ => .ite (fun _ => .bus ..) (fun _ => counted ..)) (fun _ => .refl s)

theorem beginTransmission_keepsOrders : KeepsOrders s (beginTransmission s) := by
  unfold beginTransmission
  refine .ite (fun _ => ?_) (fun _ => .refl s)
  split
  · exact .refl s
  · exact setTx_keepsOrders ..

theorem completeTransmission_keepsOrders : KeepsOrders s (completeTransmission s) := by
  have noted (e : TxEntry) (u : State) : KeepsOrders u (noteSent e u) := .ite (fun _ => .of_same (by simp)) (fun _ => .refl u)
  have offered (u : State) : KeepsOrders u (offerPending u) := .of_same (by simp)
  unfold completeTransmission
  split
  · exact .refl s
  · exact (setTx_keepsOrders ..).trans (KeepsOrders.trans (.bus ..) ((noted ..).trans (offered _)))

theorem busOffTest_keepsOrders : KeepsOrders s (busOffTest s) :=
  .ite (fun _ => KeepsOrders.trans (.bus ..) ((raise_keepsOrders ..).trans (setHold_keepsOrders ..))) (fun _ => .refl s)

theorem faultSender_keepsOrders : KeepsOrders s (faultSender s) :=
  .ite (fun _ => (setTx_keepsOrders ..).trans (KeepsOrders.trans (.bus ..)
    ((raise_keepsOrders ..).trans (busOffTest_keepsOrders _)))) (fun _ => .refl s)

theorem recoverBus_keepsOrders : KeepsOrders s (recoverBus s) :=
  .ite (fun _ => KeepsOrders.trans (.bus ..) ((fall_keepsOrders ..).trans (clearHold_keepsOrders ..))) (fun _ => .refl s)

/-! ## Telegrams (R11 to R14, R20, R21, R28, R32, R34, R46, R52 to R60, R97, R127, R179, R192, R193) -/

theorem takeAs_keepsOrders (k : Kind) (f : RxEntry → State → State) (hf : ∀ e t, KeepsOrders t (f e t)) :
    KeepsOrders s (takeAs k f s) := by
  unfold takeAs
  split
  · rename_i e t h
    obtain ⟨rest, -, -, rfl⟩ := takeEntry_eq_some h
    exact KeepsOrders.trans (.bus ..) (hf e _)
  · exact .refl s

end

section
variable (e : RxEntry) (s : State)

theorem takeTripClear_keepsOrders : KeepsOrders s (takeTripClear e s) :=
  .ite (fun _ => leaveTrip_keepsOrders s) (fun _ => .refl s)

theorem takeSpeedSet_keepsOrders : KeepsOrders s (takeSpeedSet e s) := .ite (fun _ => .gov ..) (fun _ => .refl s)

theorem takeLinePulse_keepsOrders : KeepsOrders s (takeLinePulse e s) := by
  refine .ite (fun _ => ?_) (fun _ => .refl s)
  split
  · exact KeepsOrders.trans (.peers ..) (followPeerLate_keepsOrders _)
  · exact .refl s

/-- A HANDOFF places a segment outside the UNWIND alone (R11). -/
theorem takeHandoff_keepsOrders : KeepsOrders s (takeHandoff e s) := by
  refine .ite (fun h => .elsewhere h.2 ?_) (fun _ => .refl s)
  unfold admitHandoff checkSequence
  dsimp only
  repeat' split
  all_goals simp

theorem takeCancel_keepsOrders : KeepsOrders s (takeCancel e s) := by
  have cancelled (id : Word) (t : State) : KeepsOrders t (cancelOrder id t) :=
    .ite (fun _ => KeepsOrders.trans (.order t _ (by exact List.filter_sublist)) (reviewWait_keepsOrders _)) (fun _ => .refl t)
  exact (cancelPanel_keepsOrders ..).trans (.ite (fun _ => cancelled ..) (fun _ => .refl _))

theorem takeConditionAck_keepsOrders : KeepsOrders s (takeConditionAck e s) := by
  have zone (z : Nat) (u : State) : KeepsOrders u (ackZone z u) := by
    unfold ackZone
    extract_lets x t
    have ht : KeepsOrders u t := .ite (fun _ => .of_same (by simp)) (fun _ => .refl u)
    exact .ite (fun _ => .ite (fun _ => ht.trans (.of_same (by simp))) (fun _ => ht.trans (fall_keepsOrders ..)))
      (fun _ => ht)
  have latched (c : Cond) : KeepsOrders s (ackLatched c s) := by
    cases c with
    | regLost =>
      have cleared : KeepsOrders s (s.withWeb { s.web with missCount := 0 }) := .of_same ⟨rfl, rfl, rfl⟩
      exact cleared.trans ((fall_keepsOrders ..).trans (clearHold_keepsOrders ..))
    | mapFull => exact (fall_keepsOrders ..).trans (clearHold_keepsOrders ..)
    | dupAddress => exact .ite (fun _ => .of_same (by simp)) (fun _ => fall_keepsOrders ..)
    | _ => exact fall_keepsOrders ..
  unfold takeConditionAck
  refine .ite (fun _ => .ite (fun _ => .foldl _ (fun t z => zone z t) _ s) (fun _ => .refl s)) (fun _ => ?_)
  split
  · exact latched _
  · exact .refl s

theorem takePanelOrder_keepsOrders : KeepsOrders s (takePanelOrder e s) :=
  .ite (fun _ => .of_same (by simp)) (fun _ => .refl s)

theorem takeRecipe_keepsOrders : KeepsOrders s (takeRecipe e s) :=
  .ite (fun _ => .of_same ⟨rfl, rfl, rfl⟩) (fun _ => .refl s)

theorem takePatternFragment_keepsOrders : KeepsOrders s (takePatternFragment e s) := by
  obtain ⟨x, hx⟩ := takePatternFragment_eq e s
  exact hx ▸ .pattern s x

theorem takeRollData_keepsOrders : KeepsOrders s (takeRollData e s) := by
  refine .ite (fun _ => .of_same ?_) (fun _ => .refl s)
  have status (n : Nat) (r : RollResult) (u : State) : (setRollStatus n r u).loader.image = u.loader.image ∧
      (setRollStatus n r u).web.map = u.web.map ∧ (setRollStatus n r u).order.queue = u.order.queue := by
    cases r <;> simp [setRollStatus]
  unfold describeRoll loadRoll loadPlain
  dsimp only
  repeat' split
  all_goals simp [status]

theorem enterStandby_keepsOrders : KeepsOrders s (enterStandby s) := .of_same (by simp)

theorem takeStandby_keepsOrders : KeepsOrders s (takeStandby e s) :=
  .ite (fun _ => enterStandby_keepsOrders s) (fun _ => .refl s)

theorem takeWake_keepsOrders : KeepsOrders s (takeWake e s) :=
  .ite (fun _ => enterActive_keepsOrders s) (fun _ => .refl s)

end

end Sys2Proof.Machine
end

