-- ==== Sys2Proof/Proofs/OrdersKept.lean ====
section
/-! PROOFS. The admission of an order (R80), and O8: every step keeps the queued panel ids distinct and unborn. -/

namespace Sys2Proof.Machine
open Sys2Proof

/-! ## The tests of an admission (R80) -/

/-- An order of a panel id waits in the queue. -/
def State.queued (s : State) (id : Word) : Prop := ∃ o ∈ s.order.queue, o.panelId = id

/-- Why an order is refused: each test applies where those before it do not (R80). -/
theorem refusalOf_eq_some_iff {s : State} {m : Measured} {r : RefusalReason} : s.refusalOf m = some r ↔
    r = .field ∧ ¬ m.inRange = true ∨ r = .duplicate ∧ m.inRange = true ∧ s.queued m.panelId ∨
    r = .born ∧ m.inRange = true ∧ ¬ s.queued m.panelId ∧ s.bears m.panelId ∨
    r = .cancelled ∧ m.inRange = true ∧ ¬ s.queued m.panelId ∧ ¬ s.bears m.panelId ∧ m.panelId ∈ s.web.cancelList ∨
    r = .full ∧ m.inRange = true ∧ ¬ s.queued m.panelId ∧ ¬ s.bears m.panelId ∧ m.panelId ∉ s.web.cancelList ∧
      32 ≤ s.order.queue.length := by
  have queued : s.order.queue.any (fun o => o.panelId == m.panelId) = true ↔ s.queued m.panelId := by simp [State.queued]
  have born : s.web.map.any (fun g => g.kind == .panel && g.panelId == some m.panelId) = true ↔ s.bears m.panelId := by
    simp [State.bears]
  unfold State.refusalOf
  by_cases hr : m.inRange = true
  · rw [if_neg (by simp [hr])]
    by_cases hq : s.queued m.panelId
    · simp [queued.2 hq, hr, hq, eq_comm]
    · rw [if_neg (queued.not.2 hq)]
      by_cases hb : s.bears m.panelId
      · simp [born.2 hb, hr, hq, hb, eq_comm]
      · rw [if_neg (born.not.2 hb)]
        by_cases hc : m.panelId ∈ s.web.cancelList
        · simp [hr, hq, hb, hc, eq_comm]
        · simpa [hr, hq, hb, hc, eq_comm] using and_comm
  · simp [hr, eq_comm]

/-- An order is admitted where none of the tests applies (R80). -/
theorem refusalOf_eq_none_iff {s : State} {m : Measured} : s.refusalOf m = none ↔
    m.inRange = true ∧ ¬ s.queued m.panelId ∧ ¬ s.bears m.panelId ∧ m.panelId ∉ s.web.cancelList ∧
      s.order.queue.length < 32 := by
  simp only [Option.eq_none_iff_forall_ne_some, ne_eq, refusalOf_eq_some_iff, ← Nat.not_le (a := 32)]
  constructor
  · intro h
    have field := h .field
    have duplicate := h .duplicate
    have born := h .born
    have cancelled := h .cancelled
    have full := h .full
    simp only [reduceCtorEq, false_and, true_and, or_false, false_or] at field duplicate born cancelled full
    tauto
  · rintro ⟨hr, hq, hb, hc, hl⟩ r
    tauto

/-- The order a measure becomes in the queue (R80). -/
def Measured.order (m : Measured) : Order :=
  { panelId := m.panelId, pattern := m.pattern, recipe := m.recipe, lot := m.lot, flat := m.flat }

theorem admitOrder_refused {s : State} {m : Measured} {r : RefusalReason} (h : s.refusalOf m = some r) :
    admitOrder m s = raise .orderRefused (s.withOrder { s.order with refusal := some (m.panelId, r) }) := by
  unfold admitOrder
  split
  · cases h.symm.trans ‹_›
    rfl
  · cases h.symm.trans ‹_›

theorem admitOrder_admitted {s : State} {m : Measured} (h : s.refusalOf m = none) :
    admitOrder m s = reviewWait (s.withOrder { s.order with queue := s.order.queue ++ [m.order] }) := by
  unfold admitOrder
  split
  · cases h.symm.trans ‹_›
  · rfl

/-! ## The invariant under the admission (R78, R80) -/

/-- Without orders the invariant asks nothing. -/
theorem OrderSafe.of_nil {s : State} (h : s.order.queue = []) : OrderSafe s where
  place := fun hq => absurd h hq
  once := by simp [h]
  unborn := by simp [h]

/-- An order of an id that neither waits nor is borne joins the queue. -/
theorem OrderSafe.append {s : State} (hs : OrderSafe s) (ho : s.operating = true) (hu : s.is .unwind = true) {o : Order}
    (hq : ¬ s.queued o.panelId) (hb : ¬ s.bears o.panelId) :
    OrderSafe (s.withOrder { s.order with queue := s.order.queue ++ [o] }) where
  place := fun _ => ⟨ho, hu⟩
  once := by
    have hnew : o.panelId ∉ s.order.queue.map Order.panelId := by simpa [State.queued] using hq
    simpa [List.nodup_append, hs.once] using hnew
  unborn := (unborn_iff _).1 fun x hx => by
    rcases List.mem_append.1 hx with hold | hnew
    · exact (unborn_iff s).2 hs.unborn x hold
    · exact List.mem_singleton.1 hnew ▸ hb

theorem admitOrder_orderSafe {s : State} (hs : OrderSafe s) (ho : s.operating = true) (hu : s.is .unwind = true)
    (m : Measured) : OrderSafe (admitOrder m s) := by
  cases h : s.refusalOf m with
  | some r =>
    rw [admitOrder_refused h]
    have noted : OrderSafe (s.withOrder { s.order with refusal := some (m.panelId, r) }) := { hs with }
    exact (raise_keepsOrders ..).orderSafe (raise_settles ..).operating noted
  | none =>
    obtain ⟨-, hq, hb, -, -⟩ := refusalOf_eq_none_iff.1 h
    rw [admitOrder_admitted h]
    exact (reviewWait_keepsOrders _).orderSafe (reviewWait_settles _).operating (hs.append (o := m.order) ho hu hq hb)

theorem takeOrderMeasure_orderSafe {s : State} (hs : OrderSafe s) (ho : s.operating = true) (e : RxEntry) :
    OrderSafe (takeOrderMeasure e s) := by
  unfold takeOrderMeasure
  split
  · exact admitOrder_orderSafe hs ho (‹_ ∧ _›.1) _
  · exact hs

theorem exec_orderMeasure_orderSafe {s t : State} (hs : OrderSafe s) (ho : s.operating = true)
    (h : exec .orderMeasure s = .next t) : OrderSafe t := by
  have taken : OrderSafe (takeAs .orderMeasure takeOrderMeasure s) := by
    unfold takeAs
    split
    · rename_i e u hu
      obtain ⟨rest, -, -, rfl⟩ := takeEntry_eq_some hu
      exact takeOrderMeasure_orderSafe (s := s.freed rest) { hs with } ho e
    · exact hs
  obtain rfl := Host.Outcome.next.inj h
  rw [if_pos ho]
  exact (conclude_keepsOrders _).orderSafe (conclude_settles _).operating taken

/-! ## Every other command of the operating modes -/

theorem operate_keepsOrders {f : State → State} {s t : State} (hf : KeepsOrders s (f s)) (h : operate f s = .next t) :
    KeepsOrders s t := by
  cases h
  exact .ite (fun _ => hf.trans (conclude_keepsOrders _)) (fun _ => .refl s)

theorem operateWeb_keepsOrders {f : State → State} {s t : State} (hf : KeepsOrders s (f s))
    (h : operateWeb f s = .next t) : KeepsOrders s t := by
  cases h
  exact .ite (fun _ => hf.trans (finish_keepsOrders _)) (fun _ => .refl s)

/-- A command that brings the level of an input: it is noted in every mode and acted on in the operating modes. -/
theorem level_keepsOrders {s u : State} {x : Pins} {t : State} (hu : KeepsOrders s u)
    (h : (.next (if s.operating then finish u else s.withPins x) : Answer) = .next t) : KeepsOrders s t := by
  cases h
  exact .ite (fun _ => hu.trans (finish_keepsOrders _)) (fun _ => .pins ..)

/-- A command of the transmitter, which outside the operating modes drops the telegram sent (R195). -/
theorem sent_keepsOrders {s u t : State} (hu : KeepsOrders s u)
    (h : (.next (if s.operating then conclude u else dropSent s) : Answer) = .next t) : KeepsOrders s t := by
  cases h
  exact .ite (fun _ => hu.trans (conclude_keepsOrders _)) (fun _ => setTx_keepsOrders ..)

/-- Every command of the operating modes but the admission and those that end operation keeps the orders. -/
theorem exec_keepsOrders {c : Instr} {s t : State} (hc : endsOperation c = false) (hm : c ≠ .orderMeasure)
    (ho : s.operating = true) (h : exec c s = .next t) : KeepsOrders s t := by
  have mode : s.mode ≠ .powerUp ∧ s.mode ≠ .configuring ∧ s.mode ≠ .configFault := by
    refine ⟨?_, ?_, ?_⟩ <;> intro hmode <;> simp [State.operating, hmode, operatingMode] at ho
  cases c with
  | powerOnReset | restart => cases hc
  | orderMeasure => exact absurd rfl hm
  | powerOnResetRelease =>
    cases h
    rw [if_neg mode.1]
    exact .refl s
  | configurationReadComplete answer =>
    replace h : execConfigurationReadComplete answer s = .next t := h
    simp only [execConfigurationReadComplete, mode.2.1, false_and, if_false] at h
    split at h <;> cases h
    exact .refl s
  | sensorScanComplete samples =>
    replace h : execSensorScanComplete samples s = .next t := h
    simp only [execSensorScanComplete, mode.2.1, false_and, if_false, ho, if_true] at h
    split at h
    · obtain rfl := Host.Outcome.next.inj h
      have sampled : KeepsOrders s (takeSamples samples s) := .of_same (by simp)
      exact sampled.trans ((scanTests_keepsOrders _).trans (finish_keepsOrders _))
    · cases h
  | sensorFault | sensorFaultClear => exact operate_keepsOrders (.of_same (by simp)) h
  | readyHeatEntry => exact operate_keepsOrders (readyHeatTest_keepsOrders s) h
  | zoneCut zone => exact operate_keepsOrders (cutTest_keepsOrders ..) h
  | heatControlBoundary => exact operate_keepsOrders (heatBoundary_keepsOrders s) h
  | parkTimerExpiry => exact operate_keepsOrders (parkExpiry_keepsOrders s) h
  | rampUpdate w p d =>
    cases h
    have ht : KeepsOrders s (tickTimers (samplePins w p d s)) := KeepsOrders.trans (.pins ..) (tickTimers_keepsOrders _)
    exact .ite (fun _ => ht.trans ((rampStep_keepsOrders _).trans (finish_keepsOrders _))) (fun _ => ht)
  | peerEntryLate address =>
    replace h : execPeerEntryLate address s = .next t := h
    unfold execPeerEntryLate at h
    split at h
    · exact operateWeb_keepsOrders (lateTest_keepsOrders ..) h
    · cases h
  | peerEntryLost address =>
    replace h : execPeerEntryLost address s = .next t := h
    unfold execPeerEntryLost at h
    split at h
    · exact operateWeb_keepsOrders (lostTest_keepsOrders ..) h
    · cases h
  | pulseTimerExpiry => exact operate_keepsOrders (.ite (fun _ => pulseForMode_keepsOrders s) (fun _ => .refl s)) h
  | joinTimerExpiry => exact operate_keepsOrders (joinExpiry_keepsOrders s) h
  | tripTimerExpiry => exact operate_keepsOrders (tripExpiry_keepsOrders s) h
  | estopInput active => exact level_keepsOrders (setEstop_keepsOrders ..) h
  | encoderEdge encoder forward => exact operateWeb_keepsOrders (countAndTest_keepsOrders ..) h
  | regLost => exact operate_keepsOrders (regLostTest_keepsOrders s) h
  | markInput high => exact level_keepsOrders (takeMark_keepsOrders ..) h
  | strokeComplete => exact operate_keepsOrders (strokeDone_keepsOrders s) h
  | stallTimerExpiry => exact operateWeb_keepsOrders (strokeStalled_keepsOrders s) h
  | moveTimerExpiry => exact operate_keepsOrders (moveDone_keepsOrders s) h
  | currentLimitDetection microseconds => exact operateWeb_keepsOrders (limitStroke_keepsOrders ..) h
  | knifeJam => exact operateWeb_keepsOrders (jamTest_keepsOrders s) h
  | cutTimerExpiry => exact operate_keepsOrders (.of_same ⟨rfl, rfl, rfl⟩) h
  | gateTimerExpiry p d => exact KeepsOrders.trans (.pins ..) (operate_keepsOrders (gateDone_keepsOrders _) h)
  | revolutionPulse arm active => exact level_keepsOrders (revolve_keepsOrders ..) h
  | armReadyChange arm active => exact level_keepsOrders (changeReady_keepsOrders ..) h
  | armEmpty arm active => exact level_keepsOrders (changeEmpty_keepsOrders ..) h
  | pasteTimerExpiry =>
    cases h
    exact .ite
      (fun _ => .ite (fun _ => (pasteDone_keepsOrders s).trans (finish_keepsOrders _)) (fun _ => .roll ..))
      (fun _ => .refl s)
  | webPresentTimerExpiry => exact operateWeb_keepsOrders (webPresentExpiry_keepsOrders s) h
  | frameReceived bits =>
    have hf : execFrameReceived bits s = .next (finish (receiveFrame bits s)) := by
      unfold execFrameReceived
      split <;> simp_all
    cases hf.symm.trans h
    exact (receiveFrame_keepsOrders ..).trans (finish_keepsOrders _)
  | tripLatchTaken => exact operateWeb_keepsOrders (takeLatch_keepsOrders s) h
  | transmissionBegin => exact operate_keepsOrders (beginTransmission_keepsOrders s) h
  | transmissionComplete => exact sent_keepsOrders (completeTransmission_keepsOrders s) h
  | arbitrationLost => exact sent_keepsOrders (setTx_keepsOrders ..) h
  | senderFault => exact sent_keepsOrders (faultSender_keepsOrders s) h
  | busOff => exact operate_keepsOrders (busOffTest_keepsOrders s) h
  | recoveryTimerExpiry => exact operate_keepsOrders (recoverBus_keepsOrders s) h
  | tripClear => exact operateWeb_keepsOrders (takeAs_keepsOrders _ _ _ takeTripClear_keepsOrders) h
  | hold => exact operate_keepsOrders (takeAs_keepsOrders _ _ _ fun _ t => setHold_keepsOrders t _) h
  | release => exact operate_keepsOrders (takeAs_keepsOrders _ _ _ fun _ t => clearHold_keepsOrders t _) h
  | handoff => exact operateWeb_keepsOrders (takeAs_keepsOrders _ _ _ takeHandoff_keepsOrders) h
  | speedSet => exact operate_keepsOrders (takeAs_keepsOrders _ _ _ takeSpeedSet_keepsOrders) h
  | linePulse => exact operateWeb_keepsOrders (takeAs_keepsOrders _ _ _ takeLinePulse_keepsOrders) h
  | doseVerdict => exact operateWeb_keepsOrders (takeAs_keepsOrders _ _ _ fun _ t => mergeVerdict_keepsOrders t ..) h
  | cancel => exact operateWeb_keepsOrders (takeAs_keepsOrders _ _ _ takeCancel_keepsOrders) h
  | conditionAck => exact operate_keepsOrders (takeAs_keepsOrders _ _ _ takeConditionAck_keepsOrders) h
  | panelOrder => exact operate_keepsOrders (takeAs_keepsOrders _ _ _ takePanelOrder_keepsOrders) h
  | patternFragment => exact operate_keepsOrders (takeAs_keepsOrders _ _ _ takePatternFragment_keepsOrders) h
  | recipe => exact operate_keepsOrders (takeAs_keepsOrders _ _ _ takeRecipe_keepsOrders) h
  | rollData => exact operateWeb_keepsOrders (takeAs_keepsOrders _ _ _ takeRollData_keepsOrders) h
  | standby => exact operateWeb_keepsOrders (takeAs_keepsOrders _ _ _ takeStandby_keepsOrders) h
  | wake => exact operateWeb_keepsOrders (takeAs_keepsOrders _ _ _ takeWake_keepsOrders) h
  | faultLampFlash =>
    cases h
    rw [if_neg mode.2.2]
    exact .refl s

/-! ## The starts and the other modes (R94, R183, R195) -/

/-- A start leaves no order (R94). -/
theorem Starts.queue_nil {s t : State} (h : Starts s t) : t.order.queue = [] := by
  cases h with
  | reset => rfl
  | restart => rfl
  | firstScan samples =>
    have started (a : State) : KeepsOrders (startUnits a) (finish (startedLine a)) :=
      (enterJoining_keepsOrders _).trans
        (KeepsOrders.trans (.ite (fun _ => addTrip_keepsOrders ..) (fun _ => .refl _)) (finish_keepsOrders _))
    have empty (a : State) : (startUnits a).order.queue = [] := by rw [(startUnits_start a).2.1.order]; rfl
    exact List.eq_nil_of_sublist_nil (empty _ ▸ (started _).queue)

/-- Outside the operating modes a command leaves the order unit or begins a start. -/
theorem exec_idle_order {c : Instr} {s t : State} (ho : s.operating = false) (h : exec c s = .next t) :
    t.order = s.order ∨ Starts s t := by
  have idle {u v : State} (h : (.next (if s.operating then u else v) : Answer) = .next t) (hv : v.order = s.order) :
      t.order = s.order ∨ Starts s t := by
    obtain rfl := Host.Outcome.next.inj h
    rw [if_neg (by simp [ho])]
    exact .inl hv
  cases c with
  | powerOnReset =>
    cases h
    exact .inr (.reset ..)
  | powerOnResetRelease =>
    obtain rfl := Host.Outcome.next.inj h
    exact .inl (by split <;> rfl)
  | configurationReadComplete answer =>
    replace h : execConfigurationReadComplete answer s = .next t := h
    unfold execConfigurationReadComplete at h
    split at h
    · obtain rfl := Host.Outcome.next.inj h
      refine .inl ?_
      split
      · unfold takeRecord
        split <;> rfl
      · rfl
    · cases h
  | sensorScanComplete samples =>
    replace h : execSensorScanComplete samples s = .next t := h
    unfold execSensorScanComplete at h
    split at h
    · obtain rfl := Host.Outcome.next.inj h
      split
      · exact .inr (.firstScan samples ‹_ ∧ _›.2)
      · exact .inl (by simp [ho])
    · cases h
  | peerEntryLate address =>
    replace h : execPeerEntryLate address s = .next t := h
    unfold execPeerEntryLate at h
    split at h
    · exact idle h rfl
    · cases h
  | peerEntryLost address =>
    replace h : execPeerEntryLost address s = .next t := h
    unfold execPeerEntryLost at h
    split at h
    · exact idle h rfl
    · cases h
  | pasteTimerExpiry =>
    obtain rfl := Host.Outcome.next.inj h
    rw [if_neg (show ¬ s.operating = true by simp [ho])]
    exact .inl (by split <;> rfl)
  | frameReceived bits =>
    rcases execFrameReceived_idle ho h with rfl | rfl
    · exact .inl rfl
    · exact .inr (.restart (.refl s))
  | faultLampFlash =>
    obtain rfl := Host.Outcome.next.inj h
    refine .inl ?_
    unfold flashLamp
    split
    · split <;> rfl
    · rfl
  | _ => exact idle h rfl

/-! ## The step (log entry 1) -/

theorem exec_orderSafe {c : Instr} {s t : State} (hs : OrderSafe s) (h : exec c s = .next t) : OrderSafe t := by
  cases ho : s.operating with
  | false =>
    have empty : s.order.queue = [] := by
      by_contra hq
      exact not_other (hs.place hq).1 ho
    rcases exec_idle_order ho h with hi | hb
    · exact .of_nil (hi ▸ empty)
    · exact .of_nil hb.queue_nil
  | true =>
    cases hc : endsOperation c with
    | false =>
      by_cases hm : c = .orderMeasure
      · exact exec_orderMeasure_orderSafe hs ho (hm ▸ h)
      · exact (exec_keepsOrders hc hm ho h).orderSafe (exec_keeps hc ho h).operating hs
    | true =>
      cases c with
      | powerOnReset =>
        cases h
        exact .of_nil rfl
      | restart =>
        rcases execRestart_cases ho h with ⟨e, rest, hrx, -, ⟨-, rfl⟩ | ⟨-, rfl⟩⟩ | rfl
        · exact .of_nil rfl
        · exact (KeepsOrders.trans (.bus ..) (conclude_keepsOrders _)).orderSafe
            ((freed_settles hrx).toKeeps.trans (conclude_settles _).toKeeps).operating hs
        · exact hs
      | _ => cases hc

/-- Settles O8: every operation keeps the orders (`KeepsOrders`) but the admission, whose tests ask for an id neither queued nor
borne; the starts leave no order. -/
theorem orderInvariantKept : Obligations.OrderInvariantKept := by
  intro s t hs h
  rcases step_cases h with rfl | ⟨c, rest, hc⟩
  · exact hs
  · exact exec_orderSafe (s := s.withPending rest) { hs with } hc

end Sys2Proof.Machine
end

