-- ==== Sys2Proof/Proofs/OrderMeasureTaken.lean ====
section
/-! PROOFS. O40: an ORDER MEASURE is refused by the first test that applies, or admitted. -/

namespace Sys2Proof.Machine
open Sys2Proof

/-! ## The measure taken (R79, R80) -/

theorem Measured.inRange_iff (m : Measured) : m.inRange = true ↔
    (1 ≤ m.pattern ∧ m.pattern ≤ 32) ∧ (1 ≤ m.repeats ∧ m.repeats ≤ 99) ∧ (1 ≤ m.recipe ∧ m.recipe ≤ 16) ∧
      (1000 ≤ m.flat ∧ m.flat ≤ 200000) ∧ (1000 ≤ m.pleated ∧ m.pleated ≤ m.flat) ∧ m.strokes ≠ 0 := by
  simp [Measured.inRange, and_assoc]

theorem takeOrderMeasure_ok {e : RxEntry} {s : State} (hu : s.is .unwind = true) (h : fieldAt e.body 9 1 = 0) :
    takeOrderMeasure e s = admitOrder (readMeasured e.body) s := if_pos ⟨hu, h⟩

theorem takeOrderMeasure_notOk {e : RxEntry} {s : State} (h : fieldAt e.body 9 1 ≠ 0) : takeOrderMeasure e s = s :=
  if_neg fun hc => h hc.2

theorem takeOrderMeasure_frame (e : RxEntry) (s : State) : (takeOrderMeasure e s).loader = s.loader ∧
    (takeOrderMeasure e s).peers = s.peers ∧ (takeOrderMeasure e s).web = s.web ∧
    (takeOrderMeasure e s).bus.rx = s.bus.rx := by
  unfold takeOrderMeasure
  split <;> simp

/-- In the UNWIND the end of a command leaves orders and conditions: they follow no figure made again there (R154). -/
theorem FiguresOnly.unwind {u t : State} (h : FiguresOnly u t) (hu : u.is .unwind = true) :
    t.order = u.order ∧ t.cond = u.cond := by
  have hs : u.is .setter = false := by
    have he : u.role = some .unwind := by simpa [State.is] using hu
    simp [State.is, he]
  exact ⟨h.order, (h.others hs).2.1⟩

/-! ## The obligation -/

/-- Settles O40: `refusalOf_eq_some_iff` and `refusalOf_eq_none_iff` say which test applies; the end of the command leaves the
order unit and the conditions. -/
theorem orderMeasured : Obligations.OrderMeasured := by
  intro s e rest ho hsteady hu hrx hk id inRange queued born
  obtain ⟨hl, hp, hweb, hbus⟩ := takeOrderMeasure_frame e (s.freed rest)
  have hend : FiguresOnly (takeOrderMeasure e (s.freed rest)) (conclude (takeOrderMeasure e (s.freed rest))) :=
    conclude_steady_figures (s := s) hl hp hsteady
  obtain ⟨horder, hcond⟩ := hend.unwind ((is_of_image (congrArg Loader.image hl) .unwind).trans hu)
  have hrange : (readMeasured e.body).inRange = true ↔ inRange := (readMeasured e.body).inRange_iff
  have hrest : (conclude (takeOrderMeasure e (s.freed rest))).bus.rx = rest := (by simp : (conclude _).bus.rx = _).trans hbus
  refine ⟨_, operate_takeAs takeOrderMeasure ho hrx hk, hrest, hend.web.trans hweb, fun hstatus => ?_,
    fun hok => ⟨fun reason hreason => ?_, fun hr hq hb hc hlen => ?_⟩⟩
  · rwa [takeOrderMeasure_notOk hstatus] at hend ⊢
  · have hrefused : (s.freed rest).refusalOf (readMeasured e.body) = some reason := by
      rw [refusalOf_eq_some_iff, hrange]
      exact hreason
    rw [horder, hcond, takeOrderMeasure_ok (s := s.freed rest) hu hok, admitOrder_refused hrefused]
    exact ⟨by simp [State.freed, readMeasured, id], raise_sets ..⟩
  · have hadmitted : (s.freed rest).refusalOf (readMeasured e.body) = none :=
      refusalOf_eq_none_iff.2 ⟨hrange.2 hr, hq, hb, hc, hlen⟩
    rw [horder, takeOrderMeasure_ok (s := s.freed rest) hu hok, admitOrder_admitted hadmitted]
    simp [State.freed, Measured.order, readMeasured, id]

end Sys2Proof.Machine
end

