-- ==== Sys2Proof/Proofs/ArmInputs.lean ====
section
/-! PROOFS. O44: the arm-ready and arm-empty inputs, the start test of a splice, and its abort by the loss of an arm. -/

namespace Sys2Proof.Machine
open Sys2Proof

/-! ## The arms (R96) -/

theorem setArm_same (a : ArmName) (x : Arm) (s : State) : (setArm a x s).arm a = x := by cases a <;> rfl

theorem setArm_other (a : ArmName) (x : Arm) (s : State) : (setArm a x s).arm (otherArm a) = s.arm (otherArm a) := by
  cases a <;> rfl

theorem arm_congr {s t : State} (h : t.roll.arm1 = s.roll.arm1 ∧ t.roll.arm2 = s.roll.arm2) (a : ArmName) :
    t.arm a = s.arm a := by
  cases a
  · exact h.1
  · exact h.2

theorem rollConditions_setArm (a : ArmName) (x : Arm) (s : State) : (rollConditions (setArm a x s)).arm a = x :=
  (arm_congr (s := setArm a x s) (by simp) a).trans (setArm_same ..)

/-- The arm that is ACTIVE is in the state of that name. -/
theorem state_of_activeArm {s : State} {a : ArmName} (h : s.activeArm = some a) : (s.arm a).state = .active := by
  unfold State.activeArm at h
  repeat' split at h
  all_goals cases h
  all_goals assumption

/-- Of the two arms one is the named one. -/
theorem eq_or_eq_otherArm (a b : ArmName) : b = a ∨ otherArm b = a := by cases a <;> cases b <;> simp [otherArm]

/-! ## The start test (R114) -/

theorem spliceTest_starts {s : State} {a : ArmName} {r : Roll} (ha : s.activeArm = some a) (hr : (s.arm a).roll = some r)
    (hlow : r.remaining ≤ s.cfg.unwind.reserve) (hready : (s.arm (otherArm a)).state = .ready)
    (hrun : s.roll.spliceState = .run) (hmode : s.mode = .active) : spliceTest s = startSplice (otherArm a) s := by
  unfold spliceTest
  rw [ha]
  exact if_pos (by simp [hrun, hmode, State.activeRemaining, ha, hr, hlow, hready])

/-- The start test begins nothing but in RUN, in ACTIVE, at the reserve, with the other arm READY. -/
theorem spliceTest_rests {s : State} (h : s.roll.spliceState ≠ .run ∨ s.mode ≠ .active ∨
    ∀ a r, s.activeArm = some a → (s.arm a).roll = some r →
      s.cfg.unwind.reserve < r.remaining ∨ (s.arm (otherArm a)).state ≠ .ready) : spliceTest s = s := by
  unfold spliceTest
  split
  · rfl
  · rename_i a ha
    refine if_neg fun hc => ?_
    simp only [Bool.and_eq_true, beq_iff_eq, State.activeRemaining, ha, Option.any_eq_true, Option.map_eq_some_iff,
      decide_eq_true_eq] at hc
    obtain ⟨⟨⟨hrun, hmode⟩, l, ⟨r, hr, rfl⟩, hlow⟩, hready⟩ := hc
    rcases h with h | h | h
    · exact h hrun
    · exact h hmode
    · exact (h a r ha hr).elim (Nat.not_lt.2 hlow) (fun hn => hn hready)

/-- With an arm neither ACTIVE nor READY the start test begins nothing. -/
theorem spliceTest_of_idleArm {s : State} {a : ArmName} (hactive : (s.arm a).state ≠ .active)
    (hready : (s.arm a).state ≠ .ready) : spliceTest s = s := by
  refine spliceTest_rests (.inr (.inr fun b r hb _ => .inr ?_))
  rcases eq_or_eq_otherArm a b with rfl | ho
  · exact absurd (state_of_activeArm hb) hactive
  · exact ho ▸ hready

/-- Outside RUN no ROLL_OUT stands, nor its hold (R105). -/
theorem rollConditions_notRun {s : State} (h : s.roll.spliceState ≠ .run) :
    Cond.rollOut ∉ (rollConditions s).cond.flags ∧ HoldCause.rollOut ∉ (rollConditions s).gov.holds := by
  simp [rollConditions, followHold, h]

theorem startSplice_sets (a : ArmName) (s : State) :
    (startSplice a s).roll.spliceState = .prefill ∧ (startSplice a s).roll.spliceArm = some a ∧
    (startSplice a s).roll.spliceMiddle = none ∧ (startSplice a s).order.spliceRequest = true ∧
    (startSplice a s).fillTarget = s.cfg.unwind.fillSplice ∧ Cond.rollOut ∉ (startSplice a s).cond.flags ∧
    HoldCause.rollOut ∉ (startSplice a s).gov.holds := by
  have hcfg : (startSplice a s).cfg = s.cfg := cfg_of_image (by simp)
  obtain ⟨hflag, hhold⟩ := rollConditions_notRun
    (s := (s.withRoll { s.roll with spliceState := .prefill, spliceArm := some a, spliceMiddle := none }).withOrder
      { s.order with spliceRequest := true }) (by simp)
  have hstate : (startSplice a s).roll.spliceState = .prefill := by simp [startSplice]
  refine ⟨hstate, by simp [startSplice], by simp [startSplice], by simp [startSplice], ?_, hflag, hhold⟩
  simp [State.fillTarget, hstate, hcfg]

/-! ## A splice that is over (R86, R87, R121) -/

/-- No splice runs or is asked for, and with this arm neither ACTIVE nor READY none can start. -/
structure SpliceOver (a : ArmName) (s : State) : Prop where
  unwind : s.is .unwind = true
  state : s.roll.spliceState = .run
  arm : s.roll.spliceArm = none
  request : s.order.spliceRequest = false
  fence : s.order.fence = false
  notActive : (s.arm a).state ≠ .active
  notReady : (s.arm a).state ≠ .ready

namespace SpliceOver
variable {a : ArmName} {s t : State}

theorem congr (h : SpliceOver a s) (ht : t.loader.image = s.loader.image ∧ t.roll = s.roll ∧
    t.order.spliceRequest = s.order.spliceRequest ∧ t.order.fence = s.order.fence) : SpliceOver a t := by
  obtain ⟨image, roll, request, fence⟩ := ht
  have harm : t.arm a = s.arm a := arm_congr (by simp [roll]) a
  exact ⟨(is_of_image image _).trans h.unwind, roll ▸ h.state, roll ▸ h.arm, request.trans h.request, fence.trans h.fence,
    harm ▸ h.notActive, harm ▸ h.notReady⟩

theorem spliceTest_eq (h : SpliceOver a s) : spliceTest s = s := spliceTest_of_idleArm h.notActive h.notReady

/-- A birth without a request is no SPLICE (R85). -/
theorem makeBirth (h : SpliceOver a s) : SpliceOver a (makeBirth s) := by
  have hroll : s.bornPlaced.roll = s.roll := by
    unfold State.bornPlaced
    split <;> simp
  have placed : SpliceOver a (s.bornPlaced.withOrder s.birthOrder) :=
    h.congr ⟨congrArg Loader.image (bornPlaced_keeps s).2, hroll, rfl, rfl⟩
  rw [makeBirth_eq]
  cases hb : s.bornNow with
  | splice =>
    unfold State.bornNow at hb
    rw [if_neg (by simp [h.request])] at hb
    repeat' split at hb
    all_goals cases hb
  | panel o => exact placed.congr (by simp [afterBirth, setWait_order])
  | leader => exact placed.congr (by simp [afterBirth, setWait_order])

theorem takeDue {d : Due} (h : SpliceOver a s) (hd : s.due = some d) : SpliceOver a (takeDue d s) := by
  cases d with
  | openWindow | acceptMark | holdClosing | closeWindow | fold | endRun | startRun | shift | boundary =>
    exact not_other h.unwind (not_unwind_of_due hd (by simp [Due.part]) (by simp [Due.part]))
  | handoff | trailExit | holdBirth | endStall => exact h.congr (by simp [Machine.takeDue])
  | birth => exact h.makeBirth
  | prefillDone | stopOld | stopOldLow | recovered =>
    have hstate := spliceState_of_dueUnwind (due_unwind hd rfl)
    simp [h.state] at hstate

theorem settle (h : SpliceOver a s) : SpliceOver a (settle s) :=
  settle_keeps (SpliceOver a) (fun _ h => h.congr (by simp)) (fun _ _ h hd => h.takeDue hd) s h

theorem enterActive (h : SpliceOver a s) : SpliceOver a (enterActive s) := by
  obtain ⟨roll, -, image⟩ := activeBegun_frame s
  have order : (activeBegun s).order = s.order := by
    unfold activeBegun
    dsimp only
    split <;> simp
  have warm : SpliceOver a (warmChamber (activeBegun s)) := h.congr (by simp [roll, image, order])
  have rolled : rollAtActive (warmChamber (activeBegun s)) = warmChamber (activeBegun s) := by
    rw [rollAtActive, if_pos warm.unwind, if_neg (by rw [warm.state]; decide), warm.spliceTest_eq]
  rw [enterActive_eq, rolled]
  exact warm

theorem finish (h : SpliceOver a s) : SpliceOver a (finish s) := by
  have refreshed {u : State} (hu : SpliceOver a u) : SpliceOver a (refresh u) := hu.congr (by simp)
  have settled := h.settle
  rcases conclude_cases (Machine.settle s) with ⟨he, -⟩ | ⟨he, -⟩ <;> rw [Machine.finish, he]
  · exact refreshed settled
  · exact refreshed (refreshed settled).enterActive.settle

/-- The return to RUN ends a splice where an arm is neither ACTIVE nor READY. -/
theorem of_returnToRun (hu : s.is .unwind = true) (hactive : (s.arm a).state ≠ .active)
    (hready : (s.arm a).state ≠ .ready) : SpliceOver a (returnToRun s) := by
  have harm : (returnToRun s).arm a = s.arm a := arm_congr (by simp) a
  have hback : returnToRun s = rollConditions ((s.withRoll { s.roll with
      spliceState := .run, spliceArm := none, spliceMiddle := none }).withOrder
        { s.order with spliceRequest := false, fence := false }) := by
    refine spliceTest_of_idleArm (a := a) ?_ ?_ <;> rw [arm_congr (s := s) (by simp) a] <;> assumption
  refine ⟨(is_of_image (by simp) _).trans hu, ?_, ?_, ?_, ?_, harm ▸ hactive, harm ▸ hready⟩ <;> rw [hback] <;> simp

end SpliceOver

/-- The loss of an arm aborts a splice that can be aborted (R121). -/
theorem abortIf_aborts {a : ArmName} {s : State} {cause : Bool} (hc : cause = true)
    (hs : s.roll.spliceState.abortable = true) (hu : s.is .unwind = true) (hactive : (s.arm a).state ≠ .active)
    (hready : (s.arm a).state ≠ .ready) :
    SpliceOver a (abortIf cause s) ∧ Cond.spliceAbort ∈ (abortIf cause s).cond.flags := by
  have harm : (raise .spliceAbort s).arm a = s.arm a := arm_congr (by simp) a
  rw [abortIf, if_pos (by simp [hc, hs])]
  exact ⟨.of_returnToRun ((is_of_image (by simp) _).trans hu) (harm ▸ hactive) (harm ▸ hready),
    (returnToRun_settles _).flags _ (raise_sets ..) rfl⟩

/-! ## The arm-ready input (R100) -/

theorem armBecomesReady_arms (a : ArmName) (s : State) :
    (armBecomesReady a s).arm a = { s.arm a with state := .ready } ∧
    (armBecomesReady a s).arm (otherArm a) = s.arm (otherArm a) := by
  have loaded := arm_congr (s := setArm a { s.arm a with state := .ready } s) (t := armBecomesReady a s)
    (by simp [armBecomesReady])
  exact ⟨(loaded _).trans (setArm_same ..), (loaded _).trans (setArm_other ..)⟩

theorem armLosesReady_arms (a : ArmName) (s : State) :
    (armLosesReady a s).arm a = { s.arm a with state := .loaded } ∧
    (armLosesReady a s).arm (otherArm a) = s.arm (otherArm a) := by
  have loaded := arm_congr (s := setArm a { s.arm a with state := .loaded } s) (t := armLosesReady a s)
    (by simp [armLosesReady])
  exact ⟨(loaded _).trans (setArm_same ..), (loaded _).trans (setArm_other ..)⟩

/-- What the arm-ready input does at a level: a LOADED arm becomes READY, a READY one LOADED, or the level alone is noted. -/
theorem changeReady_cases (a : ArmName) (level : Bool) (s : State) :
    (s.is .unwind = true ∧ (s.arm a).state = .loaded ∧ level = true) ∧
      changeReady a level s = armBecomesReady a (s.withPins (s.pins.setReady a level)) ∨
    (s.is .unwind = true ∧ (s.arm a).state = .ready ∧ level = false) ∧
      changeReady a level s = armLosesReady a (s.withPins (s.pins.setReady a level)) ∨
    (¬ (s.is .unwind = true ∧ (s.arm a).state = .loaded ∧ level = true) ∧
      ¬ (s.is .unwind = true ∧ (s.arm a).state = .ready ∧ level = false)) ∧
      changeReady a level s = s.withPins (s.pins.setReady a level) := by
  unfold changeReady
  dsimp only
  split
  · split <;> simp_all
  · simp_all

theorem changeReady_pins (a : ArmName) (level : Bool) (s : State) :
    (changeReady a level s).pins = s.pins.setReady a level := by
  rcases changeReady_cases a level s with ⟨-, h⟩ | ⟨-, h⟩ | ⟨-, h⟩ <;> rw [h] <;> simp [armBecomesReady, armLosesReady]

/-- The arm-ready input loads the state of its own arm alone. -/
theorem changeReady_arms (a : ArmName) (level : Bool) (s : State) :
    (changeReady a level s).arm (otherArm a) = s.arm (otherArm a) ∧
    (changeReady a level s).arm a =
      (if s.is .unwind = true ∧ (s.arm a).state = .loaded ∧ level = true then { s.arm a with state := .ready }
        else if s.is .unwind = true ∧ (s.arm a).state = .ready ∧ level = false then { s.arm a with state := .loaded }
        else s.arm a) := by
  have noted (b : ArmName) : (s.withPins (s.pins.setReady a level)).arm b = s.arm b := arm_congr ⟨rfl, rfl⟩ b
  rcases changeReady_cases a level s with ⟨hc, h⟩ | ⟨hc, h⟩ | ⟨⟨hn, hm⟩, h⟩ <;> rw [h]
  · obtain ⟨own, other⟩ := armBecomesReady_arms a (s.withPins (s.pins.setReady a level))
    rw [own, other, noted, noted, if_pos hc]
    exact ⟨rfl, rfl⟩
  · obtain ⟨own, other⟩ := armLosesReady_arms a (s.withPins (s.pins.setReady a level))
    have hlevel : ¬ (s.is .unwind = true ∧ (s.arm a).state = .loaded ∧ level = true) := by simp [hc]
    rw [own, other, noted, noted, if_neg hlevel, if_pos hc]
    exact ⟨rfl, rfl⟩
  · rw [noted, noted, if_neg hn, if_neg hm]
    exact ⟨rfl, rfl⟩

/-- The splice arm's loss of ready aborts its splice (R121). -/
theorem changeReady_aborts {a : ArmName} {s : State} (hu : s.is .unwind = true)
    (hs : s.roll.spliceState.abortable = true) (hready : (s.arm a).state = .ready) (ha : s.roll.spliceArm = some a) :
    SpliceOver a (changeReady a false s) ∧ Cond.spliceAbort ∈ (changeReady a false s).cond.flags := by
  rcases changeReady_cases a false s with ⟨⟨-, -, hf⟩, -⟩ | ⟨-, h⟩ | ⟨⟨-, hm⟩, -⟩
  · cases hf
  · rw [h]
    refine abortIf_aborts (by simp [ha]) (by simpa using hs) ((is_of_image (by simp) _).trans hu) ?_ ?_ <;>
      rw [rollConditions_setArm] <;> simp
  · exact absurd ⟨hu, hready, rfl⟩ hm

/-! ## The arm-empty input (R101) -/

theorem emptyArm_arms (a : ArmName) (s : State) :
    (emptyArm a s).arm (otherArm a) = s.arm (otherArm a) ∧
    (emptyArm a s).arm a = (if (s.arm a).state ≠ .empty then {} else s.arm a) := by
  unfold emptyArm
  dsimp only
  split
  · simp_all
  · have loaded := arm_congr (s := setArm a {} s)
      (t := abortIf ((s.arm a).state == .active || (rollConditions (setArm a {} s)).roll.spliceArm == some a)
        (rollConditions (setArm a {} s))) (by simp)
    rw [loaded, loaded, setArm_same, setArm_other]
    exact ⟨rfl, rfl⟩

theorem changeEmpty_pins (a : ArmName) (level : Bool) (s : State) :
    (changeEmpty a level s).pins = s.pins.setEmpty a level := by
  unfold changeEmpty
  dsimp only
  split <;> simp

/-- Each change of the arm-empty input to active empties its own arm. -/
theorem changeEmpty_arms (a : ArmName) (level : Bool) (s : State) :
    (changeEmpty a level s).arm (otherArm a) = s.arm (otherArm a) ∧
    (changeEmpty a level s).arm a =
      (if s.is .unwind = true ∧ level = true ∧ s.pins.empty a = false ∧ (s.arm a).state ≠ .empty then {}
        else s.arm a) := by
  have noted (b : ArmName) : (s.withPins (s.pins.setEmpty a level)).arm b = s.arm b := arm_congr ⟨rfl, rfl⟩ b
  unfold changeEmpty
  dsimp only
  split
  · obtain ⟨other, own⟩ := emptyArm_arms a (s.withPins (s.pins.setEmpty a level))
    rw [own, other, noted, noted]
    simp_all
  · rw [noted, noted]
    simp_all

/-- The emptying of the splice arm or of the ACTIVE arm aborts a splice (R121). -/
theorem changeEmpty_aborts {a : ArmName} {s : State} (hu : s.is .unwind = true)
    (hs : s.roll.spliceState.abortable = true) (hpin : s.pins.empty a = false) (hheld : (s.arm a).state ≠ .empty)
    (ha : (s.arm a).state = .active ∨ s.roll.spliceArm = some a) :
    SpliceOver a (changeEmpty a true s) ∧ Cond.spliceAbort ∈ (changeEmpty a true s).cond.flags := by
  have noted : (s.withPins (s.pins.setEmpty a true)).arm a = s.arm a := arm_congr ⟨rfl, rfl⟩ a
  rw [changeEmpty, if_pos (by simp [hu, hpin]), emptyArm, noted, if_neg hheld]
  refine abortIf_aborts (by simpa using ha) (by simpa using hs) ((is_of_image (by simp) _).trans hu) ?_ ?_ <;>
    rw [rollConditions_setArm] <;> simp

/-! ## The obligation -/

theorem finish_arm (s : State) (a : ArmName) : (finish s).arm a = s.arm a := arm_congr (by simp) a

/-- An aborted splice stays over to the end of the command (R181, R191). -/
theorem finish_aborted {a : ArmName} {s : State} (h : SpliceOver a s ∧ Cond.spliceAbort ∈ s.cond.flags) :
    Cond.spliceAbort ∈ (finish s).cond.flags ∧ (finish s).roll.spliceState = .run ∧ (finish s).roll.spliceArm = none ∧
    (finish s).order.spliceRequest = false ∧ (finish s).order.fence = false := by
  obtain ⟨aborted, flag⟩ := h
  have ended := aborted.finish
  exact ⟨(finish_settles s).flags _ flag rfl, ended.state, ended.arm, ended.request, ended.fence⟩

/-- Settles O44: `changeReady_arms` and `changeEmpty_arms` for the inputs, `spliceTest_starts` and `spliceTest_rests` for the start
test, and `abortIf_aborts` for the aborts, after which an arm that is neither ACTIVE nor READY keeps a new splice from starting. -/
theorem armInputsTaken : Obligations.ArmInputsTaken := by
  refine ⟨fun s a level ho => ⟨_, congrArg Host.Outcome.next (if_pos ho), ?_, ?_, ?_⟩,
    fun s a level ho => ⟨_, congrArg Host.Outcome.next (if_pos ho), ?_, ?_, ?_⟩,
    fun s => ⟨fun a r ha hr hlow hready hrun hmode => ?_, spliceTest_rests⟩, fun s a c ho hu hs hc => ?_⟩
  · simpa using changeReady_pins a level s
  · exact (finish_arm ..).trans (changeReady_arms a level s).1
  · exact (finish_arm ..).trans (changeReady_arms a level s).2
  · simpa using changeEmpty_pins a level s
  · exact (finish_arm ..).trans (changeEmpty_arms a level s).1
  · exact (finish_arm ..).trans (changeEmpty_arms a level s).2
  · rw [spliceTest_starts ha hr hlow hready hrun hmode]
    obtain ⟨state, arm, middle, request, target, flag, hold⟩ := startSplice_sets (otherArm a) s
    exact ⟨state, arm, middle, request, target, flag, hold, by simp, by simp⟩
  · have habort : s.roll.spliceState.abortable = true := by rcases hs with h | h | h <;> rw [h] <;> rfl
    rcases hc with ⟨rfl, hready, ha⟩ | ⟨rfl, hpin, hheld, ha⟩
    · exact ⟨_, congrArg Host.Outcome.next (if_pos ho), finish_aborted (changeReady_aborts hu habort hready ha)⟩
    · exact ⟨_, congrArg Host.Outcome.next (if_pos ho), finish_aborted (changeEmpty_aborts hu habort hpin hheld ha)⟩

end Sys2Proof.Machine
end

