-- ==== Sys2Proof/Proofs/Revolutions.lean ====
section
/-! PROOFS. O43: the revolution pulse, its sample and the filter that takes it for the circumference. -/

namespace Sys2Proof.Machine
open Sys2Proof

/-! ## The remaining length (R104) -/

/-- A circumference not above the core leaves nothing. -/
theorem remainingLength_of_le {c core : Nat} (thickness : Nat) (h : c ≤ core) : remainingLength c core thickness = 0 := by
  simp [remainingLength, remainingExact, h]

/-- A figure that fits its field is the remaining length. -/
theorem remainingLength_of_fits {c core thickness : Nat} (hc : core < c)
    (hfit : (c * c - core * core) * 113 / (142 * thickness) ≤ 4294967295) :
    remainingLength c core thickness = (c * c - core * core) * 113 / (142 * thickness) := by
  have hexact : remainingExact c core thickness = (c * c - core * core) * 113 / (142 * thickness) :=
    if_neg (Nat.not_le.2 hc)
  rw [remainingLength, hexact]
  exact if_pos hfit

/-! ## The filter (R103) -/

/-- A sample is accepted where it agrees within 5% with the circumference of a verified roll, or with the last sample of an
unverified one. -/
theorem accepts_iff (x : Arm) (r : Roll) (sample : Nat) : x.accepts r sample = true ↔
    ∃ l, (if r.verified then some r.circumference else x.lastSample) = some l ∧
      100 * ((sample - l) + (l - sample)) ≤ 5 * l := by
  unfold Arm.accepts
  split
  · simp [agrees]
  · simp [Option.any_eq_true, agrees]

/-- An arm with a sample taken: measured anew where the sample is accepted (R103). -/
def Arm.sampled (x : Arm) (r : Roll) (sample : Nat) : Arm :=
  if x.accepts r sample then { x with lastSample := some sample, roll := some (r.measured sample) }
  else { x with lastSample := some sample }

theorem filterSample_arms (a : ArmName) (sample : Nat) (s : State) :
    (filterSample a sample s).arm (otherArm a) = s.arm (otherArm a) ∧
    ∀ r, (s.arm a).roll = some r → (filterSample a sample s).arm a = (s.arm a).sampled r sample := by
  unfold filterSample
  dsimp only
  split
  · rename_i hn
    exact ⟨rfl, fun r hr => by simp [hn] at hr⟩
  · rename_i r hr
    split
    · rename_i hc
      have loaded (x : Arm) := arm_congr (s := setArm a x s) (t := rollConditions (spliceTest (setArm a x s))) (by simp)
      refine ⟨(loaded _ _).trans (setArm_other ..), fun q hq => ((loaded _ _).trans (setArm_same ..)).trans ?_⟩
      cases hr.symm.trans hq
      exact (if_pos hc).symm
    · rename_i hc
      refine ⟨setArm_other .., fun q hq => (setArm_same ..).trans ?_⟩
      cases hr.symm.trans hq
      exact (if_neg hc).symm

/-! ## The pulse (R102) -/

theorem takeRevolution_idle {a : ArmName} {s : State} (h : (s.arm a).state ≠ .active) : takeRevolution a s = s := if_pos h

/-- The first pulse of an ACTIVE arm sets its mark alone. -/
theorem takeRevolution_first {a : ArmName} {s : State} (h : (s.arm a).state = .active) (hm : (s.arm a).mark = none) :
    takeRevolution a s = setArm a { s.arm a with mark := some s.position } s := by
  simp [takeRevolution, h, hm]

/-- Every later pulse moves the mark, and a figure in range is a sample. -/
theorem takeRevolution_later {a : ArmName} {s : State} {m : Word} (h : (s.arm a).state = .active)
    (hm : (s.arm a).mark = some m) : takeRevolution a s =
      if (s.position - m).toNat = 0 ∨ 2147483648 ≤ (s.position - m).toNat then
        setArm a { s.arm a with mark := some s.position } s
      else filterSample a (s.position - m).toNat (setArm a { s.arm a with mark := some s.position } s) := by
  simp [takeRevolution, h, hm]

theorem takeRevolution_other (a : ArmName) (s : State) :
    (takeRevolution a s).arm (otherArm a) = s.arm (otherArm a) := by
  by_cases h : (s.arm a).state = .active
  · cases hm : (s.arm a).mark with
    | none => rw [takeRevolution_first h hm, setArm_other]
    | some m =>
      rw [takeRevolution_later h hm]
      split
      · exact setArm_other ..
      · exact (filterSample_arms ..).1.trans (setArm_other ..)
  · rw [takeRevolution_idle h]

/-- A later pulse of an ACTIVE arm with a roll, by its figure. -/
theorem takeRevolution_samples {a : ArmName} {s : State} {m : Word} {r : Roll} (h : (s.arm a).state = .active)
    (hm : (s.arm a).mark = some m) (hr : (s.arm a).roll = some r) : (takeRevolution a s).arm a =
      if (s.position - m).toNat = 0 ∨ 2147483648 ≤ (s.position - m).toNat then { s.arm a with mark := some s.position }
      else Arm.sampled { s.arm a with mark := some s.position } r (s.position - m).toNat := by
  rw [takeRevolution_later h hm]
  split
  · exact setArm_same ..
  · rw [(filterSample_arms ..).2 r (by rw [setArm_same]; exact hr), setArm_same]

/-! ## The obligation -/

theorem revolve_pins (a : ArmName) (level : Bool) (s : State) : (revolve a level s).pins = s.pins.setRevolution a level := by
  unfold revolve
  dsimp only
  split <;> simp

/-- The configured edge in the UNWIND is a pulse, and any other change of the input is its level alone. -/
theorem revolve_cases (a : ArmName) (level : Bool) (s : State) :
    revolve a level s =
      if s.is .unwind = true ∧ isEdge (s.cfg.unwind.edgeCode a) (s.pins.revolution a) level = true then
        takeRevolution a (s.withPins (s.pins.setRevolution a level))
      else s.withPins (s.pins.setRevolution a level) := by
  unfold revolve
  simp only [Bool.and_eq_true]

/-- Settles O43: `takeRevolution_samples` says what a pulse makes of the arm, and the end of the command leaves it. -/
theorem revolutionMeasures : Obligations.RevolutionMeasures := by
  intro s a level ho
  have noted (b : ArmName) : (s.withPins (s.pins.setRevolution a level)).arm b = s.arm b := arm_congr ⟨rfl, rfl⟩ b
  refine ⟨_, congrArg Host.Outcome.next (if_pos ho), by simpa using revolve_pins a level s, ?_, fun h => ?_,
    fun hu he hactive => ?_⟩
  · rw [finish_arm, revolve_cases]
    split
    · rw [takeRevolution_other, noted]
    · exact noted _
  · rw [finish_arm, revolve_cases]
    split
    · rename_i hc
      have idle : (s.arm a).state ≠ .active := by simpa [hc] using h
      rw [takeRevolution_idle (by rwa [noted]), noted]
    · exact noted _
  · rw [finish_arm, revolve_cases, if_pos ⟨hu, he⟩]
    constructor
    · intro hm
      rw [takeRevolution_first (by rwa [noted]) (by rwa [noted]), setArm_same, noted]
      rfl
    · intro m r hm hr sample reference agree
      have taken := takeRevolution_samples (s := s.withPins (s.pins.setRevolution a level)) (a := a) (m := m) (r := r)
        (by rwa [noted]) (by rwa [noted]) (by rwa [noted])
      rw [noted] at taken
      have inRange (h0 : 0 < sample) (h1 : sample < 2147483648) : ¬ (sample = 0 ∨ 2147483648 ≤ sample) := by omega
      have accepted := accepts_iff { s.arm a with mark := some s.position } r sample
      refine ⟨fun hout => taken.trans (if_pos hout), fun h0 h1 hn => (taken.trans (if_neg (inRange h0 h1))).trans ?_,
        fun h0 h1 hy => ⟨remainingLength sample r.core r.thickness, (taken.trans (if_neg (inRange h0 h1))).trans ?_,
          remainingLength_of_le _, remainingLength_of_fits⟩⟩
      · exact if_neg fun hc => hn (accepted.1 hc)
      · exact if_pos (accepted.2 hy)

end Sys2Proof.Machine
end

