-- ==== Sys2Proof/Proofs/RollData.lean ====
section
/-! PROOFS. O42: what a ROLL DATA answers and what it loads. -/

namespace Sys2Proof.Machine
open Sys2Proof

/-! ## The loads (R98, R99, R104, R114) -/

/-- The roll a ROLL DATA describes, its remaining length by the figure of R104. -/
def RollData.roll (d : RollData) : Roll :=
  { lot := d.lot, thickness := d.thickness, core := d.core, circumference := d.circumference, verified := false,
    remaining := (d.circumference * d.circumference - d.core * d.core) * 113 / (142 * d.thickness) }

/-- An arm with a roll described, waiting for its ready input or with it (R98). -/
def RollData.waiting (d : RollData) (ready : Bool) : Arm :=
  { state := if ready then .ready else .loaded, roll := some d.roll }

/-- The ranges of R96 with the order of C and c0 and the flags that exclude each other (R97). -/
def RollData.Legal (d : RollData) : Prop :=
  (20 ≤ d.thickness ∧ d.thickness ≤ 3000) ∧ (500 ≤ d.core ∧ d.core ≤ 20000) ∧
    (500 ≤ d.circumference ∧ d.circumference ≤ 60000) ∧ d.core ≤ d.circumference ∧
    ¬ (d.threaded = true ∧ d.spliceNow = true)

theorem RollData.fieldsOk_iff (d : RollData) : d.fieldsOk = true ↔ d.Legal := by
  simp [fieldsOk, Legal, and_assoc, imp_iff_not_or]

/-- Within the ranges of R96 the figure of R104 fits its field. -/
theorem RollData.Legal.remainingLength {d : RollData} (h : d.Legal) :
    remainingLength d.circumference d.core d.thickness =
      (d.circumference * d.circumference - d.core * d.core) * 113 / (142 * d.thickness) := by
  obtain ⟨⟨hthin, -⟩, -, ⟨-, hlong⟩, horder, -⟩ := h
  rcases horder.eq_or_lt with heq | hlt
  · simp [remainingLength_of_le, heq]
  · refine remainingLength_of_fits hlt ?_
    have hsquare : d.circumference * d.circumference ≤ 60000 * 60000 := Nat.mul_le_mul hlong hlong
    refine Nat.div_le_of_le_mul ?_
    omega

/-- The arm a ROLL DATA loads (R98). -/
theorem loadArm_legal {d : RollData} (h : d.Legal) (a : ArmName) (s : State) :
    loadArm a d.lot d.thickness d.core d.circumference s = setArm a (d.waiting (s.pins.ready a)) s := by
  simp only [loadArm, h.remainingLength, RollData.waiting, RollData.roll]

theorem loadPlain_arm {d : RollData} (h : d.Legal) (a : ArmName) (s : State) (b : ArmName) :
    (loadPlain a d s).arm b = (setArm a (d.waiting (s.pins.ready a)) s).arm b := by
  rw [← loadArm_legal h]
  exact arm_congr (by simp [loadPlain]) b

theorem activateArm_arms (a : ArmName) (s : State) :
    (activateArm a s).arm a = { s.arm a with state := .active, lastSample := none, mark := none } ∧
    (activateArm a s).arm (otherArm a) = s.arm (otherArm a) := by
  have loaded := arm_congr (s := setArm a { s.arm a with state := .active, lastSample := none, mark := none } s)
    (t := activateArm a s) (by simp [activateArm])
  exact ⟨(loaded _).trans (setArm_same ..), (loaded _).trans (setArm_other ..)⟩

/-! ## The status (R97) -/

/-- The results that refuse (R97). -/
def RollResult.refuses (r : RollResult) : Bool :=
  match r with
  | .badField | .busy | .notTaken => true
  | .none | .threaded | .splice | .loaded => false

theorem setRollStatus_sets (n : Nat) (r : RollResult) (s : State) :
    (setRollStatus n r s).roll.statusArm = n ∧ (setRollStatus n r s).roll.statusResult = r ∧
    (r.refuses = true → Cond.rollRefused ∈ (setRollStatus n r s).cond.flags) := by
  cases r <;> simp [setRollStatus, RollResult.refuses]

theorem setRollStatus_arm (n : Nat) (r : RollResult) (s : State) (b : ArmName) : (setRollStatus n r s).arm b = s.arm b :=
  arm_congr (by cases r <;> simp [setRollStatus]) b

/-! ## The first line that applies (R97, R99, R114) -/

/-- The arm that is ACTIVE is found by its state, while the other is not. -/
theorem activeArm_iff (s : State) (a : ArmName) (h : (s.arm a).state ≠ .active) (b : ArmName) :
    s.activeArm = some b ↔ b = otherArm a ∧ (s.arm (otherArm a)).state = .active := by
  cases a <;> cases b <;> simp_all [State.activeArm, State.arm, otherArm]

/-- Loading an arm that waits, in the place of one that is not ACTIVE, leaves which arm is ACTIVE. -/
theorem setArm_activeArm {a : ArmName} {x : Arm} {s : State} (h : (s.arm a).state ≠ .active) (hx : x.state ≠ .active) :
    (setArm a x s).activeArm = s.activeArm := by
  refine Option.ext fun b => ?_
  rw [activeArm_iff s a h, activeArm_iff _ a (by rwa [setArm_same]), setArm_other]

theorem RollData.waiting_state (d : RollData) (ready : Bool) :
    (d.waiting ready).state ≠ .active ∧ ((d.waiting ready).state = .ready ↔ ready = true) := by
  cases ready <;> simp [waiting]

/-- The conditions of splice-now after the loading, in the state before it (R114). -/
theorem maySplice_loaded (d : RollData) {a : ArmName} {s : State} (h : (s.arm a).state ≠ .active) :
    (setArm a (d.waiting (s.pins.ready a)) s).maySplice a = true ↔
      s.mode = .active ∧ s.activeArm = some (otherArm a) ∧ s.roll.spliceState = .run ∧ s.pins.ready a = true := by
  obtain ⟨hw, hready⟩ := d.waiting_state (s.pins.ready a)
  have hmode (x : Arm) : (setArm a x s).mode = s.mode := by simp [State.mode]
  simp [State.maySplice, setArm_activeArm h hw, setArm_same, hready, hmode, and_assoc]

/-- The conditions of threaded (R99). -/
theorem mayThread_iff (s : State) :
    s.mayThread = true ↔ s.activeArm = none ∧ s.roll.spliceState = .run ∧ s.pins.webPresent = true := by
  simp [State.mayThread, and_assoc]

/-- What a ROLL DATA in order for an arm that waits answers, and the arm it leaves (R98, R99, R114). -/
def RollData.loads (d : RollData) (a : ArmName) (s : State) : RollResult × Arm :=
  let w := d.waiting (s.pins.ready a)
  if d.threaded = true then
    if s.activeArm = none ∧ s.roll.spliceState = .run ∧ s.pins.webPresent = true then (.threaded, { w with state := .active })
    else (.notTaken, w)
  else if d.spliceNow = true then
    if s.mode = .active ∧ s.activeArm = some (otherArm a) ∧ s.roll.spliceState = .run ∧ s.pins.ready a = true then
      (.splice, w)
    else (.notTaken, w)
  else (.loaded, w)

/-- What a ROLL DATA for an arm answers, and the arm it leaves, by the first line of R97 that applies. -/
def RollData.answer (d : RollData) (a : ArmName) (s : State) : RollResult × Arm :=
  if d.fieldsOk = false then (.badField, s.arm a)
  else if (s.arm a).state = .active ∨ (s.arm a).state = .expiring then (.busy, s.arm a)
  else d.loads a s

/-- The answer does not read the receive queue. -/
theorem RollData.answer_freed (d : RollData) (a : ArmName) (s : State) (rest : List RxEntry) :
    d.answer a (s.freed rest) = d.answer a s := by
  have harm : (s.freed rest).arm a = s.arm a := arm_congr ⟨rfl, rfl⟩ a
  have hloads : d.loads a (s.freed rest) = d.loads a s := rfl
  rw [answer, harm, hloads]
  rfl

theorem RollData.answer_badField (d : RollData) {a : ArmName} {s : State} (h : ¬ d.fieldsOk = true) :
    d.answer a s = (.badField, s.arm a) := if_pos (by simpa using h)

theorem RollData.answer_busy (d : RollData) {a : ArmName} {s : State} (h : d.fieldsOk = true)
    (hb : (s.arm a).state = .active ∨ (s.arm a).state = .expiring) : d.answer a s = (.busy, s.arm a) := by
  rw [answer, if_neg (by simp [h]), if_pos hb]

theorem RollData.answer_loads (d : RollData) {a : ArmName} {s : State} (h : d.fieldsOk = true)
    (hactive : (s.arm a).state ≠ .active) (hexpiring : (s.arm a).state ≠ .expiring) : d.answer a s = d.loads a s := by
  rw [answer, if_neg (by simp [h]), if_neg (not_or.2 ⟨hactive, hexpiring⟩)]

/-- A ROLL DATA for an arm has been answered: the status is set, the arm loaded, the other left, and a refusal latched. -/
structure RollAnswered (a : ArmName) (x : RollResult × Arm) (s t : State) : Prop where
  number : t.roll.statusArm = armNumber a
  result : t.roll.statusResult = x.1
  own : t.arm a = x.2
  other : t.arm (otherArm a) = s.arm (otherArm a)
  refused : x.1.refuses = true → Cond.rollRefused ∈ t.cond.flags

/-- The status set after a loading of the arm. -/
theorem RollAnswered.of_status {a : ArmName} {r : RollResult} {x : Arm} {s u : State} (own : u.arm a = x)
    (other : u.arm (otherArm a) = s.arm (otherArm a)) : RollAnswered a (r, x) s (setRollStatus (armNumber a) r u) := by
  obtain ⟨number, result, refused⟩ := setRollStatus_sets (armNumber a) r u
  exact ⟨number, result, (setRollStatus_arm ..).trans own, (setRollStatus_arm ..).trans other, refused⟩

/-- The end of the command leaves the answer. -/
theorem RollAnswered.finish {a : ArmName} {x : RollResult × Arm} {s t : State} (h : RollAnswered a x s t) :
    RollAnswered a x s (finish t) :=
  ⟨by simpa using h.number, by simpa using h.result, (finish_arm ..).trans h.own, (finish_arm ..).trans h.other,
    fun hr => (finish_settles t).flags _ (h.refused hr) rfl⟩

theorem loadRoll_answered {d : RollData} (hl : d.Legal) {a : ArmName} {s : State} (ha : (s.arm a).state ≠ .active) :
    RollAnswered a (d.loads a s) s (loadRoll a d s) := by
  have plain (r : RollResult) : RollAnswered a (r, d.waiting (s.pins.ready a)) s
      (setRollStatus (armNumber a) r (loadPlain a d s)) :=
    .of_status ((loadPlain_arm hl ..).trans (setArm_same ..)) ((loadPlain_arm hl ..).trans (setArm_other ..))
  have started (x : Arm) := arm_congr (s := setArm a x s) (t := startSplice a (setArm a x s)) (by simp)
  simp only [loadRoll, RollData.loads, loadArm_legal hl, mayThread_iff, maySplice_loaded d ha]
  split
  · split
    · obtain ⟨own, other⟩ := activateArm_arms a (setArm a (d.waiting (s.pins.ready a)) s)
      rw [setArm_same] at own
      rw [setArm_other] at other
      exact .of_status own other
    · exact plain _
  · split
    · split
      · exact .of_status ((started _ _).trans (setArm_same ..)) ((started _ _).trans (setArm_other ..))
      · exact plain _
    · exact plain _

theorem describeRoll_answered {d : RollData} {a : ArmName} (ha : d.arm = some a) (s : State) :
    RollAnswered a (d.answer a s) s (describeRoll d s) := by
  unfold describeRoll
  rw [ha]
  dsimp only
  split
  · rw [d.answer_badField (by simp_all)]
    exact .of_status rfl rfl
  · rename_i hok
    have hok : d.fieldsOk = true := by simpa using hok
    split
    · rw [d.answer_busy hok (by simp_all [Arm.busy])]
      exact .of_status rfl rfl
    · rename_i hb
      have hb : (s.arm a).state ≠ .active ∧ (s.arm a).state ≠ .expiring := by simpa [Arm.busy] using hb
      rw [d.answer_loads hok hb.1 hb.2]
      exact loadRoll_answered (d.fieldsOk_iff.1 hok) hb.1

/-- A ROLL DATA takes no further telegram. -/
theorem describeRoll_rx (d : RollData) (s : State) : (describeRoll d s).bus.rx = s.bus.rx := by
  have status (n : Nat) (r : RollResult) (u : State) : (setRollStatus n r u).bus.rx = u.bus.rx := by
    cases r <;> simp [setRollStatus]
  have load (a : ArmName) : (loadRoll a d s).bus.rx = s.bus.rx := by
    unfold loadRoll
    extract_lets loaded
    have hloaded : loaded.bus.rx = s.bus.rx := by simp [loaded]
    repeat' split
    all_goals simp [status, hloaded, loadPlain]
  unfold describeRoll
  repeat' split
  all_goals simp [status, load]

/-! ## The obligation -/

/-- Settles O42: `describeRoll_answered` gives the answer by the first line that applies, and the end of the command leaves it. -/
theorem rollDescribed : Obligations.RollDescribed := by
  intro s e rest ho hu hrx hk d legal roll
  have hexec : exec .rollData s = .next (finish (describeRoll d (s.freed rest))) := by
    have h := operateWeb_takeAs takeRollData ho hrx hk
    have his : (s.freed rest).is .unwind = true := hu
    rw [takeRollData, if_pos his] at h
    exact h
  have hrest : (finish (describeRoll d (s.freed rest))).bus.rx = rest := by simp [describeRoll_rx, State.freed]
  refine ⟨_, hexec, hrest, fun hn => ?_, fun a ha => ?_⟩
  · have hd : describeRoll d (s.freed rest) = setRollStatus 0 .badField (s.freed rest) := by simp [describeRoll, hn]
    obtain ⟨number, result, refused⟩ := setRollStatus_sets 0 .badField (s.freed rest)
    rw [hd]
    exact ⟨by simpa using number, by simpa using result, by simp [setRollStatus, State.freed],
      by simp [setRollStatus, State.freed], (finish_settles _).flags _ (refused rfl) rfl⟩
  · have answered : RollAnswered a (d.answer a s) s (finish (describeRoll d (s.freed rest))) := by
      have h := (describeRoll_answered ha (s.freed rest)).finish
      rw [d.answer_freed] at h
      exact { h with other := h.other.trans (arm_congr ⟨rfl, rfl⟩ _) }
    have hok : d.fieldsOk = true ↔ legal := d.fieldsOk_iff
    refine ⟨answered.number, answered.other, fun hl => ?_, fun hl hb => ?_, fun hl hna hne => ?_⟩
    · rw [d.answer_badField (mt hok.1 hl)] at answered
      exact ⟨answered.result, answered.own, answered.refused rfl⟩
    · rw [d.answer_busy (hok.2 hl) hb] at answered
      exact ⟨answered.result, answered.own, answered.refused rfl⟩
    · intro waiting
      have hone : ¬ (d.threaded = true ∧ d.spliceNow = true) := by
        obtain ⟨-, -, -, -, hone⟩ := hl
        exact hone
      have loaded {x : RollResult × Arm} (hx : d.loads a s = x) : RollAnswered a x s _ :=
        ((d.answer_loads (hok.2 hl) hna hne).trans hx) ▸ answered
      refine ⟨fun ht hnone hrun hweb => ?_, fun ht h => ?_, fun hs hm hactive hrun hready => ?_, fun hs h => ?_, fun ht hs => ?_⟩
      · have threaded := loaded ((if_pos ht).trans (if_pos ⟨hnone, hrun, hweb⟩))
        exact ⟨threaded.result, threaded.own⟩
      · have notTaken := loaded ((if_pos ht).trans (if_neg fun hc => by simp [hc] at h))
        exact ⟨notTaken.result, notTaken.own, notTaken.refused rfl⟩
      · have splice := loaded ((if_neg fun ht => hone ⟨ht, hs⟩).trans ((if_pos hs).trans (if_pos ⟨hm, hactive, hrun, hready⟩)))
        exact ⟨splice.result, splice.own⟩
      · have notTaken := loaded ((if_neg fun ht => hone ⟨ht, hs⟩).trans ((if_pos hs).trans
          (if_neg fun hc => by simp [hc] at h)))
        exact ⟨notTaken.result, notTaken.own, notTaken.refused rfl⟩
      · have plain := loaded ((if_neg (by simp [ht])).trans (if_neg (by simp [hs])))
        exact ⟨plain.result, plain.own⟩

end Sys2Proof.Machine
end

