-- ==== Sys2Proof/Proofs/SpliceSequence.lean ====
section
/-! PROOFS. The splice sequence: what moves it among the things that fall due, where it rests, and how a command ends with it
(basis of O45). -/

namespace Sys2Proof.Machine
open Sys2Proof

/-! ## What the sequence reads -/

theorem fill_congr {s t : State} (h : t.loader.image = s.loader.image ∧ t.web.infeed = s.web.infeed ∧
    t.web.outfeed = s.web.outfeed ∧ t.roll.fillBase = s.roll.fillBase) : t.fill = s.fill := by
  obtain ⟨image, infeed, outfeed, base⟩ := h
  simp [State.fill, State.rawFill, State.position, State.outCount, cfg_of_image image, infeed, outfeed, base]

theorem activeArm_congr {s t : State} (h : t.roll.arm1 = s.roll.arm1 ∧ t.roll.arm2 = s.roll.arm2) :
    t.activeArm = s.activeArm := by
  simp [State.activeArm, h]

/-! ## The events of a splice (R115, R116, R120, R121) -/

/-- Something due that moves the sequence. -/
def Due.movesSplice (d : Due) : Bool :=
  match d with
  | .prefillDone | .stopOld | .stopOldLow | .recovered => true
  | _ => false

/-- Whatever else falls due leaves the sequence and its arm. -/
theorem takeDue_splice {d : Due} (h : d.movesSplice = false) (s : State) :
    (takeDue d s).roll.spliceState = s.roll.spliceState ∧ (takeDue d s).roll.spliceArm = s.roll.spliceArm := by
  cases d with
  | prefillDone | stopOld | stopOldLow | recovered => cases h
  | _ => simp [takeDue]

/-- The tests of the sequence hold in one state of it each. -/
theorem spliceState_of_test (s : State) : (s.prefillDone = true → s.roll.spliceState = .prefill) ∧
    (s.stopOldDue = true → s.roll.spliceState = .spliceWait) ∧ (s.stopOldLow = true → s.roll.spliceState = .stopOld) ∧
    (s.recovered = true → s.roll.spliceState = .recover) := by
  simp +contextual [State.prefillDone, State.stopOldDue, State.stopOldLow, State.recovered]

/-- An event of the sequence is due in the UNWIND by its own test, for no other test of it holds at once. -/
theorem dueUnwind_splice_iff (s : State) : (s.dueUnwind = some .prefillDone ↔ s.prefillDone = true) ∧
    (s.dueUnwind = some .stopOld ↔ s.stopOldDue = true) ∧ (s.dueUnwind = some .stopOldLow ↔ s.stopOldLow = true) ∧
    (s.dueUnwind = some .recovered ↔ s.recovered = true) := by
  obtain ⟨prefill, wait, stop, recover⟩ := spliceState_of_test s
  unfold State.dueUnwind
  by_cases h1 : s.prefillDone = true
  · have hs := prefill h1
    simp_all
  · by_cases h2 : s.stopOldDue = true
    · have hs := wait h2
      simp_all
    · by_cases h3 : s.stopOldLow = true
      · have hs := stop h3
        simp_all
      · by_cases h4 : s.recovered = true
        · simp_all
        · simp only [h1, h2, h3, h4]
          repeat' split
          all_goals simp_all

/-- An entry to ACTIVE moves the sequence on from RUN and START_NEW alone (R114, R122). -/
theorem enterActive_splice {s : State} (hrun : s.roll.spliceState ≠ .run) (hnew : s.roll.spliceState ≠ .startNew) :
    (enterActive s).roll = s.roll := by
  obtain ⟨roll, -, -⟩ := activeBegun_frame s
  have warm : (warmChamber (activeBegun s)).roll = s.roll := by simpa using roll
  rw [enterActive_eq, ← warm]
  unfold rollAtActive
  split
  · rw [if_neg (by rwa [warm]), spliceTest_rests (.inl (by rwa [warm]))]
  · rfl

/-! ## Where the sequence rests -/

/-- No event of the sequence is due, nor comes due while fill and arms stand. -/
structure SpliceRests (s : State) : Prop where
  not_prefill : s.roll.spliceState ≠ .prefill
  not_wait : s.roll.spliceState ≠ .spliceWait
  filled : s.roll.spliceState = .stopOld → s.cfg.unwind.fillMin < s.fill
  unrecovered : s.roll.spliceState = .recover → s.fill < s.cfg.unwind.fillNominal ∧ s.activeArm ≠ none

namespace SpliceRests
variable {s t : State}

/-- In RUN, PASTE and START_NEW the sequence waits for no event. -/
theorem of_state (h : s.roll.spliceState = .run ∨ s.roll.spliceState = .paste ∨ s.roll.spliceState = .startNew) :
    SpliceRests s := by
  rcases h with h | h | h <;> constructor <;> simp [h]

theorem congr (h : SpliceRests s) (state : t.roll.spliceState = s.roll.spliceState)
    (image : t.loader.image = s.loader.image) (web : t.web.infeed = s.web.infeed ∧ t.web.outfeed = s.web.outfeed)
    (roll : t.roll.fillBase = s.roll.fillBase ∧ t.roll.arm1 = s.roll.arm1 ∧ t.roll.arm2 = s.roll.arm2) : SpliceRests t := by
  obtain ⟨infeed, outfeed⟩ := web
  obtain ⟨base, arms⟩ := roll
  have fill := fill_congr ⟨image, infeed, outfeed, base⟩
  have cfg := cfg_of_image image
  constructor <;> rw [state]
  · exact h.not_prefill
  · exact h.not_wait
  · rw [fill, cfg]
    exact h.filled
  · rw [fill, cfg, activeArm_congr arms]
    exact h.unrecovered

theorem not_moves (h : SpliceRests s) {d : Due} (hd : s.due = some d) : d.movesSplice = false := by
  obtain ⟨prefill, wait, stop, recover⟩ := spliceState_of_test s
  obtain ⟨prefillDone, stopOld, stopOldLow, recovered⟩ := dueUnwind_splice_iff s
  cases d with
  | prefillDone => exact absurd (prefill (prefillDone.1 (due_unwind hd rfl))) h.not_prefill
  | stopOld => exact absurd (wait (stopOld.1 (due_unwind hd rfl))) h.not_wait
  | stopOldLow =>
    have hlow := stopOldLow.1 (due_unwind hd rfl)
    have hhigh := h.filled (stop hlow)
    simp [State.stopOldLow, Nat.not_le.2 hhigh] at hlow
  | recovered =>
    have hback := recovered.1 (due_unwind hd rfl)
    obtain ⟨hlow, hactive⟩ := h.unrecovered (recover hback)
    simp [State.recovered, Nat.not_le.2 hlow, hactive] at hback
  | _ => rfl

/-- What has fallen due leaves a sequence at rest. -/
theorem settle (h : SpliceRests s) : SpliceRests (settle s) ∧ (settle s).roll.spliceState = s.roll.spliceState ∧
    (settle s).roll.spliceArm = s.roll.spliceArm := by
  refine settle_keeps (fun t => SpliceRests t ∧ t.roll.spliceState = s.roll.spliceState ∧
    t.roll.spliceArm = s.roll.spliceArm) (fun t ⟨rests, state, arm⟩ => ?_) (fun t d ⟨rests, state, arm⟩ hd => ?_) s
    ⟨h, rfl, rfl⟩
  · exact ⟨rests.congr (by simp) (by simp) (by simp) (by simp), by simpa using state, by simpa using arm⟩
  · obtain ⟨state', arm'⟩ := takeDue_splice (rests.not_moves hd) t
    exact ⟨rests.congr state' (by simp) (by simp) (by simp), state'.trans state, arm'.trans arm⟩

/-- A command that brings no entry to ACTIVE ends with the sequence at rest. -/
theorem finish_steady (h : SpliceRests s) (hs : s.steady) : (finish s).roll.spliceState = s.roll.spliceState ∧
    (finish s).roll.spliceArm = s.roll.spliceArm := by
  rw [finish_of_steady hs]
  simpa using h.settle.2

/-- Any command ends with the sequence at rest outside RUN and START_NEW, which an entry to ACTIVE moves on. -/
theorem finish (h : SpliceRests s) (hrun : s.roll.spliceState ≠ .run) (hnew : s.roll.spliceState ≠ .startNew) :
    (finish s).roll.spliceState = s.roll.spliceState := by
  obtain ⟨rests, state, -⟩ := h.settle
  rcases conclude_cases (Machine.settle s) with ⟨he, -⟩ | ⟨he, -⟩ <;> rw [Machine.finish, he]
  · simpa using state
  · have roll : (enterActive (refresh (Machine.settle s))).roll = (Machine.settle s).roll := by
      have h := enterActive_splice (s := refresh (Machine.settle s)) (by simpa [state] using hrun) (by simpa [state] using hnew)
      simpa using h
    have entered : SpliceRests (enterActive (refresh (Machine.settle s))) :=
      rests.congr (congrArg RollUnit.spliceState roll) (by simp) (by simp) (by simp)
    obtain ⟨-, state', -⟩ := entered.settle
    rw [roll, state] at state'
    simpa using state'

end SpliceRests

/-! ## The return to RUN (R86, R87, R114, R120, R121) -/

/-- The start test called by length is met: ACTIVE, the ACTIVE arm's roll at its reserve, and the other arm READY (R114). -/
def State.StartsSplice (s : State) : Prop :=
  s.mode = .active ∧ ∃ a r, s.activeArm = some a ∧ (s.arm a).roll = some r ∧ r.remaining ≤ s.cfg.unwind.reserve ∧
    (s.arm (otherArm a)).state = .ready

theorem startsSplice_congr {s t : State} (hl : t.loader = s.loader)
    (h : t.roll.arm1 = s.roll.arm1 ∧ t.roll.arm2 = s.roll.arm2) : t.StartsSplice ↔ s.StartsSplice := by
  have mode : t.mode = s.mode := congrArg Loader.mode hl
  simp only [State.StartsSplice, mode, activeArm_congr h, arm_congr h, cfg_of_image (congrArg Loader.image hl)]

/-- In RUN the start test starts a splice with the other arm when it is met. -/
theorem spliceTest_of_starts {s : State} (hrun : s.roll.spliceState = .run) (h : s.StartsSplice) {a : ArmName}
    (ha : s.activeArm = some a) : spliceTest s = startSplice (otherArm a) s := by
  obtain ⟨mode, b, r, hb, hr, hlow, hready⟩ := h
  cases ha.symm.trans hb
  exact spliceTest_starts ha hr hlow hready hrun mode

theorem spliceTest_of_not_starts {s : State} (h : ¬ s.StartsSplice) : spliceTest s = s := by
  refine spliceTest_rests ?_
  by_cases hm : s.mode = .active
  · refine .inr (.inr fun a r ha hr => ?_)
    by_contra hc
    simp only [not_or, Nat.not_lt, not_not] at hc
    exact h ⟨hm, a, r, ha, hr, hc⟩
  · exact .inr (.inl hm)

/-- RUN as the sequence returns to it, before the start test. -/
def runAgain (s : State) : State :=
  rollConditions ((s.withRoll { s.roll with spliceState := .run, spliceArm := none, spliceMiddle := none }).withOrder
    { s.order with spliceRequest := false, fence := false })

theorem runAgain_sets (s : State) : (runAgain s).roll.spliceState = .run ∧ (runAgain s).roll.spliceArm = none ∧
    (runAgain s).order.spliceRequest = false ∧ (runAgain s).order.fence = false := by
  simp [runAgain]

theorem returnToRun_eq (s : State) : returnToRun s = spliceTest (runAgain s) := rfl

/-- What a return to RUN leaves: no splice, or the next one where the start test is met. -/
theorem returnToRun_leaves (s : State) : (returnToRun s).roll.arm1 = s.roll.arm1 ∧ (returnToRun s).roll.arm2 = s.roll.arm2 ∧
    (returnToRun s).order.fence = false ∧ (returnToRun s).web = s.web ∧
    (¬ s.StartsSplice → (returnToRun s).roll.spliceState = .run ∧ (returnToRun s).roll.spliceArm = none ∧
      (returnToRun s).order.spliceRequest = false ∧ (returnToRun s).fillTarget = s.cfg.unwind.fillNominal) ∧
    (∀ a, s.StartsSplice → s.activeArm = some a → (returnToRun s).roll.spliceState = .prefill ∧
      (returnToRun s).roll.spliceArm = some (otherArm a) ∧ (returnToRun s).order.spliceRequest = true) := by
  obtain ⟨state, arm, request, fence⟩ := runAgain_sets s
  have arms : (runAgain s).roll.arm1 = s.roll.arm1 ∧ (runAgain s).roll.arm2 = s.roll.arm2 := by simp [runAgain]
  have starts : (runAgain s).StartsSplice ↔ s.StartsSplice := startsSplice_congr (by simp [runAgain]) arms
  refine ⟨by simp, by simp, ?_, by simp, fun hn => ?_, fun a hs ha => ?_⟩
  · rw [returnToRun_eq]
    by_cases h : (runAgain s).StartsSplice
    · obtain ⟨-, a, -, ha, -⟩ := id h
      rw [spliceTest_of_starts state h ha]
      simpa [startSplice] using fence
    · rw [spliceTest_of_not_starts h, fence]
  · have target : (runAgain s).fillTarget = s.cfg.unwind.fillNominal := by
      rw [State.fillTarget, state, cfg_of_image (s := s) (by simp [runAgain])]
    rw [returnToRun_eq, spliceTest_of_not_starts (mt starts.1 hn)]
    exact ⟨state, arm, request, target⟩
  · rw [returnToRun_eq, spliceTest_of_starts state (starts.2 hs) ((activeArm_congr arms).trans ha)]
    obtain ⟨state', arm', -, request', -⟩ := startSplice_sets (otherArm a) (runAgain s)
    exact ⟨state', arm', request'⟩

end Sys2Proof.Machine
end

