-- ==== Sys2Proof/Proofs/SpliceTimers.lean ====
section
/-! PROOFS. O45: the timers of a splice, what falls due in it, its ramp updates, and its end at a trip. -/

namespace Sys2Proof.Machine
open Sys2Proof

/-! ## The paste timer (R118, R123) -/

theorem bringIn_brings {s : State} {a : ArmName} (ha : s.roll.spliceArm = some a)
    (h : (s.arm a).state = .loaded ∨ (s.arm a).state = .ready) : bringIn s = activateArm a s := by
  unfold bringIn
  rw [ha]
  rcases h with h | h <;> simp [h]

theorem bringIn_leaves {s : State}
    (h : ∀ a, s.roll.spliceArm = some a → (s.arm a).state ≠ .loaded ∧ (s.arm a).state ≠ .ready) : bringIn s = s := by
  unfold bringIn
  split
  · rename_i a ha
    obtain ⟨hl, hr⟩ := h a ha
    split <;> simp_all
  · rfl

/-- START_NEW as the paste ends, before the splice arm is brought in (R118). -/
def pasteOver (s : State) : State := enterSplice .startNew ((stopPaste s).withRoll { (stopPaste s).roll with webSeen := false })

theorem pasteOver_frame (s : State) : (pasteOver s).loader = s.loader ∧ (pasteOver s).peers = s.peers ∧
    (pasteOver s).roll = { s.roll with
      pasteOutput := false, pasteTimer := none, webSeen := false, spliceState := .startNew } := by
  simp [pasteOver, stopPaste, enterSplice]

theorem pasteDone_paste {s : State} (h : s.roll.spliceState = .paste) : pasteDone s =
    if (bringIn (pasteOver s)).mode = .active then
      (bringIn (pasteOver s)).withRoll { (bringIn (pasteOver s)).roll with webTimer := some 2000 }
    else bringIn (pasteOver s) := if_pos h

theorem bringIn_frame (s : State) : (bringIn s).loader = s.loader ∧ (bringIn s).peers = s.peers ∧
    (bringIn s).roll.spliceState = s.roll.spliceState ∧ (bringIn s).roll.pasteOutput = s.roll.pasteOutput ∧
    (bringIn s).roll.pasteTimer = s.roll.pasteTimer ∧ (bringIn s).roll.webSeen = s.roll.webSeen ∧
    (bringIn s).roll.webTimer = s.roll.webTimer := by
  unfold bringIn
  split
  · split <;> simp
  · simp

theorem pasteDone_frame (s : State) : (pasteDone s).loader = s.loader ∧ (pasteDone s).peers = s.peers ∧
    (pasteDone s).roll.pasteOutput = false ∧ (pasteDone s).roll.pasteTimer = none := by
  by_cases h : s.roll.spliceState = .paste
  · rw [pasteDone_paste h]
    split <;> simp [bringIn_frame, pasteOver_frame]
  · have hx : pasteDone s = stopPaste s := if_neg h
    simp [hx, stopPaste]

/-- The end of a paste enters START_NEW, and in ACTIVE the web-present timer runs. -/
theorem pasteDone_sequence {s : State} (h : s.roll.spliceState = .paste) : (pasteDone s).roll.spliceState = .startNew ∧
    (pasteDone s).roll.webSeen = false ∧
    (pasteDone s).roll.webTimer = (if s.mode = .active then some 2000 else s.roll.webTimer) := by
  have mode : (bringIn (pasteOver s)).mode = s.mode := by simp [State.mode, bringIn_frame, pasteOver_frame]
  rw [pasteDone_paste h, mode]
  split <;> simp [bringIn_frame, pasteOver_frame]

/-- The arms and v_u after the end of a paste are those after the splice arm has been brought in. -/
theorem pasteDone_arm {s : State} (h : s.roll.spliceState = .paste) :
    (pasteDone s).roll.vU = (bringIn (pasteOver s)).roll.vU ∧ ∀ a, (pasteDone s).arm a = (bringIn (pasteOver s)).arm a := by
  rw [pasteDone_paste h]
  split
  · exact ⟨rfl, arm_congr ⟨rfl, rfl⟩⟩
  · exact ⟨rfl, fun _ => rfl⟩

/-- The splice arm that holds a record becomes ACTIVE, from v_u 0 (R110, R118). -/
theorem pasteDone_brings {s : State} (h : s.roll.spliceState = .paste) {a : ArmName} (ha : s.roll.spliceArm = some a)
    (hs : (s.arm a).state = .loaded ∨ (s.arm a).state = .ready) :
    (pasteDone s).arm a = { s.arm a with state := .active, lastSample := none, mark := none } ∧
    (pasteDone s).arm (otherArm a) = s.arm (otherArm a) ∧ (pasteDone s).roll.vU = 0 := by
  obtain ⟨vU, arms⟩ := pasteDone_arm h
  have same (b : ArmName) : (pasteOver s).arm b = s.arm b := arm_congr (by simp [pasteOver_frame]) b
  have brought : bringIn (pasteOver s) = activateArm a (pasteOver s) :=
    bringIn_brings (by simpa [pasteOver_frame] using ha) (by rwa [same])
  obtain ⟨own, other⟩ := activateArm_arms a (pasteOver s)
  rw [arms, arms, vU, brought, own, other, same, same]
  exact ⟨rfl, rfl, by simp [activateArm]⟩

/-- Without such an arm the arms stay as they are. -/
theorem pasteDone_leaves {s : State} (h : s.roll.spliceState = .paste)
    (hs : ∀ a, s.roll.spliceArm = some a → (s.arm a).state ≠ .loaded ∧ (s.arm a).state ≠ .ready) (a : ArmName) :
    (pasteDone s).arm a = s.arm a := by
  have same (b : ArmName) : (pasteOver s).arm b = s.arm b := arm_congr (by simp [pasteOver_frame]) b
  rw [(pasteDone_arm h).2, bringIn_leaves fun b hb => ?_, same]
  rw [same]
  exact hs b (by simpa [pasteOver_frame] using hb)

theorem exec_pasteTimerExpiry {s : State} (hp : s.roll.pasteTimer.isSome = true) : exec .pasteTimerExpiry s =
    .next (if s.operating then finish (pasteDone s) else stopPaste s) := congrArg Host.Outcome.next (if_pos hp)

/-! ## The web-present timer (R119) -/

/-- A trip starts no web-present timer (R122). -/
theorem addTrip_webTimer (c : TripCause) {s : State} (h : s.roll.webTimer = none) : (addTrip c s).roll.webTimer = none := by
  have entered (t : State) (ht : t.roll.webTimer = none) :
      (pulseForMode (enterTripped (queueTrip c t))).roll.webTimer = none := by
    obtain ⟨-, timer⟩ := tripBegun_splice (s := queueTrip c t) (by simp [ht])
    rw [enterTripped_eq]
    split <;> simp [timer]
  unfold addTrip
  split
  iterate 3 exact entered _ h
  · split <;> simp [h]
  all_goals exact h

theorem webPresentExpiry_runs {s : State} (h : s.roll.webTimer.isSome = true) : webPresentExpiry s =
    if s.roll.spliceState = .startNew ∧ s.roll.webSeen = false then
      addTrip .spliceFail (s.withRoll { s.roll with webTimer := none })
    else s.withRoll { s.roll with webTimer := none } := if_pos h

/-! ## What falls due in the UNWIND (R115, R116, R120, R121) -/

/-- With no handoff and no exit due, what is due in the UNWIND is due by its own tests: it reads no mark (R15). -/
theorem due_eq_dueUnwind {s : State} (ho : s.operating = true) (hu : s.is .unwind = true) (he : s.dueExit = none) :
    s.due = s.dueUnwind := by
  have role : s.role = some .unwind := by simpa [State.is] using hu
  simp [State.due, ho, hu, he, State.dueWindow, State.hasMark, State.dueRole, role]

theorem prefillDone_iff (s : State) : s.prefillDone = true ↔ s.roll.spliceState = .prefill ∧
    s.roll.spliceMiddle.isSome = true ∧ s.cfg.unwind.fillSplice ≤ s.fill := by
  simp [State.prefillDone, and_assoc]

theorem stopOldDue_iff (s : State) : s.stopOldDue = true ↔ s.roll.spliceState = .spliceWait ∧
    s.cfg.unwind.fillSplice ≤ s.fill ∧ ∃ seg middle, s.roll.spliceMiddle = some (seg, middle) ∧
      signedDiff middle s.position ≤ s.stoppingDistance := by
  simp [State.stopOldDue, and_assoc, Option.any_eq_true]

theorem stopOldLow_iff (s : State) : s.stopOldLow = true ↔ s.roll.spliceState = .stopOld ∧
    s.fill ≤ s.cfg.unwind.fillMin := by
  simp [State.stopOldLow]

theorem recovered_iff (s : State) : s.recovered = true ↔ s.roll.spliceState = .recover ∧
    (s.cfg.unwind.fillNominal ≤ s.fill ∨ s.activeArm = none) := by
  simp [State.recovered]

theorem enterSplice_roll (x : SpliceState) (s : State) : (enterSplice x s).roll = { s.roll with spliceState := x } := by
  simp [enterSplice]

theorem unwindDemand_stopOld {s : State} (h : s.roll.spliceState = .stopOld) : s.unwindDemand = 0 := by
  simp [State.unwindDemand, h]

/-- An abort tells of itself and returns to RUN (R121). -/
theorem abortSplice_flag (s : State) : Cond.spliceAbort ∈ (abortSplice s).cond.flags :=
  (returnToRun_settles _).flags _ (raise_sets ..) rfl

/-- What an abort leaves is what the return to RUN leaves. -/
theorem abortSplice_leaves (s : State) : (abortSplice s).roll.arm1 = s.roll.arm1 ∧ (abortSplice s).roll.arm2 = s.roll.arm2 ∧
    (abortSplice s).order.fence = false ∧ (abortSplice s).web = s.web ∧
    (¬ s.StartsSplice → (abortSplice s).roll.spliceState = .run ∧ (abortSplice s).roll.spliceArm = none ∧
      (abortSplice s).order.spliceRequest = false ∧ (abortSplice s).fillTarget = s.cfg.unwind.fillNominal) ∧
    (∀ a, s.StartsSplice → s.activeArm = some a → (abortSplice s).roll.spliceState = .prefill ∧
      (abortSplice s).roll.spliceArm = some (otherArm a) ∧ (abortSplice s).order.spliceRequest = true) := by
  have leaves := returnToRun_leaves (raise .spliceAbort s)
  have starts : (raise .spliceAbort s).StartsSplice ↔ s.StartsSplice := startsSplice_congr (by simp) (by simp)
  have active : (raise .spliceAbort s).activeArm = s.activeArm := activeArm_congr (by simp)
  have cfg : (raise .spliceAbort s).cfg = s.cfg := cfg_of_image (by simp)
  rw [starts, active, cfg] at leaves
  simpa [abortSplice] using leaves

end Sys2Proof.Machine
end

