-- ==== Sys2Proof/Proofs/SpliceRamp.lean ====
section
/-! PROOFS. The splice at a ramp update: the unwind standing in STOP_OLD, and the web seen in START_NEW (R110, R117, R119; basis
of O45). -/

namespace Sys2Proof.Machine
open Sys2Proof

/-! ## The join test over a millisecond (R29, R191) -/

/-- An older entry keeps its role, is as known as before, and is LIVE only where it was. -/
theorem aged_heard (e : PeerEntry) : e.aged.role = e.role ∧ (e.aged.liveness = .unknown ↔ e.liveness = .unknown) ∧
    (e.aged.liveness = .live → e.liveness = .live) := by
  unfold PeerEntry.aged PeerEntry.judged
  cases hl : e.liveness with
  | unknown => simp [hl]
  | lost => simp
  | live | late =>
    simp only [reduceCtorEq, if_false]
    split
    · simp
    · split <;> simp_all

/-- The join test does not come to pass by the peers' ageing. -/
theorem steady_of_aged {s t : State} (image : t.loader.image = s.loader.image) (mode : t.mode = s.mode)
    (peers : t.peers = s.peers.map PeerEntry.aged) (h : s.steady) : t.steady := by
  have others : t.rosterOthers = s.rosterOthers := by simp [State.rosterOthers, cfg_of_image image]
  have aged (a : Nat) := aged_heard (s.peer a)
  have count (r : Role) : t.countRole r = s.countRole r := by
    simp [State.countRole, others, is_of_image image, peer_of_aged peers, aged]
  have composition : t.compositionValid = s.compositionValid := by
    simp only [State.compositionValid, others, count, peer_of_aged peers, ne_eq, aged]
  rcases h with h | h | ⟨h, hj⟩
  · exact .inl (mode.trans h)
  · exact .inr (.inl (mode.trans h))
  · refine .inr (.inr ⟨mode.trans h, ?_⟩)
    by_contra hn
    have ready : t.joinReady = true := by simpa using hn
    simp only [State.joinReady, others, composition, mode, peer_of_aged peers, Bool.and_eq_true, List.all_eq_true,
      beq_iff_eq] at ready
    obtain ⟨⟨-, live⟩, valid⟩ := ready
    simp only [State.joinReady, h, valid, Bool.and_true, beq_self_eq_true, Bool.true_and] at hj
    have : s.rosterOthers.all (fun a => (s.peer a).liveness == .live) = true := by
      simpa using fun a ha => (aged a).2.2 (live a ha)
    exact absurd (this.symm.trans hj) (by decide)

/-! ## The figures of an update (R38, R109, R110; log entry 52) -/

theorem approach_zero (step v : Nat) : approach step 0 v = v - step := by
  unfold approach
  split <;> omega

/-- The UNWIND with the v_out and v_u of a ramp update, before the tests of STOP_OLD and START_NEW. -/
def unwindRamped (w p d : Bool) (s : State) : State :=
  driveUnwind (measureOut (agePeers (rampGov (tickTimers (samplePins w p d s)))))

/-- The tests, the flat ceiling and the map stall of a ramp update. -/
def unwindTested (s : State) : State := stallAtStandstill (loadFlatCeiling (startNewTest (pasteTest s)))

theorem agePeers_frame (s : State) : (agePeers s).loader = s.loader ∧ (agePeers s).peers = s.peers.map PeerEntry.aged ∧
    (agePeers s).web = s.web ∧ (agePeers s).roll = s.roll ∧ (agePeers s).pins = s.pins := by
  unfold agePeers
  dsimp only
  split <;> simp [followPeerLate]

/-- The governor's ramp leaves the roll unit but for v_u and the exit command, which stop with drive enable in TRIPPED (R44). -/
theorem rampGov_unwind (s : State) : (rampGov s).loader = s.loader ∧ (rampGov s).peers = s.peers ∧
    (rampGov s).web = s.web ∧ (rampGov s).pins = s.pins ∧
    (rampGov s).roll.arm1 = s.roll.arm1 ∧ (rampGov s).roll.arm2 = s.roll.arm2 ∧
    (rampGov s).roll.spliceState = s.roll.spliceState ∧ (rampGov s).roll.webSeen = s.roll.webSeen ∧
    (rampGov s).roll.fillBase = s.roll.fillBase ∧
    (rampGov s).roll.vU ≤ s.roll.vU ∧ (s.mode ≠ .tripped → (rampGov s).roll.vU = s.roll.vU) := by
  rcases rampGov_cases s with ⟨hm, -, h⟩ | ⟨h, -⟩ <;> rw [h]
  · simp [clearDrive, stopUnwind, hm]
  · simp

theorem unwindRamped_frame (w p d : Bool) (s : State) :
    (unwindRamped w p d s).loader.image = s.loader.image ∧ (unwindRamped w p d s).mode = s.mode ∧
    (unwindRamped w p d s).peers = s.peers.map PeerEntry.aged ∧ (unwindRamped w p d s).web = s.web ∧
    (unwindRamped w p d s).pins.webPresent = w ∧ (unwindRamped w p d s).roll.arm1 = s.roll.arm1 ∧
    (unwindRamped w p d s).roll.arm2 = s.roll.arm2 ∧ (unwindRamped w p d s).roll.spliceState = s.roll.spliceState ∧
    (unwindRamped w p d s).roll.webSeen = s.roll.webSeen ∧ (unwindRamped w p d s).roll.fillBase = s.roll.fillBase := by
  generalize hv : tickTimers (samplePins w p d s) = v
  have ticked : v.loader.image = s.loader.image ∧ v.mode = s.mode ∧ v.peers = s.peers ∧ v.web = s.web ∧
      v.pins.webPresent = w ∧ v.roll = { s.roll with
        pasteTimer := tickTimer s.roll.pasteTimer, webTimer := tickTimer s.roll.webTimer } := by
    simp [← hv, tickTimers, samplePins, State.mode]
  have mode : v.loader.mode = s.mode := ticked.2.1
  simp [unwindRamped, hv, agePeers_frame, rampGov_unwind, ticked, State.mode, mode]

/-- In STOP_OLD the unwind slows by its step, or stands at once where a trip ends (R44, R110). -/
theorem unwindRamped_stopOld (w p d : Bool) {s : State} (h : s.roll.spliceState = .stopOld) :
    (unwindRamped w p d s).roll.vU ≤ s.roll.vU - s.cfg.unwind.aUnwind ∧
    (s.mode ≠ .tripped → (unwindRamped w p d s).roll.vU = s.roll.vU - s.cfg.unwind.aUnwind) := by
  generalize hv : tickTimers (samplePins w p d s) = v
  have ticked : v.loader.image = s.loader.image ∧ v.mode = s.mode ∧ v.roll.vU = s.roll.vU ∧
      v.roll.spliceState = s.roll.spliceState := by simp [← hv, tickTimers, samplePins, State.mode]
  obtain ⟨image, mode, vU, state⟩ := ticked
  obtain ⟨loader, -, -, -, -, -, state', -, -, le, eq⟩ := rampGov_unwind v
  generalize hg : measureOut (agePeers (rampGov v)) = g
  have gimage : g.loader.image = s.loader.image := by simp [← hg, agePeers_frame, loader, image]
  have gstate : g.roll.spliceState = .stopOld := by simp [← hg, agePeers_frame, state', state, h]
  have gvU : g.roll.vU = (rampGov v).roll.vU := by simp [← hg, agePeers_frame]
  have slowed : (unwindRamped w p d s).roll.vU = (rampGov v).roll.vU - s.cfg.unwind.aUnwind := by
    rw [unwindRamped, hv, hg, driveUnwind, unwindDemand_stopOld gstate, cfg_of_image gimage, ← gvU]
    exact approach_zero ..
  rw [slowed]
  refine ⟨by omega, fun hm => ?_⟩
  rw [eq (by rwa [mode]), vU]

/-! ## STOP_OLD (R117) -/

theorem exec_rampUpdate_unwind (w p d : Bool) {s : State} (ho : s.operating = true) (hu : s.is .unwind = true) :
    exec (.rampUpdate w p d) s = .next (finish (unwindTested (unwindRamped w p d s))) := by
  generalize hv : tickTimers (samplePins w p d s) = v
  have image : v.loader.image = s.loader.image := by simp [← hv, tickTimers, samplePins]
  have mode : v.mode = s.mode := by simp [← hv, tickTimers, samplePins, State.mode]
  have unwind : (agePeers (rampGov v)).is .unwind = true :=
    (is_of_image (by simp [agePeers_frame, rampGov_unwind, image]) _).trans hu
  have answer : exec (.rampUpdate w p d) s = .next (if v.operating then finish (rampStep v) else v) := by
    rw [← hv]
    rfl
  rw [answer, if_pos (by rwa [State.operating, mode]), rampStep, rampUnwind, if_pos unwind, unwindRamped, hv]
  rfl

theorem unwindTested_frame (s : State) : (unwindTested s).loader = s.loader ∧ (unwindTested s).peers = s.peers ∧
    (unwindTested s).web = s.web ∧ (unwindTested s).roll.fillBase = s.roll.fillBase ∧
    (unwindTested s).roll.vU = s.roll.vU ∧ (unwindTested s).roll.vOut = s.roll.vOut := by
  simp [unwindTested]

/-- What PASTE begins with: the paste output for t_paste, and the ACTIVE arm EXPIRING (R117). -/
theorem enterPaste_sets (s : State) : (enterPaste s).roll.spliceState = .paste ∧ (enterPaste s).roll.pasteOutput = true ∧
    (enterPaste s).roll.pasteTimer = some s.cfg.unwind.pasteTime ∧
    ∀ a, s.activeArm = some a →
      (enterPaste s).arm a = { s.arm a with state := .expiring, lastSample := none, mark := none } := by
  unfold enterPaste
  extract_lets t roll
  have image : t.loader.image = s.loader.image := by
    unfold t
    split <;> simp
  refine ⟨by simp [enterSplice], by simp [enterSplice], by simp [enterSplice], fun a ha => ?_⟩
  have expiring : t = setArm a { s.arm a with state := .expiring, lastSample := none, mark := none } s := by
    unfold t
    rw [ha]
  rw [← setArm_same a { s.arm a with state := .expiring, lastSample := none, mark := none } s, ← expiring]
  exact arm_congr (s := t) (by simp [enterSplice, roll]) a

/-- The unwind standing in STOP_OLD enters PASTE. -/
theorem unwindTested_pastes {s : State} (h : s.roll.spliceState = .stopOld) (hv : s.roll.vU = 0) :
    (unwindTested s).roll.spliceState = .paste ∧ (unwindTested s).roll.pasteOutput = true ∧
    (unwindTested s).roll.pasteTimer = some s.cfg.unwind.pasteTime ∧
    ∀ a, s.activeArm = some a →
      (unwindTested s).arm a = { s.arm a with state := .expiring, lastSample := none, mark := none } := by
  obtain ⟨state, output, timer, arms⟩ := enterPaste_sets s
  have pasted : pasteTest s = enterPaste s := if_pos ⟨h, hv⟩
  have tested : startNewTest (enterPaste s) = enterPaste s := if_neg (by simp [state])
  have reached : unwindTested s = stallAtStandstill (loadFlatCeiling (enterPaste s)) := by rw [unwindTested, pasted, tested]
  rw [reached]
  exact ⟨by simpa using state, by simpa using output, by simpa using timer,
    fun a ha => (arm_congr (by simp) a).trans (arms a ha)⟩

/-- The unwind still moving in STOP_OLD changes nothing. -/
theorem unwindTested_moves {s : State} (h : s.roll.spliceState = .stopOld) (hv : s.roll.vU ≠ 0) :
    (unwindTested s).roll.spliceState = .stopOld ∧ (unwindTested s).roll.arm1 = s.roll.arm1 ∧
    (unwindTested s).roll.arm2 = s.roll.arm2 := by
  have waits : pasteTest s = s := if_neg fun hc => hv hc.2
  have tested : startNewTest s = s := if_neg (by simp [h])
  have reached : unwindTested s = stallAtStandstill (loadFlatCeiling s) := by rw [unwindTested, waits, tested]
  simp [reached, h]

/-- A ramp update in STOP_OLD: PASTE once the unwind stands, and till then the slowing unwind. -/
theorem finish_stopOld (w p d : Bool) {s : State} (h : s.roll.spliceState = .stopOld) {t : State}
    (ht : t = finish (unwindTested (unwindRamped w p d s))) :
    (s.roll.vU ≤ s.cfg.unwind.aUnwind → t.roll.spliceState = .paste ∧ t.roll.vU = 0 ∧ t.roll.pasteOutput = true ∧
      t.roll.pasteTimer = some s.cfg.unwind.pasteTime ∧ ∀ a, s.activeArm = some a →
        t.arm a = { s.arm a with state := .expiring, lastSample := none, mark := none }) ∧
    (s.cfg.unwind.aUnwind < s.roll.vU → s.mode ≠ .tripped → s.cfg.unwind.fillMin < s.fill →
      t.roll.spliceState = .stopOld ∧ t.roll.vU = s.roll.vU - s.cfg.unwind.aUnwind) := by
  subst ht
  obtain ⟨le, eq⟩ := unwindRamped_stopOld w p d h
  obtain ⟨image, -, -, web, -, arm1, arm2, state, -, base⟩ := unwindRamped_frame w p d s
  generalize unwindRamped w p d s = u at *
  have same (a : ArmName) : u.arm a = s.arm a := arm_congr ⟨arm1, arm2⟩ a
  have cfg : u.cfg = s.cfg := cfg_of_image image
  refine ⟨fun hle => ?_, fun hlt hm hfill => ?_⟩
  · have hv : u.roll.vU = 0 := by omega
    obtain ⟨paste, output, timer, arms⟩ := unwindTested_pastes (state.trans h) hv
    have rests : SpliceRests (unwindTested u) := .of_state (.inr (.inl paste))
    refine ⟨(rests.finish (by simp [paste]) (by simp [paste])).trans paste, by simpa [unwindTested_frame] using hv,
      by simpa using output, by simpa [cfg] using timer, fun a ha => ?_⟩
    rw [finish_arm, arms a ((activeArm_congr ⟨arm1, arm2⟩).trans ha), same]
  · have hv := eq hm
    obtain ⟨stop, arms⟩ := unwindTested_moves (state.trans h) (by omega)
    obtain ⟨loader, -, web', base', vU, -⟩ := unwindTested_frame u
    have fill : (unwindTested u).fill = s.fill :=
      fill_congr ⟨(congrArg Loader.image loader).trans image, by rw [web', web], by rw [web', web], base'.trans base⟩
    have rests : SpliceRests (unwindTested u) := by
      refine ⟨by simp [stop], by simp [stop], fun _ => ?_, by simp [stop]⟩
      rwa [fill, cfg_of_image (congrArg Loader.image loader), cfg]
    exact ⟨(rests.finish (by simp [stop]) (by simp [stop])).trans stop, by simpa [vU] using hv⟩

/-! ## START_NEW (R119) -/

/-- The web is seen with v_u above 0, which stops its timer. -/
def webSighted (s : State) : State :=
  if s.pins.webPresent && 0 < s.roll.vU then s.withRoll { s.roll with webSeen := true, webTimer := none } else s

theorem webSighted_frame (s : State) : (webSighted s).loader = s.loader ∧ (webSighted s).web = s.web ∧
    (webSighted s).roll.arm1 = s.roll.arm1 ∧ (webSighted s).roll.arm2 = s.roll.arm2 ∧
    (webSighted s).roll.spliceState = s.roll.spliceState ∧ (webSighted s).roll.vU = s.roll.vU ∧
    (webSighted s).roll.vOut = s.roll.vOut ∧ (webSighted s).roll.fillBase = s.roll.fillBase := by
  unfold webSighted
  split <;> simp

theorem webSighted_sets (s : State) :
    ((webSighted s).roll.webSeen = true ↔ s.roll.webSeen = true ∨ s.pins.webPresent = true ∧ 0 < s.roll.vU) ∧
    (s.pins.webPresent = true → 0 < s.roll.vU → (webSighted s).roll.webTimer = none) := by
  unfold webSighted
  split <;> simp_all

/-- RECOVER follows in ACTIVE once the web has been seen and the unwind runs at v_out (log entry 22). -/
theorem startNewTest_of_startNew {s : State} (h : s.roll.spliceState = .startNew) : startNewTest s =
    if (webSighted s).roll.webSeen = true ∧ s.mode = .active ∧ s.roll.vOut ≤ s.roll.vU then
      enterSplice .recover (webSighted s)
    else webSighted s := by
  obtain ⟨loader, -, -, -, -, vU, vOut, -⟩ := webSighted_frame s
  have mode : (webSighted s).mode = s.mode := congrArg Loader.mode loader
  have test : startNewTest s = if (webSighted s).roll.webSeen && (webSighted s).mode == .active &&
      (webSighted s).roll.vOut ≤ (webSighted s).roll.vU then enterSplice .recover (webSighted s) else webSighted s := if_pos h
  rw [test, mode, vU, vOut]
  simp [and_assoc]


/-- Nothing that falls due enters START_NEW. -/
theorem takeDue_ne_startNew (d : Due) {s : State} (h : s.roll.spliceState ≠ .startNew) :
    (takeDue d s).roll.spliceState ≠ .startNew := by
  have run (u : State) : (returnToRun u).roll.spliceState ≠ .startNew := by
    rcases returnToRun_state u with hu | hu <;> simp [hu]
  cases d with
  | prefillDone | stopOld => simp [takeDue, enterSplice]
  | stopOldLow => exact run _
  | recovered => exact run _
  | _ => rwa [(takeDue_splice rfl s).1]

theorem settle_ne_startNew {s : State} (h : s.roll.spliceState ≠ .startNew) : (settle s).roll.spliceState ≠ .startNew :=
  settle_keeps (fun t => t.roll.spliceState ≠ .startNew) (fun _ h => by simpa using h) (fun _ d h _ => takeDue_ne_startNew d h)
    s h

/-- The tests of a ramp update in START_NEW. -/
theorem unwindTested_startNew {s : State} (h : s.roll.spliceState = .startNew) :
    (unwindTested s).roll.webSeen = (webSighted s).roll.webSeen ∧
    (unwindTested s).roll.webTimer = (webSighted s).roll.webTimer ∧ (unwindTested s).roll.arm1 = s.roll.arm1 ∧
    (unwindTested s).roll.arm2 = s.roll.arm2 ∧
    (unwindTested s).roll.spliceState =
      (if (webSighted s).roll.webSeen = true ∧ s.mode = .active ∧ s.roll.vOut ≤ s.roll.vU then .recover else .startNew) := by
  have waits : pasteTest s = s := if_neg (by simp [h])
  rw [unwindTested, waits, startNewTest_of_startNew h]
  split <;> simp [enterSplice, webSighted_frame, h]

/-- A ramp update in START_NEW: the web seen, and RECOVER in ACTIVE with the unwind at v_out. -/
theorem finish_startNew (w p d : Bool) {s : State} (hs : s.steady) (h : s.roll.spliceState = .startNew) {t : State}
    (ht : t = finish (unwindTested (unwindRamped w p d s))) :
    (t.roll.webSeen = true ↔ s.roll.webSeen = true ∨ w = true ∧ 0 < t.roll.vU) ∧
    (w = true → 0 < t.roll.vU → t.roll.webTimer = none) ∧
    (t.roll.webSeen = true → s.mode = .active → t.roll.vOut ≤ t.roll.vU → t.roll.spliceState ≠ .startNew ∧
      (t.fill < s.cfg.unwind.fillNominal → t.activeArm ≠ none → t.roll.spliceState = .recover)) ∧
    (t.roll.webSeen = false ∨ s.mode ≠ .active ∨ t.roll.vU < t.roll.vOut → t.roll.spliceState = .startNew) := by
  obtain ⟨image, mode, peers, -, web, -, -, state, seen, -⟩ := unwindRamped_frame w p d s
  generalize unwindRamped w p d s = u at *
  obtain ⟨loader, peers', -, -, vU, vOut⟩ := unwindTested_frame u
  obtain ⟨seen', timer', -, -, state'⟩ := unwindTested_startNew (state.trans h)
  obtain ⟨sighted, stopped⟩ := webSighted_sets u
  generalize unwindTested u = z at *
  have steady : z.steady := steady_of_aged ((congrArg Loader.image loader).trans image)
    ((congrArg Loader.mode loader).trans mode) (peers'.trans peers) hs
  have cfg : z.cfg = s.cfg := cfg_of_image ((congrArg Loader.image loader).trans image)
  have figures : t.roll.webSeen = (webSighted u).roll.webSeen ∧ t.roll.webTimer = (webSighted u).roll.webTimer ∧
      t.roll.vU = u.roll.vU ∧ t.roll.vOut = u.roll.vOut := by simp [ht, seen', timer', vU, vOut]
  obtain ⟨tseen, ttimer, tvU, tvOut⟩ := figures
  rw [← seen, ← web, tseen, ttimer, tvU, tvOut, ← mode]
  refine ⟨sighted, stopped, fun hseen hm hv => ?_, fun hn => ?_⟩
  · have recover : z.roll.spliceState = .recover := state'.trans (if_pos ⟨hseen, hm, hv⟩)
    have settled : t.roll = (settle z).roll := by rw [ht, finish_of_steady steady]; simp
    refine ⟨?_, fun hfill hactive => ?_⟩
    · rw [settled]
      exact settle_ne_startNew (by simp [recover])
    · have fill : t.fill = z.fill := fill_congr (by simp [ht])
      have active : t.activeArm = z.activeArm := activeArm_congr (by simp [ht])
      have rests : SpliceRests z := ⟨by simp [recover], by simp [recover], by simp [recover],
        fun _ => ⟨by rwa [cfg, ← fill], by rwa [← active]⟩⟩
      rw [settled, rests.settle.2.1, recover]
  · have waits : z.roll.spliceState = .startNew := by
      refine state'.trans (if_neg fun ⟨hseen, hm, hv⟩ => ?_)
      rcases hn with hn | hn | hn
      · cases hn.symm.trans hseen
      · exact hn hm
      · omega
    have rests : SpliceRests z := .of_state (.inr (.inr waits))
    rw [ht, (rests.finish_steady steady).1, waits]

end Sys2Proof.Machine
end

