-- ==== Sys2Proof/Proofs/SpliceAtTrip.lean ====
section
/-! PROOFS. The splice at a trip of the UNWIND: what of it ends, what waits, and that no SPLICE_ABORT is told (R122; basis of
O45). -/

namespace Sys2Proof.Machine
open Sys2Proof

/-! ## SPLICE_ABORT stands as it did (R121, R122) -/

/-- SPLICE_ABORT is neither set nor cleared. -/
def KeepsAbort (s t : State) : Prop := Cond.spliceAbort ∈ t.cond.flags ↔ Cond.spliceAbort ∈ s.cond.flags

namespace KeepsAbort

theorem of_eq {s t : State} (h : t.cond.flags = s.cond.flags) : KeepsAbort s t := by rw [KeepsAbort, h]

theorem trans {s t u : State} (h : KeepsAbort s t) (k : KeepsAbort t u) : KeepsAbort s u := Iff.trans k h

theorem raise {c : Cond} (h : c ≠ .spliceAbort) (s : State) : KeepsAbort s (raise c s) := raise_others c _ h.symm s

theorem follow {c : Cond} (h : c ≠ .spliceAbort) (b : Bool) (s : State) : KeepsAbort s (follow c b s) := by
  cases b
  · simp [KeepsAbort, Machine.follow, h.symm]
  · exact raise h s

end KeepsAbort

theorem dropHeldFold_abort (s : State) : KeepsAbort s (dropHeldFold s) := by
  unfold dropHeldFold
  split
  · exact KeepsAbort.trans (.of_eq (by simp)) (.raise (by decide) _)
  · exact .of_eq rfl

theorem tripKnife_abort (s : State) : KeepsAbort s (tripKnife s) := by
  unfold tripKnife
  refine KeepsAbort.trans (.of_eq ?_) (dropHeldFold_abort _)
  split <;> simp

theorem endRun_abort (s : State) : KeepsAbort s (endRun s) := by
  unfold endRun
  split
  · exact .of_eq rfl
  · exact (dropHeldFold_abort s).trans (.of_eq (by simp))

theorem dropSegKnife_abort (uid : Nat) (s : State) : KeepsAbort s (dropSegKnife uid s) := by
  unfold dropSegKnife
  extract_lets t
  refine KeepsAbort.trans (t := t) ?_ (.of_eq rfl)
  unfold t
  split
  · split
    · exact endRun_abort s
    · exact .of_eq rfl
  · exact .of_eq rfl

theorem removeSeg_abort (uid : Nat) (s : State) : KeepsAbort s (removeSeg uid s) := by
  unfold removeSeg
  split
  · exact .of_eq rfl
  · exact KeepsAbort.trans (.of_eq (by simp)) ((dropSegKnife_abort uid _).trans (.of_eq rfl))

theorem placeRule_abort (uid : Nat) (s : State) : KeepsAbort s (placeRule uid s) := by
  have removed (l : List Segment) (u : State) : KeepsAbort u (l.foldl (fun t h => removeSeg h.uid t) u) := by
    induction l generalizing u with
    | nil => exact .of_eq rfl
    | cons g l ih => exact (removeSeg_abort g.uid u).trans (ih _)
  unfold placeRule
  split
  · exact .of_eq rfl
  · extract_lets ahead covered t
    have ht : KeepsAbort s t := removed _ s
    split
    · exact ht
    · exact ht.trans (.of_eq (by simp))

theorem setWait_abort (w : OrderWait) (s : State) : KeepsAbort s (setWait w s) :=
  KeepsAbort.trans (.of_eq (by simp)) ((KeepsAbort.follow (by decide) _ _).trans (.follow (by decide) _ _))

theorem makeBirth_abort (s : State) : KeepsAbort s (makeBirth s) := by
  have placed : KeepsAbort s s.bornPlaced := by
    unfold State.bornPlaced
    split
    · exact KeepsAbort.trans (.of_eq (by simp)) (placeRule_abort ..)
    · exact .of_eq (by simp)
  rw [makeBirth_eq]
  refine placed.trans (KeepsAbort.trans (t := s.bornPlaced.withOrder s.birthOrder) (.of_eq rfl) ?_)
  cases s.bornNow with
  | splice => exact .of_eq rfl
  | panel o => exact KeepsAbort.trans (.of_eq rfl) (setWait_abort ..)
  | leader => exact setWait_abort ..

theorem stallAtStandstill_abort (s : State) : KeepsAbort s (stallAtStandstill s) := by
  unfold stallAtStandstill
  split
  · exact KeepsAbort.trans (.of_eq rfl) (.raise (by decide) _)
  · exact .of_eq rfl

theorem rollConditions_abort (s : State) : KeepsAbort s (rollConditions s) := by
  unfold rollConditions
  extract_lets low out
  have hlow : KeepsAbort s (follow .rollLow low s) := .follow (by decide) ..
  have hout : KeepsAbort (follow .rollLow low s) (follow .rollOut out (follow .rollLow low s)) := .follow (by decide) ..
  exact hlow.trans (hout.trans (.of_eq (by simp)))

/-! ## A sequence that has ended (R86, R87, R122) -/

/-- RUN in the UNWIND with no splice asked for. -/
structure SpliceEnded (s : State) : Prop where
  unwind : s.is .unwind = true
  state : s.roll.spliceState = .run
  arm : s.roll.spliceArm = none
  request : s.order.spliceRequest = false
  fence : s.order.fence = false

/-- A birth without a request is no SPLICE (R85). -/
theorem makeBirth_unrequested {s : State} (h : s.order.spliceRequest = false) :
    (makeBirth s).order.spliceRequest = false ∧ (makeBirth s).order.fence = s.order.fence := by
  have kind : s.bornNow ≠ .splice := by
    unfold State.bornNow
    rw [if_neg (by simp [h])]
    repeat' split
    all_goals simp
  rw [makeBirth_eq]
  cases hb : s.bornNow with
  | splice => exact absurd hb kind
  | panel o => simp [afterBirth, setWait_order, State.birthOrder, h]
  | leader => simp [afterBirth, setWait_order, State.birthOrder, h]

namespace SpliceEnded
variable {s t : State}

theorem congr (h : SpliceEnded s) (image : t.loader.image = s.loader.image)
    (splice : t.roll.spliceState = s.roll.spliceState ∧ t.roll.spliceArm = s.roll.spliceArm)
    (order : t.order.spliceRequest = s.order.spliceRequest ∧ t.order.fence = s.order.fence) : SpliceEnded t :=
  ⟨(is_of_image image _).trans h.unwind, splice.1.trans h.state, splice.2.trans h.arm, order.1.trans h.request,
    order.2.trans h.fence⟩

theorem takeDue {d : Due} (h : SpliceEnded s) (hd : s.due = some d) :
    SpliceEnded (takeDue d s) ∧ KeepsAbort s (takeDue d s) := by
  have rests : SpliceRests s := .of_state (.inl h.state)
  have splice := takeDue_splice (rests.not_moves hd) s
  cases d with
  | openWindow | acceptMark | holdClosing | closeWindow | fold | endRun | startRun | shift | boundary =>
    exact not_other h.unwind (not_unwind_of_due hd (by simp [Due.part]) (by simp [Due.part]))
  | prefillDone | stopOld | stopOldLow | recovered => cases rests.not_moves hd
  | handoff g => exact ⟨h.congr (by simp) splice (by simp [Machine.takeDue]), .of_eq (by simp [Machine.takeDue])⟩
  | trailExit g => exact ⟨h.congr (by simp) splice (by simp [Machine.takeDue]), removeSeg_abort ..⟩
  | birth =>
    obtain ⟨request, fence⟩ := makeBirth_unrequested h.request
    exact ⟨h.congr (by simp) splice ⟨request.trans h.request.symm, fence⟩, makeBirth_abort s⟩
  | holdBirth =>
    exact ⟨h.congr (by simp) splice (by simp [Machine.takeDue]),
      KeepsAbort.trans (.of_eq rfl) (stallAtStandstill_abort _)⟩
  | endStall => exact ⟨h.congr (by simp) splice (by simp [Machine.takeDue]), .of_eq rfl⟩

theorem settle (h : SpliceEnded s) : SpliceEnded (settle s) ∧ KeepsAbort s (settle s) := by
  refine settle_keeps (fun t => SpliceEnded t ∧ KeepsAbort s t) (fun t ⟨ended, abort⟩ => ?_) (fun t d ⟨ended, abort⟩ hd => ?_)
    s ⟨h, .of_eq rfl⟩
  · have outfeed : t.is .outfeed = false := by
      by_contra hn
      exact not_other ended.unwind (not_unwind_of_is (by simpa using hn) (by decide))
    rw [retest, if_neg (by simp [outfeed])]
    exact ⟨ended, abort⟩
  · obtain ⟨ended', abort'⟩ := ended.takeDue hd
    exact ⟨ended', abort.trans abort'⟩

/-- A command that ends in TRIPPED starts no splice again, and tells of no abort. -/
theorem finish_tripped (h : SpliceEnded s) (hm : s.mode = .tripped) : SpliceEnded (finish s) ∧ KeepsAbort s (finish s) := by
  obtain ⟨ended, abort⟩ := h.settle
  have figures := finish_tripped_figures hm
  refine ⟨ended.congr (congrArg Loader.image figures.loader) (by simp [figures.roll]) (by simp [figures.order]),
    abort.trans (figures.flags _ (by decide))⟩

end SpliceEnded

/-! ## The splice at the entry to TRIPPED (R122) -/

theorem tripOff_frame (s : State) : (tripOff s).mode = .tripped ∧ (tripOff s).loader.image = s.loader.image ∧
    (tripOff s).roll = s.roll ∧ (tripOff s).order = s.order := by
  simp [tripOff, State.mode, setMode]

theorem tripOff_abort (s : State) : KeepsAbort s (tripOff s) := by
  have off (u : State) : KeepsAbort u (closeValves (tripKnife u)) := (tripKnife_abort u).trans (.of_eq (by simp))
  refine KeepsAbort.trans ?_ (off _)
  exact .of_eq rfl

/-- A splice not yet pasted ends without an abort told. -/
theorem tripBegun_ends {s : State} (hu : s.is .unwind = true) (h : s.roll.spliceState.abortable = true) :
    SpliceEnded (tripBegun s) ∧ KeepsAbort s (tripBegun s) := by
  obtain ⟨mode, image, roll, -⟩ := tripOff_frame s
  obtain ⟨state, arm, request, fence⟩ := runAgain_sets (tripOff s)
  have rests : ¬ (runAgain (tripOff s)).StartsSplice := by
    rintro ⟨hm, -⟩
    have : (runAgain (tripOff s)).mode = .tripped := by simpa [runAgain, State.mode] using mode
    exact absurd (this.symm.trans hm) (by decide)
  have begun : tripBegun s = runAgain (tripOff s) := by
    rw [tripBegun, resolveSplice, if_pos (by rwa [roll]), returnToRun_eq, spliceTest_of_not_starts rests]
  rw [begun]
  exact ⟨⟨(is_of_image (by simpa [runAgain] using image) _).trans hu, state, arm, request, fence⟩,
    (tripOff_abort s).trans (KeepsAbort.trans (.of_eq rfl) (rollConditions_abort _))⟩

/-- PASTE runs on. -/
theorem tripBegun_paste {s : State} (h : s.roll.spliceState = .paste) : (tripBegun s).roll = s.roll := by
  obtain ⟨-, -, roll, -⟩ := tripOff_frame s
  have begun : tripBegun s = tripOff s := by
    rw [tripBegun, resolveSplice, if_neg (by simp [roll, h, SpliceState.abortable]), if_neg (by simp [roll, h])]
  rw [begun, roll]

/-- START_NEW waits, without its web-present timer. -/
theorem tripBegun_startNew {s : State} (h : s.roll.spliceState = .startNew) :
    (tripBegun s).roll = { s.roll with webTimer := none } := by
  obtain ⟨-, -, roll, -⟩ := tripOff_frame s
  have begun : tripBegun s = (tripOff s).withRoll { (tripOff s).roll with webTimer := none } := by
    rw [tripBegun, resolveSplice, if_neg (by simp [roll, h, SpliceState.abortable]), if_pos (by simp [roll, h])]
  rw [begun, roll]
  rfl

/-- The registers of a splice that drive enable does not gate are those of the splice resolved. -/
theorem enterTripped_splice (s : State) :
    (enterTripped s).loader = (tripBegun s).loader ∧ (enterTripped s).order = (tripBegun s).order ∧
    (enterTripped s).cond = (tripBegun s).cond ∧
    (enterTripped s).roll.spliceState = (tripBegun s).roll.spliceState ∧
    (enterTripped s).roll.spliceArm = (tripBegun s).roll.spliceArm ∧
    (enterTripped s).roll.pasteTimer = (tripBegun s).roll.pasteTimer ∧
    (enterTripped s).roll.pasteOutput = (tripBegun s).roll.pasteOutput ∧
    (enterTripped s).roll.webTimer = (tripBegun s).roll.webTimer ∧
    (enterTripped s).roll.webSeen = (tripBegun s).roll.webSeen := by
  rw [enterTripped_eq]
  split <;> simp

/-- The UNWIND's splice after a trip, whatever its cause. -/
theorem finish_trip_splice (c : TripCause) {s : State} (ho : s.operating = true) (hu : s.is .unwind = true)
    (hm : s.mode ≠ .tripped) {t : State} (ht : t = finish (addTrip c s)) :
    (s.roll.spliceState.abortable = true → SpliceEnded t ∧ KeepsAbort s t) ∧
    (s.roll.spliceState = .paste → t.roll.spliceState = .paste ∧ t.roll.spliceArm = s.roll.spliceArm ∧
      t.roll.pasteTimer = s.roll.pasteTimer ∧ t.roll.pasteOutput = s.roll.pasteOutput) ∧
    (s.roll.spliceState = .startNew → t.roll.spliceState = .startNew ∧ t.roll.webTimer = none ∧
      t.roll.webSeen = s.roll.webSeen) := by
  subst ht
  rw [addTrip_entering c ho hm]
  generalize hq : queueTrip c (s.withGov { s.gov with trips := insertNew c s.gov.trips }) = q
  have queued : q.loader = s.loader ∧ q.roll = s.roll ∧ q.cond.flags = s.cond.flags := by simp [← hq]
  obtain ⟨loader, roll, flags⟩ := queued
  obtain ⟨loader', order', cond', state', arm', -, -, webTimer', -⟩ := enterTripped_splice q
  generalize he : pulseForMode (enterTripped q) = e
  have mode : e.mode = .tripped := by
    have := enterTripped_mode q
    simpa [← he, State.mode] using this
  have same : e.roll = (enterTripped q).roll := by simp [← he]
  have rests (h : e.roll.spliceState = .paste ∨ e.roll.spliceState = .startNew) :=
    (SpliceRests.of_state (.inr h)).finish_steady (.inr (.inl mode))
  refine ⟨fun h => ?_, fun h => ?_, fun h => ?_⟩
  · obtain ⟨ended, abort⟩ := tripBegun_ends (s := q) ((is_congr loader _).trans hu) (by rwa [roll])
    have entered : SpliceEnded e := ended.congr (by simp [← he, loader']) (by simp [same, state', arm'])
      (by simp [← he, order'])
    have abort' : KeepsAbort (tripBegun q) e := .of_eq (by simp [← he, cond'])
    obtain ⟨last, abort''⟩ := entered.finish_tripped mode
    exact ⟨last, (KeepsAbort.of_eq flags).trans (abort.trans (abort'.trans abort''))⟩
  · have begun := tripBegun_paste (s := q) (by rwa [roll])
    rw [begun, roll] at state' arm'
    have paste : e.roll.spliceState = .paste := by rw [same, state', h]
    obtain ⟨state, arm⟩ := rests (.inl paste)
    exact ⟨state.trans paste, by rw [arm, same, arm'], by simp [same, roll], by simp [same, roll]⟩
  · have begun := tripBegun_startNew (s := q) (by rwa [roll])
    rw [begun] at state' webTimer'
    have waits : e.roll.spliceState = .startNew := by rw [same, state', roll, h]
    obtain ⟨state, -⟩ := rests (.inr waits)
    exact ⟨state.trans waits, by simp [same, webTimer'], by simp [same, roll]⟩

/-! ## The obligation -/

/-- A waiting START_NEW goes to RECOVER at an entry to ACTIVE, and stays there below the nominal fill (R120, R122). -/
theorem rollAtActive_recovers {s : State} (hu : s.is .unwind = true) (h : s.roll.spliceState = .startNew)
    (hfill : s.fill < s.cfg.unwind.fillNominal) (ha : s.activeArm ≠ none) :
    (rollAtActive s).roll = { s.roll with spliceState := .recover } := by
  have fill : (enterSplice .recover s).fill = s.fill := fill_congr (by simp)
  have active : (enterSplice .recover s).activeArm = s.activeArm := activeArm_congr (by simp)
  have cfg : (enterSplice .recover s).cfg = s.cfg := cfg_of_image (by simp)
  have waits : ¬ (enterSplice .recover s).recovered = true := by
    rw [recovered_iff, fill, active, cfg]
    rintro ⟨-, hle | hnone⟩
    · omega
    · exact ha hnone
  rw [rollAtActive, if_pos hu, if_pos h]
  dsimp only
  rw [if_neg waits, enterSplice_roll]

/-- Settles O45, clause by clause: the timers, what falls due (`dueUnwind_splice_iff`, `returnToRun_leaves`), the ramp updates
(`finish_stopOld`, `finish_startNew`), the trip (`finish_trip_splice`) and the return to ACTIVE. -/
theorem spliceTimers : Obligations.SpliceTimers := by
  refine ⟨fun s ho hp => ?_, fun s ho hp => ?_, fun s ho hw => ?_, fun s ho hu he => ?_, fun s => ?_,
    fun s w p d ho hu h => ⟨_, exec_rampUpdate_unwind w p d ho hu, finish_stopOld w p d h rfl⟩,
    fun s w p d ho hs hu h => ⟨_, exec_rampUpdate_unwind w p d ho hu, finish_startNew w p d hs h rfl⟩,
    fun s ho hu hm hpin => ?_, fun s => rollAtActive_recovers⟩
  · obtain ⟨loader, peers, output, timer⟩ := pasteDone_frame s
    refine ⟨_, (exec_pasteTimerExpiry hp).trans (congrArg _ (if_pos ho)), by simpa using output, by simpa using timer,
      fun h => ⟨fun a ha hs => ?_, fun hs => ?_, fun hs => ?_⟩⟩
    · rw [finish_arm, finish_arm]
      simpa using pasteDone_brings h ha hs
    · have leaves := pasteDone_leaves h hs
      exact ⟨(finish_arm _ .arm1).trans (leaves .arm1), (finish_arm _ .arm2).trans (leaves .arm2)⟩
    · obtain ⟨state, seen, web⟩ := pasteDone_sequence h
      have steady : (pasteDone s).steady := steady_congr loader peers hs
      have rests : SpliceRests (pasteDone s) := .of_state (.inr (.inr state))
      exact ⟨(rests.finish_steady steady).1.trans state, by simpa using seen, by simpa using web⟩
  · exact (exec_pasteTimerExpiry hp).trans (congrArg _ (if_neg (by simp [ho])))
  · refine ⟨_, congrArg Host.Outcome.next (if_pos ho), ?_, fun hs hn => ?_, fun hn => ?_⟩ <;> rw [webPresentExpiry_runs hw]
    · have tripped := addTrip_webTimer .spliceFail (s := s.withRoll { s.roll with webTimer := none }) rfl
      split
      · simpa using tripped
      · simp
    · obtain ⟨trip, mode⟩ := addTrip_trips (s := s.withRoll { s.roll with webTimer := none }) .spliceFail ho
      rw [if_pos ⟨hs, hn⟩]
      exact ⟨by simpa using trip, finish_tripped mode⟩
    · rw [if_neg fun hc => by simp [hc] at hn]
      simp
  · rw [due_eq_dueUnwind ho hu he]
    obtain ⟨prefillDone, stopOld, stopOldLow, recovered⟩ := dueUnwind_splice_iff s
    exact ⟨prefillDone.trans (prefillDone_iff s), stopOld.trans (stopOldDue_iff s), stopOldLow.trans (stopOldLow_iff s),
      recovered.trans (recovered_iff s)⟩
  · refine ⟨enterSplice_roll .., enterSplice_roll .., ?_, abortSplice_flag s, fun t ht => ?_⟩
    · exact unwindDemand_stopOld (congrArg RollUnit.spliceState (enterSplice_roll ..))
    · rcases ht with rfl | rfl
      · exact abortSplice_leaves s
      · exact returnToRun_leaves s
  · have hx : setEstop true s = addTrip .estopInput (s.withPins { s.pins with estop := true }) := by simp [setEstop, hpin]
    obtain ⟨ends, paste, waits⟩ :=
      finish_trip_splice (s := s.withPins { s.pins with estop := true }) .estopInput ho hu hm rfl
    refine ⟨_, congrArg Host.Outcome.next (if_pos ho), ?_⟩
    rw [hx]
    refine ⟨fun h => ?_, paste, waits⟩
    obtain ⟨ended, abort⟩ := ends (by rcases h with h | h | h <;> simp [h, SpliceState.abortable])
    exact ⟨ended.state, ended.arm, ended.request, ended.fence, abort⟩

end Sys2Proof.Machine
end

