-- ==== Sys2Proof/Proofs/ChannelsAndZones.lean ====
section
/-! PROOFS. One channel and one zone of the heat-set unit: what is read after a write, and what the end of a command leaves. -/

namespace Sys2Proof.Machine
open Sys2Proof

/-! ## The channels (R124, R126) -/

@[simp] theorem setChannel_length (n : Nat) (x : Channel) (s : State) :
    (setChannel n x s).heat.channels.length = s.heat.channels.length := by simp [setChannel]

theorem channel_setChannel_same {n : Nat} {s : State} (h : n < s.heat.channels.length) (x : Channel) :
    (setChannel n x s).channel n = x := by simp [setChannel, State.channel, h]

theorem channel_setChannel_other {n m : Nat} (h : m ≠ n) (x : Channel) (s : State) :
    (setChannel n x s).channel m = s.channel m := by
  simp [setChannel, State.channel, List.getD_eq_getElem?_getD, List.getElem?_set_ne h.symm]

theorem channel_congr {s t : State} (h : t.heat.channels = s.heat.channels) (n : Nat) : t.channel n = s.channel n := by
  rw [State.channel, State.channel, h]

theorem usesChannel_congr {s t : State} (h : t.loader = s.loader) (n : Nat) : t.usesChannel n = s.usesChannel n := by
  have hr : t.role = s.role := by unfold State.role; rw [h]
  unfold State.usesChannel
  rw [hr, cfg_of_image (congrArg Loader.image h)]

theorem zoneTemp_congr {s t : State} (h : t.heat.channels = s.heat.channels) (z : Nat) : t.zoneTemp z = s.zoneTemp z := by
  simp [State.zoneTemp, State.channelValue, channel_congr h]

/-! ## The zones (R129) -/

@[simp] theorem setZone_length (z : Nat) (x : Zone) (s : State) :
    (setZone z x s).heat.zones.length = s.heat.zones.length := by simp [setZone]

theorem zone_setZone_same {z : Nat} {s : State} (h : z < s.heat.zones.length) (x : Zone) : (setZone z x s).zone z = x := by
  simp [setZone, State.zone, h]

theorem zone_setZone_other {z y : Nat} (h : y ≠ z) (x : Zone) (s : State) : (setZone z x s).zone y = s.zone y := by
  simp [setZone, State.zone, List.getD_eq_getElem?_getD, List.getElem?_set_ne h.symm]

theorem zone_congr {s t : State} (h : t.heat.zones = s.heat.zones) (z : Nat) : t.zone z = s.zone z := by
  rw [State.zone, State.zone, h]

/-- A zone the table does not hold reads as an empty record. -/
theorem zone_of_length_le {s : State} {z : Nat} (h : s.heat.zones.length ≤ z) : s.zone z = {} :=
  List.getD_eq_default _ _ h

/-! ## One record of a table in a pass over the whole table -/

/-- A pass over a table that treats one record after another leaves a record as its own turn makes it. -/
theorem foldl_own {σ α : Type} {f : σ → Nat → σ} {get : σ → α} {n : Nat} {P : σ → Prop} {upd : α → α}
    (keeps : ∀ t m, P t → P (f t m)) (other : ∀ t m, n ≠ m → get (f t m) = get t)
    (own : ∀ t, P t → get (f t n) = upd (get t)) {l : List Nat} (once : l.Nodup) (mem : n ∈ l) {s : σ} (hs : P s) :
    get (l.foldl f s) = upd (get s) := by
  have rest (l : List Nat) (h : n ∉ l) (t : σ) : get (l.foldl f t) = get t := by
    induction l generalizing t with
    | nil => rfl
    | cons m l ih =>
      rw [List.foldl_cons, ih (fun hm => h (List.mem_cons_of_mem m hm))]
      exact other t m (fun hn => h (hn ▸ List.mem_cons_self))
  induction l generalizing s with
  | nil => cases mem
  | cons m l ih =>
    obtain ⟨fresh, once⟩ := List.nodup_cons.1 once
    rw [List.foldl_cons]
    rcases List.mem_cons.1 mem with rfl | mem
    · rw [rest l fresh, own s hs]
    · have hne : n ≠ m := fun h => fresh (h ▸ mem)
      rw [ih once mem (keeps s m hs), other s m hne]

/-! ## The end of a command -/

theorem FiguresOnly.channel {u t : State} (h : FiguresOnly u t) (n : Nat) : t.channel n = u.channel n :=
  channel_congr (congrArg HeatUnit.channels h.heat :) n

/-- Making the figures again loads a zone's setpoint and leaves the rest of its record (R130). -/
theorem FiguresOnly.zone {u t : State} (h : FiguresOnly u t) (z : Nat) : t.zone z = { u.zone z with sp := (t.zone z).sp } := by
  have hz : { t.zone z with sp := 0 } = { u.zone z with sp := 0 } := by
    have hmap := congrArg (fun l => l.getD z {}) h.zones
    have read (l : List Zone) : (l.map fun x => { x with sp := 0 }).getD z {} = { l.getD z {} with sp := 0 } :=
      List.getD_map (f := fun x : Zone => { x with sp := 0 }) (d := {}) ..
    rwa [read, read] at hmap
  exact congrArg (fun x : Zone => { x with sp := (t.zone z).sp }) hz

theorem FiguresOnly.zones_length {u t : State} (h : FiguresOnly u t) : t.heat.zones.length = u.heat.zones.length := by
  simpa using congrArg List.length h.zones

/-- A command that moves no web, where no entry to ACTIVE can fall due (R181, R191). -/
theorem operate_figures {f : State → State} {s : State} (ho : s.operating = true) (hs : s.steady)
    (hl : (f s).loader = s.loader) (hp : (f s).peers = s.peers) : ∃ t, operate f s = .next t ∧ FiguresOnly (f s) t :=
  ⟨_, congrArg Host.Outcome.next (if_pos ho), conclude_steady_figures hl hp hs⟩

/-- As `operate_figures`, for a command that has nothing to do. -/
theorem operate_nothing {f : State → State} {s : State} (ho : s.operating = true) (hs : s.steady) (hf : f s = s) :
    ∃ t, operate f s = .next t ∧ FiguresOnly s t := by
  obtain ⟨t, ht, hfig⟩ := operate_figures (f := f) ho hs (by rw [hf]) (by rw [hf])
  exact ⟨t, ht, hf ▸ hfig⟩

end Sys2Proof.Machine
end

