-- ==== Sys2Proof/Proofs/ChannelScans.lean ====
section
/-! PROOFS. O46: the sensor scan, and when a channel is faulted and cleared. -/

namespace Sys2Proof.Machine
open Sys2Proof

/-! ## One channel (R125, R126) -/

/-- A bad sample counts, and ends the run of good ones. -/
theorem sample_of_bad {raw : Nat} (h : raw ≤ 16 ∨ 4080 ≤ raw) (c : Channel) (x : Scaling) :
    c.sample x raw = { c with bad := min 4 (c.bad + 1), good := 0 } := if_pos (by simpa [badSample] using h)

/-- A good sample is loaded scaled, ends the run of bad ones, and counts while the channel is faulted. -/
theorem sample_of_good {raw : Nat} (h : ¬ (raw ≤ 16 ∨ 4080 ≤ raw)) (c : Channel) (x : Scaling) :
    c.sample x raw = { c with value := some (x.offset + (raw * x.span / 4095 : Nat)), bad := 0,
                              good := if c.faulted then min 10 (c.good + 1) else c.good } :=
  if_neg (by simpa [badSample] using h)

/-- A used channel after its fault state has been judged. -/
def Channel.judged (c : Channel) : Channel :=
  { c with faulted := (c.faulted || decide (4 ≤ c.bad)) && !decide (10 ≤ c.good) }

theorem declareFault_due {n : Nat} {s : State} (hu : s.usesChannel n = true) (hb : 4 ≤ (s.channel n).bad)
    (hf : (s.channel n).faulted = false) :
    ∃ t, t = raise (.sensorFault n) (setChannel n { s.channel n with faulted := true } s) ∧
      declareFault n s = if t.is .setter && n < t.heat.zones.length then setZone n { t.zone n with valve := 0 } t else t :=
  ⟨_, rfl, if_pos (by simp [hu, hb, hf])⟩

theorem declareFault_idle {n : Nat} {s : State}
    (h : s.usesChannel n = false ∨ (s.channel n).bad < 4 ∨ (s.channel n).faulted = true) : declareFault n s = s :=
  if_neg (by rcases h with h | h | h <;> simp [h])

theorem clearFault_due {n : Nat} {s : State} (hu : s.usesChannel n = true) (hg : 10 ≤ (s.channel n).good)
    (hf : (s.channel n).faulted = true) :
    clearFault n s = fall (.sensorFault n) (setChannel n { s.channel n with faulted := false } s) :=
  if_pos (by simp [hu, hg, hf])

theorem clearFault_idle {n : Nat} {s : State}
    (h : s.usesChannel n = false ∨ (s.channel n).good < 10 ∨ (s.channel n).faulted = false) : clearFault n s = s :=
  if_neg (by rcases h with h | h | h <;> simp [h])

/-- A declaration touches the channels as `setChannel` does, or not at all. -/
theorem declareFault_channels (n : Nat) (s : State) : (declareFault n s).heat.channels = s.heat.channels ∨
    (declareFault n s).heat.channels = (setChannel n { s.channel n with faulted := true } s).heat.channels := by
  unfold declareFault
  dsimp only
  split
  · right
    split <;> simp
  · exact .inl rfl

theorem clearFault_channels (n : Nat) (s : State) : (clearFault n s).heat.channels = s.heat.channels ∨
    (clearFault n s).heat.channels = (setChannel n { s.channel n with faulted := false } s).heat.channels := by
  unfold clearFault
  split
  · exact .inr (by simp)
  · exact .inl rfl

theorem declareFault_channel_same {n : Nat} {s : State} (hu : s.usesChannel n = true) (hn : n < s.heat.channels.length) :
    (declareFault n s).channel n = { s.channel n with faulted := (s.channel n).faulted || decide (4 ≤ (s.channel n).bad) } := by
  by_cases h : 4 ≤ (s.channel n).bad ∧ (s.channel n).faulted = false
  · obtain ⟨t, ht, hd⟩ := declareFault_due hu h.1 h.2
    have hc : (declareFault n s).heat.channels = (setChannel n { s.channel n with faulted := true } s).heat.channels := by
      rw [hd, ht]
      split <;> simp
    rw [channel_congr hc, channel_setChannel_same hn]
    simp [h]
  · have hidle : s.usesChannel n = false ∨ (s.channel n).bad < 4 ∨ (s.channel n).faulted = true := by
      by_cases hb : 4 ≤ (s.channel n).bad
      · exact .inr (.inr (by simpa [hb] using h))
      · exact .inr (.inl (by omega))
    rw [declareFault_idle hidle]
    rcases hidle with h' | h' | h'
    · simp [hu] at h'
    · simp [show ¬ 4 ≤ (s.channel n).bad by omega]
    · rw [h', Bool.true_or, ← h']

theorem clearFault_channel_same {n : Nat} {s : State} (hu : s.usesChannel n = true) (hn : n < s.heat.channels.length) :
    (clearFault n s).channel n = { s.channel n with faulted := (s.channel n).faulted && !decide (10 ≤ (s.channel n).good) } := by
  by_cases h : 10 ≤ (s.channel n).good ∧ (s.channel n).faulted = true
  · have hc : (clearFault n s).heat.channels = (setChannel n { s.channel n with faulted := false } s).heat.channels := by
      rw [clearFault_due hu h.1 h.2]
      simp
    rw [channel_congr hc, channel_setChannel_same hn]
    simp [h]
  · have hidle : s.usesChannel n = false ∨ (s.channel n).good < 10 ∨ (s.channel n).faulted = false := by
      by_cases hg : 10 ≤ (s.channel n).good
      · exact .inr (.inr (by simpa [hg] using h))
      · exact .inr (.inl (by omega))
    rw [clearFault_idle hidle]
    rcases hidle with h' | h' | h'
    · simp [hu] at h'
    · simp [show ¬ 10 ≤ (s.channel n).good by omega]
    · rw [h', Bool.false_and, ← h']

/-! ## The scan (R124 to R126) -/

/-- The table a pass over the channels works on: the record of the station, and eight channels. -/
structure Scanning (s t : State) : Prop where
  loader : t.loader = s.loader
  length : t.heat.channels.length = s.heat.channels.length

theorem Scanning.of_channels {s t u : State} (h : Scanning s t) (hl : u.loader = t.loader)
    (hc : u.heat.channels = t.heat.channels ∨ ∃ n x, u.heat.channels = (setChannel n x t).heat.channels) : Scanning s u := by
  refine ⟨hl.trans h.loader, ?_⟩
  rcases hc with hc | ⟨n, x, hc⟩ <;> simpa [hc] using h.length

theorem Scanning.judged {s t : State} (h : Scanning s t) (n : Nat) : Scanning s (clearFault n (declareFault n t)) :=
  (h.of_channels (by simp) ((declareFault_channels n t).imp_right fun hc => ⟨_, _, hc⟩)).of_channels (by simp)
    ((clearFault_channels n _).imp_right fun hc => ⟨_, _, hc⟩)

theorem Scanning.sampled {s t : State} (h : Scanning s t) (n raw : Nat) : Scanning s (takeSample n raw t) := by
  refine h.of_channels (by simp) ?_
  unfold takeSample
  split
  · exact .inr ⟨_, _, rfl⟩
  · exact .inl rfl

theorem channel_of_channels_set {n m : Nat} {s t : State} (h : m ≠ n)
    (hc : t.heat.channels = s.heat.channels ∨ ∃ x, t.heat.channels = (setChannel n x s).heat.channels) :
    t.channel m = s.channel m := by
  rcases hc with hc | ⟨x, hc⟩ <;> rw [channel_congr hc]
  exact channel_setChannel_other h ..

theorem takeSamples_channel {n : Nat} (samples : List (BitVec 12)) {s : State} (hn : n < 8) (hlen : s.heat.channels.length = 8)
    (hu : s.usesChannel n = true) : (takeSamples samples s).channel n =
      (s.channel n).sample (s.cfg.scaling.getD n {}) (samples.getD n 0).toNat := by
  refine foldl_own (get := fun t : State => t.channel n) (P := Scanning s)
    (upd := fun c => c.sample (s.cfg.scaling.getD n {}) (samples.getD n 0).toNat)
    (fun t m h => h.sampled ..) (fun t m h => takeSample_channel_other h t) (fun t h => ?_) List.nodup_range
    (List.mem_range.2 hn) ⟨rfl, rfl⟩
  rw [takeSample, if_pos ((usesChannel_congr h.loader n).trans hu), channel_setChannel_same (by rw [h.length, hlen]; exact hn),
    cfg_of_image (congrArg Loader.image h.loader)]

theorem judgeFaults_channel {n : Nat} {s : State} (hn : n < 8) (hlen : s.heat.channels.length = 8)
    (hu : s.usesChannel n = true) : (judgeFaults s).channel n = (s.channel n).judged := by
  refine foldl_own (get := fun t : State => t.channel n) (P := Scanning s) (upd := Channel.judged)
    (fun t m h => h.judged m) (fun t m h => ?_) (fun t h => ?_) List.nodup_range (List.mem_range.2 hn) ⟨rfl, rfl⟩
  · exact (channel_of_channels_set h ((clearFault_channels m _).imp_right fun hc => ⟨_, hc⟩)).trans
      (channel_of_channels_set h ((declareFault_channels m t).imp_right fun hc => ⟨_, hc⟩))
  · have hd : Scanning s (declareFault n t) :=
      h.of_channels (by simp) ((declareFault_channels n t).imp_right fun hc => ⟨_, _, hc⟩)
    have uses {u : State} (hs : Scanning s u) : u.usesChannel n = true := (usesChannel_congr hs.loader n).trans hu
    have fits {u : State} (hs : Scanning s u) : n < u.heat.channels.length := by rw [hs.length, hlen]; exact hn
    rw [clearFault_channel_same (uses hd) (fits hd), declareFault_channel_same (uses h) (fits h)]
    rfl

theorem scanTests_channels (s : State) : (scanTests s).heat.channels = (judgeFaults s).heat.channels := by
  have compared (t : State) : (compareFill t).heat.channels = t.heat.channels := by
    unfold compareFill
    split
    · rfl
    · dsimp only
      repeat' split
      all_goals simp
  unfold scanTests
  dsimp only
  split
  · simp [doseTick]
  · exact compared _
  all_goals rfl

/-- In the operating modes the eight samples are taken and the tests made (R124). -/
theorem exec_scan {samples : List (BitVec 12)} {s : State} (hlen : samples.length = 8) (ho : s.operating = true) :
    exec (.sensorScanComplete samples) s = .next (finish (scanTests (takeSamples samples s))) := by
  have hm : s.mode ≠ .configuring := fun hm => by simp [State.operating, hm, operatingMode] at ho
  change execSensorScanComplete samples s = _
  simp [execSensorScanComplete, wellFormedSamples, hlen, ho, hm]

/-- A used channel after a scan: its sample taken, then its fault state judged (R125, R126). -/
theorem scan_channel {samples : List (BitVec 12)} {s : State} {n : Nat} (hn : n < 8) (hlen : s.heat.channels.length = 8)
    (hu : s.usesChannel n = true) : (finish (scanTests (takeSamples samples s))).channel n =
      ((s.channel n).sample (s.cfg.scaling.getD n {}) (samples.getD n 0).toNat).judged := by
  have hscan : Scanning s (takeSamples samples s) := ⟨by simp, foldl_keeps (fun t : State => t.heat.channels.length) _
    (fun t m => (Scanning.sampled ⟨rfl, rfl⟩ m _).length) _ s⟩
  have hc : (finish (scanTests (takeSamples samples s))).heat.channels = (judgeFaults (takeSamples samples s)).heat.channels :=
    Eq.trans (by simp) (scanTests_channels _)
  rw [channel_congr hc, judgeFaults_channel hn (hscan.length.trans hlen) ((usesChannel_congr hscan.loader n).trans hu),
    takeSamples_channel samples hn hlen hu]

/-! ## The obligation -/

/-- SENSOR_FAULT of a channel whose fourth bad sample stands undeclared (R126, R138). -/
theorem exec_sensorFault_due {s : State} {n : Fin 8} (ho : s.operating = true) (hs : s.steady) (hlen : s.heat.channels.length = 8)
    (hu : s.usesChannel n = true) (hb : 4 ≤ (s.channel n).bad) (hf : (s.channel n).faulted = false) :
    ∃ t, exec (.sensorFault n) s = .next t ∧ t.channel n = { s.channel n with faulted := true } ∧
      Cond.sensorFault n ∈ t.cond.flags ∧ (s.is .setter = true → (t.zone n).valve = 0) := by
  obtain ⟨t, ht, hfig⟩ := operate_figures (f := declareFault n) ho hs (by simp) (by simp)
  obtain ⟨u, hraised, hd⟩ := declareFault_due hu hb hf
  refine ⟨t, ht, ?_, (hfig.flags (.sensorFault n) (by simp)).2 ?_, fun hset => ?_⟩
  · rw [hfig.channel, declareFault_channel_same hu (by omega)]
    simp [hb]
  · rw [hd]
    split <;> simp [hraised]
  · have hset' : u.is .setter = true := (is_congr (by simp [hraised]) _).trans hset
    rw [hfig.zone, hd]
    by_cases hz : n.val < u.heat.zones.length
    · simp [hset', hz, zone_setZone_same hz]
    · simp [hset', hz, zone_of_length_le (Nat.not_lt.1 hz)]

/-- SENSOR_FAULT_CLEAR of a faulted channel whose tenth good sample stands (R126). -/
theorem exec_sensorFaultClear_due {s : State} {n : Fin 8} (ho : s.operating = true) (hs : s.steady)
    (hlen : s.heat.channels.length = 8) (hu : s.usesChannel n = true) (hg : 10 ≤ (s.channel n).good)
    (hf : (s.channel n).faulted = true) :
    ∃ t, exec (.sensorFaultClear n) s = .next t ∧ t.channel n = { s.channel n with faulted := false } ∧
      Cond.sensorFault n ∉ t.cond.flags := by
  obtain ⟨t, ht, hfig⟩ := operate_figures (f := clearFault n) ho hs (by simp) (by simp)
  refine ⟨t, ht, ?_, fun h => ?_⟩
  · rw [hfig.channel, clearFault_channel_same hu (by omega)]
    simp [hg]
  · rw [hfig.flags (.sensorFault n) (by simp), clearFault_due hu hg hf] at h
    simp at h

/-- Settles O46: a used channel after a scan is its sample judged (`scan_channel`), and each command takes what stands due or
nothing. -/
theorem channelsScannedAndJudged : Obligations.ChannelsScannedAndJudged := by
  refine ⟨fun samples s n raw hlen ho hchan hraw hu => ?_, fun s n ho hs hchan =>
    ⟨fun hu hb hf => exec_sensorFault_due ho hs hchan hu hb hf, fun h => operate_nothing ho hs (declareFault_idle h),
      fun hu hg hf => exec_sensorFaultClear_due ho hs hchan hu hg hf, fun h => operate_nothing ho hs (clearFault_idle h)⟩⟩
  intro c bad
  have hn : n < 8 := hlen ▸ (List.getElem?_eq_some_iff.1 hraw).1
  have hsample : samples.getD n 0 = raw := by simp [List.getD_eq_getElem?_getD, hraw]
  refine ⟨_, exec_scan hlen ho, fun h => ?_, fun h => ?_⟩ <;> rw [scan_channel hn hchan hu, hsample]
  · have hcount : 4 ≤ min 4 (c.bad + 1) ↔ 4 ≤ c.bad + 1 := by omega
    rw [sample_of_bad h]
    simp [Channel.judged, c, hcount]
  · rw [sample_of_good h]
    refine ⟨rfl, rfl, ?_, fun hf => if_pos hf⟩
    have hcount : (!decide (10 ≤ min 10 (c.good + 1))) = decide (c.good + 1 < 10) := by
      rw [Bool.eq_iff_iff]
      simp
      omega
    change ((c.faulted || decide (4 ≤ 0)) && !decide (10 ≤ if c.faulted then min 10 (c.good + 1) else c.good)) = _
    cases c.faulted
    · rfl
    · exact hcount

end Sys2Proof.Machine
end

