-- ==== Sys2Proof/Proofs/SteamPressure.lean ====
section
/-! PROOFS. O21: STEAM_LOW stands as the scan found the steam pressure, for nothing that follows in a SETTER moves it. -/

namespace Sys2Proof.Machine
open Sys2Proof

/-! ## What leaves STEAM_LOW (R142) -/

/-- STEAM_LOW is neither set nor cleared. -/
def KeepsSteam (s t : State) : Prop := Cond.steamLow ∈ t.cond.flags ↔ Cond.steamLow ∈ s.cond.flags

namespace KeepsSteam

theorem of_eq {s t : State} (h : t.cond.flags = s.cond.flags) : KeepsSteam s t := by rw [KeepsSteam, h]

theorem trans {s t u : State} (h : KeepsSteam s t) (k : KeepsSteam t u) : KeepsSteam s u := Iff.trans k h

theorem raise {c : Cond} (h : c ≠ .steamLow) (s : State) : KeepsSteam s (raise c s) := raise_others c _ h.symm s

theorem ite {s t u : State} {p : Prop} [Decidable p] (ht : KeepsSteam s t) (hu : KeepsSteam s u) :
    KeepsSteam s (if p then t else u) := by
  split
  · exact ht
  · exact hu

theorem foldl {α : Type} (f : State → α → State) (h : ∀ s a, KeepsSteam s (f s a)) (l : List α) (s : State) :
    KeepsSteam s (l.foldl f s) := by
  induction l generalizing s with
  | nil => exact .of_eq rfl
  | cons a l ih => exact (h s a).trans (ih (f s a))

end KeepsSteam

/-! ## Segments that leave, and the capture windows (R6, R10, R16 to R19) -/

theorem endRun_steam (s : State) : KeepsSteam s (endRun s) := by
  have dropped : KeepsSteam s (dropHeldFold s) := by
    unfold dropHeldFold
    split
    · exact KeepsSteam.trans (.of_eq (by simp)) (.raise (by decide) _)
    · exact .of_eq rfl
  unfold endRun
  split
  · exact .of_eq rfl
  · exact dropped.trans (.of_eq (by simp))

theorem removeSeg_steam (uid : Nat) (s : State) : KeepsSteam s (removeSeg uid s) := by
  have knife (s : State) : KeepsSteam s (dropSegKnife uid s) := by
    unfold dropSegKnife
    extract_lets t
    refine KeepsSteam.trans (t := t) ?_ (.of_eq rfl)
    unfold t
    split
    · exact .ite (endRun_steam s) (.of_eq rfl)
    · exact .of_eq rfl
  unfold removeSeg
  split
  · exact .of_eq rfl
  · exact KeepsSteam.trans (.of_eq (by simp)) ((knife _).trans (.of_eq rfl))

theorem placeRule_steam (uid : Nat) (s : State) : KeepsSteam s (placeRule uid s) := by
  unfold placeRule
  split
  · exact .of_eq rfl
  · extract_lets ahead covered t
    have removed : KeepsSteam s t := .foldl _ (fun t (a : Segment) => removeSeg_steam a.uid t) _ s
    split
    · exact removed
    · exact removed.trans (.of_eq (by simp))

theorem closeWindowMiss_steam (s : State) : KeepsSteam s (closeWindowMiss s) := by
  unfold closeWindowMiss
  split
  · exact .of_eq rfl
  · extract_lets x a y b c
    have missed : KeepsSteam s c := by
      refine KeepsSteam.trans (.of_eq ?_) (.raise (by decide) _)
      split <;> simp [b, a, y]
    have latched : KeepsSteam c (latchRegLost c) := KeepsSteam.trans (.raise (c := .regLost) (by decide) c) (.of_eq rfl)
    exact .ite (missed.trans latched) missed

theorem acceptMark_steam (edge : Word) (s : State) : KeepsSteam s (acceptMark edge s) := by
  unfold acceptMark
  split
  · exact .of_eq rfl
  · refine KeepsSteam.trans (.of_eq ?_) (placeRule_steam ..)
    split <;> simp [shiftFrom]

/-! ## The cell line (R145, R149, R150) -/

theorem closeEntry_steam (j : Judgement) (g : Segment) (s : State) : KeepsSteam s (closeEntry j g s) := by
  unfold closeEntry
  extract_lets v a b c d
  have queued : KeepsSteam s a := .of_eq (by simp [a])
  have below : KeepsSteam a b := .ite (.raise (by decide) a) (.of_eq rfl)
  have above : KeepsSteam b c := .ite (.raise (by decide) b) (.of_eq rfl)
  exact (queued.trans (below.trans above)).trans (.of_eq (by simp [d, mergeVerdict]))

theorem shiftCells_steam (s : State) : KeepsSteam s (shiftCells s) := by
  have closed (c : Cell) (edge : Word) (s : State) : KeepsSteam s (closeEntries c edge s) := by
    refine .foldl _ (fun t g => ?_) _ s
    split
    · exact .of_eq rfl
    · exact .ite (closeEntry_steam ..) (.of_eq rfl)
  unfold shiftCells
  extract_lets a anchor edge t
  refine KeepsSteam.trans (t := t) ?_ (.of_eq rfl)
  unfold t
  split
  · exact KeepsSteam.trans (.of_eq (by simp)) (closed ..)
  · exact .of_eq rfl

/-! ## What falls due in a SETTER, and the end of a command (R2, R181, R191) -/

theorem takeDue_steam {s : State} {d : Due} (hs : s.is .setter = true) (h : s.due = some d) : KeepsSteam s (takeDue d s) := by
  have own (r : Role) (hr : d.part.role = some r) : r = .setter := by
    have hi := is_of_due h hr
    simp only [State.is, beq_iff_eq] at hi hs
    exact Option.some.inj (hi.symm.trans hs)
  cases d with
  | openWindow g => exact (closeWindowMiss_steam s).trans (.of_eq rfl)
  | acceptMark e => exact KeepsSteam.trans (.of_eq rfl) (acceptMark_steam e _)
  | holdClosing => exact .of_eq rfl
  | closeWindow => exact closeWindowMiss_steam s
  | shift => exact shiftCells_steam s
  | handoff g => exact .of_eq (by simp [takeDue])
  | trailExit g => exact removeSeg_steam g.uid s
  | fold | endRun | startRun | boundary | prefillDone | stopOld | stopOldLow | recovered | birth | holdBirth | endStall =>
    cases own _ rfl

theorem settle_steam {s : State} (hs : s.is .setter = true) : KeepsSteam s (settle s) := by
  refine (settle_keeps (fun t => t.is .setter = true ∧ KeepsSteam s t) (fun t h => ?_) (fun t d h hd => ?_) s
    ⟨hs, .of_eq rfl⟩).2
  · have hr : t.is .outfeed = false := by
      have := h.1
      simp only [State.is, beq_iff_eq] at this
      simp [State.is, this]
    rwa [retest, if_neg (by simp [hr])]
  · exact ⟨(is_congr (by simp) _).trans h.1, h.2.trans (takeDue_steam h.1 hd)⟩

/-- An entry of a SETTER to ACTIVE moves no condition (R191, R193). -/
theorem enterActive_flags {s : State} (hs : s.is .setter = true) : (enterActive s).cond.flags = s.cond.flags := by
  unfold enterActive
  extract_lets x a y b c
  have hb : b.is .setter = true := hs
  have hc : c.cond.flags = s.cond.flags ∧ c.loader = b.loader := by
    unfold c
    split <;> simp [b, a, y]
  have hu : (warmChamber (pulseForMode c)).is .unwind = false := by
    rw [is_congr (s := b) (by simp [hc.2])]
    simp only [State.is, beq_iff_eq] at hb
    simp [State.is, hb]
  rw [rollAtActive, if_neg (by simp [hu])]
  simp [hc.1]

/-- What a command of a SETTER has set STEAM_LOW to stands at its end. -/
theorem finish_steam {s : State} (hs : s.is .setter = true) : KeepsSteam s (finish s) := by
  have figures (u : State) : KeepsSteam u (refresh u) := (refresh_figures u).flags _ (by decide)
  have settled : (settle s).is .setter = true := (is_congr (by simp) _).trans hs
  refine (settle_steam hs).trans ?_
  change KeepsSteam (settle s) (conclude (settle s))
  rcases conclude_cases (settle s) with ⟨h, -⟩ | ⟨h, -⟩ <;> rw [h]
  · exact figures _
  · have made : (refresh (settle s)).is .setter = true := (is_congr (by simp) _).trans settled
    have active : (enterActive (refresh (settle s))).is .setter = true := (is_of_image (by simp) _).trans made
    exact (figures _).trans (KeepsSteam.trans (.of_eq (enterActive_flags made)) ((settle_steam active).trans (figures _)))

/-! ## The obligation -/

theorem channelValue_none_iff {s : State} {n : Nat} :
    s.channelValue n = none ↔ (s.channel n).faulted = true ∨ (s.channel n).value = none := by
  unfold State.channelValue
  cases (s.channel n).faulted <;> simp

theorem channelValue_some_iff {s : State} {n : Nat} {v : Int} :
    s.channelValue n = some v ↔ (s.channel n).faulted = false ∧ (s.channel n).value = some v := by
  unfold State.channelValue
  cases (s.channel n).faulted <;> simp

theorem steamTest_iff (s : State) : Cond.steamLow ∈ (steamTest s).cond.flags ↔
    (s.channel 4).faulted = true ∨ (s.channel 4).value = none ∨ ∃ p, (s.channel 4).value = some p ∧ p < s.cfg.setter.pMin := by
  rw [steamTest, follow_iff]
  cases hv : s.channelValue 4 with
  | none => simpa [or_assoc] using (channelValue_none_iff.1 hv).imp_right Or.inl
  | some p =>
    obtain ⟨hf, hp⟩ := channelValue_some_iff.1 hv
    simp [hf, hp]

/-- Settles O21: the test comes last in the scan, and the end of the command leaves STEAM_LOW and channel 4 (`finish_steam`). -/
theorem steamLowFollowsScan : Obligations.SteamLowFollowsScan := by
  intro samples s hlen ho hs
  refine ⟨_, exec_scan hlen ho, ?_⟩
  generalize hu : bandScan (overTempTest (doseTick (judgeFaults (takeSamples samples s)))) = u
  have hl : u.loader = s.loader := by simp [← hu, doseTick]
  have hscan : scanTests (takeSamples samples s) = steamTest u := by
    have hr : (judgeFaults (takeSamples samples s)).role = some .setter := by
      simpa [State.is, State.role] using hs
    unfold scanTests
    dsimp only
    rw [hr]
    exact congrArg steamTest hu
  have hset : (steamTest u).is .setter = true := (is_congr (by simp [hl]) _).trans hs
  have hchan : (finish (steamTest u)).channel 4 = u.channel 4 := channel_congr (by simp) 4
  rw [hscan, hchan, ← cfg_of_image (congrArg Loader.image hl)]
  exact Iff.trans (finish_steam hset) (steamTest_iff u)

end Sys2Proof.Machine
end

