-- ==== Sys2Proof/Proofs/ChamberStates.lean ====
section
/-! PROOFS. O47: READY_HEAT, PARKED and the cut of a zone as commands. -/

namespace Sys2Proof.Machine
open Sys2Proof

/-! ## The tests of standstill and demand (R133, R134) -/

/-- The station stands and the line does not ask it to run (R133). -/
abbrev State.idles (s : State) : Prop := s.gov.vA = 0 ∧ s.lineDemand = false

theorem idles_iff (s : State) : (s.gov.vA == 0 && !s.lineDemand) = true ↔ s.idles := by simp [State.idles]

/-- READY_HEAT under way, or with line demand, runs no park timer. -/
theorem parkTest_of_not_idles {s : State} (hc : s.heat.chamber = .readyHeat) (h : ¬ s.idles) :
    parkTest s = s.withHeat { s.heat with parkTimer := none } := by
  rw [parkTest, if_pos hc, if_neg (by rwa [idles_iff])]

theorem parkTest_of_idles {s : State} (hc : s.heat.chamber = .readyHeat) (h : s.idles) (ht : s.heat.parkTimer = none) :
    parkTest s = if s.cfg.setter.parkTime = 0 then setChamber .parked s
      else s.withHeat { s.heat with parkTimer := some s.cfg.setter.parkTime } := by
  rw [parkTest, if_pos hc, if_pos ((idles_iff s).2 h), if_neg (by simp [running, ht])]

/-- The chamber rests: neither test moves it. -/
structure ChamberRests (s : State) : Prop where
  park : parkTest s = s
  demand : demandTest s = s

theorem ChamberRests.of_parked {s : State} (hc : s.heat.chamber = .parked) (hd : s.lineDemand = false) : ChamberRests s :=
  ⟨if_neg (by simp [hc]), if_neg (by simp [hd])⟩

theorem ChamberRests.of_readyHeat {s : State} (hc : s.heat.chamber = .readyHeat)
    (ht : s.idles ∧ s.heat.parkTimer.isSome = true ∨ ¬ s.idles ∧ s.heat.parkTimer = none) : ChamberRests s := by
  refine ⟨?_, if_neg (by simp [hc])⟩
  rcases ht with ⟨hi, ht⟩ | ⟨hi, ht⟩
  · rw [parkTest, if_pos hc, if_pos ((idles_iff s).2 hi), running, if_pos ht]
  · rw [parkTest_of_not_idles hc hi, ← ht]
    rfl

/-- A chamber that rests is as the command left it when the figures have been made again. -/
theorem ChamberRests.refresh {s : State} (h : ChamberRests s) :
    (refresh s).heat.chamber = s.heat.chamber ∧ (refresh s).heat.parkTimer = s.heat.parkTimer := by
  have hheat : (refreshHeat s).heat = s.heat ∨ (refreshHeat s).heat = (loadSetpoints s).heat := by
    unfold refreshHeat
    rw [h.park, h.demand]
    split
    · exact .inr (by simp)
    · exact .inl rfl
  rcases hheat with hheat | hheat <;> simp [Machine.refresh, hheat]

/-! ## The entry to READY_HEAT (R132, R133) -/

theorem enterReadyHeat_rests (s : State) : ChamberRests (enterReadyHeat s) ∧
    (enterReadyHeat s).heat.chamber = (if s.idles ∧ s.cfg.setter.parkTime = 0 then .parked else .readyHeat) ∧
    (s.cfg.setter.parkTime ≠ 0 →
      (enterReadyHeat s).heat.parkTimer = if s.idles then some s.cfg.setter.parkTime else none) := by
  have hc : (setChamber .readyHeat s).heat.chamber = .readyHeat := rfl
  unfold enterReadyHeat
  by_cases hi : s.idles
  · rw [parkTest_of_idles hc hi rfl]
    by_cases hp : s.cfg.setter.parkTime = 0
    · rw [if_pos (show (setChamber .readyHeat s).cfg.setter.parkTime = 0 from hp)]
      exact ⟨.of_parked rfl hi.2, (if_pos ⟨hi, hp⟩).symm, fun h => absurd hp h⟩
    · rw [if_neg (show (setChamber .readyHeat s).cfg.setter.parkTime ≠ 0 from hp)]
      exact ⟨.of_readyHeat rfl (.inl ⟨hi, rfl⟩), (if_neg fun h => hp h.2).symm, fun _ => (if_pos hi).symm⟩
  · rw [parkTest_of_not_idles hc hi]
    exact ⟨.of_readyHeat rfl (.inr ⟨hi, rfl⟩), (if_neg fun h => hi h.1).symm, fun _ => (if_neg hi).symm⟩

theorem exec_readyHeatEntry_due {s : State} (ho : s.operating = true) (hs : s.steady) (hc : s.heat.chamber = .warming)
    (hb : 200 ≤ s.heat.bandCount) :
    ∃ t, exec .readyHeatEntry s = .next t ∧ t.web = s.web ∧ t.heat.zones.length = s.heat.zones.length ∧
      t.heat.chamber =
        (if s.gov.vA = 0 ∧ s.lineDemand = false ∧ s.cfg.setter.parkTime = 0 then .parked else .readyHeat) ∧
      (s.cfg.setter.parkTime ≠ 0 →
        t.heat.parkTimer = (if s.gov.vA = 0 ∧ s.lineDemand = false then some s.cfg.setter.parkTime else none)) := by
  have hx : readyHeatTest s = enterReadyHeat s := if_pos ⟨hc, hb⟩
  have hend : conclude (enterReadyHeat s) = refresh (enterReadyHeat s) :=
    conclude_of_steady _ (steady_congr (by simp) (by simp) hs)
  obtain ⟨rests, chamber, timer⟩ := enterReadyHeat_rests s
  refine ⟨_, congrArg Host.Outcome.next (if_pos ho), ?_⟩
  rw [hx, hend]
  refine ⟨by simp, (refresh_figures _).zones_length.trans (by simp), (rests.refresh.1.trans chamber).trans ?_,
    fun h => rests.refresh.2.trans (timer h)⟩
  simp only [State.idles, and_assoc]

/-! ## The park timer (R133) -/

theorem exec_parkTimerExpiry_due {s : State} (ho : s.operating = true) (hs : s.steady) (hc : s.heat.chamber = .readyHeat)
    (ht : s.heat.parkTimer.isSome = true) (hd : s.lineDemand = false) :
    ∃ t, exec .parkTimerExpiry s = .next t ∧ t.heat.chamber = .parked ∧ t.heat.parkTimer = none ∧ t.web = s.web ∧
      (s.is .setter = true → ∀ z ∈ t.heat.zones, z.sp = s.cfg.setter.parkSp) := by
  have hx : parkExpiry s = setChamber .parked s := if_pos ⟨hc, ht⟩
  have hend : conclude (setChamber .parked s) = refresh (setChamber .parked s) :=
    conclude_of_steady _ (steady_congr (by simp) (by simp) hs)
  have rests : ChamberRests (setChamber .parked s) := .of_parked rfl hd
  refine ⟨_, congrArg Host.Outcome.next (if_pos ho), ?_⟩
  rw [hx, hend]
  refine ⟨rests.refresh.1, rests.refresh.2, by simp, fun hset z hz => ?_⟩
  obtain ⟨i, hi, rfl⟩ := List.getElem_of_mem hz
  have hsp := refresh_setpoints (s := setChamber .parked s) hset ho i hi
  rw [State.zone, List.getD_eq_getElem _ _ hi] at hsp
  rw [hsp, State.setpoint, rests.refresh.1]
  exact congrArg (fun i : Image => i.setter.parkSp) (cfg_of_image (by simp))

/-! ## The cut of a zone (R139) -/

theorem cutZone_zones (z : Nat) (s : State) : (cutZone z s).heat.zones =
    (setZone z { s.zone z with cut := true, valve := 0, overCount := 0 } s).heat.zones := by simp [cutZone]

theorem exec_zoneCut_due {s : State} {z : Fin 4} (ho : s.operating = true) (hs : s.steady) (hz : z.val < s.heat.zones.length)
    (hc : (s.zone z).cut = false) (hf : s.cfg.setter.cutFilter ≤ (s.zone z).overCount) :
    ∃ t, exec (.zoneCut z) s = .next t ∧ (t.zone z).cut = true ∧ (t.zone z).valve = 0 ∧ (t.zone z).overCount = 0 ∧
      Cond.zoneCut z ∈ t.cond.flags ∧ t.web = s.web ∧
      ∀ y, y ≠ z.val → (t.zone y).cut = (s.zone y).cut ∧ (t.zone y).valve = (s.zone y).valve := by
  have hx : cutTest z s = cutZone z s := if_pos ⟨hz, hc, hf⟩
  obtain ⟨t, ht, hfig⟩ := operate_figures (f := cutTest z) ho hs (by rw [hx]; simp) (by rw [hx]; simp)
  rw [hx] at hfig
  refine ⟨t, ht, ?_⟩
  have own := hfig.zone z
  rw [zone_congr (cutZone_zones ..), zone_setZone_same hz] at own
  refine ⟨by rw [own], by rw [own], by rw [own], (hfig.flags (.zoneCut z) (by simp)).2 (by simp [cutZone]),
    hfig.web.trans (by simp), fun y hy => ?_⟩
  have other := hfig.zone y
  rw [zone_congr (cutZone_zones ..), zone_setZone_other hy] at other
  exact ⟨by rw [other], by rw [other]⟩

/-! ## The obligation -/

/-- Settles O47: each transition under its condition, and nothing where the condition does not stand. -/
theorem chamberTransitions : Obligations.ChamberTransitions := by
  intro s ho hs
  refine ⟨exec_readyHeatEntry_due ho hs, fun h => operate_nothing ho hs (if_neg ?_), exec_parkTimerExpiry_due ho hs,
    fun h => operate_nothing ho hs (if_neg ?_), fun z hz hc hf => exec_zoneCut_due ho hs hz hc hf,
    fun z h => operate_nothing ho hs (if_neg ?_)⟩
  · rintro ⟨hc, hb⟩
    rcases h with h | h
    · exact h hc
    · omega
  · rintro ⟨hc, ht⟩
    rcases h with h | h
    · exact h hc
    · simp [running, h] at ht
  · rintro ⟨hz, hc, hf⟩
    rcases h with h | h | h
    · omega
    · simp [hc] at h
    · omega

end Sys2Proof.Machine
end

