-- ==== Sys2Proof/Proofs/HeatControl.lean ====
section
/-! PROOFS. O48: a zone at a control boundary, computed from the state the boundary finds. -/

namespace Sys2Proof.Machine
open Sys2Proof

/-! ## The table of the zones under a boundary -/

theorem setZone_twice (z : Nat) (x y : Zone) (s : State) : setZone z y (setZone z x s) = setZone z y s := by
  simp [setZone]

theorem setZone_self (z : Nat) (s : State) : setZone z (s.zone z) s = s := by
  have hl : s.heat.zones.set z (s.zone z) = s.heat.zones := by
    by_cases hz : z < s.heat.zones.length
    · simp [State.zone, hz]
    · exact List.set_eq_of_length_le (Nat.not_lt.1 hz)
  rw [setZone, hl]
  rfl

theorem setZone_of_length_le {z : Nat} {s : State} (h : s.heat.zones.length ≤ z) (x : Zone) : setZone z x s = s := by
  rw [setZone, List.set_eq_of_length_le h]
  rfl

/-! ## One zone (R136 to R140) -/

/-- A cut zone of this setpoint is restored: in CYCLE mode, at or below its limit less 30 dK (R140). -/
def State.restores (s : State) (z : Nat) (sp : Int) : Bool :=
  match s.zoneTemp z with
  | some t => !s.cfg.setter.latchMode && t ≤ s.overLimit sp - 30
  | none => false

theorem restores_iff {s : State} {z : Nat} {sp : Int} : s.restores z sp = true ↔ s.cfg.setter.latchMode = false ∧
    ∃ t, s.zoneTemp z = some t ∧ t ≤ min (sp + s.cfg.setter.cutMargin) 1750 - 30 := by
  unfold State.restores
  cases s.zoneTemp z with
  | none => simp
  | some t =>
    rw [Bool.and_eq_true, decide_eq_true_iff]
    simp [State.overLimit]

/-- A zone at a control boundary before its output is computed: its effective setpoint loaded, its cut restored. -/
def State.readied (s : State) (z : Nat) (x : Zone) : Zone :=
  { x with spEff := s.effectiveSetpoint x.sp, cut := x.cut && !s.restores z x.sp }

/-- A zone after a control boundary. -/
def State.controlled (s : State) (z : Nat) (x : Zone) : Zone :=
  let y := s.readied z x
  match s.zoneTemp z with
  | none => { y with output := 0, valve := 0 }
  | some t =>
    if s.mode == .tripped || !s.gov.driveEnable || y.cut then { y with output := 0, valve := 0 }
    else y.control s.cfg.setter.kp s.cfg.setter.ki t

theorem restoreZone_eq (z : Nat) (s : State) :
    restoreZone z s = setZone z { s.zone z with cut := (s.zone z).cut && !s.restores z (s.zone z).sp } s := by
  by_cases h : (s.zone z).cut = true ∧ s.restores z (s.zone z).sp = true
  · obtain ⟨hc, hr⟩ := h
    unfold restoreZone
    unfold State.restores at hr ⊢
    cases ht : s.zoneTemp z with
    | none => simp [ht] at hr
    | some t =>
      simp only [ht, Bool.and_eq_true, Bool.not_eq_true', decide_eq_true_eq] at hr
      simp [hc, hr]
  · have hkeep : ((s.zone z).cut && !s.restores z (s.zone z).sp) = (s.zone z).cut := by
      cases hc : (s.zone z).cut <;> simp_all
    rw [hkeep]
    refine Eq.trans ?_ (setZone_self z s).symm
    unfold restoreZone
    dsimp only
    split
    · rename_i t ht
      refine if_neg fun hr => h ?_
      simp only [Bool.and_eq_true, Bool.not_eq_true', decide_eq_true_eq] at hr
      obtain ⟨⟨hc, hl⟩, hle⟩ := hr
      exact ⟨hc, by simp [State.restores, ht, hl, hle]⟩
    · rfl

/-- The control of a zone loads its record alone, from figures that none of the zones' records carry. -/
theorem controlZone_eq (z : Nat) (s : State) : controlZone z s = setZone z (s.controlled z (s.zone z)) s := by
  by_cases hz : z < s.heat.zones.length
  · generalize hx : s.zone z = x
    have hu : restoreZone z (setZone z { x with spEff := s.effectiveSetpoint x.sp } s) = setZone z (s.readied z x) s := by
      rw [restoreZone_eq, zone_setZone_same hz, setZone_twice]
      rfl
    unfold controlZone
    dsimp only
    rw [hx, hu, zone_setZone_same hz, zoneTemp_congr (s := s) (by simp)]
    have hheld (t : Int) (ht : s.zoneTemp z = some t) : (setZone z (s.readied z x) s).valveHeld z =
        (s.mode == .tripped || !s.gov.driveEnable || (s.readied z x).cut) := by
      have hcut : ((setZone z (s.readied z x) s).heat.zones.getD z {}).cut = (s.readied z x).cut :=
        congrArg Zone.cut (zone_setZone_same hz _)
      rw [State.valveHeld, hcut, zoneTemp_congr (s := s) (by simp), ht]
      simp [State.mode]
    unfold State.controlled
    cases ht : s.zoneTemp z with
    | none => exact setZone_twice ..
    | some t =>
      dsimp only
      rw [hheld t ht]
      split <;> exact setZone_twice ..
  · have hle := Nat.not_lt.1 hz
    rw [setZone_of_length_le hle]
    unfold controlZone
    simp only [setZone_of_length_le hle, restoreZone_eq, ite_self]
    split <;> rfl

/-- A zone after every zone has been controlled: as its own control makes it of the state at the boundary. -/
theorem controlZones_zone {z : Nat} {s : State} (hz : z < s.cfg.setter.zones) (hlen : z < s.heat.zones.length) :
    (controlZones s).zone z = s.controlled z (s.zone z) := by
  refine foldl_own (get := fun t : State => t.zone z) (upd := s.controlled z)
    (P := fun t => ∃ l, l.length = s.heat.zones.length ∧ t = s.withHeat { s.heat with zones := l })
    (fun t m h => ?_) (fun t m h => ?_) (fun t h => ?_) List.nodup_range (List.mem_range.2 hz) ⟨_, rfl, rfl⟩
  · obtain ⟨l, hl, rfl⟩ := h
    rw [controlZone_eq]
    exact ⟨_, by simpa using hl, rfl⟩
  · rw [controlZone_eq]
    exact zone_setZone_other h ..
  · obtain ⟨l, hl, rfl⟩ := h
    rw [controlZone_eq]
    exact zone_setZone_same (hl ▸ hlen) _

/-! ## What the control computes (R136 to R141) -/

theorem controlled_spEff (s : State) (z : Nat) (x : Zone) : (s.controlled z x).spEff = s.effectiveSetpoint x.sp := by
  unfold State.controlled
  dsimp only
  repeat' split
  all_goals rfl

theorem controlled_cut (s : State) (z : Nat) (x : Zone) : (s.controlled z x).cut = (x.cut && !s.restores z x.sp) := by
  unfold State.controlled
  dsimp only
  repeat' split
  all_goals rfl

/-- A zone held off gives 0 and keeps its integral (R138). -/
theorem controlled_held {s : State} {z : Nat} {x : Zone} (h : s.mode = .tripped ∨ s.gov.driveEnable = false ∨
      s.zoneTemp z = none ∨ (s.controlled z x).cut = true) :
    (s.controlled z x).output = 0 ∧ (s.controlled z x).valve = 0 ∧ (s.controlled z x).integral = x.integral := by
  rw [controlled_cut] at h
  unfold State.controlled
  dsimp only
  split
  · exact ⟨rfl, rfl, rfl⟩
  · rename_i t ht
    rw [if_pos (by rcases h with h | h | h | h <;> simp_all [State.readied])]
    exact ⟨rfl, rfl, rfl⟩

/-- A zone that is not held off is controlled (R137). -/
theorem controlled_driven {s : State} {z : Nat} {x : Zone} {t : Int} (hm : s.mode ≠ .tripped)
    (hd : s.gov.driveEnable = true) (ht : s.zoneTemp z = some t) (hc : (s.controlled z x).cut = false) :
    s.controlled z x = (s.readied z x).control s.cfg.setter.kp s.cfg.setter.ki t := by
  rw [controlled_cut] at hc
  unfold State.controlled
  dsimp only
  rw [ht]
  exact if_neg (by simp [hm, hd, State.readied, hc])

/-- The output is P and the integral limited, and drives the valve; the integral stands at the limits of the output before
(R137). -/
theorem control_computes (x : Zone) (kp ki : Nat) (t : Int) :
    let e := x.spEff - t
    let still := (x.output = 1000 ∧ 0 < e) ∨ (x.output = 0 ∧ e < 0)
    (still → (x.control kp ki t).integral = x.integral) ∧
    (¬ still → ((x.control kp ki t).integral : Int) = max 0 (min 1000 (x.integral + Int.tdiv (ki * e) 64))) ∧
    ((x.control kp ki t).output : Int) = max 0 (min 1000 (Int.tdiv (kp * e) 64 + (x.control kp ki t).integral)) ∧
    (x.control kp ki t).valve = (x.control kp ki t).output := by
  intro e still
  have whole (i : Int) : ((limitInt 0 1000 i).toNat : Int) = max 0 (min 1000 i) :=
    Int.toNat_of_nonneg (Int.le_max_left ..)
  by_cases h : still
  · have hi : (x.control kp ki t).integral = x.integral := congrArg Int.toNat (if_pos h)
    refine ⟨fun _ => hi, fun hn => absurd h hn, ?_, rfl⟩
    rw [hi]
    exact (congrArg (fun i : Int => ((limitInt 0 1000 (Int.tdiv (kp * e) 64 + i)).toNat : Int)) (if_pos h)).trans (whole _)
  · have hi : ((x.control kp ki t).integral : Int) = max 0 (min 1000 (x.integral + Int.tdiv (ki * e) 64)) :=
      (congrArg (fun i : Int => (i.toNat : Int)) (if_neg h)).trans (whole _)
    refine ⟨fun hs => absurd hs h, fun _ => hi, ?_, rfl⟩
    rw [hi]
    exact (congrArg (fun i : Int => ((limitInt 0 1000 (Int.tdiv (kp * e) 64 + i)).toNat : Int)) (if_neg h)).trans (whole _)

/-! ## The obligation -/

/-- HEAT_CONTROL_BOUNDARY of a SETTER: every zone controlled, the timer started again (R136, R137). -/
theorem exec_heatControlBoundary_setter {s : State} (ho : s.operating = true) (hs : s.steady) (hset : s.is .setter = true)
    (ht : s.heat.heatTimer.isSome = true) : ∃ t, exec .heatControlBoundary s = .next t ∧ t.heat.heatTimer = some 200 ∧
      (∀ c, c ≠ Cond.speedFloor → (c ∈ t.cond.flags ↔ c ∈ s.cond.flags)) ∧
      ∀ z, z < s.cfg.setter.zones → z < s.heat.zones.length →
        t.zone z = { s.controlled z (s.zone z) with sp := (t.zone z).sp } := by
  have hx : heatBoundary s = (controlZones s).withHeat { (controlZones s).heat with heatTimer := some 200 } :=
    if_pos (by simp [hset, running, ht])
  obtain ⟨t, hexec, hfig⟩ := operate_figures (f := heatBoundary) ho hs (by rw [hx]; simp) (by rw [hx]; simp)
  rw [hx] at hfig
  refine ⟨t, hexec, (congrArg HeatUnit.heatTimer hfig.heat :), fun c hc => (hfig.flags c hc).trans (by simp), fun z hz hlen => ?_⟩
  rw [← controlZones_zone hz hlen]
  exact hfig.zone z

/-- Settles O48: at a boundary each zone is its own control of the state found (`controlZones_zone`), and making the figures again
moves no more of it than its setpoint. -/
theorem heatControlComputes : Obligations.HeatControlComputes := by
  refine ⟨fun s ho hs h => operate_nothing ho hs (if_neg ?_), fun s z ho hs hset ht hz hlen => ?_⟩
  · rcases h with h | h <;> simp [h, running]
  obtain ⟨t, hexec, htimer, hflags, hzones⟩ := exec_heatControlBoundary_setter ho hs hset ht
  have hzone := hzones z hz hlen
  have hout : (t.zone z).output = (s.controlled z (s.zone z)).output ∧ (t.zone z).valve = (s.controlled z (s.zone z)).valve ∧
      (t.zone z).integral = (s.controlled z (s.zone z)).integral := by
    rw [hzone]
    exact ⟨rfl, rfl, rfl⟩
  have hcut : (t.zone z).cut = (s.controlled z (s.zone z)).cut := by rw [hzone]
  have heff : (t.zone z).spEff = s.effectiveSetpoint (s.zone z).sp := by
    rw [hzone]
    exact controlled_spEff ..
  obtain ⟨houtput, hvalve, hintegral⟩ := hout
  refine ⟨t, hexec, htimer, heff, ?_, hflags _ (by simp), fun h => ?_, fun temp hm hd htemp hc => ?_⟩
  · rw [hcut, controlled_cut, ← restores_iff, Bool.and_eq_true, Bool.not_eq_true', Bool.not_eq_true]
  · rw [houtput, hvalve, hintegral]
    exact controlled_held (hcut ▸ h)
  · rw [houtput, hvalve, hintegral, heff, controlled_driven hm hd htemp (hcut ▸ hc)]
    exact control_computes (s.readied z (s.zone z)) _ _ temp

end Sys2Proof.Machine
end

