-- ==== Sys2Proof/Proofs/Recipes.lean ====
section
/-! PROOFS. O49: a RECIPE is loaded whole or not at all. -/

namespace Sys2Proof.Machine
open Sys2Proof

/-- Every field of a recipe lies in its range (R127). -/
theorem inRange_iff (r : Recipe) : r.inRange = true ↔
    (∀ p ∈ r.setpoints, -500 ≤ p ∧ p ≤ 1750) ∧ 1 ≤ r.doseMin ∧ r.doseMin < r.doseMax := by
  simp [Recipe.inRange, and_assoc]

theorem takeRecipe_legal {e : RxEntry} {s : State} (hs : s.is .setter = true)
    (hn : 1 ≤ fieldAt e.body 0 1 ∧ fieldAt e.body 0 1 ≤ 16) (hr : (readRecipe e.body).inRange = true) : takeRecipe e s =
      s.withHeat { s.heat with recipes := s.heat.recipes.set (fieldAt e.body 0 1 - 1) (some (readRecipe e.body)) } :=
  if_pos ⟨hs, hn.1, hn.2, hr⟩

theorem takeRecipe_illegal {e : RxEntry} {s : State}
    (h : ¬ ((1 ≤ fieldAt e.body 0 1 ∧ fieldAt e.body 0 1 ≤ 16) ∧ (readRecipe e.body).inRange = true)) : takeRecipe e s = s :=
  if_neg fun ⟨_, hlow, hhigh, hr⟩ => h ⟨⟨hlow, hhigh⟩, hr⟩

theorem takeRecipe_bus (e : RxEntry) (s : State) : (takeRecipe e s).bus = s.bus := by
  unfold takeRecipe
  dsimp only
  split <;> rfl

/-- Settles O49: the telegram is taken off the queue, its recipe loaded under its number when every field is in range, and the
command ends with its figures. -/
theorem recipeLoadedWhole : Obligations.RecipeLoadedWhole := by
  intro s e rest ho hset hrx hk number points legal
  have hlegal : legal ↔ (1 ≤ number ∧ number ≤ 16) ∧ (readRecipe e.body).inRange = true := 
    and_congr_right' (inRange_iff (readRecipe e.body)).symm
  refine ⟨_, operate_takeAs takeRecipe ho hrx hk, ?_, fun h => ?_, fun h => ?_⟩
  · have hrest : (takeRecipe e (s.freed rest)).bus.rx = rest := congrArg Bus.rx (takeRecipe_bus ..)
    simpa using hrest
  · obtain ⟨hn, hr⟩ := hlegal.1 h
    have hload := takeRecipe_legal (s := s.freed rest) hset hn hr
    have hrecipes : (conclude (takeRecipe e (s.freed rest))).heat.recipes =
        s.heat.recipes.set (number - 1) (some (readRecipe e.body)) := by
      rw [hload]
      simp [State.freed, number]
    refine ⟨hrecipes, fun hs => ?_⟩
    rw [hrecipes, hload]
    exact conclude_steady_figures (s := s) rfl rfl hs
  · rw [takeRecipe_illegal fun hn => h (hlegal.2 hn)]
    exact ⟨by simp [State.freed], conclude_steady_figures (s := s) rfl rfl⟩

end Sys2Proof.Machine
end
